-- ==== Sys2Proof/Word.lean ====
section
/-!
DEFINITION. Sys2Proof/Word.lean: the word types of the part (R10, R34).
-/

namespace Sys2Proof

/-- A byte, the smallest addressable unit (R10). -/
abbrev Byte := BitVec 8

/-- The contents of a general register (Table 02-1). -/
abbrev GWord := BitVec 64

/-- The contents of an address register; address arithmetic wraps modulo 2^72 (Table 02-1). -/
abbrev Addr := BitVec 72

/-- A word of the control stream (R114). -/
abbrev Word := BitVec 32

end Sys2Proof
end

