-- ==== Sys2Proof/Fields.lean ====
section
/-!
DEFINITION. Sys2Proof/Fields.lean: the field groups that the rows of one format share, and the operands of the
steps of the other agents.
-/

namespace Sys2Proof

/-- The 30-bit payload of a governing prefix, or none (R119). -/
abbrev Pfx := Option (BitVec 30)

/-- The fields of a tile instruction (Tables 06-11, 06-12) and its prefix. The opcode is the constructor. -/
structure TileFields where
  td : BitVec 5
  ta : BitVec 5
  tb : BitVec 5
  tc : BitVec 5
  md : BitVec 4
  gs : BitVec 5
  as : BitVec 4
  p : BitVec 3
  imm : BitVec 16
  pfx : Pfx
  deriving DecidableEq, Repr

/-- The fields of a lane word (Table 06-13): `k` is the field at bits [31:26], lc or k. -/
structure LaneFields where
  ld : BitVec 6
  la : BitVec 6
  lb : BitVec 6
  k : BitVec 6
  imm : BitVec 32
  deriving DecidableEq, Repr

/-- The words of a queue command (R324): W0 without its opcode, SEQ, and up to three extension words. -/
structure QueueCmd where
  flags : BitVec 8
  ev : BitVec 16
  opnd : BitVec 32
  seq : BitVec 64
  x0 : BitVec 64
  x1 : BitVec 64
  x2 : BitVec 64
  deriving DecidableEq, Repr

/-- A mailbox command written by the host: its sequence number and arguments (Table 22-2). -/
structure MailboxCmd where
  seq : BitVec 32
  arg0 : BitVec 64
  arg1 : BitVec 64
  deriving DecidableEq, Repr

/-- A request that arrives at a home slice from the host or from a peer device (R405, R408). -/
structure HostReq where
  /-- offset of the location in this part's address space -/
  off : Nat
  /-- access width in bytes, at most 64 -/
  width : Nat
  /-- true for a write or an atomic, false for a read -/
  write : Bool
  /-- R254 operation code of an atomic, none for a plain access -/
  op : Option (BitVec 4)
  data : BitVec 512
  cmp : BitVec 128
  /-- virtual function of the requester, 0 for the physical function -/
  fn : Nat
  deriving DecidableEq, Repr

/-- What the Reed check found when an entry retires (R382, R383). -/
inductive ReedOutcome where
  | clean
  | corrected
  | mismatch
  deriving DecidableEq, Repr

/-- What a copy strip met (R246, R247). -/
inductive StripOutcome where
  | done
  | uncorrectable
  | linkLost
  | targetFull
  deriving DecidableEq, Repr

/-- What an ECC check found (R380, R381). -/
inductive EccOutcome where
  | clean
  | correctable
  | uncorrectable
  deriving DecidableEq, Repr

/-- What the power controller measures at one tick (R419). -/
structure PowerSample where
  watts : Nat
  temp : Nat
  hbmTemp : Nat
  deriving DecidableEq, Repr

/-- The resets of R410. -/
inductive ResetKind where
  | powerOn
  | fundamental
  | hot
  deriving DecidableEq, Repr

end Sys2Proof
end

