-- ==== Sys2Proof/Syntax.lean ====
section
/-!
DEFINITION. Sys2Proof/Syntax.lean: the instructions and steps of the part, one constructor per row of
spec/opcode_table.json, in the table's order.
-/

namespace Sys2Proof

/-- An instruction of one of the part's three texts (R114, R116, R324), or a step of one of its other agents
(spec/95). A control constructor's arguments are its word's fields from the lowest bit up. -/
inductive Instr where
  -- Control stream (Tables 06-2 to 06-9; R139 to R159): the fields of the word, and the governing prefix (R119).
  | add (d : BitVec 5) (a : BitVec 5) (b : BitVec 5)
  | sub (d : BitVec 5) (a : BitVec 5) (b : BitVec 5)
  | mul (d : BitVec 5) (a : BitVec 5) (b : BitVec 5)
  | mulh (d : BitVec 5) (a : BitVec 5) (b : BitVec 5)
  | mulhn (d : BitVec 5) (a : BitVec 5) (b : BitVec 5)
  | div (d : BitVec 5) (a : BitVec 5) (b : BitVec 5)
  | divn (d : BitVec 5) (a : BitVec 5) (b : BitVec 5)
  | rem (d : BitVec 5) (a : BitVec 5) (b : BitVec 5)
  | remn (d : BitVec 5) (a : BitVec 5) (b : BitVec 5)
  | and (d : BitVec 5) (a : BitVec 5) (b : BitVec 5)
  | or (d : BitVec 5) (a : BitVec 5) (b : BitVec 5)
  | xor (d : BitVec 5) (a : BitVec 5) (b : BitVec 5)
  | andn (d : BitVec 5) (a : BitVec 5) (b : BitVec 5)
  | sll (d : BitVec 5) (a : BitVec 5) (b : BitVec 5)
  | srl (d : BitVec 5) (a : BitVec 5) (b : BitVec 5)
  | sra (d : BitVec 5) (a : BitVec 5) (b : BitVec 5)
  | min (d : BitVec 5) (a : BitVec 5) (b : BitVec 5)
  | max (d : BitVec 5) (a : BitVec 5) (b : BitVec 5)
  | minn (d : BitVec 5) (a : BitVec 5) (b : BitVec 5)
  | maxn (d : BitVec 5) (a : BitVec 5) (b : BitVec 5)
  | clz (d : BitVec 5) (a : BitVec 5)
  | ctz (d : BitVec 5) (a : BitVec 5)
  | popc (d : BitVec 5) (a : BitVec 5)
  | sext8 (d : BitVec 5) (a : BitVec 5)
  | sext16 (d : BitVec 5) (a : BitVec 5)
  | sext32 (d : BitVec 5) (a : BitVec 5)
  | cmp (d : BitVec 5) (a : BitVec 5) (b : BitVec 5) (r : BitVec 9)
  | sel (d : BitVec 5) (a : BitVec 5) (b : BitVec 5) (n : BitVec 3) (i : BitVec 1)
  | fadd (d : BitVec 5) (a : BitVec 5) (b : BitVec 5) (f : BitVec 1) (r : BitVec 3)
  | fsub (d : BitVec 5) (a : BitVec 5) (b : BitVec 5) (f : BitVec 1) (r : BitVec 3)
  | fmul (d : BitVec 5) (a : BitVec 5) (b : BitVec 5) (f : BitVec 1) (r : BitVec 3)
  | ffma (d : BitVec 5) (a : BitVec 5) (b : BitVec 5) (f : BitVec 1) (r : BitVec 3)
  | fdiv (d : BitVec 5) (a : BitVec 5) (b : BitVec 5) (f : BitVec 1) (r : BitVec 3)
  | fsqrt (d : BitVec 5) (a : BitVec 5) (f : BitVec 1) (r : BitVec 3)
  | fmin (d : BitVec 5) (a : BitVec 5) (b : BitVec 5) (f : BitVec 1)
  | fmax (d : BitVec 5) (a : BitVec 5) (b : BitVec 5) (f : BitVec 1)
  | fcvtF32F64 (d : BitVec 5) (a : BitVec 5) (r : BitVec 3)
  | fcvtF64F32 (d : BitVec 5) (a : BitVec 5)
  | fcvtS64 (d : BitVec 5) (a : BitVec 5) (f : BitVec 1) (r : BitVec 3)
  | fcvtN64 (d : BitVec 5) (a : BitVec 5) (f : BitVec 1) (r : BitVec 3)
  | fcvtFmtS64 (d : BitVec 5) (a : BitVec 5) (f : BitVec 1) (r : BitVec 3)
  | fcvtFmtN64 (d : BitVec 5) (a : BitVec 5) (f : BitVec 1) (r : BitVec 3)
  | fcmp (d : BitVec 5) (a : BitVec 5) (b : BitVec 5) (r : BitVec 3) (f : BitVec 1)
  | addi (d : BitVec 5) (a : BitVec 5) (i : BitVec 14) (x : Pfx)
  | andi (d : BitVec 5) (a : BitVec 5) (i : BitVec 14) (x : Pfx)
  | ori (d : BitVec 5) (a : BitVec 5) (i : BitVec 14) (x : Pfx)
  | xori (d : BitVec 5) (a : BitVec 5) (i : BitVec 14) (x : Pfx)
  | slli (d : BitVec 5) (a : BitVec 5) (i : BitVec 14) (x : Pfx)
  | srli (d : BitVec 5) (a : BitVec 5) (i : BitVec 14) (x : Pfx)
  | srai (d : BitVec 5) (a : BitVec 5) (i : BitVec 14) (x : Pfx)
  | cmpiEq (d : BitVec 5) (a : BitVec 5) (i : BitVec 14) (x : Pfx)
  | cmpiNe (d : BitVec 5) (a : BitVec 5) (i : BitVec 14) (x : Pfx)
  | cmpiLt (d : BitVec 5) (a : BitVec 5) (i : BitVec 14) (x : Pfx)
  | cmpiLe (d : BitVec 5) (a : BitVec 5) (i : BitVec 14) (x : Pfx)
  | cmpiGt (d : BitVec 5) (a : BitVec 5) (i : BitVec 14) (x : Pfx)
  | cmpiGe (d : BitVec 5) (a : BitVec 5) (i : BitVec 14) (x : Pfx)
  | cmpiLtn (d : BitVec 5) (a : BitVec 5) (i : BitVec 14) (x : Pfx)
  | cmpiGen (d : BitVec 5) (a : BitVec 5) (i : BitVec 14) (x : Pfx)
  | lui (d : BitVec 5) (i : BitVec 19) (x : Pfx)
  | li (d : BitVec 5) (i : BitVec 19) (x : Pfx)
  | aadd (d : BitVec 4) (a : BitVec 4) (g : BitVec 5) (s : BitVec 3)
  | asub (d : BitVec 4) (a : BitVec 4) (g : BitVec 5) (s : BitVec 3)
  | amovg (d : BitVec 4) (g : BitVec 5)
  | amovh (a : BitVec 4) (g : BitVec 5)
  | gmova (a : BitVec 4) (g : BitVec 5)
  | ahi (d : BitVec 4) (a : BitVec 4) (g : BitVec 5)
  | acmp (d : BitVec 4) (a : BitVec 4) (b : BitVec 5) (r : BitVec 3)
  | aaddi (d : BitVec 5) (a : BitVec 5) (i : BitVec 14) (x : Pfx)
  | br (d : BitVec 24) (x : Pfx)
  | brp (p : BitVec 3) (n : BitVec 1) (d : BitVec 20) (x : Pfx)
  | loop (g : BitVec 5) (i : BitVec 19) (x : Pfx)
  | call (d : BitVec 24) (x : Pfx)
  | calli (a : BitVec 5)
  | jmpi (a : BitVec 5)
  | ret
  | land
  | ld (g : BitVec 5) (a : BitVec 4) (s : BitVec 2) (o : BitVec 13) (x : Pfx)
  | ldS (g : BitVec 5) (a : BitVec 4) (s : BitVec 2) (o : BitVec 13) (x : Pfx)
  | st (g : BitVec 5) (a : BitVec 4) (s : BitVec 2) (o : BitVec 13) (x : Pfx)
  | lda (g : BitVec 5) (a : BitVec 4) (o : BitVec 13) (x : Pfx)
  | sta (g : BitVec 5) (a : BitVec 4) (o : BitVec 13) (x : Pfx)
  | pref (h : BitVec 5) (a : BitVec 4) (s : BitVec 2) (o : BitVec 13) (x : Pfx)
  | csrr (g : BitVec 5) (c : BitVec 12)
  | csrw (g : BitVec 5) (c : BitVec 12)
  | csrs (g : BitVec 5) (c : BitVec 12)
  | csrc (g : BitVec 5) (c : BitVec 12)
  | trap (i : BitVec 19) (x : Pfx)
  | brk (i : BitVec 19) (x : Pfx)
  | nop
  | endUnit
  | eret
  | tlbi (a : BitVec 5) (b : BitVec 5) (k : BitVec 2) (s : BitVec 3)
  | icinv (a : BitVec 5) (b : BitVec 5) (s : BitVec 3)
  | cpatch (a : BitVec 5) (b : BitVec 5) (s : BitVec 3) (w : BitVec 1)
  | ctxsave (d : BitVec 5) (a : BitVec 5) (b : BitVec 5)
  | ctxload (d : BitVec 5) (a : BitVec 5) (b : BitVec 5)
  | tkadm (d : BitVec 5) (a : BitVec 5) (b : BitVec 5) (o : BitVec 3)
  -- Tile stream (Tables 06-11, 06-12, 08-1, 10-1, 11-1).
  | tshape (f : TileFields)
  | tshapeKeep (f : TileFields)
  | tview (f : TileFields)
  | tfree (f : TileFields)
  | setx (f : TileFields)
  | tseq (f : TileFields)
  | tfill (f : TileFields)
  | tmov (f : TileFields)
  | ttr (f : TileFields)
  | tadd (f : TileFields)
  | tsub (f : TileFields)
  | tmul (f : TileFields)
  | tdiv (f : TileFields)
  | tmin (f : TileFields)
  | tmax (f : TileFields)
  | tabs (f : TileFields)
  | tneg (f : TileFields)
  | tfma (f : TileFields)
  | trcp (f : TileFields)
  | trsqrt (f : TileFields)
  | tsqrt (f : TileFields)
  | texp2 (f : TileFields)
  | tlog2 (f : TileFields)
  | ttanh (f : TileFields)
  | trem (f : TileFields)
  | tand (f : TileFields)
  | tor (f : TileFields)
  | txor (f : TileFields)
  | tandn (f : TileFields)
  | tsll (f : TileFields)
  | tsrl (f : TileFields)
  | tsra (f : TileFields)
  | tmulh (f : TileFields)
  | tcmp (f : TileFields)
  | tsel (f : TileFields)
  | tcvt (f : TileFields)
  | tquant (f : TileFields)
  | tdequant (f : TileFields)
  | tred (f : TileFields)
  | tscan (f : TileFields)
  | tperm (f : TileFields)
  | tslide (f : TileFields)
  | tbcast (f : TileFields)
  | txchg (f : TileFields)
  | map (f : TileFields)
  | mapred (f : TileFields)
  | momu (f : TileFields)
  | mma (f : TileFields)
  | mmas (f : TileFields)
  | mmsp (f : TileFields)
  | mmb (f : TileFields)
  | mzero (f : TileFields)
  | mfill (f : TileFields)
  | mdrain (f : TileFields)
  | mrow (f : TileFields)
  | mcol (f : TileFields)
  | tld (f : TileFields)
  | tst (f : TileFields)
  | tstNfz (f : TileFields)
  | tldg (f : TileFields)
  | tstg (f : TileFields)
  | tldm (f : TileFields)
  | csld (f : TileFields)
  | csst (f : TileFields)
  | cpy (f : TileFields)
  | cpyw (f : TileFields)
  | cpyc (f : TileFields)
  | cpyq (f : TileFields)
  | send (f : TileFields)
  | recv (f : TileFields)
  | tatom (f : TileFields)
  | cbar (f : TileFields)
  | fence (f : TileFields)
  | atom (f : TileFields)
  | evsig (f : TileFields)
  | evwait (f : TileFields)
  | evquery (f : TileFields)
  | futrd (f : TileFields)
  | futwr (f : TileFields)
  | tklend (f : TileFields)
  | tkret (f : TileFields)
  | tksplit (f : TileFields)
  | tkjoin (f : TileFields)
  | tkshare (f : TileFields)
  | tkunshare (f : TileFields)
  | tkquery (f : TileFields)
  -- Lane words (Table 06-13; R199 to R206).
  | lfadd (f : LaneFields)
  | lfsub (f : LaneFields)
  | lfmul (f : LaneFields)
  | lffma (f : LaneFields)
  | lfmin (f : LaneFields)
  | lfmax (f : LaneFields)
  | lfabs (f : LaneFields)
  | lfneg (f : LaneFields)
  | lfcmp (f : LaneFields)
  | lrcp (f : LaneFields)
  | lrsqrt (f : LaneFields)
  | lsqrt (f : LaneFields)
  | lexp2 (f : LaneFields)
  | llog2 (f : LaneFields)
  | ltanh (f : LaneFields)
  | liadd (f : LaneFields)
  | lisub (f : LaneFields)
  | limul (f : LaneFields)
  | limulh (f : LaneFields)
  | lmin (f : LaneFields)
  | lmax (f : LaneFields)
  | lminn (f : LaneFields)
  | lmaxn (f : LaneFields)
  | lband (f : LaneFields)
  | lbor (f : LaneFields)
  | lbxor (f : LaneFields)
  | lsll (f : LaneFields)
  | lsrl (f : LaneFields)
  | lsra (f : LaneFields)
  | licmp (f : LaneFields)
  | lcvt (f : LaneFields)
  | lmov (f : LaneFields)
  | lmovi (f : LaneFields)
  | lsel (f : LaneFields)
  | lkop (f : LaneFields)
  | ldadd (f : LaneFields)
  | ldsub (f : LaneFields)
  | ldmul (f : LaneFields)
  | ldfma (f : LaneFields)
  | ldcmp (f : LaneFields)
  | lrd (f : LaneFields)
  | lwr (f : LaneFields)
  | lidx (f : LaneFields)
  | lacc (f : LaneFields)
  | lnext (f : LaneFields)
  | lstop (f : LaneFields)
  -- Queue commands (Table 17-5).
  | qlaunch (c : QueueCmd)
  | qcopy (c : QueueCmd)
  | qwait (c : QueueCmd)
  | qsig (c : QueueCmd)
  | qintr (c : QueueCmd)
  | qfence (c : QueueCmd)
  | qbr (c : QueueCmd)
  | qjump (c : QueueCmd)
  | qstage (c : QueueCmd)
  | qlend (c : QueueCmd)
  | qlendRet (c : QueueCmd)
  | qmark (c : QueueCmd)
  | qnop (c : QueueCmd)
  | qend (c : QueueCmd)
  -- Events and register writes of the other agents of the part.
  | tail (q : Nat) (v : BitVec 64)
  | stop (q : Nat) (v : BitVec 64)
  | resume (q : Nat) (v : BitVec 64)
  | skip (q : Nat) (v : BitVec 64)
  | cancel (q : Nat) (v : BitVec 64)
  | hostSignal (q : Nat) (evn : BitVec 16) (inc : BitVec 64)
  | queueEnable (q : Nat)
  | boot (c : MailboxCmd)
  | attest (c : MailboxCmd)
  | getcert (c : MailboxCmd)
  | setcap (c : MailboxCmd)
  | mailboxCsrr (c : MailboxCmd)
  | mailboxCsrw (c : MailboxCmd)
  | mailboxTkadm (c : MailboxCmd)
  | trate (m : Nat) (v : BitVec 64)
  | moduleOff (m : Nat)
  | moduleOffReturn (m : Nat)
  | tscWrite (v : BitVec 64)
  | fqctl (d : Nat) (v : BitVec 64)
  | fqhead (d : Nat) (v : BitVec 64)
  | registerWrite (pa : Nat) (v : BitVec 64)
  | hostAtomic (r : HostReq)
  | hostCas128 (r : HostReq)
  | hostAccess (r : HostReq)
  | issue (n : Nat) (replays : Nat)
  | scalarReturn (n : Nat)
  | accessComplete (n : Nat)
  | retire (reed : ReedOutcome)
  | decodeTrap
  | contextStop
  | preemptionRequest (c : Nat)
  | preemptionStop
  | deschedule (l : Nat) (g : Nat)
  | priorityPreemption (l : Nat) (g : Nat)
  | dispatch (l : Nat) (g : Nat)
  | contextResume (c : Nat)
  | exchangeDelivery (c : Nat)
  | copyStrip (c : Nat) (k : Nat) (strip : Nat) (outcome : StripOutcome)
  | stripSteal (c : Nat) (k : Nat) (strip : Nat) (thief : Nat)
  | mergeRequest (c : Nat)
  | mergeWindowExpiry (m : Nat)
  | tokenAccept (t : Nat)
  | shootdownAck (agent : Nat)
  | contextLost (c : Nat)
  | sliceAdmit (k : Nat)
  | sliceFill (k : Nat)
  | stagingStrip (k : Nat) (strip : Nat)
  | stageDeadline (l : Nat) (g : Nat)
  | sequencerSwitch (n : Nat) (q : Nat)
  | flitDelivery (m : Nat) (d : Nat)
  | flitCrcError (m : Nat) (d : Nat)
  | replayWindowClose (m : Nat) (d : Nat)
  | steeringDrain (h : Nat)
  | trainingComplete (m : Nat) (ok : Bool)
  | laneRetirement (m : Nat) (d : Nat) (lane : Nat)
  | mainbandLoss (m : Nat)
  | loomLaneLoss (p : Nat) (width : Nat)
  | pcieLinkEvent (detail : BitVec 64)
  | patrolScrub (pa : Nat) (e : EccOutcome)
  | powerControlTick (d : PowerSample)
  | supplyOverdraw (watts : Nat)
  | powerLoss
  | reset (k : ResetKind)
  | romInit
  | fwInit (ok : Bool)
  | vfFlr (vf : Nat)
  | pfFlr
  | peerRequest (r : HostReq)
  | loomPortTrained (p : Nat) (peer : BitVec 8)
  deriving DecidableEq, Repr

end Sys2Proof
end

