-- ==== Sys2Proof/WellFormed.lean ====
section
/-!
DEFINITION. Sys2Proof/WellFormed.lean: which instructions the part's encodings admit: the reserved-field and
field-value checks of Table 06-14 (steps 3, 6 and 7), of Table 09-1 and of R325, row by row.
-/

namespace Sys2Proof

/-- Which check of Table 06-14 an instruction's fields fail: an unassigned fn (step 3), a non-zero reserved field
(step 6), a field value out of range (step 7). -/
inductive Illegal where
  | unassigned
  | reserved
  | value
  deriving DecidableEq, Repr

/-- The first check that fails, reserved fields before values (Table 06-14). -/
def Illegal.first (reserved value : Bool) : Option Illegal :=
  if reserved then some .reserved else if value then some .value else none

/-! ## Format codes (Table 03-1) -/

namespace FmtCode
def isFloat (c : BitVec 5) : Bool := c.toNat < 4
def isInt (c : BitVec 5) : Bool := (9 ≤ c.toNat && c.toNat ≤ 15) || c.toNat == 0x14 || c.toNat == 0x15
def isMask (c : BitVec 5) : Bool := c.toNat == 0x13
def isScale (c : BitVec 5) : Bool := c.toNat == 0x10 || c.toNat == 0x11
/-- 8-, 6- and 4-bit float formats. -/
def isSmallFloat (c : BitVec 5) : Bool := 4 ≤ c.toNat && c.toNat ≤ 8
def isAssigned (c : BitVec 5) : Bool := c.toNat < 0x16
/-- Formats a block-scaled tile may hold (R41, item 7). -/
def isScalable (c : BitVec 5) : Bool := isSmallFloat c || (0x0C ≤ c.toNat && c.toNat ≤ 0x0F)
/-- The narrowing float conversions that accept error feedback (R61). -/
def efNarrowing (src dst : BitVec 5) : Bool :=
  match src.toNat with
  | 0 => isFloat dst || isSmallFloat dst
  | 1 => (isFloat dst || isSmallFloat dst) && dst.toNat != 0
  | 2 => dst.toNat == 3 || isSmallFloat dst
  | 3 => dst.toNat == 2 || isSmallFloat dst
  | _ => false
end FmtCode

/-! ## Tile fields (R124, R160) -/

namespace TileFields
def rm (f : TileFields) : BitVec 3 := f.md.extractLsb' 0 3
def sat (f : TileFields) : Bool := f.md.getLsbD 3
def fmt1 (f : TileFields) : BitVec 5 := f.imm.extractLsb' 0 5
def fmt2 (f : TileFields) : BitVec 5 := f.imm.extractLsb' 5 5
/-- Bit [58], S of the elementwise rows and of mfill. -/
def sBit (f : TileFields) : Bool := f.imm.getLsbD 10
def payload (f : TileFields) : BitVec 30 := f.pfx.getD 0
def ext (f : TileFields) : BitVec 16 := f.payload.extractLsb' 0 16
def xt (f : TileFields) : BitVec 5 := f.payload.extractLsb' 16 5
def negp (f : TileFields) : Bool := f.payload.getLsbD 21
def xf8 (f : TileFields) : BitVec 8 := f.payload.extractLsb' 22 8
def dir (f : TileFields) : BitVec 2 := f.imm.extractLsb' 10 2
def redOp (f : TileFields) : BitVec 3 := f.imm.extractLsb' 12 3
def rel (f : TileFields) : BitVec 3 := f.imm.extractLsb' 11 3
def acc (f : TileFields) : BitVec 2 := f.md.extractLsb' 0 2
def drain (f : TileFields) : Bool := f.md.getLsbD 2
def drm (f : TileFields) : BitVec 3 := f.imm.extractLsb' 12 3
def scope (f : TileFields) : BitVec 3 := f.xf8.extractLsb' 0 3
def order (f : TileFields) : BitVec 3 := f.xf8.extractLsb' 3 3
/-- The signed byte offset: imm16, with the prefix's extension above it (R120). -/
def offset (f : TileFields) : Int :=
  match f.pfx with
  | none => f.imm.toInt
  | some x => (x.extractLsb' 0 16 ++ f.imm).toInt
/-- The atomic's signed byte offset OFF12, with the prefix's extension above it (R255). -/
def offset12 (f : TileFields) : Int :=
  match f.pfx with
  | none => (f.imm.extractLsb' 4 12).toInt
  | some x => (x.extractLsb' 0 16 ++ f.imm.extractLsb' 4 12).toInt
/-- The shape word of a form with F = 1 (Table 08-1). -/
def shapeImm (f : TileFields) : BitVec 39 := f.xf8.extractLsb' 0 7 ++ (f.ext ++ f.imm)
end TileFields

/-- Which fields of the tile format a row uses: the rest are reserved (R124). `xm` is the payload bits it uses
beside NEGP (R120). -/
structure TileUse where
  td : Bool := false
  ta : Bool := false
  tb : Bool := false
  tc : Bool := false
  gs : Bool := false
  as : Bool := false
  md : BitVec 4 := 0
  imm : BitVec 16 := 0
  xm : BitVec 30 := 0

/-- A reserved field of a tile instruction is non-zero. -/
def TileUse.bad (u : TileUse) (f : TileFields) : Bool :=
  (!u.td && f.td != 0) || (!u.ta && f.ta != 0) || (!u.tb && f.tb != 0) || (!u.tc && f.tc != 0)
  || (!u.gs && f.gs != 0) || (!u.as && f.as != 0)
  || (f.md &&& ~~~u.md) != 0 || (f.imm &&& ~~~u.imm) != 0
  || (f.payload &&& ~~~(u.xm ||| 0x200000#30)) != 0

/-- Payload bits of an immediate extension, XT and XF8 (R120). -/
def xExt : BitVec 30 := 0xFFFF#30
def xXt : BitVec 30 := 0x1F0000#30
def xXf8 : BitVec 30 := 0x3FC00000#30

/-- The name is not that of an accumulator (R124). -/
def notM (r : BitVec 5) : Bool := decide (4 ≤ r.toNat)

namespace TileFields
open FmtCode

/-- tshape and tview: F = 1 takes the shape word from the immediate fields (Table 08-1). -/
def shapeIllegal (keep ta : Bool) (f : TileFields) : Option Illegal :=
  let fBit := f.md.getLsbD 1
  Illegal.first
    (TileUse.bad { td := true, ta := ta, gs := !fBit, md := if keep then 3 else 2,
                   imm := if fBit then 0xFFFF else 0,
                   xm := if fBit then xExt ||| 0x1FC00000#30 else 0 } f) false

/-- The elementwise family (Table 08-3): `fl`, `int`, `msk` the format classes admitted, `rmF` whether RM is used
for floats, `satF`, `satI` whether .sat is admitted for floats and integers. -/
def elemIllegal (unary tc fl int msk rmF satF satI : Bool) (f : TileFields) : Option Illegal :=
  let s := f.sBit
  let fmtOk := (fl && isFloat f.fmt1) || (int && isInt f.fmt1) || (msk && isMask f.fmt1)
  Illegal.first
    (TileUse.bad { td := true, ta := true, tb := !unary && !s, tc := tc, gs := !unary && s, md := 0xF,
                   imm := if unary then 0x1F else 0x41F } f)
    (!fmtOk || (if isFloat f.fmt1 && rmF then decide (5 ≤ f.rm.toNat) else f.rm != 0)
      || (f.sat && !(if isFloat f.fmt1 then satF else satI)))

/-- The transcendental rows (R176): `all` when RM 0 to 4 are accepted. -/
def transIllegal (all : Bool) (f : TileFields) : Option Illegal :=
  Illegal.first (TileUse.bad { td := true, ta := true, md := 7, imm := 0x1F } f)
    (!(1 ≤ f.fmt1.toNat && f.fmt1.toNat ≤ 3) || (if all then decide (5 ≤ f.rm.toNat) else f.rm != 0))

/-- The format pairs of tred and tscan (R183). -/
def redPairOk (d s : BitVec 5) (op : BitVec 3) : Bool :=
  if op.toNat ≤ 2 then
    if isFloat d then
      s == d || (d.toNat ≤ 1 && (s.toNat == 2 || s.toNat == 3)) || (d.toNat == 0 && s.toNat == 1)
    else (d.toNat == 9 || d.toNat == 0xA || d.toNat == 0x14) && (isInt s || isMask s)
  else s == d && (isInt d || isMask d)

def redIllegal (imm : BitVec 16) (f : TileFields) : Option Illegal :=
  Illegal.first (TileUse.bad { td := true, ta := true, md := 0xF, imm := imm } f)
    (decide (6 ≤ f.redOp.toNat) || f.dir == 3 || !redPairOk f.fmt1 f.fmt2 f.redOp
      || (if isFloat f.fmt1 then decide (5 ≤ f.rm.toNat) else f.rm != 0)
      || (f.sat && f.redOp != 0))

/-- map and mapred (R190): NIN and OUT2 of Table 08-1. -/
def nin (f : TileFields) : BitVec 2 := f.imm.extractLsb' 0 2
def out2 (f : TileFields) : Bool := f.imm.getLsbD 2
def mapDir (f : TileFields) : BitVec 2 := f.imm.extractLsb' 3 2
def mapOp (f : TileFields) : BitVec 3 := f.imm.extractLsb' 5 3

def mapIllegal (red : Bool) (f : TileFields) : Option Illegal :=
  Illegal.first
    (TileUse.bad { td := true, ta := true, tb := true, tc := true, gs := true, as := true,
                   imm := if red then 0xFF else 7, xm := if f.out2 then xXt else 0 } f)
    (f.nin == 0 || (f.nin.toNat < 2 && f.tb != 0) || (f.nin.toNat < 3 && f.tc != 0)
      || (red && (f.mapDir == 3 || decide (6 ≤ f.mapOp.toNat))))

/-- The row of Table 10-2 a format lies in, 0 for a format of no row. -/
def mmaRow (c : BitVec 5) : Nat :=
  match c.toNat with
  | 1 => 1 | 2 => 2 | 3 => 2 | 4 => 3 | 5 => 3 | 0xC => 4 | 0xD => 4
  | 6 => 5 | 7 => 5 | 8 => 5 | 0xE => 6 | 0xF => 6 | _ => 0

/-- The pairs of R216: one row, float rows 3 and 5, or integer rows 4 and 6. -/
def mmaPairOk (a b : BitVec 5) : Bool :=
  let r := mmaRow a
  let q := mmaRow b
  r != 0 && q != 0 &&
    (r == q || ((r == 3 || r == 5) && (q == 3 || q == 5)) || ((r == 4 || r == 6) && (q == 4 || q == 6)))

/-- Integer accumulation of a pair under mma and mmsp (Table 10-2). -/
def mmaInt (a : BitVec 5) : Bool := mmaRow a == 4 || mmaRow a == 6

/-- The product rows (R214): `ok` whether both formats are admitted, `int` whether accumulation is integer. -/
def productIllegal (imm : BitVec 16) (gsUse ok int : Bool) (f : TileFields) : Option Illegal :=
  Illegal.first
    (TileUse.bad { td := true, ta := true, tb := true, tc := f.drain, gs := gsUse && f.acc == 2, md := 0xF,
                   imm := imm } f)
    (notM f.td || f.acc == 3 || !ok || (f.acc == 2 && int) || decide (5 ≤ f.drm.toNat)
      || (f.drm != 0 && !f.drain) || (f.sat && !f.drain && !int))

/-- mdrain, mrow and mcol (R226). -/
def drainIllegal (gs : Bool) (f : TileFields) : Option Illegal :=
  let raw := f.imm.getLsbD 11
  Illegal.first
    (TileUse.bad { td := true, ta := true, gs := gs, md := 0xF, imm := 0xC1F } f)
    (notM f.ta || decide (5 ≤ f.rm.toNat) || !isAssigned f.fmt1 || f.fmt1 == 0x12
      || (raw && (f.md != 0 || f.imm.getLsbD 10 || !(f.fmt1 == 1 || f.fmt1 == 0xA || f.fmt1 == 0x14))))

/-- The ordering byte XF8 (R233): reserved bits, then the codes that the row does not accept. -/
def ordReserved (f : TileFields) : Bool := f.xf8.extractLsb' 6 2 != 0
def ordBad (ok : List Nat) (f : TileFields) : Bool :=
  !(ok.contains f.order.toNat) || (f.scope != 0 && (f.order == 0 || f.order == 4))

/-- A tile memory row whose prefix carries an offset extension and an ordering byte. -/
def memIllegal (u : TileUse) (ord : List Nat) (bad : Bool) (f : TileFields) : Option Illegal :=
  Illegal.first (u.bad f || f.ordReserved) (ordBad ord f || bad)

def sclBad (f : TileFields) : Bool := decide (5 ≤ f.rm.toNat)
def atomOp (f : TileFields) : BitVec 4 := f.imm.extractLsb' 0 4
def isCas (f : TileFields) : Bool := f.atomOp == 9
def dyn (f : TileFields) : Bool := f.md.getLsbD 0
def chBad (f : TileFields) : Bool := f.imm.getLsbD 2 && f.imm.extractLsb' 0 2 != 0
end TileFields

/-! ## Lane words (R125, Table 09-1) -/

namespace LaneFields
def kReserved (f : LaneFields) : Bool := f.k.extractLsb' 4 2 != 0
def notK (r : BitVec 6) : Bool := decide (8 ≤ r.toNat)
def odd (r : BitVec 6) : Bool := r.getLsbD 0
def rm (f : LaneFields) : BitVec 3 := f.imm.extractLsb' 0 3
/-- A lane row: reserved la, lb, ld, imm32 bits (`im` those used), predicate field, then the row's own rule. -/
def check (ld la lb pred : Bool) (im : BitVec 32) (bad : Bool) (f : LaneFields) : Option Illegal :=
  Illegal.first ((!ld && f.ld != 0) || (!la && f.la != 0) || (!lb && f.lb != 0) || (pred && f.kReserved)
    || (f.imm &&& ~~~im) != 0) bad
def rmBad (f : LaneFields) : Bool := decide (5 ≤ f.rm.toNat)
def relBad (f : LaneFields) : Bool := decide (6 ≤ f.rm.toNat)
def lcvtD (f : LaneFields) : BitVec 5 := f.imm.extractLsb' 3 5
def lcvtS (f : LaneFields) : BitVec 5 := f.imm.extractLsb' 8 5
def wide (c : BitVec 5) : Bool := c == 0 || c == 9
/-- LAST of a terminator (R206). -/
def last (f : LaneFields) : Bool := f.imm.getLsbD 31
end LaneFields

/-! ## Queue commands (Table 17-5) -/

namespace QueueCmd
/-- Bit 0 of the flags: SIG, NEG or RET. -/
def flag (c : QueueCmd) : Bool := c.flags.getLsbD 0
/-- A queue row: the flag bits, event, operand bits used, how many extension words, whether they start with an
address slot, and the row's own rule. -/
def check (fl : BitVec 8) (ev : Bool) (op : BitVec 32) (words : Nat) (addr : Bool) (bad : Bool)
    (c : QueueCmd) : Option Illegal :=
  Illegal.first ((c.flags &&& ~~~fl) != 0 || (!ev && c.ev != 0) || (c.opnd &&& ~~~op) != 0
    || (addr && c.x1.extractLsb' 8 56 != 0)
    || (words < 1 && c.x0 != 0) || (words < 2 && c.x1 != 0) || (words < 3 && c.x2 != 0)) bad
end QueueCmd

/-- A 5-bit field that names A0 to A15 holds 16 to 31 (R118). -/
def notA (r : BitVec 5) : Bool := r.getLsbD 4
/-- A field that names P0 to P7 holds 8 or more (R118). -/
def notP (r : BitVec 5) : Bool := decide (8 ≤ r.toNat)

/-- Payload of a prefix over a CM instruction (Table 06-10). -/
def Pfx.order (x : Pfx) : BitVec 2 := (x.getD 0).extractLsb' 27 2
def Pfx.scope (x : Pfx) : BitVec 3 := (x.getD 0).extractLsb' 24 3
def Pfx.resv (x : Pfx) : Bool := (x.getD 0).getLsbD 29

/-- CM checks: the payload's reserved bit, then scope without order, then an order other than `ok` (R120, R152). -/
def cmIllegal (x : Pfx) (ok : Nat) (bad : Bool) : Option Illegal :=
  Illegal.first (Pfx.resv x)
    (bad || (Pfx.order x == 0 && Pfx.scope x != 0) || !(Pfx.order x == 0 || (Pfx.order x).toNat == ok))

/-- The immediate of a CI instruction: imm14, or the 44-bit combined value (R120), sign-extended. -/
def ciImm (i : BitVec 14) (x : Pfx) : Int :=
  match x with
  | none => i.toInt
  | some p => (p ++ i).toInt

def shiftImmBad (i : BitVec 14) (x : Pfx) : Bool := decide (ciImm i x < 0 ∨ 63 < ciImm i x)

/-- Which check of its own row an instruction fails: none for a well-formed one. -/
def Instr.illegal : Instr → Option Illegal
  | .add _ _ _ | .sub _ _ _ | .mul _ _ _ | .mulh _ _ _ | .mulhn _ _ _ | .div _ _ _ | .divn _ _ _ | .rem _ _ _
  | .remn _ _ _ | .and _ _ _ | .or _ _ _ | .xor _ _ _ | .andn _ _ _ | .sll _ _ _ | .srl _ _ _ | .sra _ _ _
  | .min _ _ _ | .max _ _ _ | .minn _ _ _ | .maxn _ _ _ | .clz _ _ | .ctz _ _ | .popc _ _ | .sext8 _ _
  | .sext16 _ _ | .sext32 _ _ | .sel _ _ _ _ _ => none
  | .cmp d _ _ r =>
    if 10 ≤ r.toNat then some .unassigned else if notP d then some .value else none
  | .fadd _ _ _ _ r | .fsub _ _ _ _ r | .fmul _ _ _ _ r | .ffma _ _ _ _ r | .fdiv _ _ _ _ r | .fsqrt _ _ _ r
  | .fcvtF32F64 _ _ r | .fcvtS64 _ _ _ r | .fcvtN64 _ _ _ r | .fcvtFmtS64 _ _ _ r | .fcvtFmtN64 _ _ _ r =>
    if 5 ≤ r.toNat then some .value else none
  | .fmin _ _ _ _ | .fmax _ _ _ _ | .fcvtF64F32 _ _ => none
  | .fcmp d _ _ r _ =>
    if 6 ≤ r.toNat then some .unassigned else if notP d then some .value else none
  | .addi _ _ _ _ | .andi _ _ _ _ | .ori _ _ _ _ | .xori _ _ _ _ => none
  | .slli _ _ i x | .srli _ _ i x | .srai _ _ i x => if shiftImmBad i x then some .value else none
  | .cmpiEq d _ _ _ | .cmpiNe d _ _ _ | .cmpiLt d _ _ _ | .cmpiLe d _ _ _ | .cmpiGt d _ _ _ | .cmpiGe d _ _ _
  | .cmpiLtn d _ _ _ | .cmpiGen d _ _ _ => if notP d then some .value else none
  | .lui _ _ _ | .li _ _ _ => none
  | .aadd _ _ _ _ | .asub _ _ _ _ | .amovg _ _ | .amovh _ _ | .gmova _ _ | .ahi _ _ _ => none
  | .acmp d _ b r =>
    if d.getLsbD 3 || notA b || 6 ≤ r.toNat then some .value else none
  | .aaddi d a _ _ => if notA d || notA a then some .value else none
  | .br _ _ | .brp _ _ _ _ | .loop _ _ _ | .call _ _ => none
  | .calli a | .jmpi a => if notA a then some .value else none
  | .ret | .land => none
  | .ld _ _ _ _ x => cmIllegal x 1 false
  | .ldS _ _ s _ x => cmIllegal x 1 (s == 3)
  | .st _ _ _ _ x => cmIllegal x 2 false
  | .lda g _ _ x => cmIllegal x 1 (notA g)
  | .sta g _ _ x => cmIllegal x 2 (notA g)
  | .pref h _ _ _ x => cmIllegal x 0 (decide (2 ≤ h.toNat))
  | .csrr _ _ | .csrw _ _ | .csrs _ _ | .csrc _ _ => none
  | .trap _ _ | .brk _ _ => none
  | .nop | .endUnit | .eret => none
  | .tlbi a b k s =>
    if k == 3 then some .unassigned
    else Illegal.first ((k == 1 && a != 0) || (k == 2 && (a != 0 || b != 0))) (notA a || s.getLsbD 2)
  | .icinv a _ s => if notA a || s.getLsbD 2 then some .value else none
  | .cpatch a b s w => if notA a || s.getLsbD 2 || (w == 1 && b.getLsbD 0) then some .value else none
  | .ctxsave _ a _ | .ctxload _ a _ => if notA a then some .value else none
  | .tkadm _ a _ o => if 4 ≤ o.toNat then some .unassigned else if notA a then some .value else none
  | .tshape f => TileFields.shapeIllegal false false f
  | .tshapeKeep f => if f.md.getLsbD 0 then TileFields.shapeIllegal true false f else some .unassigned
  | .tview f => TileFields.shapeIllegal false true f
  | .tfree f => Illegal.first (TileUse.bad { td := true } f) false
  | .setx f => Illegal.first (TileUse.bad { td := true, ta := true, tb := true, tc := true } f) false
  | .tseq f =>
    Illegal.first (TileUse.bad { td := true, tb := true, gs := true, md := 0xF, imm := 0x1F } f)
      (!FmtCode.isAssigned f.fmt1 || f.fmt1 == 0x12 || decide (5 ≤ f.rm.toNat)
        || (f.rm != 0 && (FmtCode.isInt f.fmt1 || FmtCode.isMask f.fmt1)))
  | .tfill f =>
    Illegal.first (TileUse.bad { td := true, gs := true, imm := 0x1F } f)
      (!FmtCode.isAssigned f.fmt1 || f.fmt1 == 0x12)
  | .tmov f | .ttr f => Illegal.first (TileUse.bad { td := true, ta := true } f) false
  | .tadd f | .tsub f | .tmul f => TileFields.elemIllegal false false true true false true true true f
  | .tdiv f => TileFields.elemIllegal false false true true false true true false f
  | .tmin f | .tmax f => TileFields.elemIllegal false false true true false false false false f
  | .tabs f | .tneg f => TileFields.elemIllegal true false true true false false false true f
  | .tfma f => TileFields.elemIllegal false true true true false true true true f
  | .trcp f | .trsqrt f | .tsqrt f => TileFields.transIllegal true f
  | .texp2 f | .tlog2 f | .ttanh f => TileFields.transIllegal false f
  | .trem f | .tmulh f | .tsll f | .tsrl f | .tsra f =>
    TileFields.elemIllegal false false false true false false false false f
  | .tand f | .tor f | .txor f | .tandn f => TileFields.elemIllegal false false false true true false false false f
  | .tcmp f =>
    Illegal.first (TileUse.bad { td := true, ta := true, tb := !f.sBit, gs := f.sBit, imm := 0x3C1F } f)
      (!(FmtCode.isFloat f.fmt1 || FmtCode.isInt f.fmt1) || decide (6 ≤ f.rel.toNat))
  | .tsel f =>
    Illegal.first (TileUse.bad { td := true, ta := true, tb := !f.sBit, tc := true, gs := f.sBit, imm := 0x41F } f)
      (!FmtCode.isAssigned f.fmt1 || f.fmt1 == 0x12)
  | .tcvt f =>
    Illegal.first (TileUse.bad { td := true, ta := true, md := 0xF, imm := 0x7FF } f)
      (!FmtCode.isAssigned f.fmt1 || !FmtCode.isAssigned f.fmt2 || decide (6 ≤ f.rm.toNat)
        || (f.rm == 5 && !FmtCode.efNarrowing f.fmt2 f.fmt1)
        || (f.sBit && f.fmt1 != 0x12 && f.fmt2 != 0x12))
  | .tquant f =>
    Illegal.first (TileUse.bad { td := true, ta := true, md := 7, imm := 0x3FF } f)
      (!FmtCode.isScalable f.fmt1 || !FmtCode.isFloat f.fmt2 || decide (5 ≤ f.rm.toNat))
  | .tdequant f =>
    Illegal.first (TileUse.bad { td := true, ta := true, md := 0xF, imm := 0x3FF } f)
      (!FmtCode.isFloat f.fmt1 || !FmtCode.isScalable f.fmt2 || decide (5 ≤ f.rm.toNat))
  | .tred f => TileFields.redIllegal 0x7FFF f
  | .tscan f => TileFields.redIllegal 0xFFFF f
  | .tperm f => Illegal.first (TileUse.bad { td := true, ta := true, tb := true, imm := 0x400 } f) false
  | .tslide f =>
    let reg := f.md.getLsbD 0
    Illegal.first (TileUse.bad { td := true, ta := true, gs := reg, md := 7, imm := if reg then 0 else 0xFFFF } f)
      (!reg && decide (1023 < f.imm.toInt.natAbs))
  | .tbcast f =>
    Illegal.first (TileUse.bad { td := true, ta := true, gs := true, md := 3 } f) (f.md.extractLsb' 0 2 == 3)
  | .txchg f => Illegal.first (TileUse.bad { td := true, ta := true, gs := true } f) false
  | .map f => TileFields.mapIllegal false f
  | .mapred f => TileFields.mapIllegal true f
  | .momu f =>
    Illegal.first (TileUse.bad { td := true, ta := true, tb := true, tc := true, gs := true, as := true, imm := 0x3FF } f)
      (!(f.fmt1 == 1 || f.fmt1 == 2) || !(1 ≤ f.fmt2.toNat && f.fmt2.toNat ≤ 3)
        || f.td == f.ta || f.td == f.tb || f.td == f.tc || f.ta == f.tb || f.ta == f.tc || f.tb == f.tc
        || decide (24 < f.gs.toNat))
  | .mma f =>
    TileFields.productIllegal 0x7FFF true (TileFields.mmaPairOk f.fmt1 f.fmt2) (TileFields.mmaInt f.fmt1) f
  | .mmas f =>
    TileFields.productIllegal 0x7FFF true
      (TileFields.mmaPairOk f.fmt1 f.fmt2 && decide (3 ≤ TileFields.mmaRow f.fmt1)) false f
  | .mmsp f =>
    TileFields.productIllegal 0x7FFF true
      (TileFields.mmaPairOk f.fmt1 f.fmt2 && decide (2 ≤ TileFields.mmaRow f.fmt1)
        && TileFields.mmaRow f.fmt1 != 6 && TileFields.mmaRow f.fmt2 != 6) (TileFields.mmaInt f.fmt1) f
  | .mmb f => TileFields.productIllegal 0x7C03 false true true f
  | .mzero f => Illegal.first (TileUse.bad { td := true } f) (notM f.td)
  | .mfill f =>
    Illegal.first (TileUse.bad { td := true, ta := !f.sBit, gs := f.sBit, imm := 0x400 } f) (notM f.td)
  | .mdrain f => TileFields.drainIllegal false f
  | .mrow f | .mcol f => TileFields.drainIllegal true f
  | .tld f =>
    TileFields.memIllegal { td := true, tb := true, gs := true, as := true, md := 3, imm := 0xFFFF, xm := xExt ||| xXf8 }
      [0, 1, 4] false f
  | .tst f =>
    TileFields.memIllegal { ta := true, tb := true, gs := true, as := true, md := 3, imm := 0xFFFF, xm := xExt ||| xXf8 }
      [0, 2, 4] false f
  | .tstNfz f =>
    if f.md.getLsbD 2 then
      TileFields.memIllegal { ta := true, tb := true, tc := true, gs := true, as := true, md := 7, imm := 0xFFFF,
                              xm := xExt ||| xXf8 } [0, 2, 4] (notA f.tc) f
    else some .unassigned
  | .tldg f =>
    TileFields.memIllegal { td := true, tb := true, tc := f.sat, as := true, md := 0xF, imm := 0xFFFF, xm := xExt ||| xXf8 }
      [0, 1, 4] f.sclBad f
  | .tstg f =>
    TileFields.memIllegal { ta := true, tb := true, tc := f.sat, as := true, md := 0xF, imm := 0xFFFF, xm := xExt ||| xXf8 }
      [0, 2, 4] f.sclBad f
  | .tldm f =>
    Illegal.first (TileUse.bad { td := true, tb := true, gs := true, as := true, imm := 0xFFFF, xm := xExt } f) false
  | .csld f =>
    Illegal.first (TileUse.bad { td := true, tb := true, gs := true, md := 7, imm := 0xFFFF, xm := xExt } f)
      (!f.md.getLsbD 2 && f.md.extractLsb' 0 2 != 0)
  | .csst f => Illegal.first (TileUse.bad { ta := true, tb := true, gs := true, imm := 0xFFFF, xm := xExt } f) false
  | .cpy f => Illegal.first (TileUse.bad { as := true, imm := 3 } f) false
  | .cpyw f | .cpyc f => Illegal.first (TileUse.bad { imm := 7 } f) f.chBad
  | .cpyq f => Illegal.first (TileUse.bad { td := true, imm := 3 } f) false
  | .send f => Illegal.first (TileUse.bad { td := true, ta := true, gs := true } f) false
  | .recv f => Illegal.first (TileUse.bad { td := true, tb := true, gs := true } f) false
  | .tatom f =>
    TileFields.memIllegal { td := f.sat, ta := true, tb := true, tc := f.isCas, as := true, md := 0xF, imm := 0xFFFF,
                            xm := xExt ||| xXf8 } [0, 1, 2, 3, 4] (f.sclBad || decide (10 ≤ f.atomOp.toNat)) f
  | .cbar f => Illegal.first (TileUse.bad {} f) false
  | .fence f => Illegal.first (TileUse.bad { imm := 7 } f) false
  | .atom f =>
    TileFields.memIllegal { td := true, tb := f.isCas, gs := true, as := true, imm := 0x1F, xm := xXf8 }
      [0, 1, 2, 3] (decide (10 ≤ f.atomOp.toNat)) f
  | .evsig f | .evwait f =>
    Illegal.first (TileUse.bad { tb := f.dyn, gs := true, md := 1, imm := if f.dyn then 0 else 0xFFFF } f) false
  | .evquery f =>
    Illegal.first (TileUse.bad { td := true, tb := f.dyn, md := 1, imm := if f.dyn then 0 else 0xFFFF } f) false
  | .futrd f | .tkret f | .tkjoin f | .tkunshare f | .tkquery f =>
    Illegal.first (TileUse.bad { td := true, as := true } f) false
  | .futwr f | .tklend f | .tksplit f => Illegal.first (TileUse.bad { td := true, gs := true, as := true } f) false
  | .tkshare f => Illegal.first (TileUse.bad { td := true, tb := true, gs := true, as := true } f) false
  | .lfadd f | .lfsub f | .lfmul f => f.check true true true true 7 f.rmBad
  | .lffma f => f.check true true true false 7 f.rmBad
  | .lfmin f | .lfmax f => f.check true true true true 0 false
  | .lfabs f | .lfneg f => f.check true true false true 0 false
  | .lfcmp f => f.check true true true true 7 (f.relBad || LaneFields.notK f.ld)
  | .lrcp f | .lrsqrt f | .lsqrt f => f.check true true false true 7 f.rmBad
  | .lexp2 f | .llog2 f | .ltanh f => f.check true true false true 0 false
  | .liadd f | .lisub f | .limul f | .lmin f | .lmax f | .lminn f | .lmaxn f | .lband f | .lbor f | .lbxor f
  | .lsll f | .lsrl f | .lsra f => f.check true true true true 0 false
  | .limulh f => f.check true true true true 1 false
  | .licmp f => f.check true true true true 0xF (decide (10 ≤ (f.imm.extractLsb' 0 4).toNat) || LaneFields.notK f.ld)
  | .lcvt f =>
    f.check true true false true 0x3FFF
      (f.rmBad || !FmtCode.isAssigned f.lcvtD || !FmtCode.isAssigned f.lcvtS || f.lcvtD == 0x12 || f.lcvtS == 0x12
        || (LaneFields.wide f.lcvtD && LaneFields.odd f.ld) || (LaneFields.wide f.lcvtS && LaneFields.odd f.la))
  | .lmov f => f.check true true false true 0 false
  | .lmovi f => f.check true false false true 0xFFFFFFFF false
  | .lsel f => f.check true true true true 0xF false
  | .lkop f =>
    f.check true true (decide (f.rm.toNat < 4)) true 7
      (decide (6 ≤ f.rm.toNat) || LaneFields.notK f.ld || (f.rm != 5 && LaneFields.notK f.la)
        || (decide (f.rm.toNat < 4) && LaneFields.notK f.lb))
  | .ldadd f | .ldsub f | .ldmul f =>
    f.check true true true true 7 (f.rmBad || LaneFields.odd f.ld || LaneFields.odd f.la || LaneFields.odd f.lb)
  | .ldfma f =>
    f.check true true true false 7
      (f.rmBad || LaneFields.odd f.ld || LaneFields.odd f.la || LaneFields.odd f.lb || LaneFields.odd f.k)
  | .ldcmp f =>
    f.check true true true true 7 (f.relBad || LaneFields.notK f.ld || LaneFields.odd f.la || LaneFields.odd f.lb)
  | .lrd f => f.check true false false true 7 (f.imm.extractLsb' 0 2 == 3)
  | .lwr f => f.check false true false true 0x3F (decide (5 ≤ (f.imm.extractLsb' 1 3).toNat))
  | .lidx f => f.check true false false true 7 (f.rm == 7)
  | .lacc f => f.check true false false true 3 false
  | .lnext f =>
    let ind := f.imm.getLsbD 8
    f.check false ind false true (if ind then 0x80000100 else 0x800000FF) (ind && f.k != 0)
  | .lstop f => f.check false false false true 0x80000000 false
  | .qlaunch c => c.check 0 false 0 2 true false
  | .qcopy c | .qstage c => c.check 1 c.flag (if c.flag then 0xFFFFFFFF else 0) 2 true false
  | .qwait c => c.check 0 true 0 1 false false
  | .qsig c => c.check 0 true 0xFFFFFFFF 0 false false
  | .qintr c => c.check 0 false 0x7FF 0 false false
  | .qfence c | .qnop c | .qend c => c.check 0 false 0 0 false false
  | .qbr c => c.check 1 true 0xFF 1 false (c.opnd == 0)
  | .qjump c => c.check 0 false 0xFFFFFFFF 2 true (decide (c.opnd.toNat < 2 ∨ 0x1000000 < c.opnd.toNat))
  | .qlend c => if c.flag then some .unassigned else c.check 1 false 0xFFFFFF 2 true false
  | .qlendRet c => if c.flag then c.check 1 false 0xFFFFFF 2 true false else some .unassigned
  | .qmark c => c.check 0 false 0 3 true false
  | .tail _ _ | .stop _ _ | .resume _ _ | .skip _ _ | .cancel _ _ | .hostSignal _ _ _ | .queueEnable _ |
    .boot _ | .attest _ | .getcert _ | .setcap _ | .mailboxCsrr _ | .mailboxCsrw _ | .mailboxTkadm _ |
    .trate _ _ | .moduleOff _ | .moduleOffReturn _ | .tscWrite _ | .fqctl _ _ | .fqhead _ _ |
    .registerWrite _ _ | .hostAtomic _ | .hostCas128 _ | .hostAccess _ | .issue _ _ | .scalarReturn _ |
    .accessComplete _ | .retire _ | .decodeTrap | .contextStop | .preemptionRequest _ | .preemptionStop |
    .deschedule _ _ | .priorityPreemption _ _ | .dispatch _ _ | .contextResume _ | .exchangeDelivery _ |
    .copyStrip _ _ _ _ | .stripSteal _ _ _ _ | .mergeRequest _ | .mergeWindowExpiry _ | .tokenAccept _ |
    .shootdownAck _ | .contextLost _ | .sliceAdmit _ | .sliceFill _ | .stagingStrip _ _ | .stageDeadline _ _ |
    .sequencerSwitch _ _ | .flitDelivery _ _ | .flitCrcError _ _ | .replayWindowClose _ _ | .steeringDrain _ |
    .trainingComplete _ _ | .laneRetirement _ _ _ | .mainbandLoss _ | .loomLaneLoss _ _ | .pcieLinkEvent _ |
    .patrolScrub _ _ | .powerControlTick _ | .supplyOverdraw _ | .powerLoss | .reset _ | .romInit | .fwInit _ |
    .vfFlr _ | .pfFlr | .peerRequest _ | .loomPortTrained _ _ => none

/-- A well-formed instruction: no check of its row fails. -/
abbrev Instr.WellFormed (i : Instr) : Prop := i.illegal = none

end Sys2Proof
end

