-- ==== Sys2Proof/Decode.lean ====
section
/-!
DEFINITION. Sys2Proof/Decode.lean: the control unit's decode checks (Table 06-14, steps 2 to 7), the lane array's and
the queue sequencer's decoding, and the encoder of the same tables.
-/

namespace Sys2Proof

/-- The cause of a decode trap (Table 06-14). -/
inductive DecodeCause where
  | illegalOp
  | illegalField
  | lifetime
  deriving DecidableEq, Repr

/-- A decode trap: its cause and the step of Table 06-14 that found it. -/
structure DecodeErr where
  cause : DecodeCause
  dstep : Nat
  deriving DecidableEq, Repr

/-- What decoding a unit gives. -/
inductive Decoded where
  | ok (i : Instr)
  | err (e : DecodeErr)
  deriving DecidableEq, Repr

/-- A row of the opcode map that a word falls in: its instruction, the bits of the word the row reserves, and a
field value the row forbids that the instruction's own fields do not show. -/
structure Row where
  i : Instr
  resv : Word := 0
  bad : Bool := false

/-! ## Control words (Tables 06-2 to 06-9, 06-15) -/

namespace Word
def opcode (w : Word) : Nat := (w.extractLsb' 1 7).toNat
/-- fn of a CR word. -/
def fnCr (w : Word) : BitVec 9 := w.extractLsb' 23 9
/-- fn of a CA word. -/
def fnCa (w : Word) : Nat := (w.extractLsb' 24 8).toNat
/-- fn of a CS word. -/
def fnCs (w : Word) : Nat := (w.extractLsb' 13 7).toNat
/-- Bits [1:0], the word's kind (Table 06-1). -/
def kind (w : Word) : Nat := (w.extractLsb' 0 2).toNat
end Word

/-- Opcode 0x01, selected by fn (Table 07-1). -/
def decodeInt (w : Word) : Option Row :=
  match w.fnCr.toNat with
  | 0 => some ⟨.add (w.extractLsb' 8 5) (w.extractLsb' 13 5) (w.extractLsb' 18 5), 0, false⟩
  | 1 => some ⟨.sub (w.extractLsb' 8 5) (w.extractLsb' 13 5) (w.extractLsb' 18 5), 0, false⟩
  | 2 => some ⟨.mul (w.extractLsb' 8 5) (w.extractLsb' 13 5) (w.extractLsb' 18 5), 0, false⟩
  | 3 => some ⟨.mulh (w.extractLsb' 8 5) (w.extractLsb' 13 5) (w.extractLsb' 18 5), 0, false⟩
  | 4 => some ⟨.mulhn (w.extractLsb' 8 5) (w.extractLsb' 13 5) (w.extractLsb' 18 5), 0, false⟩
  | 5 => some ⟨.div (w.extractLsb' 8 5) (w.extractLsb' 13 5) (w.extractLsb' 18 5), 0, false⟩
  | 6 => some ⟨.divn (w.extractLsb' 8 5) (w.extractLsb' 13 5) (w.extractLsb' 18 5), 0, false⟩
  | 7 => some ⟨.rem (w.extractLsb' 8 5) (w.extractLsb' 13 5) (w.extractLsb' 18 5), 0, false⟩
  | 8 => some ⟨.remn (w.extractLsb' 8 5) (w.extractLsb' 13 5) (w.extractLsb' 18 5), 0, false⟩
  | 9 => some ⟨.and (w.extractLsb' 8 5) (w.extractLsb' 13 5) (w.extractLsb' 18 5), 0, false⟩
  | 10 => some ⟨.or (w.extractLsb' 8 5) (w.extractLsb' 13 5) (w.extractLsb' 18 5), 0, false⟩
  | 11 => some ⟨.xor (w.extractLsb' 8 5) (w.extractLsb' 13 5) (w.extractLsb' 18 5), 0, false⟩
  | 12 => some ⟨.andn (w.extractLsb' 8 5) (w.extractLsb' 13 5) (w.extractLsb' 18 5), 0, false⟩
  | 13 => some ⟨.sll (w.extractLsb' 8 5) (w.extractLsb' 13 5) (w.extractLsb' 18 5), 0, false⟩
  | 14 => some ⟨.srl (w.extractLsb' 8 5) (w.extractLsb' 13 5) (w.extractLsb' 18 5), 0, false⟩
  | 15 => some ⟨.sra (w.extractLsb' 8 5) (w.extractLsb' 13 5) (w.extractLsb' 18 5), 0, false⟩
  | 16 => some ⟨.min (w.extractLsb' 8 5) (w.extractLsb' 13 5) (w.extractLsb' 18 5), 0, false⟩
  | 17 => some ⟨.max (w.extractLsb' 8 5) (w.extractLsb' 13 5) (w.extractLsb' 18 5), 0, false⟩
  | 18 => some ⟨.minn (w.extractLsb' 8 5) (w.extractLsb' 13 5) (w.extractLsb' 18 5), 0, false⟩
  | 19 => some ⟨.maxn (w.extractLsb' 8 5) (w.extractLsb' 13 5) (w.extractLsb' 18 5), 0, false⟩
  | 20 => some ⟨.clz (w.extractLsb' 8 5) (w.extractLsb' 13 5), 0x7C0000, false⟩
  | 21 => some ⟨.ctz (w.extractLsb' 8 5) (w.extractLsb' 13 5), 0x7C0000, false⟩
  | 22 => some ⟨.popc (w.extractLsb' 8 5) (w.extractLsb' 13 5), 0x7C0000, false⟩
  | 23 => some ⟨.sext8 (w.extractLsb' 8 5) (w.extractLsb' 13 5), 0x7C0000, false⟩
  | 24 => some ⟨.sext16 (w.extractLsb' 8 5) (w.extractLsb' 13 5), 0x7C0000, false⟩
  | 25 => some ⟨.sext32 (w.extractLsb' 8 5) (w.extractLsb' 13 5), 0x7C0000, false⟩
  | _ => none

/-- Opcode 0x04: OP in fn[3:0], the format in fn[4], the rounding code in fn[7:5] (R146). -/
def decodeFloat (w : Word) : Option Row :=
  let rm := w.extractLsb' 28 3 != (0 : BitVec 3)
  if w.getLsbD 31 then none else
  match (w.extractLsb' 23 4).toNat with
  | 0 => some ⟨.fadd (w.extractLsb' 8 5) (w.extractLsb' 13 5) (w.extractLsb' 18 5) (w.extractLsb' 27 1) (w.extractLsb' 28 3), 0, false⟩
  | 1 => some ⟨.fsub (w.extractLsb' 8 5) (w.extractLsb' 13 5) (w.extractLsb' 18 5) (w.extractLsb' 27 1) (w.extractLsb' 28 3), 0, false⟩
  | 2 => some ⟨.fmul (w.extractLsb' 8 5) (w.extractLsb' 13 5) (w.extractLsb' 18 5) (w.extractLsb' 27 1) (w.extractLsb' 28 3), 0, false⟩
  | 3 => some ⟨.ffma (w.extractLsb' 8 5) (w.extractLsb' 13 5) (w.extractLsb' 18 5) (w.extractLsb' 27 1) (w.extractLsb' 28 3), 0, false⟩
  | 4 => some ⟨.fdiv (w.extractLsb' 8 5) (w.extractLsb' 13 5) (w.extractLsb' 18 5) (w.extractLsb' 27 1) (w.extractLsb' 28 3), 0, false⟩
  | 5 => some ⟨.fsqrt (w.extractLsb' 8 5) (w.extractLsb' 13 5) (w.extractLsb' 27 1) (w.extractLsb' 28 3), 0x7C0000, false⟩
  | 6 => some ⟨.fmin (w.extractLsb' 8 5) (w.extractLsb' 13 5) (w.extractLsb' 18 5) (w.extractLsb' 27 1), 0, rm⟩
  | 7 => some ⟨.fmax (w.extractLsb' 8 5) (w.extractLsb' 13 5) (w.extractLsb' 18 5) (w.extractLsb' 27 1), 0, rm⟩
  | 8 =>
    if w.getLsbD 27 then some ⟨.fcvtF32F64 (w.extractLsb' 8 5) (w.extractLsb' 13 5) (w.extractLsb' 28 3), 0x7C0000, false⟩
    else some ⟨.fcvtF64F32 (w.extractLsb' 8 5) (w.extractLsb' 13 5), 0x7C0000, rm⟩
  | 9 => some ⟨.fcvtS64 (w.extractLsb' 8 5) (w.extractLsb' 13 5) (w.extractLsb' 27 1) (w.extractLsb' 28 3), 0x7C0000, false⟩
  | 10 => some ⟨.fcvtN64 (w.extractLsb' 8 5) (w.extractLsb' 13 5) (w.extractLsb' 27 1) (w.extractLsb' 28 3), 0x7C0000, false⟩
  | 11 => some ⟨.fcvtFmtS64 (w.extractLsb' 8 5) (w.extractLsb' 13 5) (w.extractLsb' 27 1) (w.extractLsb' 28 3), 0x7C0000, false⟩
  | 12 => some ⟨.fcvtFmtN64 (w.extractLsb' 8 5) (w.extractLsb' 13 5) (w.extractLsb' 27 1) (w.extractLsb' 28 3), 0x7C0000, false⟩
  | _ => none

/-- Opcode 0x20, selected by fn (Table 07-2). -/
def decodeAddr (w : Word) : Option Row :=
  match w.fnCa with
  | 0 => some ⟨.aadd (w.extractLsb' 8 4) (w.extractLsb' 12 4) (w.extractLsb' 16 5) (w.extractLsb' 21 3), 0x0, false⟩
  | 1 => some ⟨.asub (w.extractLsb' 8 4) (w.extractLsb' 12 4) (w.extractLsb' 16 5) (w.extractLsb' 21 3), 0x0, false⟩
  | 2 => some ⟨.amovg (w.extractLsb' 8 4) (w.extractLsb' 16 5), 0xe0f000, false⟩
  | 3 => some ⟨.amovh (w.extractLsb' 12 4) (w.extractLsb' 16 5), 0xe00f00, false⟩
  | 4 => some ⟨.gmova (w.extractLsb' 12 4) (w.extractLsb' 16 5), 0xe00f00, false⟩
  | 5 => some ⟨.ahi (w.extractLsb' 8 4) (w.extractLsb' 12 4) (w.extractLsb' 16 5), 0xe00000, false⟩
  | 6 => some ⟨.acmp (w.extractLsb' 8 4) (w.extractLsb' 12 4) (w.extractLsb' 16 5) (w.extractLsb' 21 3), 0x0, false⟩
  | _ => none

/-- Opcode 0x60, selected by fn (R154). -/
def decodeCsr (w : Word) : Option Row :=
  match w.fnCs with
  | 0 => some ⟨.csrr (w.extractLsb' 8 5) (w.extractLsb' 20 12), 0, false⟩
  | 1 => some ⟨.csrw (w.extractLsb' 8 5) (w.extractLsb' 20 12), 0, false⟩
  | 2 => some ⟨.csrs (w.extractLsb' 8 5) (w.extractLsb' 20 12), 0, false⟩
  | 3 => some ⟨.csrc (w.extractLsb' 8 5) (w.extractLsb' 20 12), 0, false⟩
  | _ => none

/-- A control word under the prefix payload `x`: its row of Table 06-15, or none for a value no row assigns. -/
def decodeCtl (w : Word) (x : Pfx) : Option Row :=
  match w.opcode with
  | 0x01 => decodeInt w
  | 0x02 => some ⟨.cmp (w.extractLsb' 8 5) (w.extractLsb' 13 5) (w.extractLsb' 18 5) (w.extractLsb' 23 9), 0x0, false⟩
  | 0x03 => if w.extractLsb' 27 5 != (0 : BitVec 5) then none else some ⟨.sel (w.extractLsb' 8 5) (w.extractLsb' 13 5) (w.extractLsb' 18 5) (w.extractLsb' 23 3) (w.extractLsb' 26 1), 0, false⟩
  | 0x04 => decodeFloat w
  | 0x05 => some ⟨.fcmp (w.extractLsb' 8 5) (w.extractLsb' 13 5) (w.extractLsb' 18 5) (w.extractLsb' 23 3) (w.extractLsb' 27 1), 0xf4000000, false⟩
  | 0x08 => some ⟨.addi (w.extractLsb' 8 5) (w.extractLsb' 13 5) (w.extractLsb' 18 14) x, 0x0, false⟩
  | 0x09 => some ⟨.andi (w.extractLsb' 8 5) (w.extractLsb' 13 5) (w.extractLsb' 18 14) x, 0x0, false⟩
  | 0x0A => some ⟨.ori (w.extractLsb' 8 5) (w.extractLsb' 13 5) (w.extractLsb' 18 14) x, 0x0, false⟩
  | 0x0B => some ⟨.xori (w.extractLsb' 8 5) (w.extractLsb' 13 5) (w.extractLsb' 18 14) x, 0x0, false⟩
  | 0x0C => some ⟨.slli (w.extractLsb' 8 5) (w.extractLsb' 13 5) (w.extractLsb' 18 14) x, 0x0, false⟩
  | 0x0D => some ⟨.srli (w.extractLsb' 8 5) (w.extractLsb' 13 5) (w.extractLsb' 18 14) x, 0x0, false⟩
  | 0x0E => some ⟨.srai (w.extractLsb' 8 5) (w.extractLsb' 13 5) (w.extractLsb' 18 14) x, 0x0, false⟩
  | 0x10 => some ⟨.cmpiEq (w.extractLsb' 8 5) (w.extractLsb' 13 5) (w.extractLsb' 18 14) x, 0x0, false⟩
  | 0x11 => some ⟨.cmpiNe (w.extractLsb' 8 5) (w.extractLsb' 13 5) (w.extractLsb' 18 14) x, 0x0, false⟩
  | 0x12 => some ⟨.cmpiLt (w.extractLsb' 8 5) (w.extractLsb' 13 5) (w.extractLsb' 18 14) x, 0x0, false⟩
  | 0x13 => some ⟨.cmpiLe (w.extractLsb' 8 5) (w.extractLsb' 13 5) (w.extractLsb' 18 14) x, 0x0, false⟩
  | 0x14 => some ⟨.cmpiGt (w.extractLsb' 8 5) (w.extractLsb' 13 5) (w.extractLsb' 18 14) x, 0x0, false⟩
  | 0x15 => some ⟨.cmpiGe (w.extractLsb' 8 5) (w.extractLsb' 13 5) (w.extractLsb' 18 14) x, 0x0, false⟩
  | 0x16 => some ⟨.cmpiLtn (w.extractLsb' 8 5) (w.extractLsb' 13 5) (w.extractLsb' 18 14) x, 0x0, false⟩
  | 0x17 => some ⟨.cmpiGen (w.extractLsb' 8 5) (w.extractLsb' 13 5) (w.extractLsb' 18 14) x, 0x0, false⟩
  | 0x18 => some ⟨.lui (w.extractLsb' 8 5) (w.extractLsb' 13 19) x, 0x0, false⟩
  | 0x19 => some ⟨.li (w.extractLsb' 8 5) (w.extractLsb' 13 19) x, 0x0, false⟩
  | 0x20 => decodeAddr w
  | 0x21 => some ⟨.aaddi (w.extractLsb' 8 5) (w.extractLsb' 13 5) (w.extractLsb' 18 14) x, 0x0, false⟩
  | 0x40 => some ⟨.br (w.extractLsb' 8 24) x, 0x0, false⟩
  | 0x41 => some ⟨.brp (w.extractLsb' 8 3) (w.extractLsb' 11 1) (w.extractLsb' 12 20) x, 0x0, false⟩
  | 0x42 => some ⟨.loop (w.extractLsb' 8 5) (w.extractLsb' 13 19) x, 0x0, false⟩
  | 0x43 => some ⟨.call (w.extractLsb' 8 24) x, 0x0, false⟩
  | 0x44 => some ⟨.calli (w.extractLsb' 13 5), 0xfffc1f00, false⟩
  | 0x45 => some ⟨.jmpi (w.extractLsb' 13 5), 0xfffc1f00, false⟩
  | 0x46 => some ⟨.ret, 0xffffff00, false⟩
  | 0x47 => some ⟨.land, 0xffffff00, false⟩
  | 0x50 => some ⟨.ld (w.extractLsb' 8 5) (w.extractLsb' 13 4) (w.extractLsb' 17 2) (w.extractLsb' 19 13) x, 0x0, false⟩
  | 0x51 => some ⟨.ldS (w.extractLsb' 8 5) (w.extractLsb' 13 4) (w.extractLsb' 17 2) (w.extractLsb' 19 13) x, 0x0, false⟩
  | 0x52 => some ⟨.st (w.extractLsb' 8 5) (w.extractLsb' 13 4) (w.extractLsb' 17 2) (w.extractLsb' 19 13) x, 0x0, false⟩
  | 0x53 => some ⟨.lda (w.extractLsb' 8 5) (w.extractLsb' 13 4) (w.extractLsb' 19 13) x, 0x0, w.extractLsb' 17 2 != (0 : BitVec 2)⟩
  | 0x54 => some ⟨.sta (w.extractLsb' 8 5) (w.extractLsb' 13 4) (w.extractLsb' 19 13) x, 0x0, w.extractLsb' 17 2 != (0 : BitVec 2)⟩
  | 0x55 => some ⟨.pref (w.extractLsb' 8 5) (w.extractLsb' 13 4) (w.extractLsb' 17 2) (w.extractLsb' 19 13) x, 0x0, false⟩
  | 0x60 => decodeCsr w
  | 0x61 => some ⟨.trap (w.extractLsb' 13 19) x, 0x1f00, false⟩
  | 0x62 => some ⟨.brk (w.extractLsb' 13 19) x, 0x1f00, false⟩
  | 0x63 => some ⟨.nop, 0xffffff00, false⟩
  | 0x64 => some ⟨.endUnit, 0xffffff00, false⟩
  | 0x65 => some ⟨.eret, 0xffffff00, false⟩
  | 0x66 => some ⟨.tlbi (w.extractLsb' 13 5) (w.extractLsb' 18 5) (w.extractLsb' 23 2) (w.extractLsb' 25 3), 0xf0001f00, false⟩
  | 0x67 => some ⟨.icinv (w.extractLsb' 13 5) (w.extractLsb' 18 5) (w.extractLsb' 23 3), 0xfc001f00, false⟩
  | 0x68 => some ⟨.cpatch (w.extractLsb' 13 5) (w.extractLsb' 18 5) (w.extractLsb' 23 3) (w.extractLsb' 26 1), 0xf8001f00, false⟩
  | 0x69 => some ⟨.ctxsave (w.extractLsb' 8 5) (w.extractLsb' 13 5) (w.extractLsb' 18 5), 0xff800000, false⟩
  | 0x6A => some ⟨.ctxload (w.extractLsb' 8 5) (w.extractLsb' 13 5) (w.extractLsb' 18 5), 0xff800000, false⟩
  | 0x6B => some ⟨.tkadm (w.extractLsb' 8 5) (w.extractLsb' 13 5) (w.extractLsb' 18 5) (w.extractLsb' 23 3), 0xfc000000, false⟩
  | _ => none

/-- Control opcodes whose format accepts a prefix: CI, CU, CB, CJ and CM (R129). -/
def acceptsPfx (op : Nat) : Bool :=
  (0x08 ≤ op && op ≤ 0x19) || (0x21 ≤ op && op ≤ 0x3F) || (0x40 ≤ op && op ≤ 0x43) || (0x50 ≤ op && op ≤ 0x55)
    || op == 0x61 || op == 0x62

/-- The experimental control opcodes (Table 06-15). -/
def experimentalCtl (op : Nat) : Bool := decide (0x78 ≤ op)

/-- System-mode rows: the system opcodes, and an access to a CSR number of 0x800 or above (Table 06-14, step 5). -/
def Instr.isSystem : Instr → Bool
  | .eret | .tlbi _ _ _ _ | .icinv _ _ _ | .cpatch _ _ _ _ | .ctxsave _ _ _ | .ctxload _ _ _ | .tkadm _ _ _ _ => true
  | .csrr _ c | .csrw _ c | .csrs _ c | .csrc _ c => decide (0x800 ≤ c.toNat)
  | _ => false

/-! ## Tile words (Tables 06-11, 06-12, 06-16) -/

/-- The fields of a tile unit made of words `w0` and `w1` under the prefix payload `x`. -/
def tileFields (w0 w1 : Word) (x : Pfx) : TileFields :=
  { td := w0.extractLsb' 12 5, ta := w0.extractLsb' 17 5, tb := w0.extractLsb' 22 5, tc := w0.extractLsb' 27 5,
    md := w1.extractLsb' 0 4, gs := w1.extractLsb' 4 5, as := w1.extractLsb' 9 4, p := w1.extractLsb' 13 3,
    imm := w1.extractLsb' 16 16, pfx := x }

/-- The tile row of an opcode10 value (Table 06-16); KEEP of tshape and NFZ of tst select between two rows. -/
def tileRow (op : Nat) (f : TileFields) : Option Instr :=
  match op with
  | 0x001 => some (if f.md.getLsbD 0 then .tshapeKeep f else .tshape f)
  | 0x002 => some (.tview f)
  | 0x003 => some (.tfree f)
  | 0x004 => some (.setx f)
  | 0x005 => some (.tseq f)
  | 0x006 => some (.tfill f)
  | 0x007 => some (.tmov f)
  | 0x008 => some (.ttr f)
  | 0x010 => some (.tadd f)
  | 0x011 => some (.tsub f)
  | 0x012 => some (.tmul f)
  | 0x013 => some (.tdiv f)
  | 0x014 => some (.tmin f)
  | 0x015 => some (.tmax f)
  | 0x016 => some (.tabs f)
  | 0x017 => some (.tneg f)
  | 0x018 => some (.tfma f)
  | 0x020 => some (.trcp f)
  | 0x021 => some (.trsqrt f)
  | 0x022 => some (.tsqrt f)
  | 0x023 => some (.texp2 f)
  | 0x024 => some (.tlog2 f)
  | 0x025 => some (.ttanh f)
  | 0x030 => some (.trem f)
  | 0x031 => some (.tand f)
  | 0x032 => some (.tor f)
  | 0x033 => some (.txor f)
  | 0x034 => some (.tandn f)
  | 0x035 => some (.tsll f)
  | 0x036 => some (.tsrl f)
  | 0x037 => some (.tsra f)
  | 0x038 => some (.tmulh f)
  | 0x040 => some (.tcmp f)
  | 0x041 => some (.tsel f)
  | 0x100 => some (.tcvt f)
  | 0x101 => some (.tquant f)
  | 0x102 => some (.tdequant f)
  | 0x110 => some (.tred f)
  | 0x111 => some (.tscan f)
  | 0x120 => some (.tperm f)
  | 0x121 => some (.tslide f)
  | 0x122 => some (.tbcast f)
  | 0x123 => some (.txchg f)
  | 0x130 => some (.map f)
  | 0x131 => some (.mapred f)
  | 0x140 => some (.momu f)
  | 0x180 => some (.mma f)
  | 0x181 => some (.mmas f)
  | 0x182 => some (.mmsp f)
  | 0x183 => some (.mmb f)
  | 0x190 => some (.mzero f)
  | 0x191 => some (.mfill f)
  | 0x192 => some (.mdrain f)
  | 0x193 => some (.mrow f)
  | 0x194 => some (.mcol f)
  | 0x200 => some (.tld f)
  | 0x201 => some (if f.md.getLsbD 2 then .tstNfz f else .tst f)
  | 0x202 => some (.tldg f)
  | 0x203 => some (.tstg f)
  | 0x204 => some (.tldm f)
  | 0x210 => some (.csld f)
  | 0x211 => some (.csst f)
  | 0x220 => some (.cpy f)
  | 0x221 => some (.cpyw f)
  | 0x222 => some (.cpyc f)
  | 0x223 => some (.cpyq f)
  | 0x230 => some (.send f)
  | 0x231 => some (.recv f)
  | 0x240 => some (.tatom f)
  | 0x2C0 => some (.cbar f)
  | 0x2C1 => some (.fence f)
  | 0x2C8 => some (.atom f)
  | 0x2D0 => some (.evsig f)
  | 0x2D1 => some (.evwait f)
  | 0x2D2 => some (.evquery f)
  | 0x2D8 => some (.futrd f)
  | 0x2D9 => some (.futwr f)
  | 0x2E0 => some (.tklend f)
  | 0x2E1 => some (.tkret f)
  | 0x2E2 => some (.tksplit f)
  | 0x2E3 => some (.tkjoin f)
  | 0x2E4 => some (.tkshare f)
  | 0x2E5 => some (.tkunshare f)
  | 0x2E6 => some (.tkquery f)
  | _ => none

/-- The experimental tile opcodes (Table 06-16). -/
def experimentalTile (op : Nat) : Bool := decide (0x3E0 ≤ op)

/-- The payload bits a row uses (Table 06-10, R120): the rest are reserved. -/
def Instr.payloadUse : Instr → BitVec 30
  | .ld _ _ _ _ _ | .ldS _ _ _ _ _ | .st _ _ _ _ _ | .lda _ _ _ _ | .sta _ _ _ _ | .pref _ _ _ _ _ => 0x1FFFFFFF
  | .tshape f | .tshapeKeep f | .tview f => if f.md.getLsbD 1 then 0x1FE0FFFF else 0x200000
  | .map f | .mapred f => if f.out2 then 0x3F0000 else 0x200000
  | .tld _ | .tst _ | .tstNfz _ | .tldg _ | .tstg _ | .tatom _ => 0x0FE0FFFF
  | .tldm _ | .csld _ | .csst _ => 0x20FFFF
  | .atom _ => 0x0FE00000

  | .tfree _ | .setx _ | .tseq _ | .tfill _ | .tmov _ | .ttr _ | .tadd _ | .tsub _ | .tmul _ | .tdiv _ | .tmin _
  | .tmax _ | .tabs _ | .tneg _ | .tfma _ | .trcp _ | .trsqrt _ | .tsqrt _ | .texp2 _ | .tlog2 _ | .ttanh _
  | .trem _ | .tand _ | .tor _ | .txor _ | .tandn _ | .tsll _ | .tsrl _ | .tsra _ | .tmulh _ | .tcmp _ | .tsel _
  | .tcvt _ | .tquant _ | .tdequant _ | .tred _ | .tscan _ | .tperm _ | .tslide _ | .tbcast _ | .txchg _
  | .momu _ | .mma _ | .mmas _ | .mmsp _ | .mmb _ | .mzero _ | .mfill _ | .mdrain _ | .mrow _ | .mcol _ | .cpy _
  | .cpyw _ | .cpyc _ | .cpyq _ | .send _ | .recv _ | .cbar _ | .fence _ | .evsig _ | .evwait _ | .evquery _
  | .futrd _ | .futwr _ | .tklend _ | .tkret _ | .tksplit _ | .tkjoin _ | .tkshare _ | .tkunshare _ | .tkquery _ => 0x200000
  | _ => 0x3FFFFFFF

/-! ## Units of the control stream (Table 06-14) -/

/-- Steps 3, 5, 6 and 7 of Table 06-14 over the row a unit falls in. `resvBits`: a reserved bit of the unit's words or of
its prefix's payload is not zero. -/
def decodeRow (sys : Bool) (r : Row) (resvBits : Bool) : Decoded :=
  if r.i.illegal = some .unassigned then .err ⟨.illegalOp, 3⟩
  else if r.i.isSystem && !sys then .err ⟨.illegalOp, 5⟩
  else if resvBits || r.i.illegal = some .reserved then .err ⟨.illegalOp, 6⟩
  else if r.bad || r.i.illegal = some .value then .err ⟨.illegalField, 7⟩
  else .ok r.i

/-- A unit of the control stream: a payload bit that its format reserves is step 2 (Table 06-10, R121), one that a tile
row's entry leaves unused is step 6 (R120, notes/assumptions/16.md). Its arguments are its governing prefix's payload, its first word, and the word after it (used by a
tile unit alone). Outside system mode `sys` is false. -/
def decodeUnit (sys : Bool) (x : Pfx) (w0 w1 : Word) : Decoded :=
  match w0.kind with
  | 3 => .err ⟨.illegalOp, 2⟩
  | 1 =>
    let op := (w0.extractLsb' 2 10).toNat
    match tileRow op (tileFields w0 w1 x) with
    | none => .err (if experimentalTile op then ⟨.lifetime, 4⟩ else ⟨.illegalOp, 3⟩)
    | some i =>
      decodeRow sys ⟨i, 0, false⟩ ((x.getD 0 &&& ~~~i.payloadUse) != 0)
  | _ =>
    match decodeCtl w0 x with
    | none =>
      if x.isSome && (w0.opcode == 0x01 || w0.opcode == 0x04 || w0.opcode == 0x20 || w0.opcode == 0x60
          || w0.opcode == 0x03) then .err ⟨.illegalOp, 2⟩
      else .err (if experimentalCtl w0.opcode then ⟨.lifetime, 4⟩ else ⟨.illegalOp, 3⟩)
    | some r =>
      if x.isSome && (!acceptsPfx w0.opcode || (x.getD 0 &&& ~~~r.i.payloadUse) != 0) then .err ⟨.illegalOp, 2⟩
      else decodeRow sys r ((w0 &&& r.resv) != 0)

/-- The little-endian word of four bytes (R10). -/
def wordOfBytes (b0 b1 b2 b3 : Byte) : Word := b3 ++ b2 ++ b1 ++ b0

/-- The bytes of a word, lowest address first (R10). -/
def bytesOfWord (w : Word) : List Byte :=
  [w.extractLsb' 0 8, w.extractLsb' 8 8, w.extractLsb' 16 8, w.extractLsb' 24 8]

/-- The control-stream words of a list of bytes; a part of a word at the end is left out. -/
def wordsOfBytes : List Byte → List Word
  | b0 :: b1 :: b2 :: b3 :: bs => wordOfBytes b0 b1 b2 b3 :: wordsOfBytes bs
  | _ => []

/-- The words of a unit that starts a list of words: its prefix payload, its words, and the words after it. None where
the list ends inside the unit. A prefix governs the unit of the next word (R119). -/
def splitUnit : List Word → Option (Pfx × Word × Word × List Word)
  | [] => none
  | w :: ws =>
    if w.kind = 3 then
      match ws with
      | [] => none
      | v :: vs =>
        if v.kind = 1 then
          match vs with
          | [] => none
          | u :: us => some (some (w.extractLsb' 2 30), v, u, us)
        else some (some (w.extractLsb' 2 30), v, 0, vs)
    else if w.kind = 1 then
      match ws with
      | [] => none
      | u :: us => some (none, w, u, us)
    else some (none, w, 0, ws)

/-- The first unit of a list of words and the words after it. -/
def decodeWords (sys : Bool) (ws : List Word) : Option (Decoded × List Word) :=
  match splitUnit ws with
  | none => none
  | some (x, w0, w1, rest) => some (decodeUnit sys x w0 w1, rest)

/-- The bytes of an instruction whose bits are `w`, in `n` bytes, little-endian. -/
def bytesOfNat : Nat → Nat → List Byte
  | 0, _ => []
  | n + 1, w => BitVec.ofNat 8 w :: bytesOfNat n (w / 256)

/-- The longest unit: a prefix and a tile instruction. -/
def maxUnitBytes : Nat := 12

/-- The instruction the decoder reads from the bits `w` of an opcode-table row: `nbits` bits, the bits above them
zero, in system mode, where every row of the control stream decodes. -/
def decodeTableWord (nbits w : Nat) : Option Instr :=
  match decodeWords true (wordsOfBytes (bytesOfNat maxUnitBytes (w % 2 ^ nbits))) with
  | some (.ok i, _) => some i
  | _ => none

/-! ## Lane words (R125, Table 06-17) -/

/-- The fields of a lane word. -/
def laneFields (w : BitVec 64) : LaneFields :=
  { ld := w.extractLsb' 8 6, la := w.extractLsb' 14 6, lb := w.extractLsb' 20 6, k := w.extractLsb' 26 6,
    imm := w.extractLsb' 32 32 }

/-- The lane row of an op value (Table 06-17). -/
def laneRow (op : Nat) (f : LaneFields) : Option Instr :=
  match op with
  | 0x01 => some (.lfadd f)
  | 0x02 => some (.lfsub f)
  | 0x03 => some (.lfmul f)
  | 0x04 => some (.lffma f)
  | 0x05 => some (.lfmin f)
  | 0x06 => some (.lfmax f)
  | 0x07 => some (.lfabs f)
  | 0x08 => some (.lfneg f)
  | 0x09 => some (.lfcmp f)
  | 0x10 => some (.lrcp f)
  | 0x11 => some (.lrsqrt f)
  | 0x12 => some (.lsqrt f)
  | 0x13 => some (.lexp2 f)
  | 0x14 => some (.llog2 f)
  | 0x15 => some (.ltanh f)
  | 0x20 => some (.liadd f)
  | 0x21 => some (.lisub f)
  | 0x22 => some (.limul f)
  | 0x23 => some (.limulh f)
  | 0x24 => some (.lmin f)
  | 0x25 => some (.lmax f)
  | 0x26 => some (.lminn f)
  | 0x27 => some (.lmaxn f)
  | 0x28 => some (.lband f)
  | 0x29 => some (.lbor f)
  | 0x2A => some (.lbxor f)
  | 0x2B => some (.lsll f)
  | 0x2C => some (.lsrl f)
  | 0x2D => some (.lsra f)
  | 0x2E => some (.licmp f)
  | 0x30 => some (.lcvt f)
  | 0x31 => some (.lmov f)
  | 0x32 => some (.lmovi f)
  | 0x33 => some (.lsel f)
  | 0x34 => some (.lkop f)
  | 0x40 => some (.ldadd f)
  | 0x41 => some (.ldsub f)
  | 0x42 => some (.ldmul f)
  | 0x43 => some (.ldfma f)
  | 0x44 => some (.ldcmp f)
  | 0x50 => some (.lrd f)
  | 0x51 => some (.lwr f)
  | 0x52 => some (.lidx f)
  | 0x53 => some (.lacc f)
  | 0x60 => some (.lnext f)
  | 0x61 => some (.lstop f)
  | _ => none

/-- What the check of a lane word at a function's first fetch gives (Table 09-1). -/
inductive LaneDecoded where
  | ok (i : Instr)
  | illegal
  | lifetime
  deriving DecidableEq, Repr

/-- A lane word (R125, R131). -/
def decodeLane (w : BitVec 64) : LaneDecoded :=
  let op := (w.extractLsb' 0 8).toNat
  match laneRow op (laneFields w) with
  | none => if 0xF0 ≤ op then .lifetime else .illegal
  | some i => if i.illegal = none then .ok i else .illegal

/-! ## Queue commands (R324, Table 17-5) -/

/-- The length in words of a queue command by its op value (R328), 0 for an op no row assigns. -/
def queueLen (op : Nat) : Nat :=
  match op with
  | 0x01 | 0x02 | 0x08 | 0x09 | 0x0A => 4
  | 0x03 | 0x07 => 3
  | 0x04 | 0x05 | 0x06 | 0x0C | 0x0D => 2
  | 0x0B => 5
  | _ => 0

/-- The fields of a queue command, from W0, SEQ and the extension words its op gives it. -/
def queueFields (w0 seq x0 x1 x2 : BitVec 64) : QueueCmd :=
  let n := queueLen (w0.extractLsb' 0 8).toNat
  { flags := w0.extractLsb' 8 8, ev := w0.extractLsb' 16 16, opnd := w0.extractLsb' 32 32, seq := seq,
    x0 := if 3 ≤ n then x0 else 0, x1 := if 4 ≤ n then x1 else 0, x2 := if 5 ≤ n then x2 else 0 }

/-- The queue row of an op value; RET of qlend selects between two rows. -/
def queueRow (op : Nat) (c : QueueCmd) : Option Instr :=
  match op with
  | 0x01 => some (.qlaunch c)
  | 0x02 => some (.qcopy c)
  | 0x03 => some (.qwait c)
  | 0x04 => some (.qsig c)
  | 0x05 => some (.qintr c)
  | 0x06 => some (.qfence c)
  | 0x07 => some (.qbr c)
  | 0x08 => some (.qjump c)
  | 0x09 => some (.qstage c)
  | 0x0A => some (if c.flag then .qlendRet c else .qlend c)
  | 0x0B => some (.qmark c)
  | 0x0C => some (.qnop c)
  | 0x0D => some (.qend c)
  | _ => none

/-- What decoding a queue command gives: a row, or the error of checks 2 to 4 of R325. -/
inductive QueueDecoded where
  | ok (i : Instr)
  | opcode
  | lifetime
  | reserved
  | field
  deriving DecidableEq, Repr

/-- A queue command (R325, checks 2 to 4). -/
def decodeQueue (w0 seq x0 x1 x2 : BitVec 64) : QueueDecoded :=
  let op := (w0.extractLsb' 0 8).toNat
  match queueRow op (queueFields w0 seq x0 x1 x2) with
  | none => if 0xF0 ≤ op then .lifetime else .opcode
  | some i =>
    match i.illegal with
    | none => .ok i
    | some .value => .field
    | some _ => .reserved

/-! ## The encoder -/

/-- The word of a prefix with payload `p` (R119). -/
def pfxWord (p : BitVec 30) : Word := p ++ 0b11#2

/-- The words of a prefix, when there is one. -/
def pfxWords : Pfx → List Word
  | none => []
  | some p => [pfxWord p]

/-- The words of a tile unit of opcode10 value `op` (Tables 06-11, 06-12). -/
def tileWords (op : BitVec 10) (f : TileFields) : List Word :=
  pfxWords f.pfx ++ [f.tc ++ f.tb ++ f.ta ++ f.td ++ op ++ 0b01#2, f.imm ++ f.p ++ f.as ++ f.gs ++ f.md]

/-- The 64-bit word of a lane instruction of op value `op`, low half first. -/
def laneWords (op : BitVec 8) (f : LaneFields) : List Word := [f.k ++ f.lb ++ f.la ++ f.ld ++ op, f.imm]

/-- A 64-bit word as two control-stream words. -/
def halves (w : BitVec 64) : List Word := [w.extractLsb' 0 32, w.extractLsb' 32 32]

/-- The words of a queue command of op value `op`, each 64-bit word low half first. -/
def queueWords (op : BitVec 8) (c : QueueCmd) : List Word :=
  let n := queueLen op.toNat
  halves (c.opnd ++ c.ev ++ c.flags ++ op) ++ halves c.seq ++ (if 3 ≤ n then halves c.x0 else [])
    ++ (if 4 ≤ n then halves c.x1 else []) ++ (if 5 ≤ n then halves c.x2 else [])

/-- The words of an instruction (of a lane or queue row, in halves of 32 bits); an event of another agent has none. -/
def encode : Instr → List Word
  | .add d a b => [0x0#9 ++ b ++ a ++ d ++ 0x2#8]
  | .sub d a b => [0x1#9 ++ b ++ a ++ d ++ 0x2#8]
  | .mul d a b => [0x2#9 ++ b ++ a ++ d ++ 0x2#8]
  | .mulh d a b => [0x3#9 ++ b ++ a ++ d ++ 0x2#8]
  | .mulhn d a b => [0x4#9 ++ b ++ a ++ d ++ 0x2#8]
  | .div d a b => [0x5#9 ++ b ++ a ++ d ++ 0x2#8]
  | .divn d a b => [0x6#9 ++ b ++ a ++ d ++ 0x2#8]
  | .rem d a b => [0x7#9 ++ b ++ a ++ d ++ 0x2#8]
  | .remn d a b => [0x8#9 ++ b ++ a ++ d ++ 0x2#8]
  | .and d a b => [0x9#9 ++ b ++ a ++ d ++ 0x2#8]
  | .or d a b => [0xa#9 ++ b ++ a ++ d ++ 0x2#8]
  | .xor d a b => [0xb#9 ++ b ++ a ++ d ++ 0x2#8]
  | .andn d a b => [0xc#9 ++ b ++ a ++ d ++ 0x2#8]
  | .sll d a b => [0xd#9 ++ b ++ a ++ d ++ 0x2#8]
  | .srl d a b => [0xe#9 ++ b ++ a ++ d ++ 0x2#8]
  | .sra d a b => [0xf#9 ++ b ++ a ++ d ++ 0x2#8]
  | .min d a b => [0x10#9 ++ b ++ a ++ d ++ 0x2#8]
  | .max d a b => [0x11#9 ++ b ++ a ++ d ++ 0x2#8]
  | .minn d a b => [0x12#9 ++ b ++ a ++ d ++ 0x2#8]
  | .maxn d a b => [0x13#9 ++ b ++ a ++ d ++ 0x2#8]
  | .clz d a => [0x280#14 ++ a ++ d ++ 0x2#8]
  | .ctz d a => [0x2a0#14 ++ a ++ d ++ 0x2#8]
  | .popc d a => [0x2c0#14 ++ a ++ d ++ 0x2#8]
  | .sext8 d a => [0x2e0#14 ++ a ++ d ++ 0x2#8]
  | .sext16 d a => [0x300#14 ++ a ++ d ++ 0x2#8]
  | .sext32 d a => [0x320#14 ++ a ++ d ++ 0x2#8]
  | .cmp d a b r => [r ++ b ++ a ++ d ++ 0x4#8]
  | .sel d a b n i => [0x0#5 ++ i ++ n ++ b ++ a ++ d ++ 0x6#8]
  | .fadd d a b f r => [0x0#1 ++ r ++ f ++ 0x0#4 ++ b ++ a ++ d ++ 0x8#8]
  | .fsub d a b f r => [0x0#1 ++ r ++ f ++ 0x1#4 ++ b ++ a ++ d ++ 0x8#8]
  | .fmul d a b f r => [0x0#1 ++ r ++ f ++ 0x2#4 ++ b ++ a ++ d ++ 0x8#8]
  | .ffma d a b f r => [0x0#1 ++ r ++ f ++ 0x3#4 ++ b ++ a ++ d ++ 0x8#8]
  | .fdiv d a b f r => [0x0#1 ++ r ++ f ++ 0x4#4 ++ b ++ a ++ d ++ 0x8#8]
  | .fsqrt d a f r => [0x0#1 ++ r ++ f ++ 0xa0#9 ++ a ++ d ++ 0x8#8]
  | .fmin d a b f => [0x0#4 ++ f ++ 0x6#4 ++ b ++ a ++ d ++ 0x8#8]
  | .fmax d a b f => [0x0#4 ++ f ++ 0x7#4 ++ b ++ a ++ d ++ 0x8#8]
  | .fcvtF32F64 d a r => [0x0#1 ++ r ++ 0x300#10 ++ a ++ d ++ 0x8#8]
  | .fcvtF64F32 d a => [0x100#14 ++ a ++ d ++ 0x8#8]
  | .fcvtS64 d a f r => [0x0#1 ++ r ++ f ++ 0x120#9 ++ a ++ d ++ 0x8#8]
  | .fcvtN64 d a f r => [0x0#1 ++ r ++ f ++ 0x140#9 ++ a ++ d ++ 0x8#8]
  | .fcvtFmtS64 d a f r => [0x0#1 ++ r ++ f ++ 0x160#9 ++ a ++ d ++ 0x8#8]
  | .fcvtFmtN64 d a f r => [0x0#1 ++ r ++ f ++ 0x180#9 ++ a ++ d ++ 0x8#8]
  | .fcmp d a b r f => [0x0#4 ++ f ++ 0x0#1 ++ r ++ b ++ a ++ d ++ 0xa#8]
  | .addi d a i x => pfxWords x ++ [i ++ a ++ d ++ 0x10#8]
  | .andi d a i x => pfxWords x ++ [i ++ a ++ d ++ 0x12#8]
  | .ori d a i x => pfxWords x ++ [i ++ a ++ d ++ 0x14#8]
  | .xori d a i x => pfxWords x ++ [i ++ a ++ d ++ 0x16#8]
  | .slli d a i x => pfxWords x ++ [i ++ a ++ d ++ 0x18#8]
  | .srli d a i x => pfxWords x ++ [i ++ a ++ d ++ 0x1a#8]
  | .srai d a i x => pfxWords x ++ [i ++ a ++ d ++ 0x1c#8]
  | .cmpiEq d a i x => pfxWords x ++ [i ++ a ++ d ++ 0x20#8]
  | .cmpiNe d a i x => pfxWords x ++ [i ++ a ++ d ++ 0x22#8]
  | .cmpiLt d a i x => pfxWords x ++ [i ++ a ++ d ++ 0x24#8]
  | .cmpiLe d a i x => pfxWords x ++ [i ++ a ++ d ++ 0x26#8]
  | .cmpiGt d a i x => pfxWords x ++ [i ++ a ++ d ++ 0x28#8]
  | .cmpiGe d a i x => pfxWords x ++ [i ++ a ++ d ++ 0x2a#8]
  | .cmpiLtn d a i x => pfxWords x ++ [i ++ a ++ d ++ 0x2c#8]
  | .cmpiGen d a i x => pfxWords x ++ [i ++ a ++ d ++ 0x2e#8]
  | .lui d i x => pfxWords x ++ [i ++ d ++ 0x30#8]
  | .li d i x => pfxWords x ++ [i ++ d ++ 0x32#8]
  | .aadd d a g s => [0x0#8 ++ s ++ g ++ a ++ d ++ 0x40#8]
  | .asub d a g s => [0x1#8 ++ s ++ g ++ a ++ d ++ 0x40#8]
  | .amovg d g => [0x10#11 ++ g ++ 0x0#4 ++ d ++ 0x40#8]
  | .amovh a g => [0x18#11 ++ g ++ a ++ 0x40#12]
  | .gmova a g => [0x20#11 ++ g ++ a ++ 0x40#12]
  | .ahi d a g => [0x28#11 ++ g ++ a ++ d ++ 0x40#8]
  | .acmp d a b r => [0x6#8 ++ r ++ b ++ a ++ d ++ 0x40#8]
  | .aaddi d a i x => pfxWords x ++ [i ++ a ++ d ++ 0x42#8]
  | .br d x => pfxWords x ++ [d ++ 0x80#8]
  | .brp p n d x => pfxWords x ++ [d ++ n ++ p ++ 0x82#8]
  | .loop g i x => pfxWords x ++ [i ++ g ++ 0x84#8]
  | .call d x => pfxWords x ++ [d ++ 0x86#8]
  | .calli a => [0x0#14 ++ a ++ 0x88#13]
  | .jmpi a => [0x0#14 ++ a ++ 0x8a#13]
  | .ret => [0x8c#32]
  | .land => [0x8e#32]
  | .ld g a s o x => pfxWords x ++ [o ++ s ++ a ++ g ++ 0xa0#8]
  | .ldS g a s o x => pfxWords x ++ [o ++ s ++ a ++ g ++ 0xa2#8]
  | .st g a s o x => pfxWords x ++ [o ++ s ++ a ++ g ++ 0xa4#8]
  | .lda g a o x => pfxWords x ++ [o ++ 0x0#2 ++ a ++ g ++ 0xa6#8]
  | .sta g a o x => pfxWords x ++ [o ++ 0x0#2 ++ a ++ g ++ 0xa8#8]
  | .pref h a s o x => pfxWords x ++ [o ++ s ++ a ++ h ++ 0xaa#8]
  | .csrr g c => [c ++ 0x0#7 ++ g ++ 0xc0#8]
  | .csrw g c => [c ++ 0x1#7 ++ g ++ 0xc0#8]
  | .csrs g c => [c ++ 0x2#7 ++ g ++ 0xc0#8]
  | .csrc g c => [c ++ 0x3#7 ++ g ++ 0xc0#8]
  | .trap i x => pfxWords x ++ [i ++ 0xc2#13]
  | .brk i x => pfxWords x ++ [i ++ 0xc4#13]
  | .nop => [0xc6#32]
  | .endUnit => [0xc8#32]
  | .eret => [0xca#32]
  | .tlbi a b k s => [0x0#4 ++ s ++ k ++ b ++ a ++ 0xcc#13]
  | .icinv a b s => [0x0#6 ++ s ++ b ++ a ++ 0xce#13]
  | .cpatch a b s w => [0x0#5 ++ w ++ s ++ b ++ a ++ 0xd0#13]
  | .ctxsave d a b => [0x0#9 ++ b ++ a ++ d ++ 0xd2#8]
  | .ctxload d a b => [0x0#9 ++ b ++ a ++ d ++ 0xd4#8]
  | .tkadm d a b o => [0x0#6 ++ o ++ b ++ a ++ d ++ 0xd6#8]
  | .tshape f => tileWords 0x001 f
  | .tshapeKeep f => tileWords 0x001 f
  | .tview f => tileWords 0x002 f
  | .tfree f => tileWords 0x003 f
  | .setx f => tileWords 0x004 f
  | .tseq f => tileWords 0x005 f
  | .tfill f => tileWords 0x006 f
  | .tmov f => tileWords 0x007 f
  | .ttr f => tileWords 0x008 f
  | .tadd f => tileWords 0x010 f
  | .tsub f => tileWords 0x011 f
  | .tmul f => tileWords 0x012 f
  | .tdiv f => tileWords 0x013 f
  | .tmin f => tileWords 0x014 f
  | .tmax f => tileWords 0x015 f
  | .tabs f => tileWords 0x016 f
  | .tneg f => tileWords 0x017 f
  | .tfma f => tileWords 0x018 f
  | .trcp f => tileWords 0x020 f
  | .trsqrt f => tileWords 0x021 f
  | .tsqrt f => tileWords 0x022 f
  | .texp2 f => tileWords 0x023 f
  | .tlog2 f => tileWords 0x024 f
  | .ttanh f => tileWords 0x025 f
  | .trem f => tileWords 0x030 f
  | .tand f => tileWords 0x031 f
  | .tor f => tileWords 0x032 f
  | .txor f => tileWords 0x033 f
  | .tandn f => tileWords 0x034 f
  | .tsll f => tileWords 0x035 f
  | .tsrl f => tileWords 0x036 f
  | .tsra f => tileWords 0x037 f
  | .tmulh f => tileWords 0x038 f
  | .tcmp f => tileWords 0x040 f
  | .tsel f => tileWords 0x041 f
  | .tcvt f => tileWords 0x100 f
  | .tquant f => tileWords 0x101 f
  | .tdequant f => tileWords 0x102 f
  | .tred f => tileWords 0x110 f
  | .tscan f => tileWords 0x111 f
  | .tperm f => tileWords 0x120 f
  | .tslide f => tileWords 0x121 f
  | .tbcast f => tileWords 0x122 f
  | .txchg f => tileWords 0x123 f
  | .map f => tileWords 0x130 f
  | .mapred f => tileWords 0x131 f
  | .momu f => tileWords 0x140 f
  | .mma f => tileWords 0x180 f
  | .mmas f => tileWords 0x181 f
  | .mmsp f => tileWords 0x182 f
  | .mmb f => tileWords 0x183 f
  | .mzero f => tileWords 0x190 f
  | .mfill f => tileWords 0x191 f
  | .mdrain f => tileWords 0x192 f
  | .mrow f => tileWords 0x193 f
  | .mcol f => tileWords 0x194 f
  | .tld f => tileWords 0x200 f
  | .tst f => tileWords 0x201 f
  | .tstNfz f => tileWords 0x201 f
  | .tldg f => tileWords 0x202 f
  | .tstg f => tileWords 0x203 f
  | .tldm f => tileWords 0x204 f
  | .csld f => tileWords 0x210 f
  | .csst f => tileWords 0x211 f
  | .cpy f => tileWords 0x220 f
  | .cpyw f => tileWords 0x221 f
  | .cpyc f => tileWords 0x222 f
  | .cpyq f => tileWords 0x223 f
  | .send f => tileWords 0x230 f
  | .recv f => tileWords 0x231 f
  | .tatom f => tileWords 0x240 f
  | .cbar f => tileWords 0x2C0 f
  | .fence f => tileWords 0x2C1 f
  | .atom f => tileWords 0x2C8 f
  | .evsig f => tileWords 0x2D0 f
  | .evwait f => tileWords 0x2D1 f
  | .evquery f => tileWords 0x2D2 f
  | .futrd f => tileWords 0x2D8 f
  | .futwr f => tileWords 0x2D9 f
  | .tklend f => tileWords 0x2E0 f
  | .tkret f => tileWords 0x2E1 f
  | .tksplit f => tileWords 0x2E2 f
  | .tkjoin f => tileWords 0x2E3 f
  | .tkshare f => tileWords 0x2E4 f
  | .tkunshare f => tileWords 0x2E5 f
  | .tkquery f => tileWords 0x2E6 f
  | .lfadd f => laneWords 0x01 f
  | .lfsub f => laneWords 0x02 f
  | .lfmul f => laneWords 0x03 f
  | .lffma f => laneWords 0x04 f
  | .lfmin f => laneWords 0x05 f
  | .lfmax f => laneWords 0x06 f
  | .lfabs f => laneWords 0x07 f
  | .lfneg f => laneWords 0x08 f
  | .lfcmp f => laneWords 0x09 f
  | .lrcp f => laneWords 0x10 f
  | .lrsqrt f => laneWords 0x11 f
  | .lsqrt f => laneWords 0x12 f
  | .lexp2 f => laneWords 0x13 f
  | .llog2 f => laneWords 0x14 f
  | .ltanh f => laneWords 0x15 f
  | .liadd f => laneWords 0x20 f
  | .lisub f => laneWords 0x21 f
  | .limul f => laneWords 0x22 f
  | .limulh f => laneWords 0x23 f
  | .lmin f => laneWords 0x24 f
  | .lmax f => laneWords 0x25 f
  | .lminn f => laneWords 0x26 f
  | .lmaxn f => laneWords 0x27 f
  | .lband f => laneWords 0x28 f
  | .lbor f => laneWords 0x29 f
  | .lbxor f => laneWords 0x2A f
  | .lsll f => laneWords 0x2B f
  | .lsrl f => laneWords 0x2C f
  | .lsra f => laneWords 0x2D f
  | .licmp f => laneWords 0x2E f
  | .lcvt f => laneWords 0x30 f
  | .lmov f => laneWords 0x31 f
  | .lmovi f => laneWords 0x32 f
  | .lsel f => laneWords 0x33 f
  | .lkop f => laneWords 0x34 f
  | .ldadd f => laneWords 0x40 f
  | .ldsub f => laneWords 0x41 f
  | .ldmul f => laneWords 0x42 f
  | .ldfma f => laneWords 0x43 f
  | .ldcmp f => laneWords 0x44 f
  | .lrd f => laneWords 0x50 f
  | .lwr f => laneWords 0x51 f
  | .lidx f => laneWords 0x52 f
  | .lacc f => laneWords 0x53 f
  | .lnext f => laneWords 0x60 f
  | .lstop f => laneWords 0x61 f
  | .qlaunch c => queueWords 0x01 c
  | .qcopy c => queueWords 0x02 c
  | .qwait c => queueWords 0x03 c
  | .qsig c => queueWords 0x04 c
  | .qintr c => queueWords 0x05 c
  | .qfence c => queueWords 0x06 c
  | .qbr c => queueWords 0x07 c
  | .qjump c => queueWords 0x08 c
  | .qstage c => queueWords 0x09 c
  | .qlend c => queueWords 0x0A c
  | .qlendRet c => queueWords 0x0A c
  | .qmark c => queueWords 0x0B c
  | .qnop c => queueWords 0x0C c
  | .qend c => queueWords 0x0D c
  | .tail _ _ | .stop _ _ | .resume _ _ | .skip _ _ | .cancel _ _ | .hostSignal _ _ _ | .queueEnable _ | .boot _
  | .attest _ | .getcert _ | .setcap _ | .mailboxCsrr _ | .mailboxCsrw _ | .mailboxTkadm _ | .trate _ _
  | .moduleOff _ | .moduleOffReturn _ | .tscWrite _ | .fqctl _ _ | .fqhead _ _ | .registerWrite _ _
  | .hostAtomic _ | .hostCas128 _ | .hostAccess _ | .issue _ _ | .scalarReturn _ | .accessComplete _ | .retire _
  | .decodeTrap | .contextStop | .preemptionRequest _ | .preemptionStop | .deschedule _ _
  | .priorityPreemption _ _ | .dispatch _ _ | .contextResume _ | .exchangeDelivery _ | .copyStrip _ _ _ _
  | .stripSteal _ _ _ _ | .mergeRequest _ | .mergeWindowExpiry _ | .tokenAccept _ | .shootdownAck _
  | .contextLost _ | .sliceAdmit _ | .sliceFill _ | .stagingStrip _ _ | .stageDeadline _ _
  | .sequencerSwitch _ _ | .flitDelivery _ _ | .flitCrcError _ _ | .replayWindowClose _ _ | .steeringDrain _
  | .trainingComplete _ _ | .laneRetirement _ _ _ | .mainbandLoss _ | .loomLaneLoss _ _ | .pcieLinkEvent _
  | .patrolScrub _ _ | .powerControlTick _ | .supplyOverdraw _ | .powerLoss | .reset _ | .romInit | .fwInit _
  | .vfFlr _ | .pfFlr | .peerRequest _ | .loomPortTrained _ _ => []

end Sys2Proof
end

