-- ==== Sys2Proof/Config.lean ====
section
/-!
DEFINITION. Sys2Proof/Config.lean: what the spec leaves open. Each constant has no body, so no proof can use a value
of it (notes/assumptions/7.md).
-/

namespace Sys2Proof.Config

/-- Core cycles that pass in step `k` of a core: CYC is their sum (R7 leaves the count open). -/
opaque cycleStep : Nat → Nat

/-- How many entries in flight a resource of Table 01-2 has room for, by its number: one that holds none takes an entry
(R18 gives no count; notes/assumptions/55.md). -/
opaque room : Nat → Nat

/-- Peer devices of the pod and of the fabric partition, by node, as the driver configures them (Table 05-2). -/
opaque podHas : Nat → Bool
opaque fabricHas : Nat → Bool

/-- A free word, applied to a counter the step reads and advances: PWRNOW and TEMP between ticks, and every other
value the spec names and does not state. -/
opaque freeWord : Nat → BitVec 64

/-- A bit of free choice, applied to the same counter: which of two overlapping bytes of one store remains
(R95, R235, R241). -/
opaque freeBit : Nat → Bool

/-- The step of a core's 32-bit Reed LFSR, whose polynomial R382 leaves open. -/
opaque lfsrNext : BitVec 32 → BitVec 32

/-- The last bit of a correctly rounded exp2, log2 or tanh when the model's enclosure does not decide it: the format
code, the function and the operand's bits (notes/assumptions/10.md). -/
opaque transcBits : Nat → Nat → Nat → BitVec 32

/-- SHA3-256 of FIPS 202 (R413). -/
opaque sha3 : List Byte → BitVec 256

/-- ML-DSA-44 verification of FIPS 204 (R413): public key, message, signature. -/
opaque verify : List Byte → List Byte → List Byte → Bool

/-- The signature of a message under the device identity key (R417). -/
opaque sign : List Byte → List Byte

/-- The identity public key, the boot ROM's bytes and the certificate in the configuration store (R416, R417). -/
opaque idPub : List Byte
opaque rom : List Byte
opaque certificate : List Byte

end Sys2Proof.Config
end

