-- ==== Sys2Proof/Machine/State.lean ====
section
/-!
DEFINITION. Sys2Proof/Machine/State.lean: everything the spec gives the machine, as plain data, its reset value, and
the names of the stops. A field's default is its reset value.
-/

namespace Sys2Proof.Machine

/-! ## Why a context stops (Table 12-1) -/

/-- The causes of Table 12-1. -/
inductive Cause where
  | illegalOp
  | illegalField
  | illegalShape
  | illegalLaneBlock
  | lifetime
  | unitAbsent
  | misaligned
  | pageNotPresent
  | pageProtection
  | ownership
  | shareWrite
  | classMismatch
  | memUncorrectable
  | linkLost
  | targetFull
  | linkDegraded
  | breakpoint
  | watchpoint
  | trapInstr
  | stackLimit
  | sdcDetected
  | dmrHomeWrite
  | preempt
  | codeGone
  | waitOverflow
  deriving DecidableEq, Repr

/-- The fault record of Table 12-2. -/
structure FaultRec where
  cause : Cause := .illegalOp
  flags : BitVec 8 := 0
  tile : BitVec 5 := 0
  dstep : BitVec 8 := 0
  tiqseq : BitVec 32 := 0
  row : BitVec 16 := 0
  col : BitVec 16 := 0
  e : BitVec 32 := 0
  va : Addr := 0
  pc : Addr := 0
  ctxid : BitVec 24 := 0
  uid : BitVec 32 := 0
  lseq : BitVec 16 := 0
  deriving DecidableEq, Repr

/-! ## A context (R34, Table 02-5, R275 to R277) -/

/-- A shape record, a 64-bit word of fields (Table 02-3). -/
abbrev Sr := BitVec 64

/-- A tile name: its shape record (Table 02-3) and the bytes of its slot as one bit string, bit j being bit j mod 8 of
byte j div 8 (R57); a byte never written reads 0x00 (R44). -/
structure Tile where
  sr : Sr := 0
  slot : Nat := 0
  deriving DecidableEq, Repr

/-- An entry of the tile instruction queue with the operands copied at the push (R15, R137, R277). -/
structure TiqEntry where
  i : Instr
  seq : BitVec 32
  pc : Addr
  aop : Addr := 0
  g0 : GWord := 0
  g1 : GWord := 0
  g2 : GWord := 0
  scal : List (BitVec 32) := []
  aop2 : Addr := 0
  /-- the SPLIM that governs the unit: its value when the unit was fetched (R154) -/
  splim : BitVec 64 := 0
  /-- issued to its resource (R18) -/
  issued : Bool := false
  /-- its memory access has completed, or it makes none (R22) -/
  done : Bool := false
  /-- its scalar return has been delivered to the control unit (R16) -/
  returned : Bool := false
  /-- row groups that it has read and written (R20) -/
  groups : Nat := 0
  deriving DecidableEq, Repr

/-- An old slot of a tile name, which a later writer has left to its readers: their sequence numbers (R19). -/
structure OldSlot where
  name : BitVec 5
  readers : List (BitVec 32)
  deriving DecidableEq, Repr

/-- What a stopped copy keeps: the cause, the failing address or cluster-space offset, and whether the access was a
write (R247). -/
structure CopyStop where
  cause : Cause
  va : Addr
  cs : Bool := false
  wr : Bool := false
  deriving DecidableEq, Repr

/-- An accepted copy of a context (R246, R247, R277). Strips are numbered from 0 in ascending j. -/
structure Copy where
  desc : BitVec 1024
  ch : BitVec 2
  pc : Addr
  /-- its number among the issuer's copies on the channel (R91) -/
  no : Nat := 0
  /-- elements below this one lie in chunks whose pages have been checked (R236, R246) -/
  checked : Nat := 0
  /-- strips whose bytes have been written -/
  done : List Nat := []
  stop : Option CopyStop := none
  /-- strips that another channel of the cluster has started: strip, core, channel (R319) -/
  stolen : List (Nat × Nat × Nat) := []
  deriving DecidableEq, Repr

/-- What a channel keeps of the issuer's most recent copy: W, whether its destination is cluster space, and the 64
arrival pointers (R90, R91, Table 11-4). -/
structure Chan where
  /-- copies the issuer has put on the channel -/
  no : Nat := 0
  w : Nat := 0
  cs : Bool := false
  arrive : List Nat := []
  deriving DecidableEq, Repr

/-- The kinds of wait a frame saves (R277, Wait). -/
inductive WaitKind where
  | none
  | evwait
  | futrd
  | token
  | txchg
  | send
  | recv
  | cbar
  deriving DecidableEq, Repr

/-- The wait state of a context (R277). -/
structure Wait where
  kind : WaitKind := .none
  sent : Bool := false
  ev : BitVec 16 := 0
  thr : BitVec 64 := 0
  addr : Addr := 0
  lid : BitVec 8 := 0
  deriving DecidableEq, Repr

/-- A watch range (Table 12-8). -/
structure Watch where
  base : Addr := 0
  len : BitVec 64 := 0
  ctl : BitVec 8 := 0
  deriving DecidableEq, Repr

/-- An entry of the range interlock: the bounding byte range of an access in flight (R22). -/
structure Ilock where
  seq : BitVec 32
  lo : Nat
  hi : Nat
  cs : Bool
  write : Bool
  deriving DecidableEq, Repr

/-- What a context slot holds (R23, R31, R264, R432). -/
inductive RunState where
  | idle
  | running
  /-- stopped: faulted, pre-empted or descheduled, its frame not yet saved -/
  | stopped
  /-- squashed by futrd, its core reserved to its group -/
  | parked
  /-- a fresh unit in a staged slot, or a parked unit that futwr has enqueued -/
  | ready
  deriving DecidableEq, Repr

/-- A context: the register files, CSRs, TIQ, copies and saved state of one work unit. -/
structure Ctx where
  g : Vector GWord 32 := Vector.replicate 32 0
  a : Vector Addr 16 := Vector.replicate 16 0
  p : Vector Bool 8 := Vector.replicate 8 false
  tiles : Vector Tile 32 := Vector.replicate 32 {}
  /-- accumulators: element (i, j) is bits 32 (128 i + j) and up of the bit string -/
  acc : Vector Nat 4 := Vector.replicate 4 0
  fcsr : BitVec 6 := 0
  efc : BitVec 32 := 0
  xr : BitVec 9 := 256
  xc : BitVec 11 := 1024
  tsc : BitVec 2 := 0
  tes : BitVec 18 := 0
  uid : BitVec 32 := 0
  ucnt : BitVec 32 := 0
  cgr : BitVec 36 := 0
  lid : BitVec 3 := 0
  diem : BitVec 2 := 0
  retd : BitVec 64 := 0
  bpa : Vector (BitVec 64) 16 := Vector.replicate 16 0
  splim : BitVec 64 := 0
  watch : Vector Watch 4 := Vector.replicate 4 {}
  pc : Addr := 0
  landp : Bool := false
  sidefx : Bool := false
  skipbp : Bool := false
  skipwp : Bool := false
  system : Bool := false
  ctxid : BitVec 24 := 0
  cgid : BitVec 24 := 0
  asid : BitVec 16 := 0
  launch : Option Nat := none
  tiq : List TiqEntry := []
  nextseq : BitVec 32 := 0
  /-- R268: the head entry's performed elements, bit e -/
  performed : Nat := 0
  /-- R269: the head entry's partial destination -/
  partialDst : Option Nat := none
  copies : List Copy := []
  chans : Vector Chan 4 := Vector.replicate 4 {}
  ilock : List Ilock := []
  /-- slots of the rename pool in use (R19) -/
  olds : List OldSlot := []
  wait : Wait := {}
  txcnt : BitVec 64 := 0
  cbargen : BitVec 64 := 0
  sendcnt : Vector (BitVec 32) 8 := Vector.replicate 8 0
  recvcnt : Vector (BitVec 32) 8 := Vector.replicate 8 0
  run : RunState := .idle
  reason : BitVec 8 := 0
  cause : BitVec 8 := 0
  frec : Option FaultRec := none
  crc : BitVec 64 := 0
  inst : Option (BitVec 1) := none
  /-- a futures restart keeps the entry point to begin again from (R30) -/
  entry : Addr := 0
  /-- a pre-empted or descheduled context: the core whose running slot holds it until another unit takes the slot -/
  held : Option Nat := none
  deriving DecidableEq, Repr

/-! ## A core -/

/-- A translation held by a TLB: its tag and leaf (R361). `va` and `size` give the span the leaf covers. -/
structure TlbE where
  asid : BitVec 16
  va : Nat
  size : Nat
  leaf : BitVec 64
  /-- physical address of the leaf -/
  pte : Nat
  deriving DecidableEq, Repr

/-- What an invalidation drops (Table 07-4): a page, an address space, or everything of a TLB; or a range of code. -/
inductive Stale where
  | page (asid : BitVec 16) (va : Nat)
  | space (asid : BitVec 16)
  | all
  | code (lo hi : Nat)
  deriving DecidableEq, Repr

/-- A lane function that the block cache holds: the address space and entry address that found it, and its words with
their physical addresses (R195). -/
structure LaneRes where
  asid : BitVec 16
  entry : Addr
  words : List (Nat × BitVec 64)
  deriving DecidableEq, Repr

/-- A line of a scalar data cache, by 256-byte line number: physical and virtual; whether its page is OWNED, and whether
a store has made it dirty (R80). Its bytes are those of home (notes/assumptions/50.md). -/
structure DLine where
  pa : Nat
  asid : BitVec 16
  va : Nat
  owned : Bool
  dirty : Bool := false
  deriving DecidableEq, Repr

/-- A core: what belongs to it and not to the context it runs (R23, R361, R366, R376). -/
structure Core where
  cid : BitVec 8 := 0
  /-- arithmetic-clock cycles since the core's last reset (R7) -/
  cyc : Nat := 0
  staged : Option Ctx := none
  /-- the core is held for a group that has a parked unit (R432) -/
  reserved : Option (Nat × Nat) := none
  epc : BitVec 64 := 0
  epch : BitVec 8 := 0
  estat : BitVec 1 := 0
  /-- the instruction cache: code by physical address, in aligned runs of 16 bytes (R80, R122) -/
  icache : List (Nat × BitVec 128) := []
  /-- the lane-block cache (R195) -/
  lcache : List LaneRes := []
  /-- the scalar data cache (R80) -/
  dcache : List DLine := []
  /-- the first-level TLB (R361) -/
  tlb : List TlbE := []
  lfsr : BitVec 32 := 1
  /-- times firmware has counted the core suspect (R386) -/
  suspect : BitVec 16 := 0
  /-- a pre-emption the scheduler has requested: its reason (R272) -/
  prereq : Option (BitVec 8) := none
  /-- a fault-queue entry that waits for room (R366) -/
  fqwait : Option FaultRec := none
  /-- Reed has found one mismatch in the head entry (R383) -/
  reedmis : Bool := false
  /-- an invalidation of this core waits for acknowledgements (R362) -/
  inval : Bool := false
  deriving DecidableEq, Repr

/-! ## Lane groups in progress (R36, R197, R207 to R209) -/

/-- One lane: its registers, predicates, whether it is enabled, the successor its terminator chose, how many blocks it
has entered, and the element it runs. -/
structure Lane where
  l : Vector (BitVec 32) 64 := Vector.replicate 64 0
  k : Vector Bool 8 := Vector.replicate 8 false
  on : Bool := true
  /-- the block it waits to enter, none once stopped -/
  succ : Option Nat := some 0
  entered : Nat := 0
  row : Nat := 0
  col : Nat := 0
  e : Nat := 0
  /-- position in its group and the group's number (R205, lidx) -/
  lane : Nat := 0
  group : Nat := 0
  /-- elements of the inputs and of the outputs as they stood, as bits -/
  ins : List Nat := []
  olds : List Nat := []
  /-- what lwr has put in each output -/
  outs : List (Option Nat) := []
  flags : BitVec 6 := 0
  trap : Option Cause := none
  deriving DecidableEq, Repr

/-- What the calling instruction fixes for its lanes (R190, R205, R208). -/
structure LaneCall where
  inFmts : List Nat := []
  outFmts : List Nat := []
  arg : BitVec 64 := 0
  isRed : Bool := false
  nblocks : Nat := 16
  deriving DecidableEq, Repr

/-! ## Groups, launches, queues (chapters 01, 04, 17) -/

/-- A message of send and recv, or an exchange of txchg, delivered and not yet taken. -/
structure Parcel where
  src : Nat
  dst : Nat
  k : Nat
  len : Nat
  bytes : Nat
  ended : Bool := false
  deriving DecidableEq, Repr

/-- Bytes of a reservation whose source Caravan could not read: the range, the cause, and the source address of its
first byte (R433). -/
structure Unread where
  lo : Nat
  hi : Nat
  cause : Cause
  va : Nat
  deriving DecidableEq, Repr

/-- A cluster group of a launch, one per instance under DMR (R14, R76, R77, R252, R387). -/
structure Group where
  launch : Nat
  idx : Nat
  inst : Option (BitVec 1) := none
  cgid : BitVec 24 := 0
  /-- die and cluster it is placed on, none while it is off the part -/
  place : Option (Nat × Nat) := none
  /-- the reservation's size and its bytes as one bit string -/
  size : Nat := 0
  bytes : Nat := 0
  /-- ranges Caravan has still to place, and ranges whose source could not be read (R77, R433) -/
  pending : List (Nat × Nat) := []
  unreadable : List Unread := []
  /-- ranges that are read again after a failure -/
  again : List (Nat × Nat) := []
  /-- cbar arrivals by LID, and the LIDs that have executed end -/
  arrived : List (Nat × Nat) := []
  ended : List Nat := []
  /-- recv operations that wait, as (sender, receiver, count), and messages delivered -/
  recvs : List (Nat × Nat × Nat) := []
  msgs : List Parcel := []
  /-- its units have started: its lend entries have been performed (R343) -/
  begun : Bool := false
  /-- a unit of the group has retired a visible side effect (R385) -/
  sidefx : Bool := false
  deriving DecidableEq, Repr

/-- A waiter of the wait list (R351, R352): its entry, or none in the overflow list, with its place there. A restart
waiter names its cell by physical address. -/
structure Waiter where
  idx : Option Nat
  ovf : Nat := 0
  ev : BitVec 16
  thr : BitVec 64 := 0
  kind : WaitKind
  restart : Bool := false
  cell : Nat := 0
  ctxid : BitVec 24
  inst : Option (BitVec 1) := none
  launch : Option Nat := none
  deriving DecidableEq, Repr

/-- An accepted launch that has not completed (R335, R353). -/
structure Launch where
  id : Nat
  q : Nat
  seq : BitVec 64
  asid : BitVec 16
  /-- the 768 bytes of the record as a bit string (Table 17-6) -/
  record : Nat
  dies : BitVec 2 := 0
  /-- the next group not yet dispatched -/
  next : Nat := 0
  /-- groups withdrawn before they ran, dispatched ahead of `next` (R23, R342) -/
  again : List Nat := []
  /-- units that have executed end, and the instances of units under DMR -/
  units : Nat := 0
  insts : Nat := 0
  flags : BitVec 6 := 0
  late : Bool := false
  lendFail : Bool := false
  sig0 : BitVec 64 := 0
  sig1 : BitVec 64 := 0
  /-- the launch before it in its queue (R339) -/
  prev : Option Nat := none
  /-- L2 staging was off at its acceptance (R344) -/
  unstaged : Bool := false
  /-- memory as it stood at the qlaunch, for a launch that stages cluster space (R110) -/
  snap : List Host.Cell := []
  deriving DecidableEq, Repr

/-- States of Table 17-11. -/
inductive SliceState where
  | wait
  | admitted
  | fill
  | ready
  | held
  | free
  deriving DecidableEq, Repr

/-- A Caravan slice (R344 to R348): the launch's declaration, or the qstage command's. -/
structure Slice where
  launch : Option Nat
  q : Nat
  /-- unit number for L2, group number for cluster space -/
  k : Nat
  csp : Bool
  shared : Bool
  asid : BitVec 16
  src : Addr
  len : Nat
  dst : Nat
  die : Nat := 0
  st : SliceState := .wait
  charge : Nat := 0
  strips : List Nat := []
  /-- the qstage command's SEQ and signal -/
  stage : Option (BitVec 64 × Option (BitVec 16 × BitVec 32)) := none
  deriving DecidableEq, Repr

/-- A tldm merge entry of a home slice (R243, R289): its key, the cores that have joined, and the lines as the one read
found them; none from the first element on whose line could not be read. -/
structure Merge where
  die : Nat
  slice : Nat
  asid : BitVec 16
  /-- physical address of the base -/
  pa : Nat
  mtag : BitVec 12
  cmask : BitVec 16
  pair : Nat
  base : Nat
  pitch : Nat
  rows : Nat
  cols : Nat
  fmt : Nat
  layout : Nat
  er : Nat
  ec : Nat
  joined : List Nat := []
  data : List Nat := []
  /-- the cause of the first element that could not be read -/
  bad : Option Cause := none
  deriving DecidableEq, Repr

/-- Queue states of Table 17-3. -/
inductive QState where
  | idle
  | ready
  | running
  | blocked
  | stopped
  | done
  deriving DecidableEq, Repr

/-- A subprogram in progress (R333): its buffer, its length and position in words, and its qjump's SEQ. -/
structure Sub where
  addr : Addr
  len : Nat
  pos : Nat := 0
  seq : BitVec 64
  deriving DecidableEq, Repr

/-- What an executed command still waits for (R326, Table 17-5). -/
inductive Pending where
  | none
  | launch (id : Nat)
  | copy
  | stage
  | jump
  deriving DecidableEq, Repr

/-- A copy of a queue (R331): the SEQ it ran under, its signal, and its transfer. -/
structure QCopy where
  seq : BitVec 64
  sig : Option (BitVec 16 × BitVec 32) := none
  desc : BitVec 1024
  done : List Nat := []
  /-- as a context's copy -/
  checked : Nat := 0
  stopped : Bool := false
  deriving DecidableEq, Repr

/-- An enabled queue (R322 to R333). HEAD, LASTSEQ and the driver's fields stand in its descriptor in memory. -/
structure Queue where
  q : Nat
  tail : BitVec 64 := 0
  st : QState := .idle
  err : BitVec 8 := 0
  detail : BitVec 16 := 0
  errseq : BitVec 64 := 0
  /-- the error that stopped the queue: ERR also shows a refused host signal (R323) -/
  why : BitVec 8 := 0
  /-- a qend in the ring has executed (R327) -/
  finished : Bool := false
  /-- its last accepted launch (R339) -/
  prev : Option Nat := none
  late : BitVec 64 := 0
  consumed : BitVec 64 := 0
  completed : BitVec 64 := 0
  /-- commands executed since the last status write -/
  fresh : Nat := 0
  stopReq : Bool := false
  /-- the queue stopped for a failed lend, or is to stop for one: the qlaunch's SEQ (R343) -/
  lendStop : Bool := false
  lendErr : Option (BitVec 64) := none
  sub : Option Sub := none
  /-- the command at the head has begun and waits -/
  begun : Bool := false
  /-- commands a qbr has still to skip -/
  skip : Nat := 0
  /-- executed commands from the oldest unfinished one on -/
  out : List (BitVec 64 × Pending) := []
  copies : List QCopy := []
  /-- its place in its ready list (R340) -/
  stamp : Nat := 0
  /-- commands executed in the present run of its sequencer -/
  ran : Nat := 0
  deriving DecidableEq, Repr

/-- A code object the loader has loaded: handle, base and size of its control section (Table 17-9, check 4; R311). -/
structure CodeObj where
  handle : BitVec 32
  base : Nat
  size : Nat
  retiring : Bool := false
  deriving DecidableEq, Repr

/-- What the scheduler controller keeps of a saved context outside its frame (R390), by the frame's address. -/
structure Aside where
  pa : Nat
  /-- its identity, its launch, its DMR signature, and W and the arrival pointers of its channels (R91), for which a
  frame has no place -/
  who : Ctx := {}
  deriving DecidableEq, Repr

/-- A fault-queue entry that waits for room in a die's queue and belongs to no stopped core: SRC 1 to 3, or the entry of
a context that has left its core (R366). -/
structure FqEntry where
  die : Nat
  core : Nat := 0
  record : Nat
  asid : Nat
  src : Nat
  deriving DecidableEq, Repr

/-- Bring-up and the mailbox's controller (chapter 22). The mailbox registers themselves stand in memory. -/
structure Boot where
  /-- STATE: 0 ROM_INIT, 1 WAIT_IMAGE, 2 VERIFY, 3 FW_INIT, 4 READY, 5 FAILED -/
  st : BitVec 8 := 0
  err : BitVec 8 := 0
  /-- fused: security version, revocation bits, digests of the four root keys -/
  svn : BitVec 6 := 0
  revoked : BitVec 4 := 0
  keys : Vector (BitVec 256) 4 := Vector.replicate 4 0
  /-- of the running image: KEYIDX, SVN, ADVSVN, M -/
  key : BitVec 8 := 0
  imgSvn : BitVec 16 := 0
  adv : Bool := false
  m : BitVec 256 := 0
  boots : BitVec 64 := 0
  deriving DecidableEq, Repr

/-! ## The machine -/

/-- The structures of Table 20-1 whose bad lines and entries are dropped and fetched again. -/
inductive ParityKind where
  | code
  | laneBlock
  | data
  | tlb
  | clusterTlb
  | token
  | sorting
  deriving DecidableEq, Repr

/-- Where an error is found (Table 20-1). -/
inductive EccSite where
  /-- the G, A and P registers, CSRs, shape records and TIQ of core c -/
  | registers (c : Nat)
  /-- the lane operand buffers of core c -/
  | operands (c : Nat)
  /-- a tile slot or an accumulator of core c, as the head entry reads it -/
  | slots (c : Nat)
  /-- entry n of a structure of core c under parity: a clean line of a cache, a TLB or token-cache entry, a sorting frame -/
  | parity (c : Nat) (kind : ParityKind) (n : Nat)
  /-- dirty line n of core c's scalar data cache -/
  | dirty (c n : Nat)
  /-- a granule of a cluster's scratchpad: die, cluster, launch and group that hold it, offset in its reservation -/
  | pad (die cl launch group off : Nat)
  /-- a granule of a line that an L2 slice holds, by physical address -/
  | l2 (pa : Nat)
  deriving DecidableEq, Repr

/-- A turn of the schedule (notes/assumptions/1.md). -/
inductive Turn where
  /-- a step of another agent that the opcode table lists -/
  | event (i : Instr)
  /-- a queue sequencer's turn -/
  | sequencer (n : Nat)
  /-- the focus moves to core c -/
  | focus (c : Nat)
  /-- the focused core takes its turn -/
  | unit
  /-- entry n of the focused core's TIQ reads and writes its next row group (R20) -/
  | rowGroup (n : Nat)
  /-- an error is found: corrected, or not (R380) -/
  | ecc (site : EccSite) (bad : Bool)
  /-- a PCIe completion for a granule of host memory arrives marked poisoned (R381) -/
  | hostPoison (pa : Nat)
  /-- fault service ends a launch (R354, R368) -/
  | fatal (launch : Nat)
  /-- the dispatch unit places a frame that firmware has handed back, at its address under the service core's space, in
  the staged slot of core c (R368) -/
  | handOff (c : Nat) (asid : BitVec 16) (va : Addr)
  /-- firmware unloads a code object by force (R284) -/
  | unload (handle : BitVec 32)
  /-- the host sets or clears a function's AtomicOp Requester Enable (R375) -/
  | requester (fn : Nat) (on : Bool)
  deriving DecidableEq, Repr

/-- The variants of the part (R1, R3). -/
inductive Variant where
  | l9
  | l7
  | l5
  deriving DecidableEq, Repr

/-! ## Links (chapter 21) -/

/-- A Shuttle module: the registers of Table 21-3, and what its links keep. -/
structure Module where
  rate : BitVec 3 := 0
  width : BitVec 7 := 64
  spares : BitVec 3 := 4
  up : Bool := false
  quiesce : Bool := false
  tfail : Bool := false
  deg : Bool := false
  trate : BitVec 3 := 0
  autosd : Bool := true
  off : Bool := false
  limit : BitVec 32 := 256
  replays : Vector (BitVec 64) 2 := Vector.replicate 2 0
  crcerr : Vector (BitVec 64) 2 := Vector.replicate 2 0
  retired : Vector (BitVec 64) 2 := Vector.replicate 2 0
  retsp : Vector (BitVec 4) 2 := Vector.replicate 2 0
  /-- lanes whose retirement waits for the training in progress: direction, lane -/
  pendingRet : List (Nat × Nat) := []
  /-- the change that is pending or runs: 0 none, 1 a rate change, 2 a return from OFF, 3 a lane retirement, 4 an OFF
  write, 5 an automatic step-down (R397, R400, R403) -/
  change : Nat := 0
  /-- the rate code the running change trains at -/
  target : BitVec 3 := 0
  /-- a step-down waits for the change that runs (R403) -/
  stepDown : Bool := false
  /-- the running change has trained, and its entries return; a return from OFF failed at TRATE and tries RATE -/
  trained : Bool := false
  retry : Bool := false
  /-- flits delivered and replays in the open window of each direction, and whether its ceiling was reported (R402) -/
  winFlits : Vector Nat 2 := Vector.replicate 2 0
  winReplays : Vector Nat 2 := Vector.replicate 2 0
  winReported : Vector Bool 2 := Vector.replicate 2 false
  deriving DecidableEq, Repr

/-- A Loom port: the registers of Table 21-6. -/
structure Port where
  lanes : BitVec 4 := 0
  up : Bool := false
  deg : Bool := false
  peer : BitVec 8 := 0
  en : Bool := false
  fecce : BitVec 64 := 0
  fecue : BitVec 64 := 0
  replays : BitVec 64 := 0
  limit : BitVec 32 := 256
  /-- its open replay window, as a module's -/
  winFlits : Nat := 0
  winReplays : Nat := 0
  winReported : Bool := false
  deriving DecidableEq, Repr

/-- A DMR shadow frame: the instance (die) and launch that took it, the original page and the frame, and the leaf that
maps the page with the log2 of its span (R388). -/
structure Shadow where
  inst : BitVec 1
  launch : Nat
  page : Nat
  frame : Nat
  pte : Nat
  size : Nat
  deriving DecidableEq, Repr

/-- The whole machine. `ctx` is the running slot of the focused core `core`; the other cores stand in `others`
(notes/assumptions/2.md). -/
structure State where
  ctx : Ctx := {}
  core : Core := {}
  others : List (Core × Ctx) := []
  /-- the lane group in progress -/
  lanes : List Lane := []
  call : LaneCall := {}
  /-- contexts off their cores: squashed units (R30, R432), and units whose frames the scheduler keeps (R272) -/
  saved : List Ctx := []
  groups : List Group := []
  /-- txchg data on its way: between UIDs of a launch (R188, R189) -/
  xchg : List (Nat × Parcel) := []
  /-- bytes by 56-bit physical address, addresses rising, none equal to what an unlisted address reads (R78, R359) -/
  mem : List Host.Cell := []
  /-- poisoned 64-byte granules by physical address (R380) -/
  poison : List Nat := []
  /-- system CSRs that differ from their reset values: key is die x 4096 + number (Table 18-9) -/
  sys : List (Nat × BitVec 64) := []
  /-- invalidations not yet acknowledged: the CID of the agent, and what it is to drop (R362) -/
  shoot : List (Nat × Stale) := []
  /-- loaded code objects that were forcibly unloaded: base and size (R278) -/
  gone : List (Nat × Nat) := []
  variant : Variant := .l9
  die1 : Bool := true
  stepping : BitVec 8 := 1
  gen : BitVec 8 := 1
  turns : List Turn := []
  eager : Bool := true
  freeCtr : Nat := 0
  /-- steps of all cores that have counted cycles: no two steps share a free count (R7) -/
  cycCtr : Nat := 0
  /-- cluster TLBs: cluster, entry (R361); a cluster is die x 16 + its number -/
  clTlb : List (Nat × TlbE) := []
  /-- token caches: core, region whose entry it holds (R361, R364) -/
  tokc : List (Nat × Nat) := []
  /-- lines of local HBM that their home L2 slices hold, by physical line number (R79) -/
  l2 : List Nat := []
  /-- service-core interrupts of the fault queues that wait: die 0, die 1 (R366) -/
  fqIrq : BitVec 2 := 0
  /-- fault-queue entries written per die since EN was set (Table 18-5) -/
  fqseq : Vector (BitVec 64) 2 := Vector.replicate 2 0
  /-- the Shuttle pair is lost (R404) -/
  shLost : Bool := false
  mods : Vector Module 16 := Vector.replicate 16 {}
  /-- SHCTL (Table 21-4): MINMOD 1 at reset; INSVC and LOST are computed -/
  minmod : BitVec 5 := 1
  oden : Bool := false
  shEvn : BitVec 16 := 0
  shEven : Bool := false
  /-- module that serves each steering entry, and entries whose drain is pending: entry, module to move to (R399) -/
  steer : Vector Nat 64 := Vector.ofFn fun i => i.val % 16
  drains : List (Nat × Nat) := []
  ports : Vector Port 8 := Vector.replicate 8 {}
  /-- LROUTE masks that are not 0, by node -/
  lroute : List (Nat × BitVec 8) := []
  shadows : List Shadow := []
  /-- frames that stand in a shadow pool in another's place: die x 2^24 + index (R391) -/
  pools : List (Nat × Nat) := []
  /-- RAS counters that have reported and not been rewritten: die x 4096 + number (R393) -/
  rasRep : List Nat := []
  /-- launches, queues, events and Caravan (chapter 17) -/
  launches : List Launch := []
  nextLaunch : Nat := 0
  /-- the launch last served by a die's dispatch unit in each class: die x 4 + class, launch + 1 (R341) -/
  rr : List (Nat × Nat) := []
  queues : List Queue := []
  nextStamp : Nat := 0
  /-- queue each of the 64 sequencers runs (R340): sequencer, queue -/
  seqs : List (Nat × Nat) := []
  waiters : List Waiter := []
  slices : List Slice := []
  /-- the queue whose command executes -/
  curq : Nat := 0
  /-- ranges of holder IDs that have ended or been lost, until a later launch takes their window (R372, R374) -/
  ended : List (Nat × Nat) := []
  /-- token regions in TRANSIT by a lend: a failed delivery undoes the push (Table 18-8) -/
  lent : List Nat := []
  fqPend : List FqEntry := []
  merges : List Merge := []
  objects : List CodeObj := []
  aside : List Aside := []
  /-- MSI-X interrupts sent, newest first: function, vector -/
  msi : List (Nat × Nat) := []
  /-- VF Enable of the physical function (R406, R410) -/
  vfEnable : Bool := false
  /-- functions whose AtomicOp Requester Enable is set (R375) -/
  atomFns : List Nat := []
  /-- the completion of the last host or peer request: its data, and whether it was a Completer Abort (R408) -/
  hostOut : BitVec 512 := 0
  hostAbort : Bool := false
  boot : Boot := {}
  /-- the thermal-trip signal (R419); module power (R8) -/
  trip : Bool := false
  powered : Bool := true
  deriving DecidableEq, Repr

/-! ## Stops -/

/-- Why the machine stops with no next state. What the spec calls a fault of a context is a next state (R264); the type
has the one fault below. -/
inductive Fault where
  /-- Raised by the row of a register write whose physical address the map of R359 leaves empty. Safe: the model stops
  where the spec gives no effect. -/
  | unmapped (pa : Nat)
  deriving DecidableEq, Repr

/-- Why a step is not taken. -/
inductive Refusal where
  /-- Raised by Dispatch for a row that has no meaning yet. Safe. -/
  | notModelled (mnemonic : String)
  /-- Raised by the step of another agent that cannot come about in the state (an entry that is not there, a guard of
  its rule that does not hold). Safe: the schedule names a step the machine cannot take. -/
  | notEnabled (mnemonic : String)
  deriving DecidableEq, Repr

/-- The outcome of a step or of an instruction. -/
abbrev Out := Host.Outcome State Fault Refusal

/-- The machine right after reset: every field at its default. -/
def State.reset : State := {}

end Sys2Proof.Machine
end

