-- ==== Sys2Proof/Machine/Bits.lean ====
section
/-!
DEFINITION. Sys2Proof/Machine/Bits.lean: bit strings held as natural numbers, memory as a canonical list of cells,
maps held as lists, and little-endian words (R10).
-/

namespace Sys2Proof.Machine

/-! ## Bit strings -/

/-- The `w` bits of a bit string from bit `pos` up. -/
def getBits (b pos w : Nat) : Nat := (b >>> pos) % 2 ^ w

/-- A bit string with the `w` bits from bit `pos` up replaced by the low `w` bits of `v`. -/
def putBits (b pos w v : Nat) : Nat := b ^^^ ((getBits b pos w ^^^ (v % 2 ^ w)) <<< pos)

/-- The low `n` bytes of a bit string, as a list. -/
def bytesOf : Nat → Nat → List Byte
  | 0, _ => []
  | n + 1, b => BitVec.ofNat 8 b :: bytesOf n (b >>> 8)

/-- The bit string of a list of bytes, the first lowest. -/
def ofBytes : List Byte → Nat
  | [] => 0
  | b :: bs => b.toNat + 256 * ofBytes bs

/-- A natural number of `w` bits read as two's complement. -/
def toSigned (w v : Nat) : Int := if 2 ^ w ≤ 2 * (v % 2 ^ w) then ((v % 2 ^ w : Nat) : Int) - 2 ^ w else (v % 2 ^ w : Nat)

/-- An integer wrapped to `w` bits. -/
def wrapInt (w : Nat) (x : Int) : Nat := (x % (2 ^ w : Int)).toNat

/-! ## Memory (R78): a list of cells, addresses strictly rising, no cell equal to what an unlisted address reads -/

namespace Memory

/-- What an unlisted address reads as (DESIGN CHOICE, unsafe: notes/assumptions/5.md). -/
def unlisted : Byte := 0

/-- The byte at an address. -/
def read : List Host.Cell → Nat → Byte
  | [], _ => unlisted
  | (b, v) :: m, a => if a < b then unlisted else if a = b then v else read m a

/-- Memory with the byte at an address replaced; the canonical form is kept. -/
def write : List Host.Cell → Nat → Byte → List Host.Cell
  | [], a, v => if v = unlisted then [] else [(a, v)]
  | (b, u) :: m, a, v =>
    if a < b then (if v = unlisted then (b, u) :: m else (a, v) :: (b, u) :: m)
    else if a = b then (if v = unlisted then m else (a, v) :: m)
    else (b, u) :: write m a v

/-- Every address of the list is above `a`. -/
def above (a : Nat) : List Host.Cell → Bool
  | [] => true
  | (b, _) :: _ => decide (a < b)

/-- The canonical form. -/
def wf : List Host.Cell → Bool
  | [] => true
  | (a, v) :: m => v != unlisted && above a m && wf m

/-- `n` bytes from address `a` up, as a bit string. -/
def rd (m : List Host.Cell) (a : Nat) : Nat → Nat
  | 0 => 0
  | n + 1 => (read m a).toNat + 256 * rd m (a + 1) n

/-- Memory with `n` bytes from address `a` up set to the bit string `v`. -/
def wr (m : List Host.Cell) (a : Nat) : Nat → Nat → List Host.Cell
  | 0, _ => m
  | n + 1, v => wr (write m a (BitVec.ofNat 8 v)) (a + 1) n (v / 256)

end Memory

/-! ## Maps and lists -/

/-- The value at a key of a map held as a list. -/
def lookup {α : Type} (d : α) : List (Nat × α) → Nat → α
  | [], _ => d
  | (k, v) :: m, a => if k = a then v else lookup d m a

/-- A map with the value at a key replaced. -/
def insert {α : Type} : List (Nat × α) → Nat → α → List (Nat × α)
  | [], a, v => [(a, v)]
  | (k, u) :: m, a, v => if k = a then (a, v) :: m else (k, u) :: insert m a v

/-- The list with its element at a position changed. -/
def modifyAt {α : Type} (f : α → α) : List α → Nat → List α
  | [], _ => []
  | x :: xs, 0 => f x :: xs
  | x :: xs, n + 1 => x :: modifyAt f xs n

/-- The list without its element at a position. -/
def removeAt {α : Type} : List α → Nat → List α
  | [], _ => []
  | _ :: xs, 0 => xs
  | x :: xs, n + 1 => x :: removeAt xs n

/-- Two ascending lists merged; `fuel` is at least their total length. -/
def mergeNat : Nat → List Nat → List Nat → List Nat
  | 0, xs, ys => xs ++ ys
  | _, [], ys => ys
  | _, xs, [] => xs
  | n + 1, x :: xs, y :: ys => if x ≤ y then x :: mergeNat n xs (y :: ys) else y :: mergeNat n (x :: xs) ys

/-- A list in ascending order; `fuel` is at least the log2 of its length, rounded up. -/
def sortNat : Nat → List Nat → List Nat
  | 0, xs => xs
  | n + 1, xs =>
    if xs.length ≤ 1 then xs
    else mergeNat xs.length (sortNat n (xs.take (xs.length / 2))) (sortNat n (xs.drop (xs.length / 2)))

/-- 0 to n - 1. -/
abbrev upto (n : Nat) : List Nat := List.range n

/-- A number rounded up to a multiple, quotient rounded up. -/
def ceilDiv (a b : Nat) : Nat := (a + b - 1) / b

/-- The value of a Boolean as a bit. -/
def bit (b : Bool) : Nat := if b then 1 else 0

end Sys2Proof.Machine
end

