-- ==== Sys2Proof/Machine/Flags.lean ====
section
/-!
DEFINITION. Sys2Proof/Machine/Flags.lean: the sticky flags of FCSR (Table 02-6) and how instructions raise them.
-/

namespace Sys2Proof.Machine

/-- A set of FCSR flags, in the register's own bit order (Table 02-6). -/
abbrev FlagSet := BitVec 6

namespace FlagSet
def nv : FlagSet := 1
def dz : FlagSet := 2
def ovf : FlagSet := 4
def unf : FlagSet := 8
def nx : FlagSet := 16
def sat : FlagSet := 32
end FlagSet

/-- The flag when the condition holds, no flag otherwise. -/
def flagIf (c : Bool) (f : FlagSet) : FlagSet := if c then f else 0

/-- An instruction ORs its flags into FCSR (R49). -/
def Ctx.raise (c : Ctx) (f : FlagSet) : Ctx := { c with fcsr := c.fcsr ||| f }

end Sys2Proof.Machine
end

