-- ==== Sys2Proof/Machine/Num.lean ====
section
/-!
DEFINITION. Sys2Proof/Machine/Num.lean: number formats and exact arithmetic (chapter 03). An exact value is a signed
dyadic number, with a sticky mark when the value lies strictly between that number and the next of its last place.
-/

namespace Sys2Proof.Machine

/-- An exact value: NaN (signalling or quiet), an infinity, or (-1)^neg x m x 2^e. With `st` the value lies strictly
between m x 2^e and (m + 1) x 2^e in magnitude. -/
inductive Val where
  | nan (sig : Bool)
  | inf (neg : Bool)
  | fin (neg : Bool) (m : Nat) (e : Int) (st : Bool)
  deriving DecidableEq, Repr

/-- A source of a conversion: a float or scale value, or an integer (R63, R64). -/
inductive Src where
  | flt (v : Val)
  | int (z : Int)
  deriving DecidableEq, Repr

/-- A result: its bit pattern and the flags it raises. -/
abbrev Res := Nat × FlagSet

/-! ## Formats (Tables 03-1, 03-2) -/

/-- Element width in bits by format code; 1 for a bit-plane integer's plane. -/
def fmtWidth (c : Nat) : Nat :=
  match c with
  | 0x00 | 0x09 => 64
  | 0x01 | 0x0A | 0x14 => 32
  | 0x02 | 0x03 | 0x0B | 0x15 => 16
  | 0x04 | 0x05 | 0x0C | 0x0D | 0x10 | 0x11 => 8
  | 0x06 | 0x07 => 6
  | 0x08 | 0x0E | 0x0F => 4
  | 0x12 | 0x13 => 1
  | _ => 8

/-- A floating-point format: width, mantissa bits, bias, its greatest finite magnitude maxM x 2^maxE, whether it has
infinities, whether it has a NaN, whether it has a sign (Table 03-2, R55). -/
structure Fp where
  w : Nat
  mb : Nat
  bias : Nat
  maxM : Nat
  maxE : Int
  hasInf : Bool := true
  hasNan : Bool := true
  signed : Bool := true
  /-- the canonical NaN (R54) -/
  cnan : Nat := 0
  /-- a signalling NaN exists (R54) -/
  hasSnan : Bool := false
  deriving Repr

/-- The float format of a code; f64 for a code that names none. -/
def fpOf (c : Nat) : Fp :=
  match c with
  | 0x01 => { w := 32, mb := 23, bias := 127, maxM := 16777215, maxE := 104, cnan := 0x7FC00000, hasSnan := true }
  | 0x02 => { w := 16, mb := 7, bias := 127, maxM := 255, maxE := 120, cnan := 0x7FC0, hasSnan := true }
  | 0x03 => { w := 16, mb := 10, bias := 15, maxM := 2047, maxE := 5, cnan := 0x7E00, hasSnan := true }
  | 0x04 => { w := 8, mb := 3, bias := 7, maxM := 14, maxE := 5, hasInf := false, cnan := 0x7F }
  | 0x05 => { w := 8, mb := 2, bias := 15, maxM := 7, maxE := 13, cnan := 0x7E }
  | 0x06 => { w := 6, mb := 2, bias := 3, maxM := 7, maxE := 2, hasInf := false, hasNan := false }
  | 0x07 => { w := 6, mb := 3, bias := 1, maxM := 15, maxE := -1, hasInf := false, hasNan := false }
  | 0x08 => { w := 4, mb := 1, bias := 1, maxM := 3, maxE := 1, hasInf := false, hasNan := false }
  | 0x11 => { w := 8, mb := 3, bias := 7, maxM := 14, maxE := 5, hasInf := false, signed := false, cnan := 0x7F }
  | _ => { w := 64, mb := 52, bias := 1023, maxM := 9007199254740991, maxE := 971, cnan := 0x7FF8000000000000,
           hasSnan := true }

namespace Fp
/-- Exponent of the least normal magnitude. -/
def emin (f : Fp) : Int := 1 - f.bias
/-- Bits of the exponent field. -/
def eb (f : Fp) : Nat := if f.signed then f.w - 1 - f.mb else 4
def signBit (f : Fp) (neg : Bool) : Nat := if neg && f.signed then 2 ^ (f.w - 1) else 0
/-- Formats that always saturate (R62). -/
def alwaysSat (f : Fp) : Bool := !f.hasInf && (!f.hasNan || !f.signed)
def infBits (f : Fp) (neg : Bool) : Nat := f.signBit neg + (2 ^ f.eb - 1) * 2 ^ f.mb
/-- The pattern of the representable magnitude q x 2^u (R74, encode). -/
def encode (f : Fp) (neg : Bool) (q : Nat) (u : Int) : Nat :=
  if q < 2 ^ f.mb then f.signBit neg + q
  else if q < 2 ^ (f.mb + 1) then f.signBit neg + (u + f.mb + f.bias).toNat * 2 ^ f.mb + (q - 2 ^ f.mb)
  else f.signBit neg + (u + 1 + f.mb + f.bias).toNat * 2 ^ f.mb
def maxBits (f : Fp) (neg : Bool) : Nat := f.encode neg f.maxM f.maxE
end Fp

/-- The value of a pattern of a float format (R53, R55). -/
def decodeFp (f : Fp) (bits : Nat) : Val :=
  let b := bits % 2 ^ f.w
  let neg := f.signed && decide (2 ^ (f.w - 1) ≤ b)
  let m := b % 2 ^ f.mb
  let ex := (b / 2 ^ f.mb) % 2 ^ f.eb
  if !f.signed && decide (128 ≤ b) then .nan false
  else if f.hasInf && ex = 2 ^ f.eb - 1 then
    if m = 0 then .inf neg else .nan (f.hasSnan && decide (m < 2 ^ (f.mb - 1)))
  else if f.hasNan && !f.hasInf && ex = 2 ^ f.eb - 1 && m = 2 ^ f.mb - 1 then .nan false
  else if ex = 0 then .fin neg m (f.emin - f.mb) false
  else .fin neg (2 ^ f.mb + m) ((ex : Int) - f.bias - f.mb) false

/-- Signed integer formats (R56). -/
def fmtSigned (c : Nat) : Bool := 0x09 ≤ c && c ≤ 0x0E && c != 0x0D

def fmtIsInt (c : Nat) : Bool := (0x09 ≤ c && c ≤ 0x0F) || c == 0x14 || c == 0x15

/-- The value of an element's bits (R74, decode). A mask is 0 or 1; bit-plane integers are read by their own rule. -/
def decodeElem (c bits : Nat) : Src :=
  if fmtIsInt c then
    .int (if fmtSigned c then toSigned (fmtWidth c) bits else (bits % 2 ^ fmtWidth c : Nat))
  else if c = 0x13 then .int (bits % 2 : Nat)
  else if c = 0x10 then
    (if bits % 256 = 255 then .flt (.nan false) else .flt (.fin false 1 (((bits % 256 : Nat) : Int) - 127) false))
  else .flt (decodeFp (fpOf c) bits)

/-- A source as an exact value; integers are exact, with no negative zero. -/
def Src.val : Src → Val
  | .flt v => v
  | .int z => .fin (decide (z < 0)) z.natAbs 0 false

def Val.isNan : Val → Bool
  | .nan _ => true
  | _ => false
def Val.isSnan : Val → Bool
  | .nan s => s
  | _ => false
def Val.isInf : Val → Bool
  | .inf _ => true
  | _ => false
def Val.isZero : Val → Bool
  | .fin _ m _ st => m == 0 && !st
  | _ => false
def Val.isNeg : Val → Bool
  | .nan _ => false
  | .inf n => n
  | .fin n _ _ _ => n
def Val.negate : Val → Val
  | .nan s => .nan s
  | .inf n => .inf !n
  | .fin n m e st => .fin (!n) m e st
def Val.zero (neg : Bool) : Val := .fin neg 0 0 false

/-- NV when an operand is a signalling NaN (R72, R73). -/
def snanFlag (vs : List Val) : FlagSet := flagIf (vs.any Val.isSnan) FlagSet.nv

/-! ## Rounding (R61, R62) -/

/-- round_int of m x 2^e (with its sticky mark) in units of 2^u: the integer and whether it differs from the value. -/
def roundAt (mode : Nat) (neg : Bool) (m : Nat) (e : Int) (st : Bool) (u : Int) : Nat × Bool :=
  if u ≤ e then (m <<< (e - u).toNat, st)
  else
    let k := (u - e).toNat
    let q := m >>> k
    let r := m % 2 ^ k
    let h := 2 ^ (k - 1)
    let inexact := r != 0 || st
    let up :=
      match mode with
      | 1 => false
      | 2 => neg && inexact
      | 3 => !neg && inexact
      | 4 => decide (h ≤ r)
      | _ => decide (h < r) || (r == h && (st || q % 2 == 1))
    (if up then q + 1 else q, inexact)

/-- Whether rounding of an overflowing value of this sign stops at the greatest finite magnitude (R62). -/
def towardZero (mode : Nat) (neg : Bool) : Bool := mode == 1 || (mode == 2 && !neg) || (mode == 3 && neg)

/-- q x 2^u exceeds maxM x 2^maxE. -/
def Fp.exceeds (f : Fp) (q : Nat) (u : Int) : Bool :=
  if f.maxE ≤ u then decide (f.maxM < q <<< (u - f.maxE).toNat) else decide (f.maxM <<< (f.maxE - u).toNat < q)

/-- round_to of a finite exact value (R62). -/
def roundFin (f : Fp) (mode : Nat) (sat neg : Bool) (m : Nat) (e : Int) (st : Bool) : Res :=
  if m = 0 && !st then (f.signBit neg, 0)
  else
    let lg : Int := (Nat.log2 m : Int) + e
    let u : Int := max lg f.emin - f.mb
    if lg > f.maxE + f.mb + 1 then
      if sat || f.alwaysSat then (f.maxBits neg, FlagSet.sat ||| FlagSet.nx)
      else (if towardZero mode neg then f.maxBits neg else if f.hasInf then f.infBits neg else f.cnan,
            FlagSet.ovf ||| FlagSet.nx)
    else
      let (q, nx) := roundAt mode neg m e st u
      if f.exceeds q u then
        if sat || f.alwaysSat then (f.maxBits neg, FlagSet.sat ||| FlagSet.nx)
        else (if towardZero mode neg then f.maxBits neg else if f.hasInf then f.infBits neg else f.cnan,
              FlagSet.ovf ||| FlagSet.nx)
      else (f.encode neg q u, flagIf nx FlagSet.nx ||| flagIf (nx && decide (lg < f.emin)) FlagSet.unf)

/-- Delivers an operation's exact result in a float format: the canonical NaN, an infinity, or round_to. -/
def deliver (c : Nat) (mode : Nat) (sat : Bool) (v : Val) : Res :=
  match v with
  | .nan _ => ((fpOf c).cnan, 0)
  | .inf n => ((fpOf c).infBits n, 0)
  | .fin n m e st => roundFin (fpOf c) mode sat n m e st

/-! ## Conversions (R63, R64) -/

/-- An integer target: width and signedness. -/
def clampInt (w : Nat) (sgn : Bool) (z : Int) : Int :=
  if sgn then max (-(2 : Int) ^ (w - 1)) (min z ((2 : Int) ^ (w - 1) - 1)) else max 0 (min z ((2 : Int) ^ w - 1))

/-- To an integer or bit-plane target of width `w` (R64). -/
def convertInt (w : Nat) (sgn : Bool) (mode : Nat) (sat : Bool) (x : Src) : Res :=
  match x with
  | .int z =>
    if sat then (wrapInt w (clampInt w sgn z), flagIf (clampInt w sgn z != z) FlagSet.sat) else (wrapInt w z, 0)
  | .flt (.nan _) => (0, FlagSet.nv)
  | .flt (.inf n) =>
    (wrapInt w (if n then clampInt w sgn (-(2 : Int) ^ (w + 1)) else clampInt w sgn ((2 : Int) ^ (w + 1))),
      FlagSet.nv ||| FlagSet.sat)
  | .flt (.fin n m e st) =>
    if e > 128 && m != 0 then
      (wrapInt w (if n then clampInt w sgn (-(2 : Int) ^ (w + 1)) else clampInt w sgn ((2 : Int) ^ (w + 1))),
        FlagSet.nv ||| FlagSet.sat ||| FlagSet.nx)
    else
      let (q, nx) := roundAt mode n m e st 0
      let z : Int := if n then -(q : Int) else q
      if clampInt w sgn z = z then (wrapInt w z, flagIf nx FlagSet.nx)
      else (wrapInt w (clampInt w sgn z), FlagSet.nv ||| FlagSet.sat ||| FlagSet.nx)

/-- To e8m0 (R63). -/
def convertE8m0 (mode : Nat) (v : Val) : Res :=
  match v with
  | .nan s => (0xFF, flagIf s FlagSet.nv)
  | .inf n => if n then (0xFF, FlagSet.nv) else (0xFE, FlagSet.sat)
  | .fin n m e st =>
    if n || (m = 0 && !st) then (0xFF, FlagSet.nv)
    else
      let l := Nat.log2 m
      let k : Int := (l : Int) + e
      let exact := m == 2 ^ l && !st
      let up := if mode = 3 then !exact else (mode = 0 || mode = 4) && decide (3 * 2 ^ l ≤ 2 * m)
      let r := if up then k + 1 else k
      let c := max (-127) (min 127 r)
      ((c + 127).toNat, flagIf (c != r) FlagSet.sat ||| flagIf (!exact || up || c != r) FlagSet.nx)

/-- To a float format other than the scale formats (Table 03-4). -/
def convertFp (c : Nat) (mode : Nat) (sat : Bool) (v : Val) : Res :=
  let f := fpOf c
  match v with
  | .nan s => if f.hasNan then (f.cnan, flagIf s FlagSet.nv) else (0, FlagSet.nv)
  | .inf n =>
    if f.hasInf then (if sat then (f.maxBits n, FlagSet.sat) else (f.infBits n, 0))
    else if f.hasNan then (if sat then (f.maxBits n, FlagSet.sat) else (f.cnan, FlagSet.nv))
    else (f.maxBits n, FlagSet.sat)
  | .fin n m e st => roundFin f mode sat n m e st

/-- To ue4m3 (Table 03-4). -/
def convertUe4m3 (mode : Nat) (v : Val) : Res :=
  match v with
  | .nan s => (0x7F, flagIf s FlagSet.nv)
  | .inf n => (if n then 0 else 0x7E, FlagSet.sat)
  | .fin n m e st =>
    if m = 0 && !st then (0, 0) else if n then (0, FlagSet.sat) else roundFin (fpOf 0x11) mode true false m e st

/-- convert(x, fmt, mode, sat) of R74, for every format but the bit-plane integer. -/
def convert (c : Nat) (mode : Nat) (sat : Bool) (x : Src) : Res :=
  if fmtIsInt c then convertInt (fmtWidth c) (fmtSigned c) mode sat x
  else if c = 0x13 then ((if x.val.isZero then 0 else 1), 0)
  else if c = 0x10 then convertE8m0 mode x.val
  else if c = 0x11 then convertUe4m3 mode x.val
  else convertFp c mode sat x.val

/-! ## Exact operations -/

/-- A product (R67, R73): its value and flags. -/
def mulV (a b : Val) : Val × FlagSet :=
  match a, b with
  | .nan _, _ => (.nan false, snanFlag [a, b])
  | _, .nan _ => (.nan false, snanFlag [a, b])
  | .inf n, y => if y.isZero then (.nan false, FlagSet.nv) else (.inf (n != y.isNeg), 0)
  | x, .inf n => if x.isZero then (.nan false, FlagSet.nv) else (.inf (n != x.isNeg), 0)
  | .fin n m e _, .fin n' m' e' _ => (.fin (n != n') (m * m') (e + e') false, 0)

/-- The least exponent among finite values. -/
def minExp : List Val → Int → Int
  | [], d => d
  | .fin _ m e _ :: vs, d => minExp vs (if m = 0 then d else min e d)
  | _ :: vs, d => minExp vs d

/-- The sum of the finite values in units of 2^u. -/
def sumAt (u : Int) : List Val → Int
  | [] => 0
  | .fin n m e _ :: vs =>
    let x : Int := ((m <<< (e - u).toNat : Nat) : Int)
    (if m = 0 then 0 else if n then -x else x) + sumAt u vs
  | _ :: vs => sumAt u vs

/-- The sign of a zero sum (R62). -/
def zeroSumNeg (mode : Nat) (vs : List Val) : Bool :=
  if mode = 2 then !(vs.all fun v => v.isZero && !v.isNeg) else vs.all fun v => v.isZero && v.isNeg

/-- exact_sum (R67) of values, in the sign rule of a rounding mode. Signalling NaN operands raise NV where they are
read. -/
def sumV (mode : Nat) (vs : List Val) : Val × FlagSet :=
  let pinf := vs.any fun v => v.isInf && !v.isNeg
  let ninf := vs.any fun v => v.isInf && v.isNeg
  let fl := snanFlag vs ||| flagIf (pinf && ninf) FlagSet.nv
  if vs.any Val.isNan || (pinf && ninf) then (.nan false, fl)
  else if pinf then (.inf false, fl)
  else if ninf then (.inf true, fl)
  else
    let u := minExp vs 1100
    let z := sumAt u vs
    if z = 0 then (.fin (zeroSumNeg mode vs) 0 0 false, fl) else (.fin (decide (z < 0)) z.natAbs u false, fl)

/-- a x b + c, exact (R62, R174). -/
def fmaV (mode : Nat) (a b c : Val) : Val × FlagSet :=
  let (p, f) := mulV a b
  let (s, g) := sumV mode [p, c]
  (s, f ||| g)

/-- A quotient (Table 03-5): at least 100 bits, with the sticky mark where it does not end. -/
def divV (a b : Val) : Val × FlagSet :=
  match a, b with
  | .nan _, _ => (.nan false, snanFlag [a, b])
  | _, .nan _ => (.nan false, snanFlag [a, b])
  | .inf n, .inf _ => (.nan n, FlagSet.nv)
  | .inf n, y => (.inf (n != y.isNeg), 0)
  | x, .inf n => (.fin (n != x.isNeg) 0 0 false, 0)
  | .fin n m e _, .fin n' m' e' _ =>
    if m' = 0 then (if m = 0 then (.nan false, FlagSet.nv) else (.inf (n != n'), FlagSet.dz))
    else if m = 0 then (.fin (n != n') 0 0 false, 0)
    else
      let k := 100 + Nat.log2 m' - Nat.log2 m
      let q := (m <<< k) / m'
      (.fin (n != n') q (e - e' - k) (q * m' != m <<< k), 0)

/-- The integer square root, bit by bit from bit `i`. -/
def isqrtAux (n : Nat) : Nat → Nat → Nat
  | 0, r => r
  | i + 1, r => isqrtAux n i (if (r + 2 ^ i) * (r + 2 ^ i) ≤ n then r + 2 ^ i else r)

def isqrt (n : Nat) : Nat := isqrtAux n (Nat.log2 n / 2 + 1) 0

/-- √(m x 2^e ÷ m') for positive m and m', to at least 100 bits. -/
def sqrtRatio (m m' : Nat) (e : Int) : Val :=
  let odd := (e % 2).toNat
  let k := 2 * (110 + Nat.log2 m')
  let n := m <<< (k + odd)
  let q := isqrt (n / m')
  .fin false q ((e - odd) / 2 - (k / 2 : Nat)) (q * q * m' != n)

/-- A square root (Table 03-5). -/
def sqrtV (a : Val) : Val × FlagSet :=
  match a with
  | .nan s => (.nan false, flagIf s FlagSet.nv)
  | .inf n => if n then (.nan false, FlagSet.nv) else (.inf false, 0)
  | .fin n m e _ =>
    if m = 0 then (.fin n 0 0 false, 0) else if n then (.nan false, FlagSet.nv) else (sqrtRatio m 1 e, 0)

/-- √(a ÷ b), one exact value (R192). -/
def sqrtDivV (a b : Val) : Val × FlagSet :=
  match a, b with
  | .fin n m e _, .fin n' m' e' _ =>
    if m = 0 || m' = 0 || n != n' then
      let (q, f) := divV a b
      let (r, g) := sqrtV q
      (r, f ||| g)
    else (sqrtRatio m m' (e - e'), 0)
  | _, _ =>
    let (q, f) := divV a b
    let (r, g) := sqrtV q
    (r, f ||| g)

/-- The order of two values that are not NaN; -0 lies below +0 when `zeros` is set (R72). -/
def ltV (zeros : Bool) (a b : Val) : Bool :=
  match a, b with
  | .nan _, _ => false
  | _, .nan _ => false
  | .inf n, .inf n' => n && !n'
  | .inf n, _ => n
  | _, .inf n => !n
  | .fin n m e _, .fin n' m' e' _ =>
    let u := min e e'
    let x : Int := ((m <<< (e - u).toNat : Nat) : Int)
    let y : Int := ((m' <<< (e' - u).toNat : Nat) : Int)
    let x := if n then -x else x
    let y := if n' then -y else y
    decide (x < y) || (zeros && x == 0 && y == 0 && n && !n')

/-- fmin_num and fmax_num (R72). -/
def minMaxV (mx : Bool) (a b : Val) : Val × FlagSet :=
  let f := snanFlag [a, b]
  if a.isNan then (if b.isNan then (.nan false, f) else (b, f))
  else if b.isNan then (a, f)
  else if mx then ((if ltV true a b then b else a), f)
  else ((if ltV true b a then b else a), f)

/-- fcmp (R72): relations 0 to 5 are eq, ne, lt, le, gt, ge. -/
def fcmpV (rel : Nat) (a b : Val) : Bool × FlagSet :=
  if a.isNan || b.isNan then
    (rel == 1, if 2 ≤ rel then FlagSet.nv else snanFlag [a, b])
  else
    let lt := ltV false a b
    let gt := ltV false b a
    (match rel with
      | 0 => !lt && !gt
      | 1 => lt || gt
      | 2 => lt
      | 3 => !gt
      | 4 => gt
      | _ => !lt, 0)

/-! ## Dot products (R67) -/

/-- One group of dot_f32: the accumulator value plus up to sixteen products, rounded once. -/
def dotGroup (acc : Val) (ps : List (Val × Val)) : Res :=
  let prods := ps.map fun (a, b) => mulV a b
  let fl := prods.foldl (fun f p => f ||| p.2) 0
  let (s, g) := sumV 0 (acc :: prods.map Prod.fst)
  let r := deliver 0x01 0 false s
  (r.1, fl ||| g ||| r.2)

/-- The groups of sixteen after the first `n` of a list: `fuel` bounds their number. -/
def groups16 {α : Type} : Nat → List α → List (List α)
  | 0, _ => []
  | _, [] => []
  | n + 1, x :: xs => (x :: xs).take 16 :: groups16 n ((x :: xs).drop 16)

/-- dot_f32 from a starting value; `none` marks a pruned position, whose term is omitted (R69). A group with no term
leaves the accumulator, except that the starting value itself is rounded in the first group. -/
def dotF32 (acc : Val) (accBits : Nat) (exactStart : Bool) (ps : List (Option (Val × Val))) : Res :=
  let gs := groups16 (ps.length + 1) ps
  let step := fun (st : Nat × Val × Bool × FlagSet) (g : List (Option (Val × Val))) =>
    let (bits, v, fresh, fl) := st
    let terms := g.filterMap id
    if terms.isEmpty && !(fresh && exactStart) then (bits, v, false, fl)
    else
      let r := dotGroup v terms
      (r.1, decodeFp (fpOf 0x01) r.1, false, fl ||| r.2)
  let (bits, _, _, fl) := gs.foldl step (accBits, acc, true, 0)
  (bits, fl)

/-- dot_int (R67). -/
def dotInt (acc : Int) (sat : Bool) (ps : List (Option (Int × Int))) : Int × FlagSet :=
  (groups16 (ps.length + 1) ps).foldl (fun (st : Int × FlagSet) g =>
    let s := (g.filterMap id).foldl (fun x p => x + p.1 * p.2) st.1
    if sat then (clampInt 32 true s, st.2 ||| flagIf (clampInt 32 true s != s) FlagSet.sat)
    else (toSigned 32 (wrapInt 32 s), st.2)) (acc, 0)

/-! ## Integer arithmetic (R71), on bit patterns of width `w` -/

/-- An integer result delivered in `w` bits: wrapped, or clamped with SAT. -/
def deliverInt (w : Nat) (sgn sat : Bool) (z : Int) : Res :=
  if sat then (wrapInt w (clampInt w sgn z), flagIf (clampInt w sgn z != z) FlagSet.sat) else (wrapInt w z, 0)

def intOf (w : Nat) (sgn : Bool) (x : Nat) : Int := if sgn then toSigned w x else (x % 2 ^ w : Nat)

/-- div_s, div_n. -/
def divInt (w : Nat) (sgn : Bool) (x y : Nat) : Nat :=
  if y % 2 ^ w = 0 then 2 ^ w - 1 else wrapInt w ((intOf w sgn x).tdiv (intOf w sgn y))

/-- rem_s, rem_n. -/
def remInt (w : Nat) (sgn : Bool) (x y : Nat) : Nat :=
  if y % 2 ^ w = 0 then x % 2 ^ w else wrapInt w ((intOf w sgn x).tmod (intOf w sgn y))

/-- The relation codes of cmp (R142) on patterns of width `w`. -/
def relInt (w : Nat) (rel x y : Nat) : Bool :=
  let s := toSigned w x
  let t := toSigned w y
  let u := x % 2 ^ w
  let v := y % 2 ^ w
  match rel with
  | 0 => u == v
  | 1 => u != v
  | 2 => decide (s < t)
  | 3 => decide (s ≤ t)
  | 4 => decide (t < s)
  | 5 => decide (t ≤ s)
  | 6 => decide (u < v)
  | 7 => decide (u ≤ v)
  | 8 => decide (v < u)
  | _ => decide (v ≤ u)

end Sys2Proof.Machine
end

