-- ==== Sys2Proof/Machine/Shape.lean ====
section
/-!
DEFINITION. Sys2Proof/Machine/Shape.lean: shape records (Table 02-3), footprints (R40), ill-formed records (R41), and
where each element of a tile lies (R57 to R60).
-/

namespace Sys2Proof.Machine

/-! ## The fields of a shape record -/

namespace Sr
def rows (s : Sr) : Nat := (s.extractLsb' 0 8).toNat + 1
def cols (s : Sr) : Nat := (s.extractLsb' 8 10).toNat + 1
def fmt (s : Sr) : Nat := (s.extractLsb' 18 5).toNat
def layout (s : Sr) : Nat := (s.extractLsb' 23 2).toNat
def sblk (s : Sr) : Nat := (s.extractLsb' 25 2).toNat
def stile (s : Sr) : BitVec 5 := s.extractLsb' 27 5
def planesM1 (s : Sr) : Nat := (s.extractLsb' 32 3).toNat
def planes (s : Sr) : Nat := s.planesM1 + 1
def spn (s : Sr) : Nat := (s.extractLsb' 35 4).toNat
def ill (s : Sr) : Bool := s.getLsbD 39
def zf (s : Sr) : Bool := s.getLsbD 40
def al (s : Sr) : Bool := s.getLsbD 41
/-- Elements per scale block (R60). -/
def blk (s : Sr) : Nat := if s.sblk = 2 then 32 else 16
/-- The element width. -/
def w (s : Sr) : Nat := fmtWidth s.fmt
/-- Row-major or column-major. -/
def flat (s : Sr) : Bool := decide (s.layout < 2)

/-- Bytes of the packed values of one sparse-12 record (R59). -/
def sparseV (s : Sr) : Nat := ceilDiv (s.spn * s.w) 8

/-- The footprint in bytes (R40). -/
def footprint (s : Sr) : Nat :=
  match s.layout with
  | 2 => s.planes * ceilDiv (s.rows * s.cols) 8
  | 3 => s.rows * (s.cols / 12) * (s.sparseV + 2)
  | _ => ceilDiv (s.rows * s.cols * s.w) 8

/-- Slot size in bytes of a tile store configuration (Table 02-2). -/
def slotSize (tsc : BitVec 2) : Nat := 16384 * 2 ^ tsc.toNat

/-- The conditions of R41 under a configuration. -/
def isIll (s : Sr) (tsc : BitVec 2) : Bool :=
  let f := s.fmt
  decide (0x16 ≤ f)
  || ((s.layout == 2) != (f == 0x12))
  || (s.planesM1 != 0 && f != 0x12)
  || (s.layout == 3 && (s.cols % 12 != 0 || !(s.spn == 4 || s.spn == 6)
        || !(f == 2 || f == 3 || (4 ≤ f && f ≤ 8) || f == 0xC || f == 0xD)))
  || (s.spn != 0 && s.layout != 3)
  || s.sblk == 3
  || (s.sblk != 0 && !((4 ≤ f && f ≤ 8) || (0xC ≤ f && f ≤ 0xF)))
  || (s.sblk == 0 && s.stile != 0)
  || decide (slotSize tsc < s.footprint)

/-- The record that a shape word gives (R166): AL set, ILL by R41 or by a non-zero bit above [38]. -/
def ofWord (word : BitVec 64) (tsc : BitVec 2) (zf : Bool) : Sr :=
  let s : Sr := word &&& 0x7FFFFFFFFF#64
  s ||| (if isIll s tsc || word.extractLsb' 39 25 != 0 then 0x8000000000#64 else 0)
    ||| (if zf then 0x10000000000#64 else 0) ||| 0x20000000000#64

/-- The record of a tile that an instruction has written: the part zeroes what is left of the slot and clears ZF (R44,
notes/assumptions/49.md). -/
def written (s : Sr) : Sr := s &&& ~~~(1#64 <<< 40)

/-- Linear index of an element (R57). -/
def index (s : Sr) (r c : Nat) : Nat := if s.layout = 1 then c * s.rows + r else r * s.cols + c
end Sr

/-! ## Elements -/

namespace Tile
/-- The bits of a bit-plane element (R58). -/
def getPlanes (t : Tile) (i : Nat) : Nat :=
  let q := 8 * ceilDiv (t.sr.rows * t.sr.cols) 8
  (upto t.sr.planes).foldl (fun v p => v + (getBits t.slot (p * q + i) 1) <<< p) 0

/-- A slot with a bit-plane element replaced (R58). -/
def putPlanes (t : Tile) (i v : Nat) : Nat :=
  let q := 8 * ceilDiv (t.sr.rows * t.sr.cols) 8
  (upto t.sr.planes).foldl (fun b p => putBits b (p * q + i) 1 (v >>> p)) t.slot

/-- The sparse-12 element: none for a pruned position (R59). -/
def getSparse (t : Tile) (r c : Nat) : Option Nat :=
  let s := t.sr
  let base := 8 * ((r * (s.cols / 12) + c / 12) * (s.sparseV + 2))
  let mask := getBits t.slot (base + 8 * s.sparseV) 12
  let b := c % 12
  let j := ((upto b).filter fun k => mask.testBit k).length
  if mask.testBit b && decide (j < s.spn) then some (getBits t.slot (base + s.w * j) s.w) else none

/-- The bits of an element: 0 at a pruned position. -/
def get (t : Tile) (r c : Nat) : Nat :=
  match t.sr.layout with
  | 2 => t.getPlanes (r * t.sr.cols + c)
  | 3 => (t.getSparse r c).getD 0
  | _ => getBits t.slot (t.sr.w * t.sr.index r c) t.sr.w

/-- A slot in which element `i` of a row-major or column-major tile has been written: where it reaches the last byte,
that byte's padding bits are 0 (R57). -/
def padded (s : Sr) (i b : Nat) : Nat :=
  let n := s.rows * s.cols * s.w
  if 8 * (n / 8) < s.w * (i + 1) then putBits b n (8 * ceilDiv n 8 - n) 0 else b

/-- The tile with an element's bits replaced (row-major, column-major and bit-plane layouts). -/
def put (t : Tile) (r c v : Nat) : Tile :=
  match t.sr.layout with
  | 2 => { t with slot := t.putPlanes (r * t.sr.cols + c) v }
  | 3 => t
  | _ => { t with slot := padded t.sr (t.sr.index r c) (putBits t.slot (t.sr.w * t.sr.index r c) t.sr.w v) }

/-- An element as a source value; bit-plane elements are signed under `sgn` (R56). -/
def src (t : Tile) (sgn : Bool) (r c : Nat) : Src :=
  if t.sr.fmt = 0x12 then
    .int (if sgn then toSigned t.sr.planes (t.get r c) else (t.get r c : Nat))
  else decodeElem t.sr.fmt (t.get r c)

/-- An element as an exact value. -/
def val (t : Tile) (r c : Nat) : Val := (t.src false r c).val

/-- scale_of (R60): the decoded block scale of an element, from the scale tile. -/
def scaleOf (t sc : Tile) (r c : Nat) : Val :=
  if t.sr.layout = 1 then sc.val (r / t.sr.blk) c else sc.val r (c / t.sr.blk)

/-- The scale tile suits the values tile (R60). -/
def scaleOk (t sc : Tile) : Bool :=
  sc.sr.al && !sc.sr.ill && (sc.sr.fmt == 0x10 || sc.sr.fmt == 0x11) && sc.sr.sblk == 0
  && sc.sr.layout == (if t.sr.layout = 3 then 0 else t.sr.layout)
  && (if t.sr.layout = 1 then sc.sr.rows == ceilDiv t.sr.rows t.sr.blk && sc.sr.cols == t.sr.cols
      else sc.sr.rows == t.sr.rows && sc.sr.cols == ceilDiv t.sr.cols t.sr.blk)
end Tile

/-- The positions of an extent in ascending e. -/
def extent (er ec : Nat) : List (Nat × Nat) := (upto er).flatMap fun r => (upto ec).map fun c => (r, c)

/-- A tile with the elements of an extent replaced by `f`. -/
def Tile.fill (t : Tile) (er ec : Nat) (f : Nat → Nat → Nat) : Tile :=
  (extent er ec).foldl (fun u p => u.put p.1 p.2 (f p.1 p.2)) t

/-- A tile with the elements of an extent replaced by results, and the union of their flags. -/
def Tile.fillRes (t : Tile) (er ec : Nat) (f : Nat → Nat → Res) : Tile × FlagSet :=
  (extent er ec).foldl (fun u p => let r := f p.1 p.2; (u.1.put p.1 p.2 r.1, u.2 ||| r.2)) (t, 0)

end Sys2Proof.Machine
end

