-- ==== Sys2Proof/Machine/Ops.lean ====
section
/-!
DEFINITION. Sys2Proof/Machine/Ops.lean: the named operations over registers, system CSRs and physical memory, the
stop of a context, and its start again.
-/

namespace Sys2Proof.Machine

/-! ## Register files (Table 02-1) -/

/-- A 4-bit register number from a 5-bit field that names A (R118). -/
def aIdx (r : BitVec 5) : BitVec 4 := r.extractLsb' 0 4
/-- A 3-bit register number from a 5-bit field that names P (R118). -/
def pIdx (r : BitVec 5) : BitVec 3 := r.extractLsb' 0 3

/-- G0 reads 0. -/
def Ctx.getG (c : Ctx) (r : BitVec 5) : GWord := if r = 0 then 0 else c.g[r.toNat]'r.isLt
/-- A write to G0 is discarded. -/
def Ctx.setG (c : Ctx) (r : BitVec 5) (v : GWord) : Ctx :=
  if r = 0 then c else { c with g := c.g.set r.toNat v r.isLt }
def Ctx.getA (c : Ctx) (r : BitVec 4) : Addr := c.a[r.toNat]'r.isLt
def Ctx.setA (c : Ctx) (r : BitVec 4) (v : Addr) : Ctx := { c with a := c.a.set r.toNat v r.isLt }
/-- P0 reads true. -/
def Ctx.getP (c : Ctx) (r : BitVec 3) : Bool := r == 0 || c.p[r.toNat]'r.isLt
/-- A write to P0 is discarded. -/
def Ctx.setP (c : Ctx) (r : BitVec 3) (v : Bool) : Ctx :=
  if r = 0 then c else { c with p := c.p.set r.toNat v r.isLt }
def Ctx.tile (c : Ctx) (r : BitVec 5) : Tile := c.tiles[r.toNat]'r.isLt
def Ctx.setTile (c : Ctx) (r : BitVec 5) (t : Tile) : Ctx := { c with tiles := c.tiles.set r.toNat t r.isLt }
/-- A tile name with the tile that an instruction has written into it (R44). -/
def Ctx.putTile (c : Ctx) (r : BitVec 5) (t : Tile) : Ctx := c.setTile r { t with sr := t.sr.written }
/-- An accumulator, named by the low two bits of a field. -/
def Ctx.getAcc (c : Ctx) (r : BitVec 5) : Nat := c.acc[(r.extractLsb' 0 2).toNat]'(r.extractLsb' 0 2).isLt
def Ctx.setAcc (c : Ctx) (r : BitVec 5) (v : Nat) : Ctx :=
  { c with acc := c.acc.set (r.extractLsb' 0 2).toNat v (r.extractLsb' 0 2).isLt }

/-- The state with the focused context changed. -/
def State.mapCtx (s : State) (f : Ctx → Ctx) : State := { s with ctx := f s.ctx }

/-- A fresh free value: the counter advances (notes/assumptions/7.md). -/
def State.free (s : State) : BitVec 64 × State := (Config.freeWord s.freeCtr, { s with freeCtr := s.freeCtr + 1 })

/-! ## Parts in service (R1 to R3, R51) -/

def State.die1Up (s : State) : Bool := s.die1 && s.variant != .l5
/-- The FP64 lane path is absent on the L7 (Table 00-1). -/
def State.fp64 (s : State) : Bool := s.variant != .l7
/-- The bit-plane matrix path is absent on the L7 (Table 00-1). -/
def State.bitPlane (s : State) : Bool := s.variant != .l7
def State.hbmPerDie (s : State) : Nat := if s.variant = .l7 then 256 * 2 ^ 30 else 384 * 2 ^ 30

/-- Die of the focused core. -/
def State.die (s : State) : Nat := s.core.cid.toNat / 128

/-! ## System CSRs (Table 18-9 and the tables it names) -/

/-- Reset values of the system CSRs (Tables 18-9, 18-10, 17-10, 20-3, 22-7). -/
def sysResetValue (n : Nat) : BitVec 64 :=
  match n with
  | 0x821 => 6
  | 0x830 => 50
  | 0x831 => 100
  | 0x832 => 200
  | 0x833 => 256
  | 0x834 => 256
  | 0x835 => 8
  | 0x838 => 2048
  | 0x85D => 24
  | 0x870 => 2800
  | 0x872 => 1800
  | _ => 0

/-- CSR numbers of die scope; the others read the same on both dies. -/
def dieScoped (n : Nat) : Bool := (0x820 ≤ n && n ≤ 0x823) || n == 0x838 || (0x850 ≤ n && n ≤ 0x861 && n != 0x85C)

def sysKey (die n : Nat) : Nat := (if dieScoped n then die else 0) * 4096 + n
def State.getSys (s : State) (die n : Nat) : BitVec 64 := lookup (sysResetValue n) s.sys (sysKey die n)
def State.setSys (s : State) (die n : Nat) (v : BitVec 64) : State :=
  { s with sys := insert s.sys (sysKey die n) v }

/-! ## Physical memory (R78, R359) -/

/-- Where a physical address lands (Table 18-4). -/
inductive Target where
  | hbm (die : Nat)
  | window
  | host
  | peer (node : Nat)
  | nothing
  deriving DecidableEq, Repr

def State.nodeId (s : State) : Nat := (s.getSys 0 0x808).toNat % 256

def State.target (s : State) (pa : Nat) : Target :=
  let node := pa / 2 ^ 48
  let off := pa % 2 ^ 48
  if node = s.nodeId then
    if 0xF00000000000 ≤ off then .window
    else if off % 2 ^ 39 < s.hbmPerDie ∧ (off / 2 ^ 39 = 0 ∨ (off / 2 ^ 39 = 1 ∧ s.variant ≠ .l5)) then
      .hbm (off / 2 ^ 39)
    else .nothing
  else if node = 255 then .host
  else .peer node

/-- `n` bytes at a physical address, little-endian. -/
def State.rd (s : State) (pa n : Nat) : Nat := Memory.rd s.mem pa n
/-- The state with `n` bytes at a physical address written. -/
def State.wr (s : State) (pa n v : Nat) : State := { s with mem := Memory.wr s.mem pa n v }
/-- The low physical address of a package-relative offset. -/
def State.local_ (s : State) (off : Nat) : Nat := s.nodeId * 2 ^ 48 + off

/-- Whether any of `n` bytes lies in a poisoned granule (R380). -/
def State.isPoisoned (s : State) (pa n : Nat) : Bool :=
  s.poison.any fun g => decide (g < pa + n) && decide (pa < g + 64)

/-- Writes data to generic memory; a granule the bytes cover whole loses its poison, and a partial write leaves it
(R381). -/
def State.clearPoison (s : State) (ranges : List (Nat × Nat)) : State :=
  { s with poison := s.poison.filter fun g =>
      (upto 64).any fun i => !(ranges.any fun r => decide (r.1 ≤ g + i) && decide (g + i < r.1 + r.2)) }

/-- A 64 KiB page copied to a frame: its bytes, and the poison that stands in them (R381). -/
def State.copyPage (s : State) (frame page : Nat) : State :=
  let s := s.wr frame 65536 (s.rd page 65536)
  let src := s.poison.filter fun g => decide (page ≤ g) && decide (g < page + 65536)
  { s with poison := (src.map fun g => g - page + frame)
      ++ s.poison.filter fun g => !(decide (frame ≤ g) && decide (g < frame + 65536)) }

/-! ## Units and groups -/

/-- Every core with its running slot, the focused core first. -/
def State.units (s : State) : List (Core × Ctx) := (s.core, s.ctx) :: s.others

/-- The state with every core and running slot changed. -/
def State.mapUnits (s : State) (f : Core → Ctx → Core × Ctx) : State :=
  let p := f s.core s.ctx
  { s with core := p.1, ctx := p.2, others := s.others.map fun u => f u.1 u.2 }

/-- The state with every running slot changed. -/
def State.mapCtxs (s : State) (f : Ctx → Ctx) : State := s.mapUnits fun c x => (c, f x)

/-- The focus moved to the core with a CID, a core nothing has used yet among them. -/
def State.focus (s : State) (cid : Nat) : State :=
  if s.core.cid.toNat = cid then s
  else
    let rest := s.others.filter fun u => u.1.cid.toNat != cid
    let u := (s.others.find? fun u => u.1.cid.toNat == cid).getD ({ cid := BitVec.ofNat 8 cid }, {})
    { s with core := u.1, ctx := u.2, others := (s.core, s.ctx) :: rest }

/-- A body on another core: the focus moves there and back. -/
def State.onCore (s : State) (cid : Nat) (f : State → State) : State := (f (s.focus cid)).focus s.core.cid.toNat

/-- A context belongs to a group: its launch, group index (CGR) and instance. -/
def Group.has (g : Group) (c : Ctx) : Bool :=
  c.launch == some g.launch && c.cgr.toNat % 2 ^ 32 == g.idx && c.inst == g.inst

/-- The group of the focused context. -/
def State.group (s : State) : Option Group := s.groups.find? fun g => g.has s.ctx

/-- The state with the focused context's group changed. -/
def State.mapGroup (s : State) (f : Group → Group) : State :=
  { s with groups := s.groups.map fun g => if g.has s.ctx then f g else g }

/-! ## Stopping a context (R264 to R267) -/

namespace Cause
/-- Codes of Table 12-1. -/
def code : Cause → BitVec 8
  | illegalOp => 0x01
  | illegalField => 0x02
  | illegalShape => 0x03
  | illegalLaneBlock => 0x04
  | lifetime => 0x05
  | unitAbsent => 0x06
  | misaligned => 0x08
  | pageNotPresent => 0x10
  | pageProtection => 0x11
  | ownership => 0x12
  | shareWrite => 0x13
  | classMismatch => 0x14
  | memUncorrectable => 0x18
  | linkLost => 0x19
  | targetFull => 0x1A
  | linkDegraded => 0x1B
  | breakpoint => 0x20
  | watchpoint => 0x21
  | trapInstr => 0x22
  | stackLimit => 0x23
  | sdcDetected => 0x28
  | dmrHomeWrite => 0x29
  | preempt => 0x30
  | codeGone => 0x31
  | waitOverflow => 0x32
end Cause

/-- What a fault reports beyond the fields that are always valid (Table 12-2). -/
structure Info where
  cause : Cause
  va : Option Addr := none
  cs : Bool := false
  evn : Bool := false
  elem : Option (Nat × Nat × Nat) := none
  tile : Option (BitVec 5) := none
  wr : Bool := false
  copy : Bool := false
  dstep : Nat := 0
  /-- the control PC a stopped copy keeps (R247) -/
  pc : Option Addr := none
  deriving DecidableEq, Repr

/-- The optional fields of a cause's record (Table 12-1): VA, ELEM, TILE, WR. A function fetch reports its word with any
cause (R195). -/
def Cause.fields : Cause → Bool × Bool × Bool × Bool
  | illegalField | illegalShape | sdcDetected => (false, false, true, false)
  | illegalLaneBlock => (true, true, false, false)
  | lifetime | unitAbsent | targetFull | breakpoint | trapInstr | waitOverflow => (true, false, false, false)
  | misaligned | pageNotPresent | pageProtection | ownership | shareWrite | classMismatch | watchpoint | dmrHomeWrite =>
    (true, true, true, true)
  | memUncorrectable => (true, true, true, false)
  | linkLost => (true, true, false, false)
  | illegalOp | linkDegraded | stackLimit | preempt | codeGone => (false, false, false, false)

/-- The fields that a cause's record has (Table 12-1); the others read 0 (R266). -/
def Info.trim (i : Info) : Info :=
  let k := i.cause.fields
  { i with
    va := if k.1 then i.va else none, cs := k.1 && i.cs, evn := k.1 && i.evn
    elem := if k.2.1 then i.elem else none
    tile := if k.2.2.1 then i.tile else none
    wr := k.2.2.2 && i.wr }

/-- The fault record of an event (Tables 12-1, 12-2). COPY shows a stopped copy, whatever the cause. -/
def Info.record (i : Info) (c : Ctx) (seq : BitVec 32) (pc : Addr) (lseq : BitVec 16) : FaultRec :=
  let i := i.trim
  let copy := i.copy || c.copies.any fun x => x.stop.isSome
  { cause := i.cause
    flags := BitVec.ofNat 8 (bit i.va.isSome + 2 * bit i.cs + 4 * bit i.evn + 8 * bit i.elem.isSome
      + 16 * bit i.tile.isSome + 32 * bit i.wr + 64 * bit copy)
    tile := i.tile.getD 0
    dstep := BitVec.ofNat 8 i.dstep
    tiqseq := seq
    row := BitVec.ofNat 16 (i.elem.getD (0, 0, 0)).1
    col := BitVec.ofNat 16 (i.elem.getD (0, 0, 0)).2.1
    e := BitVec.ofNat 32 (i.elem.getD (0, 0, 0)).2.2
    va := i.va.getD 0
    pc := i.pc.getD pc
    ctxid := c.ctxid
    uid := c.uid
    lseq := lseq }

/-- The bytes of an address slot (R35). -/
def addrSlot (a : Addr) : Nat := a.toNat

/-- The 64 bytes of a fault record as a bit string (Table 12-2). -/
def FaultRec.image (r : FaultRec) : Nat :=
  r.cause.code.toNat + r.flags.toNat <<< 8 + r.tile.toNat <<< 16 + r.dstep.toNat <<< 24 + r.tiqseq.toNat <<< 32
  + r.row.toNat <<< 64 + r.col.toNat <<< 80 + r.e.toNat <<< 96 + addrSlot r.va <<< 128 + addrSlot r.pc <<< 256
  + r.ctxid.toNat <<< 384 + r.uid.toNat <<< 416 + r.lseq.toNat <<< 448

/-- FQCTL fields (Table 18-10). -/
def fqLog2 (v : BitVec 64) : Nat := v.toNat % 32
def fqEn (v : BitVec 64) : Bool := v.getLsbD 8
def fqIe (v : BitVec 64) : Bool := v.getLsbD 9

/-- Writes a fault-queue entry of a die, with an interrupt to its service core under IE, or answers none when the queue is
full or not enabled (R365, R366). -/
def State.fqWrite (s : State) (die : Nat) (rec_ core asid src : Nat) : Option State :=
  let ctl := s.getSys die 0x821
  let head := (s.getSys die 0x822).toNat
  let tail := (s.getSys die 0x823).toNat
  let n := 2 ^ fqLog2 ctl
  if fqEn ctl && decide ((tail + 2 ^ 64 - head) % 2 ^ 64 < n) then
    let base := s.local_ ((s.getSys die 0x820).toNat % 2 ^ 48)
    let seq := if die = 0 then s.fqseq[0].toNat else s.fqseq[1].toNat
    let img := rec_ + core <<< 512 + seq <<< 576 + asid <<< 640 + src <<< 656
    let s := (s.wr (base + 128 * (tail % n)) 128 img).setSys die 0x823 (BitVec.ofNat 64 (tail + 1))
    let s := if fqIe ctl then { s with fqIrq := s.fqIrq ||| 1#2 <<< die } else s
    let v := BitVec.ofNat 64 (seq + 1)
    some { s with fqseq := if die = 0 then s.fqseq.set 0 v else s.fqseq.set 1 v }
  else none

/-- An entry of no core: written, or kept until the queue has room (R366). -/
def State.fqPost (s : State) (e : FqEntry) : State :=
  match s.fqWrite e.die e.record e.core e.asid e.src with
  | some s' => s'
  | none =>
    let ctl := s.getSys e.die 0x821
    let s := if fqEn ctl then s.setSys e.die 0x821 (ctl ||| 0x400) else s
    { s with fqPend := s.fqPend ++ [e] }

/-- Adds 1 to a RAS event counter (Table 20-4), saturating; at its threshold one entry of SRC 3 is written (R393). -/
def State.count (s : State) (die n : Nat) : State :=
  let d := if dieScoped n then die else 0
  let v := (s.getSys d n).toNat
  let c := min (v % 2 ^ 40 + 1) (2 ^ 40 - 1)
  let limit := v / 2 ^ 40
  let s := s.setSys d n (BitVec.ofNat 64 (limit * 2 ^ 40 + c))
  if limit != 0 && decide (limit ≤ c) && !s.rasRep.contains (sysKey d n) then
    let s := { s with rasRep := sysKey d n :: s.rasRep }
    s.fqPost { die := d, record := n + c <<< 64, asid := 0, src := 3 }
  else s

/-- A stopped context's entry of SRC 0: written, or left waiting in the core with FULL set (R366). -/
def State.reportFault (s : State) (r : FaultRec) : State :=
  match s.fqWrite s.die r.image s.core.cid.toNat s.ctx.asid.toNat 0 with
  | some s' => { s' with core := { s'.core with fqwait := none } }
  | none =>
    let ctl := s.getSys s.die 0x821
    let s := if fqEn ctl then s.setSys s.die 0x821 (ctl ||| 0x400) else s
    { s with core := { s.core with fqwait := some r } }

/-- The entries that leave their cores before the queue has room for them: no entry is lost (R366). -/
def State.keepEntries (s : State) (leaves : Ctx → Bool) : State :=
  let gone := s.units.filter fun u => u.1.fqwait.isSome && leaves u.2
  { s with fqPend := s.fqPend ++ gone.filterMap fun u => u.1.fqwait.map fun r =>
      { die := u.1.cid.toNat / 128, core := u.1.cid.toNat, record := r.image, asid := u.2.asid.toNat, src := 0 } }

/-- The TIQ as the stop saves it: nothing is in flight, and every entry runs whole on replay (R107, R264, R271, R279). -/
def TiqEntry.rested (t : TiqEntry) : TiqEntry := { t with issued := false, done := false, returned := false, groups := 0 }

/-- The context as a stop leaves it (R264): REASON, cause, TES; no interlock entry, no rename slot. -/
def Ctx.rest (c : Ctx) (reason : BitVec 8) (cause : Cause) (tes : Nat) : Ctx :=
  { c with run := .stopped, reason := reason, cause := cause.code, tes := BitVec.ofNat 18 tes,
           tiq := c.tiq.map TiqEntry.rested, ilock := [], olds := [] }

end Sys2Proof.Machine
end

