-- ==== Sys2Proof/Machine/Access.lean ====
section
/-!
DEFINITION. Sys2Proof/Machine/Access.lean: translation (R355 to R361), region classes (R81, R82), the token table
(R369, R370) and the check of an access before it is performed (R86, R268).
-/

namespace Sys2Proof.Machine

/-! ## Page tables -/

/-- The fields of a leaf (Table 18-3). -/
abbrev Leaf := BitVec 64
namespace Leaf
def v (l : Leaf) : Bool := l.getLsbD 0
def leaf (l : Leaf) : Bool := l.getLsbD 1
def x (l : Leaf) : Bool := l.getLsbD 2
def a (l : Leaf) : Bool := l.getLsbD 3
def cls (l : Leaf) : Nat := (l.extractLsb' 5 2).toNat
def pfn (l : Leaf) : Nat := (l.extractLsb' 8 40).toNat
def tri (l : Leaf) : Nat := (l.extractLsb' 48 16).toNat
end Leaf

/-- What a walk finds (R358): a leaf, its address and the log2 of what it covers; not present; or malformed. -/
inductive Walk where
  | found (leaf : Leaf) (pte size : Nat)
  | absent
  | malformed
  deriving DecidableEq, Repr

/-- A level's index and the log2 of its leaves' span (Table 18-2). -/
def levelShift (l : Nat) : Nat := match l with | 0 => 60 | 1 => 49 | 2 => 38 | 3 => 27 | _ => 16
def levelIndex (va l : Nat) : Nat := (va >>> levelShift l) % (if l = 0 then 4096 else 2048)

/-- A table lies in this package's HBM. -/
def State.inHbm (s : State) (pa : Nat) : Bool := match s.target pa with | .hbm _ => true | _ => false

/-- The frame of a leaf is populated for its class (R358, R359). -/
def State.populated (s : State) (pa cls : Nat) : Bool :=
  match s.target pa with
  | .hbm _ => cls != 3
  | .window => cls == 3
  | .nothing => false
  | _ => true

/-- What makes an entry of level `l` malformed (R358). -/
def State.badEntry (s : State) (l : Nat) (e : Leaf) : Bool :=
  e.getLsbD 7
  || (if e.leaf then
        decide (l < 2) || (l == 2 && e.pfn % 2 ^ 22 != 0) || (l == 3 && e.pfn % 2 ^ 11 != 0)
        || !s.populated (e.pfn * 65536) e.cls
      else l == 4 || e &&& 0xFFFF00000000007C#64 != 0)

/-- The walk from level `l` with `n` levels to go, in the table at `base` (R356 to R358); a poisoned entry counts as not
present (R381). An entry of zeros is the ordinary not-present case at every level (notes/assumptions/51.md). -/
def State.walk (s : State) (va : Nat) : Nat → Nat → Nat → Walk
  | 0, _, _ => .absent
  | n + 1, l, base =>
    if !s.inHbm base then .absent
    else
      let pte := base + 8 * levelIndex va l
      let e : Leaf := BitVec.ofNat 64 (s.rd pte 8)
      if s.isPoisoned pte 8 || e == 0 then .absent
      else if s.badEntry l e then .malformed
      else if !e.v then .absent
      else if e.leaf then .found e pte (levelShift l)
      else s.walk va n (l + 1) (e.pfn * 65536)

/-- The level-0 table of an address space (R355): none under an ASID that is not enabled. -/
def State.root (s : State) (asid : BitVec 16) : Option Nat :=
  if (s.getSys 0 0x811).toNat ≤ asid.toNat then none
  else
    let e := s.rd ((s.getSys 0 0x810).toNat + 8 * asid.toNat) 8
    if e % 2 = 1 then some ((e / 65536) % 2 ^ 40 * 65536) else none

/-- The number of the walker error counter (Table 20-3). -/
def walkErrCsr : Nat := 0x85A

/-- The focused core's cluster, counted over both dies. -/
def State.cluster (s : State) : Nat := s.core.cid.toNat / 8

/-- A TLB entry translates an address (R361). -/
def TlbE.hits (asid : BitVec 16) (va : Addr) (e : TlbE) : Bool := e.asid == asid && e.va == va.toNat / 2 ^ e.size

/-- A translation enters the core's TLB of 64 entries. -/
def State.fillL1 (s : State) (e : TlbE) : State := { s with core := { s.core with tlb := (e :: s.core.tlb).take 64 } }

/-- A walked translation enters the TLB of the core's cluster, of 4,096 entries, and the core's own (R361). -/
def State.fillTlb (s : State) (e : TlbE) : State :=
  let mine := s.clTlb.filter fun x => x.1 == s.cluster
  State.fillL1 { s with clTlb := (s.cluster, e) :: (mine.take 4095 ++ s.clTlb.filter fun x => x.1 != s.cluster) } e

/-- A walk that sets A (R360); `keep` fills the TLBs. -/
def State.walkLeaf (s : State) (keep : Bool) (asid : BitVec 16) (va : Addr) : Option (Leaf × Nat × Nat) × State :=
  match s.root asid with
  | none => (none, s)
  | some base =>
    match s.walk va.toNat 5 0 base with
    | .absent => (none, s)
    | .malformed => (none, s.count s.die walkErrCsr)
    | .found leaf pte size =>
      let l := leaf ||| 8
      let s := if leaf.a then s else s.wr pte 8 l.toNat
      let e : TlbE := { asid := asid, va := va.toNat / 2 ^ size, size := size, leaf := l, pte := pte }
      (some (l, pte, size), if keep then s.fillTlb e else s)

/-- A translation: the leaf and its span, from the core's TLB, its cluster's, or a walk (R361). -/
def State.translate (s : State) (asid : BitVec 16) (va : Addr) : Option (Leaf × Nat × Nat) × State :=
  match s.core.tlb.find? fun e => e.hits asid va with
  | some e => (some (e.leaf, e.pte, e.size), s)
  | none =>
    match s.clTlb.find? fun x => x.1 == s.cluster && x.2.hits asid va with
    | some x => (some (x.2.leaf, x.2.pte, x.2.size), s.fillL1 x.2)
    | none => s.walkLeaf true asid va

/-- A translation for a context of the focused core, or for an agent that has no TLB of the core. -/
def State.translateFor (s : State) (agent : Bool) (asid : BitVec 16) (va : Addr) :
    Option (Leaf × Nat × Nat) × State :=
  if agent then s.walkLeaf false asid va else s.translate asid va

/-- The physical address under a leaf. -/
def leafPa (l : Leaf) (size : Nat) (va : Addr) : Nat := l.pfn * 65536 + va.toNat % 2 ^ size

/-! ## Token table (Table 18-7) -/

/-- A token-table entry, as the bit string of its 64 bytes. -/
abbrev Tok := Nat
namespace Tok
def base (t : Tok) : Nat := getBits t 0 56 * 65536
def log2 (t : Tok) : Nat := getBits t 56 6
def v (t : Tok) : Bool := t.testBit 63
def holder (t : Tok) : Nat := getBits t 64 24
def giver (t : Tok) : Nat := getBits t 88 24
def state (t : Tok) : Nat := getBits t 112 4
def shares (t : Tok) : Nat := getBits t 116 12
def lender (t : Tok) (i : Nat) : Nat := getBits t (128 + 24 * i) 24
def depth (t : Tok) : Nat := getBits t 224 3
def dirty (t : Tok) : Bool := t.testBit 228
def part (t : Tok) : Bool := t.testBit 229
def ksplit (t : Tok) : Nat := getBits t 230 6
def parent (t : Tok) : Nat := getBits t 256 16
def child (t : Tok) : Nat := getBits t 272 16
def asid (t : Tok) : Nat := getBits t 288 16
def setHolder (t : Tok) (h : Nat) : Tok := putBits t 64 24 h
def setGiver (t : Tok) (h : Nat) : Tok := putBits t 88 24 h
def setState (t : Tok) (n : Nat) : Tok := putBits t 112 4 n
def setShares (t : Tok) (n : Nat) : Tok := putBits t 116 12 n
def setDirty (t : Tok) (b : Bool) : Tok := putBits t 228 1 (bit b)
/-- Push a holder on the lender chain. -/
def push (t : Tok) (h : Nat) : Tok :=
  putBits (putBits t 128 96 (h + getBits t 128 72 <<< 24)) 224 3 (t.depth + 1)
/-- Pop the lender chain. -/
def pop (t : Tok) : Tok := putBits (putBits t 128 96 (getBits t 152 72)) 224 3 (t.depth - 1)
/-- The entry covers a virtual address. -/
def covers (t : Tok) (va : Nat) : Bool := decide (t.base ≤ va) && decide (va < t.base + 2 ^ t.log2)
end Tok

/-- States of Table 18-7. -/
def tokHeld : Nat := 0
def tokShared : Nat := 1
def tokTransit : Nat := 2
def tokOrphaned : Nat := 3
def tokSplit : Nat := 4
def tokPoisoned : Nat := 5

def State.tokAddr (s : State) (i : Nat) : Nat := (s.getSys 0 0x818).toNat + 64 * i
def State.tokN (s : State) : Nat := (s.getSys 0 0x819).toNat
def State.tok (s : State) (i : Nat) : Tok := s.rd (s.tokAddr i) 64
/-- An entry is written; every token cache that holds it drops it (R364). -/
def State.setTok (s : State) (i : Nat) (t : Tok) : State :=
  { s.wr (s.tokAddr i) 64 t with tokc := s.tokc.filter fun x => x.2 != i }
/-- A token cache takes an entry (R361). -/
def State.fillTok (s : State) (i : Nat) : State :=
  let k := (s.core.cid.toNat, i)
  { s with tokc := if s.tokc.contains k then s.tokc else k :: s.tokc }

/-- The deepest part that covers an address, from entry `i`, at most `n` splits down (R84, R369). -/
def State.deepest (s : State) (va : Nat) : Nat → Nat → Nat
  | 0, i => i
  | n + 1, i =>
    let t := s.tok i
    if t.state = tokSplit then s.deepest va n (t.child + (va - t.base) / 2 ^ t.ksplit) else i

/-- The governing region of an OWNED page (R369): none where the access faults OWNERSHIP. -/
def State.governing (s : State) (asid : BitVec 16) (tri va : Nat) : Option Nat :=
  let t := s.tok tri
  if tri = 0 || decide (s.tokN ≤ tri) || !t.v || t.asid != asid.toNat || !t.covers va then none
  else some (s.deepest va 40 tri)

/-- Share records (R369): 8 bytes each at SHTBASE. -/
def State.shareAddr (s : State) (i : Nat) : Nat := (s.getSys 0 0x81A).toNat + 8 * i
def State.shareN (s : State) : Nat := (s.getSys 0 0x81B).toNat
/-- Index of the share record of a holder on a region. -/
def State.shareFind (s : State) (region holder : Nat) : Option Nat :=
  (upto s.shareN).find? fun i =>
    let e := s.rd (s.shareAddr i) 8
    getBits e 40 12 != 0 && getBits e 0 16 == region && getBits e 16 24 == holder
def State.hasShare (s : State) (region : Nat) (ids : List Nat) : Bool :=
  ids.any fun h => (s.shareFind region h).isSome

/-! ## The check of an access -/

/-- What an access is (Table 04-2). -/
structure Acc where
  write : Bool := false
  /-- scalar ld, st, lda or sta: the accesses a DEVICE page admits -/
  scalar : Bool := false
  /-- an atomic, a future or a counter cell: HOME only -/
  home : Bool := false
  /-- qualified .acq, .rel or .ar: HOME only -/
  qual : Bool := false
  /-- the .ord variant -/
  ord : Bool := false
  /-- matches watch ranges (R282) -/
  watched : Bool := true
  /-- a copy's own access, which SKIPWP does not pass (R282) -/
  copy : Bool := false
  /-- performed by a party that is not the focused context: a queue, the scheduler -/
  agent : Bool := false
  deriving DecidableEq, Repr

/-- What the check of an access to one page finds. -/
inductive Chk where
  | ok (pa cls : Nat)
  | fault (c : Cause)
  | wait (region : Nat)
  deriving DecidableEq, Repr

/-- Table 04-3 for an accessor acting under `ids`. -/
def State.tokenCheck (s : State) (i : Nat) (ids : List Nat) (write : Bool) : Chk :=
  let t := s.tok i
  let mine := ids.contains t.holder
  if t.state = tokPoisoned then .fault .memUncorrectable
  else if t.state = tokOrphaned then .fault .ownership
  else if t.state = tokTransit then (if mine then .wait i else .fault .ownership)
  else if mine then (if write && t.shares != 0 then .fault .shareWrite else .ok 0 0)
  else if s.hasShare i ids then (if write then .fault .shareWrite else .ok 0 0)
  else .fault .ownership

/-- The first write of a holder under its tenure sets DIRTY (R371). -/
def State.markDirty (s : State) (i : Nat) (ids : List Nat) : State :=
  let t := s.tok i
  if ids.contains t.holder && (t.state = tokHeld || t.state = tokShared) && !t.dirty then s.setTok i (t.setDirty true)
  else s

/-- The rows of Table 04-2 for a class: the cause, the first in the order of R268 where two rows apply, or none. -/
def classFault (a : Acc) (cls n : Nat) : Option Cause :=
  if cls = 1 && a.write && !a.home then some .pageProtection
  else if (a.home || a.qual) && cls != 2 then some .classMismatch
  else if cls = 3 && (!a.scalar || !(n == 4 || n == 8)) then some .classMismatch
  else none

/-- The function that owns an address space: that of an enabled queue under it, else the physical function
(notes/assumptions/51.md). -/
def State.ownerFn (s : State) (asid : BitVec 16) : Nat :=
  let qd := fun q off n => s.rd ((s.getSys 0 0x828).toNat + 64 * q + off) n
  match s.queues.find? fun x => qd x.q 36 2 == asid.toNat with
  | some x => qd x.q 35 1
  | none => 0

/-- HOME pages of node 255 need the root port's AtomicOps, HATOM C32 and C64, and the AtomicOp Requester Enable of the
function that owns the leaf (R375). -/
def State.hatomOk (s : State) (asid : BitVec 16) : Bool :=
  (s.getSys 0 0x840).extractLsb' 0 2 == 3 && s.atomFns.contains (s.ownerFn asid)

/-- The shadow frame of a page for the focused context's instance (R388). -/
def State.shadowOf (s : State) (d : BitVec 1) (page : Nat) : Option Nat :=
  (s.shadows.find? fun x => x.inst == d && some x.launch == s.ctx.launch && x.page == page).map Shadow.frame

/-- Frame i of a die's shadow pool (R388, R391). -/
def State.poolAt (s : State) (die i : Nat) : Nat :=
  lookup ((s.getSys die 0x85E).toNat + 65536 * i) s.pools (die * 2 ^ 24 + i)

/-- The first frame of a die's shadow pool that no shadow uses (R388). -/
def State.poolFrame (s : State) (die : Nat) : Option Nat :=
  ((upto (min ((s.getSys die 0x85F).toNat % 2 ^ 24) (s.shadows.length + 1))).map (s.poolAt die)).find? fun f =>
    !s.shadows.any fun x => x.frame == f

/-- Where an access of a DMR instance lands (R388, R389): its shadow, or the original page it has not written; a first
write to an OWNED page takes a frame and copies the page into it. Other contexts use the address as it stands. -/
def State.dmr (s : State) (a : Acc) (cls pa pte size : Nat) : Chk × State :=
  match s.ctx.inst with
  | none => (.ok pa cls, s)
  | some d =>
    let page := pa / 65536 * 65536
    if a.write && (cls == 2 || !s.inHbm pa) then (.fault .dmrHomeWrite, s)
    else
      match s.shadowOf d page with
      | some f => (.ok (f + pa % 65536) cls, s)
      | none =>
        if a.write && cls == 0 then
          match s.poolFrame d.toNat with
          | none => (.fault .targetFull, s)
          | some f =>
            let s := s.copyPage f page
            (.ok (f + pa % 65536) cls,
              { s with shadows := { inst := d, launch := s.ctx.launch.getD 0, page := page, frame := f, pte := pte,
                                    size := size } :: s.shadows })
        else (.ok pa cls, s)

/-- DMR applies to accesses of the focused context only. -/
def State.place (s : State) (a : Acc) (cls pa pte size : Nat) : Chk × State :=
  if a.agent then (.ok pa cls, s) else s.dmr a cls pa pte size

/-- The first failing check of an access of `n` bytes, as far as it lies in the page of `va`, under `asid` and identities `ids`: not present,
protection, class, token (R268). A write marks its region DIRTY. -/
def State.check (s : State) (asid : BitVec 16) (ids : List Nat) (a : Acc) (va : Addr) (n : Nat) : Chk × State :=
  match s.translateFor a.agent asid va with
  | (none, s) => (.fault .pageNotPresent, s)
  | (some (l, pte, size), s) =>
    let pa := leafPa l size va
    match classFault a l.cls n with
    | some c => (.fault c, s)
    | none =>
      if l.cls = 2 && s.target pa = .host && !s.hatomOk asid then (.fault .classMismatch, s)
      else if l.cls = 0 then
        match s.governing asid l.tri va.toNat with
        | none => (.fault .ownership, s)
        | some i =>
          match s.tokenCheck i ids a.write with
          | .ok _ _ =>
            let s := if a.agent then s else s.fillTok i
            (if a.write then s.markDirty i ids else s).place a 0 pa pte size
          | r => (r, s)
      else s.place a l.cls pa pte size

/-- A page's dirty bit, committed by an atomic OR at the leaf (R237); D of a shadow mapping is set in the shadow alone
(R388). -/
def State.commitDirty (s : State) (asid : BitVec 16) (agent : Bool) (va : Addr) : State :=
  if !agent && s.ctx.inst.isSome then s else
  match s.translateFor agent asid va with
  | (none, s) => s
  | (some (_, pte, size), s) =>
    let e := s.rd pte 8
    let s := s.wr pte 8 (e ||| 0x10)
    let d := fun (t : TlbE) => if t.hits asid va && t.size == size then { t with leaf := t.leaf ||| 0x10 } else t
    { s with core := { s.core with tlb := s.core.tlb.map d }, clTlb := s.clTlb.map fun x => (x.1, d x.2) }

/-- The identities of a context (R85). -/
def Ctx.ids (c : Ctx) : List Nat := [c.ctxid.toNat, c.cgid.toNat]

/-- A watch range matches an access of the context to `n` bytes at an address (R282). -/
def Ctx.watchHit (c : Ctx) (cs write atomic : Bool) (lo n : Nat) : Bool :=
  c.watch.toList.any fun w =>
    w.ctl.getLsbD 0 && w.ctl.getLsbD 3 == cs
    && (if atomic then w.ctl.getLsbD 1 || w.ctl.getLsbD 2 else if write then w.ctl.getLsbD 2 else w.ctl.getLsbD 1)
    && decide (w.base.toNat < lo + n) && decide (lo < w.base.toNat + w.len.toNat)

/-- The home slice of a local HBM location (R79). -/
def homeSlice (pa : Nat) : Nat :=
  let x := fun i => getBits pa i 6
  x 8 ^^^ x 14 ^^^ x 20 ^^^ x 26 ^^^ x 32 ^^^ x 38 ^^^ getBits pa 44 4

/-- Where a request for a physical address cannot be delivered: the other die with the Shuttle pair lost, or a peer
with no route (R404, R405). -/
def State.unreachable (s : State) (pa : Nat) : Bool :=
  match s.target pa with
  | .hbm d => d != s.die && s.shLost
  | .peer n => !(upto 8).any fun p => (lookup 0 s.lroute n).getLsbD p && (s.ports.toList.getD p {}).up
  | _ => false

end Sys2Proof.Machine
end

