-- ==== Sys2Proof/Machine/Entry.lean ====
section
/-!
DEFINITION. Sys2Proof/Machine/Entry.lean: what performing a TIQ entry gives, the extents (R46), and the checks at issue
(R161, R162).
-/

namespace Sys2Proof.Machine

/-- What performing the entry at the head of the TIQ gives: it is done; it faults, with the element it restarts from
and what it leaves behind (Table 12-3); or it waits. -/
inductive Eff where
  | done (s : State)
  | trap (i : Info) (tes : Nat) (s : State)
  | block (w : Wait) (s : State)

/-- XR and XC as the entry sees them (R46). -/
def State.xr (s : State) : Nat := s.ctx.xr.toNat
def State.xc (s : State) : Nat := s.ctx.xc.toNat

/-- Rows and columns of the effective extent over tile operands (R46). -/
def State.er (s : State) (ts : List (BitVec 5)) : Nat := ts.foldl (fun n r => min n (s.ctx.tile r).sr.rows) s.xr
def State.ec (s : State) (ts : List (BitVec 5)) : Nat := ts.foldl (fun n r => min n (s.ctx.tile r).sr.cols) s.xc

/-- Element number (R46). -/
def State.elemNo (s : State) (r c : Nat) : Nat := r * s.xc + c

/-- A tile operand of an entry, and what its checks admit: a format it is bound to, the layouts (bit l for LAYOUT l),
whether block scales are admitted, and whether the instruction reads or writes its scales. -/
structure Opnd where
  name : BitVec 5
  fmt : Option Nat := none
  layouts : Nat := 3
  scaled : Bool := false
  scales : Bool := false
  /-- an unallocated or ill-formed name is accepted (R41, R42) -/
  fresh : Bool := false

/-- The first operand that fails a predicate. -/
def firstBad (ops : List Opnd) (bad : Opnd → Bool) : Option (BitVec 5) := (ops.find? bad).map Opnd.name

/-- The scale tile of a values tile, an operand that the entry adds (R161). -/
def State.scaleOpnd (s : State) (r : BitVec 5) : List Opnd :=
  let sr := (s.ctx.tile r).sr
  if sr.al && !sr.ill && sr.sblk != 0 then [{ name := sr.stile, layouts := 15, scaled := true }] else []

/-- Checks 1 to 5 of R161, each over every operand before the next: the failing operand's name. A block-scaled operand
that R162 refuses fails check 5 (DESIGN CHOICE, notes/assumptions/16.md). -/
def Ctx.checkTiles (c : Ctx) (ops : List Opnd) : Option (BitVec 5) :=
  let sr := fun (o : Opnd) => (c.tile o.name).sr
  (firstBad ops fun o => c.tsc == 3 && o.name.getLsbD 4) <|>
  (firstBad ops fun o => !o.fresh && (!(sr o).al || (sr o).ill)) <|>
  (firstBad ops fun o => match o.fmt with | some f => (sr o).fmt != f | none => false) <|>
  (firstBad ops fun o => !o.fresh && !o.layouts.testBit (sr o).layout) <|>
  (firstBad ops fun o =>
    (!o.scaled && !o.fresh && (sr o).sblk != 0)
    || (o.scales && (sr o).sblk != 0 && !Tile.scaleOk (c.tile o.name) (c.tile (sr o).stile)))

/-- ILLEGAL_SHAPE at an operand; the entry has no effect (R161). -/
def Eff.shape (name : BitVec 5) (s : State) : Eff := .trap { cause := .illegalShape, tile := some name } 0 s

/-- ILLEGAL_FIELD at issue, with no effect. -/
def Eff.field (s : State) : Eff := .trap { cause := .illegalField } 0 s

/-- Runs the checks of R161, then an entry's own condition (check 6), then the body. -/
def withTiles (s : State) (ops : List Opnd) (body : Eff) : Eff :=
  match s.ctx.checkTiles ops with
  | some n => .shape n s
  | none => body

/-- Writes a tile and ORs flags: what a completed lane-array entry leaves (R163). -/
def Eff.tile (s : State) (td : BitVec 5) (t : Tile) (fl : FlagSet) : Eff :=
  .done (s.mapCtx fun c => (c.putTile td t).raise fl)

/-- Writes elements of the extent of `td` from results. -/
def Eff.elems (s : State) (td : BitVec 5) (er ec : Nat) (f : Nat → Nat → Res) : Eff :=
  let r := (s.ctx.tile td).fillRes er ec f
  .tile s td r.1 r.2

/-- Writes bit patterns into elements of the extent of `td`, with no flag. -/
def Eff.bits (s : State) (td : BitVec 5) (er ec : Nat) (f : Nat → Nat → Nat) : Eff :=
  .tile s td ((s.ctx.tile td).fill er ec f) 0

end Sys2Proof.Machine
end

