-- ==== Sys2Proof/Machine/Convert.lean ====
section
/-!
DEFINITION. Sys2Proof/Machine/Convert.lean: conversion with error feedback and sparse-12 targets, quantisation and
dequantisation (R65, R66, R179 to R182).
-/

namespace Sys2Proof.Machine

/-- A conversion into a tile element: bit-plane targets have P planes and are signed under `sgn` (R64, R179). -/
def convertTo (d : Sr) (sgn : Bool) (mode : Nat) (sat : Bool) (x : Src) : Res :=
  if d.fmt = 0x12 then convertInt d.planes sgn mode sat x else convert d.fmt mode sat x

/-- A source element of tcvt: a pruned position reads +0 (R59). -/
def cvtSrc (t : Tile) (sgn : Bool) (r c : Nat) : Src :=
  if t.sr.layout = 3 then
    (match t.getSparse r c with
      | some b => decodeElem t.sr.fmt b
      | none => if fmtIsInt t.sr.fmt then .int 0 else .flt (.zero false))
  else t.src sgn r c

/-- One element of an .ef chain (R65): the pattern, its flags and the next carry. -/
def efStep (c : Nat) (sat : Bool) (carry : Nat) (x : Val) : Nat × FlagSet × Nat :=
  if x.isNan || x.isInf then
    let r := convertFp c 0 sat x
    (r.1, r.2, 0)
  else
    let cv := decodeFp (fpOf 1) carry
    let y := (sumV 0 [x, cv]).1
    let r := deliver c 0 sat y
    if r.2 &&& (FlagSet.ovf ||| FlagSet.sat) != 0 then (r.1, r.2, 0)
    else
      let z := (sumV 0 [y, (decodeFp (fpOf c) r.1).negate]).1
      (r.1, r.2, (deliver 1 0 false z).1)

/-- The carry a chain starts from: EFC, or +0 when EFC is a NaN or an infinity (R65). -/
def efStart (efc : BitVec 32) : Nat :=
  let v := decodeFp (fpOf 1) efc.toNat
  if v.isNan || v.isInf then 0 else efc.toNat

/-- tcvt under .ef over the extent in ascending e (R65). -/
def tcvtEf (f : TileFields) (s : State) (er ec : Nat) : Eff :=
  let a := s.ctx.tile f.ta
  let r := (extent er ec).foldl (fun (st : Tile × FlagSet × Nat) p =>
      let q := efStep f.fmt1.toNat f.sat st.2.2 (cvtSrc a false p.1 p.2).val
      (st.1.put p.1 p.2 q.1, st.2.1 ||| q.2.1, q.2.2)) (s.ctx.tile f.td, 0, efStart s.ctx.efc)
  .done (s.mapCtx fun c => ({ c with efc := BitVec.ofNat 32 r.2.2 }.putTile f.td r.1).raise r.2.1)

/-- Order of magnitudes for pruning: NaN first, then infinities, then finite magnitudes (R180). -/
def magLess (a b : Val) : Bool :=
  match a, b with
  | .nan _, _ => false
  | _, .nan _ => true
  | .inf _, _ => false
  | _, .inf _ => true
  | .fin _ m e st, .fin _ m' e' st' => ltV false (.fin false m e st) (.fin false m' e' st')

/-- How many of the values at the positions of a group stand before position `b`: greater ones, and equal ones at a
lower position. -/
def rankOf (vs : List Val) (b : Nat) : Nat :=
  ((upto vs.length).filter fun j =>
    let x := vs.getD j (.nan false)
    let y := vs.getD b (.nan false)
    j != b && (magLess y x || (!magLess x y && decide (j < b)))).length

/-- The slot bits of one sparse-12 record, and its flags (R59, R180). -/
def sparseRecord (f : TileFields) (a : Tile) (d : Sr) (r g : Nat) : Nat × FlagSet :=
  let xs := (upto 12).map fun b => cvtSrc a f.sBit r (12 * g + b)
  let vs := xs.map Src.val
  let keep := (upto 12).filter fun b => decide (rankOf vs b < d.spn)
  let rs := keep.map fun b => convert d.fmt f.rm.toNat f.sat (xs.getD b (.int 0))
  let vals := (rs.zip (upto rs.length)).foldl (fun v p => v + p.1.1 <<< (d.w * p.2)) 0
  let mask := keep.foldl (fun m b => m + 2 ^ b) 0
  (vals + mask <<< (8 * d.sparseV), rs.foldl (fun fl p => fl ||| p.2) 0)

/-- tcvt into a sparse-12 tile, group by group (R180). -/
def tcvtSparse (f : TileFields) (s : State) (er ec : Nat) : Eff :=
  let a := s.ctx.tile f.ta
  let d := s.ctx.tile f.td
  let bytes := d.sr.sparseV + 2
  let r := (extent er (ec / 12)).foldl (fun (st : Nat × FlagSet) p =>
      let q := sparseRecord f a d.sr p.1 p.2
      (putBits st.1 (8 * ((p.1 * (d.sr.cols / 12) + p.2) * bytes)) (8 * bytes) q.1, st.2 ||| q.2)) (d.slot, 0)
  .tile s f.td { d with slot := r.1 } r.2

/-- tcvt (R179, R180). -/
def effTcvt (f : TileFields) (_ : TiqEntry) (s : State) : Eff :=
  let a := s.ctx.tile f.ta
  let d := s.ctx.tile f.td
  let er := s.er [f.td, f.ta]
  let ec := s.ec [f.td, f.ta]
  withTiles s [{ name := f.td, fmt := some f.fmt1.toNat, layouts := 15 },
               { name := f.ta, fmt := some f.fmt2.toNat, layouts := 15 }] <|
    if d.sr.layout = 3 && f.rm == 5 then .field s
    else if d.sr.layout = 3 && ec % 12 != 0 then .shape f.td s
    else if f.rm == 5 then tcvtEf f s er ec
    else if d.sr.layout = 3 then tcvtSparse f s er ec
    else .elems s f.td er ec fun r k => convertTo d.sr f.sBit f.rm.toNat f.sat (cvtSrc a f.sBit r k)

/-! ## Quantisation -/

/-- Exponent of the largest finite value of a values format (R181). -/
def quantEmax (c : Nat) : Int :=
  match c with
  | 0x04 => 8 | 0x05 => 15 | 0x06 => 4 | 0x07 => 2 | 0x08 => 2 | 0x0C => 6 | 0x0D => 7 | 0x0E => 2 | _ => 3

/-- The largest finite value of a values format. -/
def quantMax (c : Nat) : Val :=
  match c with
  | 0x0C => .fin false 127 0 false
  | 0x0D => .fin false 255 0 false
  | 0x0E => .fin false 7 0 false
  | 0x0F => .fin false 15 0 false
  | _ => .fin false (fpOf c).maxM (fpOf c).maxE false

/-- A conversion of tquant: integer clamps raise SAT and NX, but not NV (R181). -/
def quantConvert (c mode : Nat) (v : Val) : Res :=
  let r := convert c mode true (.flt v)
  if fmtIsInt c then (r.1, r.2 &&& ~~~FlagSet.nv) else r

/-- One block of tquant: the scale code, the value codes of its elements in the extent, and the flags (R181). -/
def quantBlock (vf sf mode : Nat) (xs : List Val) : Nat × List Nat × FlagSet :=
  let conv := fun (d : Option Val) => xs.map fun x =>
    match d with
    | some y => quantConvert vf mode (divV x y).1
    | none => quantConvert vf mode x
  let flags := fun (rs : List Res) => rs.foldl (fun f r => f ||| r.2) (0 : FlagSet)
  let amax := xs.foldl (fun m x => match x with
    | .fin _ n e st => if ltV false m (.fin false n e st) then .fin false n e st else m
    | _ => m) (Val.zero false)
  if xs.any fun x => x.isNan || x.isInf then
    ((if sf = 0x10 then 0xFF else 0x7F), xs.map fun _ => 0, FlagSet.nv)
  else if amax.isZero then
    let rs := conv none
    ((if sf = 0x10 then 127 else 0x38), rs.map Prod.fst, flags rs)
  else
    match amax with
    | .fin _ m e _ =>
      if sf = 0x10 then
        let k : Int := (Nat.log2 m : Int) + e - quantEmax vf
        let k' := max (-127) (min 127 k)
        let rs := conv (some (.fin false 1 k' false))
        ((k' + 127).toNat, rs.map Prod.fst, flags rs ||| flagIf (k != k') FlagSet.sat)
      else
        let q := match (divV amax (quantMax vf)).1 with
          | .fin n m e st => roundFin (fpOf 0x11) 3 true n m e st
          | _ => (0, 0)
        let rs := conv (some (decodeFp (fpOf 0x11) q.1))
        (q.1, rs.map Prod.fst, flags rs ||| q.2)
    | _ => (0, [], 0)

/-- The positions of the extent that share a scale element (R60). -/
def blockPositions (d : Sr) (er ec i j : Nat) : List (Nat × Nat) :=
  if d.layout = 1 then (upto d.blk).filterMap fun k =>
    if d.blk * i + k < er ∧ j < ec then some (d.blk * i + k, j) else none
  else (upto d.blk).filterMap fun k => if i < er ∧ d.blk * j + k < ec then some (i, d.blk * j + k) else none

/-- tquant (R181). The entry names no layout: both tiles are row-major or column-major (DESIGN CHOICE,
notes/assumptions/16.md). -/
def effTquant (f : TileFields) (_ : TiqEntry) (s : State) : Eff :=
  let a := s.ctx.tile f.ta
  let d := s.ctx.tile f.td
  let er := s.er [f.td, f.ta]
  let ec := s.ec [f.td, f.ta]
  let vf := f.fmt1.toNat
  withTiles s ([{ name := f.td, fmt := some vf, scaled := true, scales := true },
               { name := f.ta, fmt := some f.fmt2.toNat }] ++ s.scaleOpnd f.td) <|
    if d.sr.sblk = 0 then .shape f.td s
    else
      let ts := d.sr.stile
      let sc := s.ctx.tile ts
      let ni := if d.sr.layout = 1 then ceilDiv er d.sr.blk else er
      let nj := if d.sr.layout = 1 then ec else ceilDiv ec d.sr.blk
      let r := (extent ni nj).foldl (fun (st : Tile × Tile × FlagSet) p =>
          let ps := blockPositions d.sr er ec p.1 p.2
          let q := quantBlock vf sc.sr.fmt f.rm.toNat (ps.map fun x => a.val x.1 x.2)
          ((ps.zip q.2.1).foldl (fun t x => t.put x.1.1 x.1.2 x.2) st.1, st.2.1.put p.1 p.2 q.1, st.2.2 ||| q.2.2))
        (d, sc, 0)
      .done (s.mapCtx fun c => ((c.putTile f.td r.1).putTile ts r.2.1).raise r.2.2)

/-- tdequant (R182). The entry names no layout: td is row-major or column-major, ta also sparse-12 (DESIGN CHOICE,
notes/assumptions/16.md). -/
def effTdequant (f : TileFields) (_ : TiqEntry) (s : State) : Eff :=
  let a := s.ctx.tile f.ta
  withTiles s ([{ name := f.td, fmt := some f.fmt1.toNat },
               { name := f.ta, fmt := some f.fmt2.toNat, layouts := 11, scaled := true, scales := true }]
               ++ s.scaleOpnd f.ta) <|
    if a.sr.sblk = 0 then .shape f.ta s
    else
      let sc := s.ctx.tile a.sr.stile
      .elems s f.td (s.er [f.td, f.ta]) (s.ec [f.td, f.ta]) fun r k =>
        let p := mulV (cvtSrc a false r k).val (a.scaleOf sc r k)
        let q := convert f.fmt1.toNat f.rm.toNat f.sat (.flt p.1)
        (q.1, q.2 ||| p.2)

end Sys2Proof.Machine
end

