-- ==== Sys2Proof/Machine/Transc.lean ====
section
/-!
DEFINITION. Sys2Proof/Machine/Transc.lean: the functions of Table 08-4, each the exact function value rounded once
(R176). exp2, log2 and tanh are enclosed between two fixed-point numbers; where both round alike the result is that;
otherwise it is a free value (notes/assumptions/10.md).
-/

namespace Sys2Proof.Machine

/-- Fraction bits of the fixed-point enclosure. -/
def fxP : Nat := 320

/-- Half-width of the enclosure in units of 2^-fxP; it exceeds the summed truncation error. -/
def fxErr : Nat := 2 ^ 24

/-- The terms z, z^3/3, z^5/5, ... of atanh, `n` of them from index `i`; `p` is the power reached. -/
def atanhSum (z2 : Nat) : Nat → Nat → Nat → Nat
  | 0, _, _ => 0
  | n + 1, i, p => p / (2 * i + 1) + atanhSum z2 n (i + 1) ((p * z2) >>> fxP)

/-- ln((1 + z) ÷ (1 - z)) for a fixed-point z of at most 1/3. -/
def lnRatio (z : Nat) : Nat := 2 * atanhSum ((z * z) >>> fxP) 110 0 z

/-- ln 2. -/
def ln2 : Nat := lnRatio (2 ^ fxP / 3)

/-- The terms y^k ÷ k! of exp, `n` of them from index `k`; `t` is the term reached. -/
def expSum (y : Nat) : Nat → Nat → Nat → Nat
  | 0, _, _ => 0
  | n + 1, k, t => t + expSum y n (k + 1) (((t * y) >>> fxP) / (k + 1))

/-- exp of a fixed-point y below 1. -/
def expFx (y : Nat) : Nat := expSum y 90 0 (2 ^ fxP)

/-- A non-negative value m x 2^e in fixed point, rounded down. -/
def toFx (m : Nat) (e : Int) : Nat :=
  if 0 ≤ e + fxP then m <<< (e + fxP).toNat else m >>> (-(e + fxP)).toNat

/-- Delivers the value enclosed by lo and hi (in units of 2^u): their common rounding, or the free value. -/
def deliverBetween (c fn opd : Nat) (neg : Bool) (lo hi : Nat) (u : Int) : Res :=
  let a := roundFin (fpOf c) 0 false neg lo u true
  let b := roundFin (fpOf c) 0 false neg hi u true
  if a = b then a else ((Config.transcBits c fn opd).toNat % 2 ^ fmtWidth c, a.2 ||| b.2)

/-- texp2 of a finite value. -/
def exp2Fin (c opd : Nat) (neg : Bool) (m : Nat) (e : Int) : Res :=
  if m = 0 then deliver c 0 false (.fin false 1 0 false)
  else
    let lg : Int := (Nat.log2 m : Int) + e
    if 12 ≤ lg then (if neg then roundFin (fpOf c) 0 false false 1 (-100000) true
                     else roundFin (fpOf c) 0 false false 1 100000 true)
    else if lg < -200 then roundFin (fpOf c) 0 false false (if neg then 2 ^ 100 - 1 else 2 ^ 100) (-100) true
    else
      -- x in units of 2^-fxP, exact: an operand of 53 bits is a multiple of 2^-252
      let x : Int := (if neg then -1 else 1) * (toFx m e : Int)
      let n : Int := x / 2 ^ fxP
      let f := (x % 2 ^ fxP).toNat
      if f = 0 then deliver c 0 false (.fin false 1 n false)
      else
        let v := expFx ((f * ln2) >>> fxP)
        deliverBetween c 3 opd false (v - fxErr) (v + fxErr) (n - fxP)

/-- tlog2 of a positive finite value. -/
def log2Fin (c opd : Nat) (m : Nat) (e : Int) : Res :=
  let k := Nat.log2 m
  let n : Int := (k : Int) + e
  if m = 2 ^ k then deliver c 0 false (.fin (decide (n < 0)) n.natAbs 0 false)
  else
    let d := 2 ^ k
    let z := ((m - d) <<< fxP) / (m + d)
    let l := (lnRatio z <<< fxP) / ln2
    let x : Int := n * 2 ^ fxP + l
    if x < 0 then deliverBetween c 4 opd true (x.natAbs - fxErr) (x.natAbs + fxErr) (-fxP)
    else deliverBetween c 4 opd false (x.natAbs - fxErr) (x.natAbs + fxErr) (-fxP)

/-- ttanh of a finite value. -/
def tanhFin (c opd : Nat) (neg : Bool) (m : Nat) (e : Int) : Res :=
  if m = 0 then deliver c 0 false (.fin neg 0 0 false)
  else
    let lg : Int := (Nat.log2 m : Int) + e
    if lg < -40 then roundFin (fpOf c) 0 false neg (m * 2 ^ 30 - 1) (e - 30) true
    else if 7 ≤ lg then roundFin (fpOf c) 0 false neg (2 ^ 100 - 1) (-100) true
    else
      let y := 2 * toFx m e
      let n := y / ln2
      let v := expFx (y % ln2)
      let q := fun ex : Nat => (((ex <<< n) - 2 ^ fxP) <<< 240) / ((ex <<< n) + 2 ^ fxP)
      deliverBetween c 5 opd neg (q (v - fxErr)) (q (v + fxErr) + 1) (-240)

/-- The reciprocal (Table 08-4). -/
def rcpV (a : Val) : Val × FlagSet :=
  if a.isZero then (.inf a.isNeg, FlagSet.dz) else divV (.fin false 1 0 false) a

/-- The reciprocal square root (Table 08-4). -/
def rsqrtV (a : Val) : Val × FlagSet :=
  match a with
  | .nan s => (.nan false, flagIf s FlagSet.nv)
  | .inf n => if n then (.nan false, FlagSet.nv) else (.zero false, 0)
  | .fin n m e _ =>
    if m = 0 then (.inf n, FlagSet.dz) else if n then (.nan false, FlagSet.nv) else (sqrtRatio 1 m (-e), 0)

/-- The functions of R176 by opcode order: 0 trcp, 1 trsqrt, 2 tsqrt, 3 texp2, 4 tlog2, 5 ttanh, over an element of
format `c`. -/
def transc (fn c mode opd : Nat) : Res :=
  let v := (decodeElem c opd).val
  let out := fun (p : Val × FlagSet) => let r := deliver c mode false p.1; (r.1, r.2 ||| p.2)
  match fn with
  | 0 => out (rcpV v)
  | 1 => out (rsqrtV v)
  | 2 => out (sqrtV v)
  | 3 =>
    (match v with
      | .nan s => out (.nan false, flagIf s FlagSet.nv)
      | .inf n => out (if n then .zero false else .inf false, 0)
      | .fin n m e _ => exp2Fin c opd n m e)
  | 4 =>
    (match v with
      | .nan s => out (.nan false, flagIf s FlagSet.nv)
      | .inf n => out (if n then (.nan false, FlagSet.nv) else (.inf false, 0))
      | .fin n m e _ =>
        if m = 0 then out (.inf true, FlagSet.dz) else if n then out (.nan false, FlagSet.nv) else log2Fin c opd m e)
  | _ =>
    (match v with
      | .nan s => out (.nan false, flagIf s FlagSet.nv)
      | .inf n => out (.fin n 1 0 false, 0)
      | .fin n m e _ => tanhFin c opd n m e)

end Sys2Proof.Machine
end

