-- ==== Sys2Proof/Machine/Elementwise.lean ====
section
/-!
DEFINITION. Sys2Proof/Machine/Elementwise.lean: elementwise and transcendental tile instructions, compare and select
(R174 to R178, Tables 08-2 to 08-4).
-/

namespace Sys2Proof.Machine

/-- An elementwise operation on bit patterns: format code, rounding mode, .sat, and up to three operands. -/
abbrev ElemOp := Nat → Nat → Bool → Nat → Nat → Nat → Res

/-- Delivers a float result of the family: under .sat an infinite result is the greatest finite magnitude with SAT and
NX (R174). -/
def elemFloat (c mode : Nat) (sat : Bool) (p : Val × FlagSet) : Res :=
  match p.1 with
  | .inf n =>
    if sat then ((fpOf c).maxBits n, p.2 ||| FlagSet.sat ||| FlagSet.nx) else ((fpOf c).infBits n, p.2)
  | v => let r := deliver c mode sat v; (r.1, r.2 ||| p.2)

/-- The exact value of a float element. -/
def fval (c x : Nat) : Val := decodeFp (fpOf c) x
/-- The integer value of an integer element. -/
def ival (c x : Nat) : Int := intOf (fmtWidth c) (fmtSigned c) x
def deliverElemInt (c : Nat) (sat : Bool) (z : Int) : Res := deliverInt (fmtWidth c) (fmtSigned c) sat z

def elemAdd : ElemOp := fun c m sat a b _ =>
  if fmtIsInt c then deliverElemInt c sat (ival c a + ival c b) else elemFloat c m sat (sumV m [fval c a, fval c b])
def elemSub : ElemOp := fun c m sat a b _ =>
  if fmtIsInt c then deliverElemInt c sat (ival c a - ival c b)
  else elemFloat c m sat (sumV m [fval c a, (fval c b).negate])
def elemMul : ElemOp := fun c m sat a b _ =>
  if fmtIsInt c then deliverElemInt c sat (ival c a * ival c b) else elemFloat c m sat (mulV (fval c a) (fval c b))
def elemDiv : ElemOp := fun c m sat a b _ =>
  if fmtIsInt c then (divInt (fmtWidth c) (fmtSigned c) a b, 0) else elemFloat c m sat (divV (fval c a) (fval c b))
def elemFma : ElemOp := fun c m sat a b d =>
  if fmtIsInt c then deliverElemInt c sat (ival c a * ival c b + ival c d)
  else elemFloat c m sat (fmaV m (fval c a) (fval c b) (fval c d))
def elemMinMax (mx : Bool) : ElemOp := fun c _ _ a b _ =>
  if fmtIsInt c then ((if mx then (if ival c a < ival c b then b else a) else if ival c b < ival c a then b else a), 0)
  else
    let p := minMaxV mx (fval c a) (fval c b)
    let r := deliver c 0 false p.1
    (r.1, p.2)
def elemAbs : ElemOp := fun c _ sat a _ _ =>
  if fmtIsInt c then (if fmtSigned c then deliverElemInt c sat (ival c a).natAbs else (a, 0))
  else (a % 2 ^ (fmtWidth c - 1), 0)
def elemNeg : ElemOp := fun c _ sat a _ _ =>
  if fmtIsInt c then deliverElemInt c sat (-(ival c a)) else (a ^^^ 2 ^ (fmtWidth c - 1), 0)
def elemRem : ElemOp := fun c _ _ a b _ => (remInt (fmtWidth c) (fmtSigned c) a b, 0)
def elemAnd : ElemOp := fun _ _ _ a b _ => (a &&& b, 0)
def elemOr : ElemOp := fun _ _ _ a b _ => (a ||| b, 0)
def elemXor : ElemOp := fun _ _ _ a b _ => (a ^^^ b, 0)
def elemAndn : ElemOp := fun c _ _ a b _ => (a &&& (b ^^^ (2 ^ fmtWidth c - 1)), 0)
/-- The low log2(w) bits of the shift operand (R174). -/
def shiftN (c b : Nat) : Nat := b % fmtWidth c
def elemSll : ElemOp := fun c _ _ a b _ => ((a <<< shiftN c b) % 2 ^ fmtWidth c, 0)
def elemSrl : ElemOp := fun c _ _ a b _ => (a >>> shiftN c b, 0)
def elemSra : ElemOp := fun c _ _ a b _ => (wrapInt (fmtWidth c) (toSigned (fmtWidth c) a / 2 ^ shiftN c b), 0)
def elemMulh : ElemOp := fun c _ _ a b _ => (wrapInt (fmtWidth c) ((ival c a * ival c b) / 2 ^ fmtWidth c), 0)

/-- The b operand: the element of tb, or under S = 1 the low w bits of the copied G register (R164). -/
def bOperand (f : TileFields) (t : TiqEntry) (s : State) (w r c : Nat) : Nat :=
  if f.sBit then t.g0.toNat % 2 ^ w else (s.ctx.tile f.tb).get r c

/-- Tile operands td, ta, tb (S = 0), tc that bear one format. -/
def elemOpnds (f : TileFields) (n : Nat) : List Opnd :=
  let o := fun r => ({ name := r, fmt := some f.fmt1.toNat } : Opnd)
  [o f.td, o f.ta] ++ (if 2 ≤ n && !f.sBit then [o f.tb] else []) ++ (if n = 3 then [o f.tc] else [])

/-- The elementwise family over `n` operands (R174). -/
def elementwise (op : ElemOp) (n : Nat) (f : TileFields) (t : TiqEntry) (s : State) : Eff :=
  let os := elemOpnds f n
  let names := os.map Opnd.name
  let c := f.fmt1.toNat
  withTiles s os <|
    .elems s f.td (s.er names) (s.ec names) fun r k =>
      op c f.rm.toNat f.sat ((s.ctx.tile f.ta).get r k) (bOperand f t s (fmtWidth c) r k)
        (if n = 3 then (s.ctx.tile f.tc).get r k else 0)

def effTadd (f : TileFields) : TiqEntry → State → Eff := elementwise elemAdd 2 f
def effTsub (f : TileFields) : TiqEntry → State → Eff := elementwise elemSub 2 f
def effTmul (f : TileFields) : TiqEntry → State → Eff := elementwise elemMul 2 f
def effTdiv (f : TileFields) : TiqEntry → State → Eff := elementwise elemDiv 2 f
def effTmin (f : TileFields) : TiqEntry → State → Eff := elementwise (elemMinMax false) 2 f
def effTmax (f : TileFields) : TiqEntry → State → Eff := elementwise (elemMinMax true) 2 f
def effTabs (f : TileFields) : TiqEntry → State → Eff := elementwise elemAbs 1 f
def effTneg (f : TileFields) : TiqEntry → State → Eff := elementwise elemNeg 1 f
def effTfma (f : TileFields) : TiqEntry → State → Eff := elementwise elemFma 3 f
def effTrem (f : TileFields) : TiqEntry → State → Eff := elementwise elemRem 2 f
def effTand (f : TileFields) : TiqEntry → State → Eff := elementwise elemAnd 2 f
def effTor (f : TileFields) : TiqEntry → State → Eff := elementwise elemOr 2 f
def effTxor (f : TileFields) : TiqEntry → State → Eff := elementwise elemXor 2 f
def effTandn (f : TileFields) : TiqEntry → State → Eff := elementwise elemAndn 2 f
def effTsll (f : TileFields) : TiqEntry → State → Eff := elementwise elemSll 2 f
def effTsrl (f : TileFields) : TiqEntry → State → Eff := elementwise elemSrl 2 f
def effTsra (f : TileFields) : TiqEntry → State → Eff := elementwise elemSra 2 f
def effTmulh (f : TileFields) : TiqEntry → State → Eff := elementwise elemMulh 2 f

/-- The transcendental rows (R176). -/
def transcTile (fn : Nat) (f : TileFields) (s : State) : Eff :=
  let names := [f.td, f.ta]
  withTiles s (elemOpnds f 1) <|
    .elems s f.td (s.er names) (s.ec names) fun r k => transc fn f.fmt1.toNat f.rm.toNat ((s.ctx.tile f.ta).get r k)

def effTrcp (f : TileFields) (_ : TiqEntry) (s : State) : Eff := transcTile 0 f s
def effTrsqrt (f : TileFields) (_ : TiqEntry) (s : State) : Eff := transcTile 1 f s
def effTsqrt (f : TileFields) (_ : TiqEntry) (s : State) : Eff := transcTile 2 f s
def effTexp2 (f : TileFields) (_ : TiqEntry) (s : State) : Eff := transcTile 3 f s
def effTlog2 (f : TileFields) (_ : TiqEntry) (s : State) : Eff := transcTile 4 f s
def effTtanh (f : TileFields) (_ : TiqEntry) (s : State) : Eff := transcTile 5 f s

/-- The relation of two elements (R177). -/
def elemRel (c rel a b : Nat) : Bool × FlagSet :=
  if fmtIsInt c then
    let x := ival c a
    let y := ival c b
    (match rel with
      | 0 => x == y
      | 1 => x != y
      | 2 => decide (x < y)
      | 3 => decide (x ≤ y)
      | 4 => decide (y < x)
      | _ => decide (y ≤ x), 0)
  else fcmpV rel (fval c a) (fval c b)

/-- tcmp (R177). -/
def effTcmp (f : TileFields) (t : TiqEntry) (s : State) : Eff :=
  let c := f.fmt1.toNat
  let os := [({ name := f.td, fmt := some 0x13 } : Opnd), { name := f.ta, fmt := some c }]
    ++ (if f.sBit then [] else [({ name := f.tb, fmt := some c } : Opnd)])
  let names := os.map Opnd.name
  withTiles s os <|
    .elems s f.td (s.er names) (s.ec names) fun r k =>
      let p := elemRel c f.rel.toNat ((s.ctx.tile f.ta).get r k) (bOperand f t s (fmtWidth c) r k)
      (bit p.1, p.2)

/-- tsel (R178). -/
def effTsel (f : TileFields) (t : TiqEntry) (s : State) : Eff :=
  let c := f.fmt1.toNat
  let os := elemOpnds f 2 ++ [({ name := f.tc, fmt := some 0x13 } : Opnd)]
  let names := os.map Opnd.name
  withTiles s os <|
    .bits s f.td (s.er names) (s.ec names) fun r k =>
      if (s.ctx.tile f.tc).get r k = 1 then (s.ctx.tile f.ta).get r k else bOperand f t s (fmtWidth c) r k

end Sys2Proof.Machine
end

