-- ==== Sys2Proof/Machine/Elems.lean ====
section
/-!
DEFINITION. Sys2Proof/Machine/Elems.lean: the element accesses of a memory instruction: where the elements lie (R96,
R234, R240), their checks (R86, R236, R268), and their reads and writes (R235, R381, R390).
-/

namespace Sys2Proof.Machine

/-! ## One element -/

/-- An element access: its coordinate and number, its address (`va` in generic memory, `off` in cluster space), its
bytes, the bit of its first byte where it starts and its width, its line, and the value a store gives its bytes. -/
structure MElem where
  row : Nat := 0
  col : Nat := 0
  e : Nat := 0
  va : Addr := 0
  off : Int := 0
  n : Nat
  sh : Nat := 0
  w : Nat := 8
  line : Nat := 0
  v : Nat := 0
  deriving DecidableEq, Repr

/-- The fault order of R268. -/
def Cause.rank : Cause → Nat
  | .pageNotPresent => 0
  | .pageProtection => 1
  | .classMismatch => 2
  | .ownership => 3
  | .shareWrite => 3
  | .dmrHomeWrite => 3
  | .memUncorrectable => 4
  | .misaligned => 5
  | .watchpoint => 6
  | _ => 7

/-- The check of an element: the physical pieces it lies in and their class; a fault, with another address to report
where a rule names one (R433); a wait on a token in transit; or a wait on bytes still to be placed (R77). -/
inductive ChkE where
  | ok (ps : List (Nat × Nat)) (cls : Nat)
  | fault (c : Cause) (src : Option Addr)
  | wait (va : Addr)
  | stall
  deriving DecidableEq, Repr

/-- The accessor: its address space, the identities it acts under, and what the access is. -/
structure Party where
  asid : BitVec 16
  ids : List Nat
  acc : Acc
  deriving DecidableEq, Repr

/-- Pages checked so far by one instruction (R86, R236): virtual page, physical base, class. -/
abbrev Pages := List (Nat × Nat × Nat)

/-- An access cut at 64 KiB page boundaries; an access is at most one page long. -/
def pieces (va : Addr) (n : Nat) : List (Addr × Nat) :=
  let room := 65536 - va.toNat % 65536
  if n ≤ room then [(va, n)] else [(va, room), (va + BitVec.ofNat 72 room, n - room)]

/-- The check of one page, once per instruction; `n` is the size of the whole access (R82). -/
def State.pageCheck (p : Party) (m : Pages) (va : Addr) (n : Nat) (s : State) : Chk × Pages × State :=
  let vp := va.toNat / 65536
  let o := va.toNat % 65536
  match m.find? fun x => x.1 == vp with
  | some x => (.ok (x.2.1 + o) x.2.2, m, s)
  | none =>
    match s.check p.asid p.ids p.acc va n with
    | (.ok pa cls, s) => (.ok pa cls, (vp, pa - o, cls) :: m, s)
    | (r, s) => (r, m, s)

/-- The worse of two check results: the fault R268 puts first, then a wait. -/
def ChkE.meet : ChkE → ChkE → ChkE
  | .fault c x, .fault d y => if d.rank < c.rank then .fault d y else .fault c x
  | .fault c x, _ => .fault c x
  | _, .fault c x => .fault c x
  | .wait v, _ => .wait v
  | _, .wait v => .wait v
  | .stall, _ => .stall
  | _, .stall => .stall
  | .ok ps c, .ok qs _ => .ok (ps ++ qs) c

/-- One piece of an element of `n` bytes. -/
def State.pieceCheck (p : Party) (n : Nat) (m : Pages) (x : Addr × Nat) (s : State) : ChkE × Pages × State :=
  match s.pageCheck p m x.1 n with
  | (.ok pa cls, m, s) => (.ok [(pa, x.2)] cls, m, s)
  | (.fault c, m, s) => (.fault c none, m, s)
  | (.wait _, m, s) => (.wait x.1, m, s)

/-- The check of an element of `n` bytes at `va`: every page it touches, then its alignment (R268). -/
def State.elemCheck (p : Party) (align : Nat) (m : Pages) (va : Addr) (n : Nat) (s : State) : ChkE × Pages × State :=
  let r := (pieces va n).foldl (fun (st : Option ChkE × Pages × State) x =>
    let q := State.pieceCheck p n st.2.1 x st.2.2
    (some (match st.1 with | some c => c.meet q.1 | none => q.1), q.2)) (none, m, s)
  let c := r.1.getD .stall
  let c := if va.toNat % align != 0 then c.meet (.fault .misaligned none) else c
  (c, r.2)

/-- A watch range that the access matches (R282), unless it is to be skipped. -/
def State.watchMeets (s : State) (a : Acc) (cs : Bool) (lo n : Nat) : Bool :=
  a.watched && !a.agent && !(s.ctx.skipwp && !a.copy) && s.ctx.watchHit cs a.write a.home lo n

/-- The check of a generic-memory element, watch ranges included. -/
def State.vaCheck (p : Party) (align : Nat) (m : Pages) (x : MElem) (s : State) : ChkE × Pages × State :=
  let r := s.elemCheck p align m x.va x.n
  (if s.watchMeets p.acc false x.va.toNat x.n then r.1.meet (.fault .watchpoint none) else r.1, r.2)

/-! ## Data -/

/-- What keeps checked bytes from being read: poison (R381), or a link that is lost (R404, R405). -/
def State.dataFault (s : State) (read : Bool) (ps : List (Nat × Nat)) : Option Cause :=
  if ps.any fun p => s.unreachable p.1 then some .linkLost
  else if read && ps.any (fun p => s.isPoisoned p.1 p.2) then some .memUncorrectable
  else none

/-- The bytes of pieces, the first lowest. -/
def State.rdPieces (s : State) : List (Nat × Nat) → Nat
  | [] => 0
  | p :: ps => s.rd p.1 p.2 + s.rdPieces ps <<< (8 * p.2)

/-- The state with the bytes of pieces written. -/
def State.wrPieces (s : State) : List (Nat × Nat) → Nat → State
  | [], _ => s
  | p :: ps, v => (s.wr p.1 p.2 v).wrPieces ps (v >>> (8 * p.2))

/-- The physical bytes of pieces. -/
def bytesIn (ps : List (Nat × Nat)) : List Nat := ps.flatMap fun p => (upto p.2).map fun i => p.1 + i

/-- The parts of an element of `n` bytes at an address that are each written whole: first byte and length (R105). -/
def atomParts (a n : Nat) : List (Nat × Nat) :=
  if n ≤ 8 ∧ a % n = 0 then [(0, n)] else if n = 16 ∧ a % 8 = 0 then [(0, 8), (8, 8)] else (upto n).map fun i => (i, 1)

/-- Writes the parts of an element, where a part that another line of the same access has written may keep what stands
there: a free choice for each part (R95, R105, R235, R241, notes/assumptions/7.md). `seen` holds the places written and
their lines; `at_` names the place of byte i, and `put` writes it. -/
def writeParts {α : Type} [BEq α] (at_ : Nat → α) (put : Nat → Nat → State → State) (line v : Nat)
    (parts : List (Nat × Nat)) (st : List (α × Nat) × State) : List (α × Nat) × State :=
  parts.foldl (fun (st : List (α × Nat) × State) r =>
    let is := (upto r.2).map fun i => r.1 + i
    let puts := fun (s : State) => is.foldl (fun s i => put i (v >>> (8 * i) % 256) s) s
    if is.any fun i => st.1.any fun x => x.1 == at_ i && x.2 != line then
      let s' := { st.2 with freeCtr := st.2.freeCtr + 1 }
      (st.1, if Config.freeBit st.2.freeCtr then puts s' else s')
    else (is.map (fun i => (at_ i, line)) ++ st.1, puts st.2)) st

/-- Writes an element of a store whose elements may overlap. -/
def State.wrShared (s : State) (x : MElem) (seen : List (Nat × Nat)) (ps : List (Nat × Nat)) :
    List (Nat × Nat) × State :=
  let bs := bytesIn ps
  writeParts (fun i => bs.getD i 0) (fun i b s => s.wr (bs.getD i 0) 1 b) x.line x.v (atomParts x.va.toNat x.n) (seen, s)

/-! ## The DMR signature (R390) -/

/-- One byte of the CRC-64 of ECMA-182. -/
def crcByte (crc : BitVec 64) (b : Byte) : BitVec 64 :=
  (upto 8).foldl (fun c _ => if c.getLsbD 63 then (c <<< 1) ^^^ 0x42F0E1EBA9EA3693#64 else c <<< 1)
    (crc ^^^ (b.setWidth 64 <<< 56))

/-- A byte string added to a signature. -/
def crcBytes (crc : BitVec 64) (bs : List Byte) : BitVec 64 := bs.foldl crcByte crc

/-- The contribution of a written element of a DMR instance: its address and its bytes. -/
def State.sign (s : State) (va : Addr) (n v : Nat) : State :=
  if s.ctx.inst.isSome then
    s.mapCtx fun c => { c with crc := crcBytes (crcBytes c.crc (bytesOf 9 va.toNat)) (bytesOf n v) }
  else s

/-! ## Loads -/

/-- How far a run over elements came: to its end, to a fault at an element, or to a wait. -/
inductive Run (α : Type) where
  | done (a : α) (s : State)
  | fault (c : Cause) (src : Option Addr) (x : MElem) (a : α) (s : State)
  | wait (va : Addr) (a : α) (s : State)
  | stall (a : α) (s : State)

/-- Loads elements in ascending e into a tile, up to the first that faults or waits. -/
def loadVa (p : Party) (align : Nat) (put : Tile → MElem → Nat → Tile) :
    List MElem → Pages → Tile → State → Run Tile
  | [], _, t, s => .done t s
  | x :: xs, m, t, s =>
    match s.vaCheck p align m x with
    | (.ok ps _, m, s) =>
      match s.dataFault true ps with
      | some c => .fault c none x t s
      | none => loadVa p align put xs m (put t x ((s.rdPieces ps >>> x.sh) % 2 ^ x.w)) s
    | (.fault c src, _, s) => .fault c src x t s
    | (.wait va, _, s) => .wait va t s
    | (.stall, _, s) => .stall t s

/-! ## Stores -/

/-- The checks of a run of elements: their pieces and classes, and the pages they lie in. -/
def checkVa (p : Party) (align : Nat) : List MElem → Pages → List (MElem × List (Nat × Nat) × Nat) → State →
    Run (List (MElem × List (Nat × Nat) × Nat) × Pages)
  | [], m, acc, s => .done (acc.reverse, m) s
  | x :: xs, m, acc, s =>
    match s.vaCheck p align m x with
    | (.ok ps cls, m, s) => checkVa p align xs m ((x, ps, cls) :: acc) s
    | (.fault c src, _, s) => .fault c src x (acc, m) s
    | (.wait va, _, s) => .wait va (acc, m) s
    | (.stall, _, s) => .stall (acc, m) s

/-- Two virtual pages of one access share a frame. -/
def Pages.shared (m : Pages) : Bool :=
  m.any fun x => m.any fun y => x.1 != y.1 && x.2.1 == y.2.1

/-- The set of performed elements (R255, R404). -/
def State.performedBit (s : State) (e : Nat) : Bool := s.ctx.performed.testBit e
def State.setPerformed (s : State) (e : Nat) : State :=
  s.mapCtx fun c => { c with performed := c.performed ||| 2 ^ e }

/-- Writes checked elements in ascending e; an element whose target cannot be reached stops the run, and the performed
set keeps what was written (R404). -/
def writeVa (track ord : Bool) : List (MElem × List (Nat × Nat) × Nat) → List (Nat × Nat) → State →
    Run (List (Nat × Nat))
  | [], seen, s => .done seen s
  | (x, ps, cls) :: xs, seen, s =>
    if s.performedBit x.e then writeVa track ord xs seen s
    else
      match s.dataFault false ps with
      | some c => .fault c none x seen s
      | none =>
        let s := s.sign x.va x.n x.v
        if track && !(ord && cls == 2) then
          let r := s.wrShared x seen ps
          writeVa track ord xs r.1 (r.2.setPerformed x.e)
        else writeVa track ord xs seen ((s.wrPieces ps x.v).setPerformed x.e)

/-- The distinct pages of elements. -/
def pagesOf (xs : List MElem) : List Nat :=
  xs.foldl (fun ps x => (pieces x.va x.n).foldl (fun ps q =>
    let p := q.1.toNat / 65536
    if ps.contains p then ps else p :: ps) ps) []

/-- Dirty bits for the pages of written elements (R237). -/
def State.commitPages (s : State) (p : Party) (xs : List MElem) : State :=
  (pagesOf xs).foldl (fun s vp => s.commitDirty p.asid p.acc.agent (BitVec.ofNat 72 (vp * 65536))) s

/-- The chunks of R236: runs of ascending e over at most 16,384 distinct pages. -/
def chunks (xs : List MElem) : List (List MElem) :=
  if xs.length ≤ 8192 then [xs]
  else
    let r := xs.foldl (fun (st : List (List MElem) × List MElem × List Nat) x =>
      let new := ((pieces x.va x.n).map fun q => q.1.toNat / 65536).filter fun p => !st.2.2.contains p
      if 16384 < st.2.2.length + new.length then
        (st.2.1.reverse :: st.1, [x], (pieces x.va x.n).map fun q => q.1.toNat / 65536)
      else (st.1, x :: st.2.1, new ++ st.2.2)) ([], [], [])
    (r.2.1.reverse :: r.1).reverse

/-- One chunk of a store: checked whole, then written, its dirty bits committed, and poison cleared where a granule was
written whole. -/
def storeChunk (p : Party) (align : Nat) (track : Bool) (xs : List MElem) (s : State) : Run Unit :=
  match checkVa p align xs [] [] s with
  | .fault c src x _ s => .fault c src x () s
  | .wait va _ s => .wait va () s
  | .stall _ s => .stall () s
  | .done (ws, m) s =>
    match writeVa (track || m.shared) p.acc.ord ws [] s with
    | .done _ s => .done () ((s.clearPoison (ws.flatMap fun w => w.2.1)).commitPages p xs)
    | .fault c src x _ s => .fault c src x () (s.commitPages p (xs.filter fun y => s.performedBit y.e))
    | .wait va _ s => .wait va () s
    | .stall _ s => .stall () s

/-- The chunks of a store in turn: the first e of the chunk that stopped it goes with the outcome. -/
def storeChunks (p : Party) (align : Nat) (track : Bool) : List (List MElem) → State → Run Nat
  | [], s => .done 0 s
  | xs :: rest, s =>
    let e0 := (xs.head?.map MElem.e).getD 0
    match storeChunk p align track xs s with
    | .done _ s => storeChunks p align track rest s
    | .fault c src x _ s => .fault c src x e0 s
    | .wait va _ s => .wait va e0 s
    | .stall _ s => .stall e0 s

/-! ## Where the elements of a tile lie (R96, R234, R249) -/

/-- The position of an element in its line: line, bits before it in the line, elements of the line. -/
def linePos (sr : Sr) (r c : Nat) : Nat × Nat × Nat :=
  if sr.layout = 1 then (c, r * sr.w, sr.rows) else (r, c * sr.w, sr.cols)

/-- The bytes that a store gives an element: its own bits and, for a format narrower than 8 bits, those of the line's
elements that share its bytes (R235). -/
def storeBytes (t : Tile) (r c : Nat) : Nat :=
  let w := t.sr.w
  if 8 ≤ w then t.get r c
  else
    let p := linePos t.sr r c
    let byte := p.2.1 / 8
    let n := ceilDiv (p.2.1 % 8 + w) 8
    let k0 := 8 * byte / w
    let k1 := min p.2.2 (ceilDiv (8 * (byte + n)) w)
    let v := (upto (k1 - k0)).foldl (fun v i =>
      let x := if t.sr.layout = 1 then t.get (k0 + i) c else t.get r (k0 + i)
      v + x <<< (w * i)) 0
    (v >>> (8 * byte - k0 * w)) % 2 ^ (8 * n)

/-- The elements a tile instruction moves, in ascending e: those of the extent, or every byte of a bit-plane or sparse-12
footprint, numbered from 0 (notes/assumptions/24.md). `pos` gives the address of a byte of a line. -/
def tileElems (t : Tile) (er ec xc : Nat) (pos : Nat → Nat → Addr × Int) : List MElem :=
  if t.sr.flat then
    (extent er ec).map fun q =>
      let p := linePos t.sr q.1 q.2
      let n := ceilDiv (p.2.1 % 8 + t.sr.w) 8
      let a := pos p.1 (p.2.1 / 8)
      { row := q.1, col := q.2, e := q.1 * xc + q.2, va := a.1, off := a.2, n := n, sh := p.2.1 % 8, w := t.sr.w,
        line := p.1, v := storeBytes t q.1 q.2 }
  else
    (upto t.sr.footprint).map fun j =>
      let a := pos 0 j
      { col := j, e := j, va := a.1, off := a.2, n := 1, v := getBits t.slot (8 * j) 8 }

/-- Puts a loaded element into the tile. -/
def putElem (t : Tile) (x : MElem) (v : Nat) : Tile :=
  if t.sr.flat then t.put x.row x.col v else { t with slot := putBits t.slot (8 * x.e) 8 v }

/-- The dense pitch of a shape record (R234). -/
def Sr.densePitch (s : Sr) : Nat := ceilDiv ((if s.layout = 1 then s.rows else s.cols) * s.w) 8

/-- The alignment of R234. -/
def Sr.memAlign (s : Sr) : Nat := if s.flat && decide (8 ≤ s.w) then min (s.w / 8) 8 else 1

/-- The lines of one store may overlap: the pitch is shorter than a line. -/
def linesOverlap (sr : Sr) (pitch : Int) : Bool := sr.flat && decide (pitch.natAbs < sr.densePitch)

/-- Two elements of a scatter share bytes (R241). -/
def elemsOverlap (xs : List MElem) : Bool :=
  let vs := sortNat 18 (xs.map fun x => x.va.toNat)
  let n := (xs.head?.map MElem.n).getD 0
  (vs.zip (vs.drop 1)).any fun p => decide (p.2 < p.1 + n)

/-! ## Outcomes as effects -/

/-- The fault of an element access. -/
def elemInfo (cs wr : Bool) (tile : Option (BitVec 5)) (c : Cause) (src : Option Addr) (x : MElem) : Info :=
  { cause := c
    va := some (src.getD (if cs then BitVec.ofNat 72 (x.off % (2 ^ 64 : Int)).toNat else x.va))
    cs := cs && src.isNone
    elem := some (x.row, x.col, x.e), tile := tile, wr := wr }

/-- The effect of a load run into `td` (R268, R269). -/
def loadEff (cs : Bool) (td : BitVec 5) : Run Tile → Eff
  | .done t s => .done (s.mapCtx fun c => c.putTile td t)
  | .fault c src x t s =>
    .trap (elemInfo cs false (some td) c src x) x.e (s.mapCtx fun k => { k with partialDst := some t.slot })
  | .wait va _ s => .block { kind := .token, addr := va } s
  | .stall _ s => .block {} s

/-- The tile a load starts from: the head entry's partial destination where a replay has one (R279). -/
def State.loadBase (s : State) (td : BitVec 5) : Tile :=
  let t := s.ctx.tile td
  { t with slot := s.ctx.partialDst.getD t.slot }

/-- The elements from TES on (R279). -/
def State.fromTes (s : State) (xs : List MElem) : List MElem := xs.filter fun x => decide (s.ctx.tes.toNat ≤ x.e)

/-- The effect of a store run: at its end `fin` gives what else the instruction does. A stop in a later chunk leaves
earlier chunks written; after LINK_LOST the performed set stands and TES is 0 (R404). -/
def storeEff (cs : Bool) (ta : BitVec 5) (fin : State → Eff) : Run Nat → Eff
  | .done _ s => fin s
  | .fault c src x e0 s =>
    if c = .linkLost then .trap (elemInfo cs true (some ta) c src x) s.ctx.tes.toNat s
    else .trap (elemInfo cs true (some ta) c src x) e0
      (s.mapCtx fun k => { k with performed := (k.performed >>> e0) <<< e0 })
  | .wait va e0 s => .block { kind := .token, addr := va } (s.mapCtx fun k => { k with tes := BitVec.ofNat 18 e0 })
  | .stall _ s => .block {} s

/-! ## Counter cells (R193, R239) -/

/-- The party of an ordinary access of the focused context. -/
def State.party (s : State) (a : Acc) : Party := { asid := s.ctx.asid, ids := s.ctx.ids, acc := a }

/-- The check of an 8-byte HOME counter cell. -/
def State.cellCheck (s : State) (va : Addr) : ChkE × State :=
  let p := s.party { write := true, home := true }
  let r := s.vaCheck p 8 [] { va := va, n := 8 }
  (r.1, r.2.2)

/-- An atomic add to a checked cell. -/
def State.addCell (s : State) (va : Addr) (ps : List (Nat × Nat)) (k : Nat) : State :=
  let v := (s.rdPieces ps + k) % 2 ^ 64
  let s := (s.wrPieces ps v).sign va 8 v
  s.commitPages (s.party {}) [{ va := va, n := 8 }]

/-- Runs a body that adds to a counter cell: the cell is checked before anything is written, and its faults are precise
at the instruction. -/
def withCell (s : State) (va : Addr) (body : List (Nat × Nat) → State → Eff) : Eff :=
  match s.cellCheck va with
  | (.ok ps _, s) =>
    match s.dataFault true ps with
    | some c => .trap { cause := c, va := some va, wr := true } 0 s
    | none => body ps s
  | (.fault c _, s) => .trap { cause := c, va := some va, wr := true } 0 s
  | (.wait va, s) => .block { kind := .token, addr := va } s
  | (.stall, s) => .block {} s

end Sys2Proof.Machine
end

