-- ==== Sys2Proof/Machine/Copy.lean ====
section
/-!
DEFINITION. Sys2Proof/Machine/Copy.lean: cluster-space accesses (R76, R77, R249, R433), copy descriptors (R93 to R95,
R245), copies, their strips, watermarks and waits (R89 to R91, R109, R246 to R248).
-/

namespace Sys2Proof.Machine

/-! ## Cluster space -/

/-- The check of `n` bytes at a cluster-space offset, aligned to `align`. -/
def State.csCheck (s : State) (acc : Acc) (align : Nat) (off : Int) (n : Nat) : ChkE :=
  let size := match s.group with | some g => g.size | none => 0
  if off < 0 ∨ (size : Int) < off + n then .fault .pageProtection none
  else
    let lo := off.toNat
    let meets := fun a b => decide (a < lo + n) && decide (lo < b)
    let pend := match s.group with | some g => g.pending.any (fun r => meets r.1 r.2) | none => false
    let bad := match s.group with | some g => g.unreadable.find? (fun (r : Unread) => meets r.lo r.hi) | none => none
    if pend then .stall
    else
      match bad, acc.write with
      | some r, false =>
        .fault r.cause (if r.cause = .memUncorrectable then none else some (BitVec.ofNat 72 (r.va + (lo - r.lo))))
      | _, _ =>
        if lo % align != 0 then .fault .misaligned none
        else if s.watchMeets acc true lo n then .fault .watchpoint none
        else .ok [(lo, n)] 0

/-- Bytes of the focused context's reservation. -/
def State.csRead (s : State) (lo n : Nat) : Nat :=
  match s.group with
  | some g => getBits g.bytes (8 * lo) (8 * n)
  | none => 0

/-- A mark of R433 with the bytes [lo, hi) taken out; a poisoned granule keeps its mark (R381). -/
def Unread.cut (lo hi : Nat) (u : Unread) : List Unread :=
  if u.hi ≤ lo ∨ hi ≤ u.lo ∨ u.cause = .memUncorrectable then [u]
  else (if u.lo < lo then [{ u with hi := lo }] else [])
    ++ (if hi < u.hi then [{ u with lo := hi, va := u.va + (hi - u.lo) }] else [])

/-- The reservation with bytes written; a written byte loses its mark (R433). -/
def State.csWrite (s : State) (lo n v : Nat) : State :=
  s.mapGroup fun g => { g with bytes := putBits g.bytes (8 * lo) (8 * n) v,
                               unreadable := g.unreadable.flatMap (Unread.cut lo (lo + n)) }

/-- Granules of the reservation that ranges cover whole lose their poison (R381). -/
def State.csClean (s : State) (ranges : List (Nat × Nat)) : State :=
  s.mapGroup fun g => { g with unreadable := g.unreadable.filter fun u =>
    !(u.cause == .memUncorrectable
      && (upto (u.hi - u.lo)).all fun i => ranges.any fun r => decide (r.1 ≤ u.lo + i) && decide (u.lo + i < r.1 + r.2)) }

/-- csld's elements into a tile, up to the first that faults or stalls. -/
def loadCs (align : Nat) : List MElem → Tile → State → Run Tile
  | [], t, s => .done t s
  | x :: xs, t, s =>
    match s.csCheck {} align x.off x.n with
    | .ok _ _ => loadCs align xs (putElem t x ((s.csRead x.off.toNat x.n >>> x.sh) % 2 ^ x.w)) s
    | .fault c src => .fault c src x t s
    | .wait va => .wait va t s
    | .stall => .stall t s

/-- csst: every byte is checked before any is written; of two lines that overlap, either may remain (R235). -/
def storeCs (align : Nat) (track : Bool) (xs : List MElem) (s : State) : Run Nat :=
  match xs.find? fun x => !(match s.csCheck { write := true } align x.off x.n with | .ok _ _ => true | _ => false) with
  | some x =>
    let e0 := (xs.head?.map MElem.e).getD 0
    match s.csCheck { write := true } align x.off x.n with
    | .fault c src => .fault c src x e0 s
    | _ => .stall e0 s
  | none =>
    .done 0 (State.csClean (xs.foldl (fun (st : List (Nat × Nat) × State) x =>
      let a := x.off.toNat
      if track then writeParts (fun i => a + i) (fun i b s => s.csWrite (a + i) 1 b) x.line x.v (atomParts a x.n) st
      else (st.1, st.2.csWrite a x.n x.v)) ([], s)).2
      (xs.map fun x => (x.off.toNat, x.n)))

/-! ## Descriptors (Table 11-3) -/

abbrev Desc := BitVec 1024
namespace Desc
def src (d : Desc) : Addr := d.extractLsb' 0 72
def dst (d : Desc) : Addr := d.extractLsb' 128 72
/-- Extent of source dimension i. -/
def n (d : Desc) (i : Nat) : Nat := (d.extractLsb' (256 + 16 * i) 16).toNat + 1
/-- Destination dimension of source dimension i. -/
def perm (d : Desc) (i : Nat) : Nat := (d.extractLsb' (336 + 3 * i) 3).toNat
def esz (d : Desc) : Nat := (d.extractLsb' 352 3).toNat
def scs (d : Desc) : Bool := d.getLsbD 360
def dcs (d : Desc) : Bool := d.getLsbD 361
def ss (d : Desc) (i : Nat) : Int := (d.extractLsb' (384 + 64 * i) 64).toInt
def ds (d : Desc) (i : Nat) : Int := (d.extractLsb' (704 + 64 * i) 64).toInt
/-- Bytes of an element. -/
def size (d : Desc) : Nat := 2 ^ d.esz
/-- Elements of the copy. -/
def count (d : Desc) : Nat := d.n 0 * d.n 1 * d.n 2 * d.n 3 * d.n 4
/-- Elements of a strip: 4 KiB of source bytes (R246). -/
def perStrip (d : Desc) : Nat := 4096 / d.size
def strips (d : Desc) : Nat := ceilDiv d.count d.perStrip

/-- Index of element j in source dimension i. -/
def coord (d : Desc) (j i : Nat) : Nat := (upto i).foldl (fun x k => x / d.n k) j % d.n i

/-- Byte displacements of element j. -/
def srcOff (d : Desc) (j : Nat) : Int := (upto 5).foldl (fun (x : Int) i => x + d.coord j i * d.ss i) 0
def dstOff (d : Desc) (j : Nat) : Int := (upto 5).foldl (fun (x : Int) i => x + d.coord j i * d.ds (d.perm i)) 0

/-- The bases as integers: an address, or a cluster-space offset. -/
def srcBase (d : Desc) : Int := if d.scs then ((d.extractLsb' 0 23).toNat : Int) else (d.src.toNat : Int)
def dstBase (d : Desc) : Int := if d.dcs then ((d.extractLsb' 128 23).toNat : Int) else (d.dst.toNat : Int)
def srcAt (d : Desc) (j : Nat) : Int := d.srcBase + d.srcOff j
def dstAt (d : Desc) (j : Nat) : Int := d.dstBase + d.dstOff j

/-- The bounding range of a tensor: first byte, and first byte beyond. -/
def range (base : Int) (size : Nat) (dims : List (Nat × Int)) : Int × Int :=
  (base + dims.foldl (fun x p => x + min 0 (((p.1 : Int) - 1) * p.2)) 0,
   base + dims.foldl (fun x p => x + max 0 (((p.1 : Int) - 1) * p.2)) 0 + size)
def srcRange (d : Desc) : Int × Int := range d.srcBase d.size ((upto 5).map fun i => (d.n i, d.ss i))
def dstRange (d : Desc) : Int × Int := range d.dstBase d.size ((upto 5).map fun i => (d.n i, d.ds (d.perm i)))

/-- A field outside R93 and R94, a reserved bit, or overlapping bounding ranges (R95). -/
def bad (d : Desc) : Bool :=
  let strideBad := fun (x : Int) => x % d.size != 0 || decide (2 ^ 47 < x.natAbs)
  d.getLsbD 351 || d.extractLsb' 355 5 != 0 || d.extractLsb' 362 22 != 0 || decide (4 < d.esz)
  || (upto 5).any (fun i => !((upto 5).map d.perm).contains i)
  || (upto 5).any (fun i => strideBad (d.ss i) || strideBad (d.ds i))
  || (d.scs && d.extractLsb' 23 105 != 0) || (d.dcs && d.extractLsb' 151 105 != 0)
  || (d.scs == d.dcs && decide (d.srcRange.1 < d.dstRange.2) && decide (d.dstRange.1 < d.srcRange.2))

/-- Destination elements may overlap each other: the strides do not nest. -/
def mayOverlap (d : Desc) : Bool :=
  let dims := ((upto 5).map fun i => (d.n i, (d.ds (d.perm i)).natAbs)).filter fun p => decide (1 < p.1)
  let sorted := sortNat 3 (dims.map fun p => p.2 * 2 ^ 17 + p.1)
  (sorted.foldl (fun (st : Bool × Nat) x =>
    (st.1 || decide (x / 2 ^ 17 < st.2), x / 2 ^ 17 * (x % 2 ^ 17 - 1) + st.2)) (false, d.size)).1
end Desc

/-! ## Progress of a copy -/

namespace Copy
def finished (c : Copy) : Bool := (upto (Desc.strips c.desc)).all fun k => c.done.contains k
/-- Elements not yet transferred. -/
def undone (c : Copy) : List Nat :=
  (upto (Desc.count c.desc)).filter fun j => !c.done.contains (j / Desc.perStrip c.desc)
/-- The watermark (R90). -/
def mark (c : Copy) : Nat :=
  (c.undone.foldl (fun m j => min m (Desc.dstAt c.desc j)) (Desc.dstRange c.desc).2).toNat
/-- The 64 arrival pointers (R91): the lowest byte of each bank not yet written, or the end. -/
def arrive (c : Copy) : List Nat :=
  let d := c.desc
  c.undone.foldl (fun ps j => (upto (Desc.size d)).foldl (fun ps i =>
    let x := (Desc.dstAt d j).toNat + i
    modifyAt (fun p => min p x) ps (x / 8 % 64)) ps) (List.replicate 64 (Desc.dstRange d).2.toNat)
/-- The lowest j not transferred (R247). -/
def lowJ (c : Copy) : Nat := ((upto (Desc.strips c.desc)).find? fun k => !c.done.contains k).getD 0 * Desc.perStrip c.desc

/-- Whether an access to [lo, hi) conflicts with the copy's interlock entries (R22, R90). -/
def meets (c : Copy) (cs write : Bool) (lo hi : Int) : Bool :=
  let d := c.desc
  let hits := fun (r : Int × Int) => decide (lo < r.2) && decide (r.1 < hi)
  (write && Desc.scs d == cs && hits (Desc.srcRange d))
  || (Desc.dcs d == cs && hits (if cs then ((c.mark : Int), (Desc.dstRange d).2) else Desc.dstRange d))
end Copy

/-- A stopped copy's fault as the entry or the end that meets it reports it (R247, R266). -/
def stopInfo (c : Copy) (f : CopyStop) : Info :=
  { cause := f.cause, va := some f.va, cs := f.cs, wr := f.wr, copy := true, pc := some c.pc }

/-- What an entry that waits for a copy meets: the stopped copy's fault (R247), or the wait itself. -/
def copyWait (c : Copy) (s : State) : Eff :=
  match c.stop with
  | some f => .trap (stopInfo c f) s.ctx.tes.toNat s
  | none => .block {} s

/-- Runs a body once no copy of the issuer is selected (R109). -/
def afterCopies (sel : Copy → Bool) (s : State) (body : Eff) : Eff :=
  match s.ctx.copies.find? sel with
  | some c => copyWait c s
  | none => body

/-- Runs a body once no copy conflicts with any of the ranges of an access (R22). -/
def afterRange (cs write : Bool) (lo hi : Int) (s : State) (body : Eff) : Eff :=
  afterCopies (fun c => c.meets cs write lo hi) s body

/-- The bounding range of elements. -/
def vaRange (xs : List MElem) : Int × Int :=
  match xs with
  | [] => (0, 0)
  | x :: xs => xs.foldl (fun r y => (min r.1 (y.va.toNat : Int), max r.2 ((y.va.toNat : Int) + y.n)))
      ((x.va.toNat : Int), (x.va.toNat : Int) + x.n)
def csRange (xs : List MElem) : Int × Int :=
  match xs with
  | [] => (0, 0)
  | x :: xs => xs.foldl (fun r y => (min r.1 y.off, max r.2 (y.off + y.n))) (x.off, x.off + x.n)

/-! ## Side effects (R29, R385) -/

/-- The context, and its group, have retired a visible side effect. -/
def State.sideEffect (s : State) : State :=
  (s.mapCtx fun c => { c with sidefx := true }).mapGroup fun g => { g with sidefx := true }

/-! ## Acceptance (R246) -/

/-- The parties of a copy's source and destination. -/
def srcParty (p : Party) : Party := { p with acc := { p.acc with write := false } }
def dstParty (p : Party) : Party := { p with acc := { p.acc with write := true } }

/-- Checks element j of one side. -/
def copyElem (p : Party) (m : Pages) (cs : Bool) (at_ : Int) (n : Nat) (s : State) : ChkE × Pages × State :=
  if cs then (s.csCheck p.acc n at_ n, m, s)
  else s.vaCheck p 1 m { va := BitVec.ofInt 72 at_, n := n }

/-- How a part of a copy goes: to its end, to a stop, or it must wait: for a token in transit to its party (R86), at an
address, or for bytes that Caravan has still to place (R77). -/
inductive StripRun (α : Type) where
  | done (a : α) (s : State)
  | stop (f : CopyStop) (s : State)
  | wait (va : Option Addr) (s : State)

/-- The stop at an element whose access has failed (R247, R266). -/
def stopAt (c : Cause) (src : Option Addr) (cs wr : Bool) (at_ : Int) : CopyStop :=
  { cause := c, va := src.getD (if cs then BitVec.ofNat 72 (at_ % (2 ^ 64 : Int)).toNat else BitVec.ofInt 72 at_),
    cs := cs && src.isNone, wr := wr }

/-- An element of one side, with its check. -/
def copySide (p : Party) (m : Pages) (cs : Bool) (at_ : Int) (n : Nat) (s : State) :
    StripRun (List (Nat × Nat) × Pages) :=
  match copyElem p m cs at_ n s with
  | (.ok ps _, m, s) => .done (ps, m) s
  | (.fault c src, _, s) => .stop (stopAt c src cs p.acc.write at_) s
  | (.wait va, _, s) => .wait (some va) s
  | (.stall, _, s) => .wait none s

/-- The pages of an element that are not among those checked. -/
def newPages (m : Pages) (cs : Bool) (at_ : Int) (n : Nat) : Nat :=
  if cs then 0 else ((pieces (BitVec.ofInt 72 at_) n).filter fun q => !m.any fun x => x.1 == q.1.toNat / 65536).length

/-- Checks the source and destination of the elements from j on, `fuel` of them, up to the end of the chunk: the longest
run that touches at most 16,384 pages (R236, R246). Answers the element after the chunk. -/
def copyScan (d : Desc) (p : Party) : Nat → Nat → Pages → Pages → State → StripRun Nat
  | 0, j, _, _, s => .done j s
  | fuel + 1, j, ms, md, s =>
    if decide (16380 < ms.length + md.length) && decide (16384 < ms.length + md.length
        + newPages ms d.scs (d.srcAt j) d.size + newPages md d.dcs (d.dstAt j) d.size) then .done j s
    else
      match copySide (srcParty p) ms d.scs (d.srcAt j) d.size s with
      | .stop f s => .stop f s
      | .wait v s => .wait v s
      | .done x s =>
        match copySide (dstParty p) md d.dcs (d.dstAt j) d.size s with
        | .stop f s => .stop f s
        | .wait v s => .wait v s
        | .done y s => copyScan d p fuel (j + 1) x.2 y.2 s

/-- Checks whole chunks from element `j` on until element `last` lies in one: no element of a chunk is written before
(R89, R236). -/
def copyChunks (d : Desc) (p : Party) (last : Nat) : Nat → Nat → State → StripRun Nat
  | 0, j, s => .done j s
  | fuel + 1, j, s =>
    if last < j then .done j s
    else
      match copyScan d p (d.count - j) j [] [] s with
      | .done k s => copyChunks d p last fuel k s
      | r => r

/-! ## Strips -/

/-- An element of a strip as it is to be written: its number, its bytes, and where they go. -/
abbrev PlanElem := Nat × Nat × List (Nat × Nat)

/-- Reads and checks the elements of a strip, up to the first that stops it: the strip as it is to be written. -/
def planStrip (d : Desc) (p : Party) : List Nat → Pages → Pages → List PlanElem → State → StripRun (List PlanElem)
  | [], _, _, acc, s => .done acc.reverse s
  | j :: js, ms, md, acc, s =>
    match copySide (srcParty p) ms d.scs (d.srcAt j) d.size s with
    | .stop f s => .stop f s
    | .wait v s => .wait v s
    | .done x s =>
      match if d.scs then none else s.dataFault true x.1 with
      | some c => .stop (stopAt c none d.scs false (d.srcAt j)) s
      | none =>
        let v := if d.scs then s.csRead (d.srcAt j).toNat d.size else s.rdPieces x.1
        match copySide (dstParty p) md d.dcs (d.dstAt j) d.size s with
        | .stop f s => .stop f s
        | .wait v s => .wait v s
        | .done y s =>
          match if d.dcs then none else s.dataFault false y.1 with
          | some c => .stop (stopAt c none d.dcs true (d.dstAt j)) s
          | none => planStrip d p js x.2 y.2 ((j, v, y.1) :: acc) s

/-- Writes a destination element; where elements of the destination overlap, a byte written before may stay (R95).
The places already written go with the state. -/
def copyWrite (d : Desc) (track : Bool) (st : List (Int × Nat) × State) (x : PlanElem) : List (Int × Nat) × State :=
  let a := d.dstAt x.1
  let bs := bytesIn x.2.2
  if track then
    writeParts (fun i => a + (i : Int))
      (fun i b s => if d.dcs then s.csWrite (a.toNat + i) 1 b else s.wr (bs.getD i 0) 1 b)
      (x.1 + 1) x.2.1 (atomParts a.toNat d.size) st
  else (st.1, if d.dcs then st.2.csWrite a.toNat d.size x.2.1 else st.2.wrPieces x.2.2 x.2.1)

/-- The elements of strip k. -/
def stripElems (d : Desc) (k : Nat) : List Nat :=
  (upto (min d.perStrip (d.count - k * d.perStrip))).map fun i => k * d.perStrip + i

/-- Destination bytes that the finished strips of a copy have written, each with its element's number plus 1. -/
def writtenBytes (d : Desc) (done : List Nat) : List (Int × Nat) :=
  done.flatMap fun k => (stripElems d k).flatMap fun j => (upto d.size).map fun (i : Nat) => (d.dstAt j + (i : Int), j + 1)

/-- The destination pages of a strip, for dirty bits. -/
def stripPages (d : Desc) (k : Nat) : List MElem :=
  (stripElems d k).map fun j => { va := BitVec.ofInt 72 (d.dstAt j), n := d.size }

/-- A strip is written whole: its bytes, the poison of the granules they cover, and its dirty bits (R237, R381). -/
def writeStrip (d : Desc) (p : Party) (done : List Nat) (k : Nat) (xs : List PlanElem) (s : State) : State :=
  let track := d.mayOverlap
  let s := (xs.foldl (copyWrite d track) (if track then writtenBytes d done else [], s)).2
  if d.dcs then s.csClean ((stripElems d k).map fun j => ((d.dstAt j).toNat, d.size))
  else (s.clearPoison (xs.flatMap fun x => x.2.2)).commitPages p (stripPages d k)

/-- Strip k of a copy under a party, whose chunks are checked up to element `checked`: its destination is written whole,
or untouched where the strip stops or waits. Watch ranges are matched as chunks are translated (R282). Answers up to where
chunks are checked now. -/
def State.runStrip (s : State) (d : Desc) (p : Party) (done : List Nat) (checked k : Nat) : StripRun Nat :=
  let last := min d.count ((k + 1) * d.perStrip) - 1
  match copyChunks d p last (last + 1 - checked) checked s with
  | .stop f s => .stop f s
  | .wait v s => .wait v s
  | .done c s =>
    match planStrip d { p with acc := { p.acc with watched := false } } (stripElems d k) [] [] [] s with
    | .stop f s => .stop f s
    | .wait v s => .wait v s
    | .done xs s => .done c (writeStrip d p done k xs s)

/-- The strip's destination bytes may not be touched yet (R77). -/
def State.stripStalls (s : State) (d : Desc) (k : Nat) : Bool :=
  (stripElems d k).any fun j =>
    (d.dcs && (match s.csCheck { write := true } 1 (d.dstAt j) d.size with | .stall => true | _ => false))
    || (d.scs && (match s.csCheck {} 1 (d.srcAt j) d.size with | .stall => true | _ => false))

/-- W and the arrival pointers of a channel follow the issuer's most recent copy on it, finished or not (R91). -/
def State.updateChan (s : State) (c : Copy) : State :=
  let k := s.ctx.chans[c.ch.toNat]'c.ch.isLt
  if k.no = c.no then
    let k : Chan := { no := c.no, w := if Desc.dcs c.desc then c.mark else 0, cs := Desc.dcs c.desc,
                      arrive := if Desc.dcs c.desc then c.arrive else [] }
    s.mapCtx fun x => { x with chans := x.chans.set c.ch.toNat k c.ch.isLt }
  else s

/-- The party a context's copy acts under (R89). -/
def State.copyParty (s : State) : Party := s.party { copy := true }

/-- Copy i of the focused context, changed. -/
def State.mapCopy (s : State) (i : Nat) (f : Copy → Copy) : State :=
  s.mapCtx fun x => { x with copies := modifyAt f x.copies i }

/-- Strip k of copy i of the focused context ends as `force` says, or as its own accesses find (R246, R247). -/
def State.copyStrip (s : State) (i k : Nat) (force : Option Cause) : State :=
  match s.ctx.copies[i]? with
  | none => s
  | some c =>
    let d : Desc := c.desc
    let rest := c.stolen.filter fun t => t.1 != k
    let stop := fun (f : CopyStop) (s : State) => s.mapCopy i fun c => { c with stop := some f, stolen := rest }
    match force with
    | some f =>
      stop (if f = .memUncorrectable then stopAt f none d.scs false (d.srcAt (k * d.perStrip))
        else stopAt f none d.dcs true (d.dstAt (k * d.perStrip))) s
    | none =>
      match s.runStrip d s.copyParty c.done c.checked k with
      | .stop f s => stop f s
      | .wait _ s => s
      | .done m s =>
        let c' := { c with done := k :: c.done, checked := m, stolen := rest }
        let s := s.updateChan c'
        s.mapCtx fun x => { x with copies := if c'.finished then removeAt x.copies i else modifyAt (fun _ => c') x.copies i }

/-- A strip of copy i moves where it can. -/
def State.moveStrip (i : Nat) (s : State) (k : Nat) : State :=
  match s.ctx.copies[i]? with
  | none => s
  | some c => if c.stop.isSome || c.done.contains k || s.stripStalls c.desc k then s else s.copyStrip i k none

/-- Strips that other channels have started complete: what a stop and a cpyc wait for (R248, R271). -/
def State.finishStolen (s : State) : State :=
  (upto s.ctx.copies.length).reverse.foldl (fun s i =>
    match s.ctx.copies[i]? with
    | none => s
    | some c => (c.stolen.map Prod.fst).foldl (State.moveStrip i) s) s

/-- Every strip that can move now: what an eager machine does after an entry (notes/assumptions/3.md). -/
def State.runCopies (s : State) : State :=
  (upto s.ctx.copies.length).reverse.foldl (fun s i =>
    match s.ctx.copies[i]? with
    | none => s
    | some c => (upto (Desc.strips c.desc)).foldl (State.moveStrip i) s) s

/-! ## The instructions -/

/-- CH and ALL of the channel rows. -/
def TileFields.ch (f : TileFields) : BitVec 2 := f.imm.extractLsb' 0 2
def copySel (f : TileFields) (c : Copy) : Bool := f.imm.getLsbD 2 || c.ch == TileFields.ch f

/-- The signature of a copy's elements in ascending j (R390). -/
def State.signCopy (s : State) (d : Desc) : State :=
  if s.ctx.inst.isNone || d.dcs then s
  else (upto d.count).foldl (fun s j =>
    match copySide (srcParty s.copyParty) [] d.scs (d.srcAt j) d.size s with
    | .done x s =>
      s.sign (BitVec.ofInt 72 (d.dstAt j)) d.size (if d.scs then s.csRead (d.srcAt j).toNat d.size else s.rdPieces x.1)
    | .stop _ s => s
    | .wait _ s => s) s

/-- The number of the issuer's next copy on a channel. -/
def State.nextCopy (s : State) (ch : BitVec 2) : Nat := (s.ctx.chans[ch.toNat]'ch.isLt).no + 1

/-- A copy is accepted: it is its channel's most recent, W and the arrival pointers are reset (R91, R246). -/
def State.acceptCopy (s : State) (c : Copy) : State :=
  (s.mapCtx fun x =>
    { x with copies := x.copies ++ [c], chans := x.chans.set c.ch.toNat { no := c.no } c.ch.isLt }).updateChan c

/-- cpy (R245, R246): the descriptor is read as an ordinary read of the issuer, which waits for its copies that write
those bytes. -/
def effCpy (f : TileFields) (t : TiqEntry) (s : State) : Eff :=
  let va := t.aop
  let p := s.party {}
  afterRange false false va.toNat (va.toNat + 128) s <|
  match s.vaCheck p 16 [] { va := va, n := 128 } with
  | (.fault c _, _, s) => .trap { cause := c, va := some va } 0 s
  | (.wait v, _, s) => .block { kind := .token, addr := v } s
  | (.stall, _, s) => .block {} s
  | (.ok ps _, _, s) =>
    match s.dataFault true ps with
    | some c => .trap { cause := c, va := some va } 0 s
    | none =>
      let d : Desc := BitVec.ofNat 1024 (s.rdPieces ps)
      if d.bad then .field s
      else if 4 ≤ (s.ctx.copies.filter fun c => c.ch == TileFields.ch f).length then .block {} s
      else
        afterCopies (fun c => c.meets d.scs false d.srcRange.1 d.srcRange.2
            || c.meets d.dcs true d.dstRange.1 d.dstRange.2) s <|
          match copyScan d p d.count 0 [] [] s with
          | .stop x s => .trap { cause := x.cause, va := some x.va, cs := x.cs, wr := x.wr } 0 s
          | .wait (some v) s => .block { kind := .token, addr := v } s
          | .wait none s => .block {} s
          | .done m s =>
            let c : Copy := { desc := d, ch := TileFields.ch f, pc := t.pc, no := s.nextCopy (TileFields.ch f), checked := m }
            .done ((s.acceptCopy c).signCopy d).sideEffect

/-- cpyw (R248). -/
def effCpyw (f : TileFields) (_ : TiqEntry) (s : State) : Eff := afterCopies (copySel f) s (.done s)

/-- cpyc (R248): strips that other channels have started complete, and the copies end; W and the arrival pointers
freeze. -/
def effCpyc (f : TileFields) (_ : TiqEntry) (s : State) : Eff :=
  .done (s.finishStolen.mapCtx fun x => { x with copies := x.copies.filter fun c => !copySel f c })

/-- The snapshot of Table 11-4. -/
def Ctx.cpyq (x : Ctx) (ch : BitVec 2) : BitVec 64 :=
  let k := x.chans[ch.toNat]'ch.isLt
  let cs := x.copies.filter fun c => c.ch == ch
  let stop := cs.findSome? fun c => c.stop.map CopyStop.cause
  BitVec.ofNat 64 (k.w % 2 ^ 23 + bit (cs.any fun c => c.stop.isNone) <<< 24 + bit stop.isSome <<< 25
    + bit k.cs <<< 26 + ((stop.map fun c => c.code.toNat).getD 0) <<< 32 + (cs.length % 8) <<< 40)

/-- cpyq (R248). -/
def effCpyq (f : TileFields) (_ : TiqEntry) (s : State) : Eff :=
  .done (s.mapCtx fun x => x.setG f.td (x.cpyq (TileFields.ch f)))

end Sys2Proof.Machine
end

