-- ==== Sys2Proof/Machine/Lanes.lean ====
section
/-!
DEFINITION. Sys2Proof/Machine/Lanes.lean: the lane instructions, each as what it does to one lane (R197 to R206), and
the run of a lane group (R209).
-/

namespace Sys2Proof.Machine

namespace Lane
def get (l : Lane) (r : BitVec 6) : Nat := (l.l[r.toNat]'r.isLt).toNat
def set (l : Lane) (r : BitVec 6) (v : Nat) : Lane := { l with l := l.l.set r.toNat (BitVec.ofNat 32 v) r.isLt }
/-- An even-odd pair, the even register holding bits [31:0] (R197). -/
def getPair (l : Lane) (r : BitVec 6) : Nat := l.get r + l.get (r ||| 1) <<< 32
def setPair (l : Lane) (r : BitVec 6) (v : Nat) : Lane := (l.set r v).set (r ||| 1) (v >>> 32)
/-- K0 reads true. -/
def getK (l : Lane) (r : BitVec 3) : Bool := r == 0 || l.k[r.toNat]'r.isLt
/-- A write to K0 is discarded. -/
def setK (l : Lane) (r : BitVec 3) (v : Bool) : Lane :=
  if r = 0 then l else { l with k := l.k.set r.toNat v r.isLt }
def raise (l : Lane) (f : FlagSet) : Lane := { l with flags := l.flags ||| f }
/-- A value of a lane form: a register, or a pair for a 64-bit format (R197). -/
def getW (l : Lane) (w : Nat) (r : BitVec 6) : Nat := if w = 64 then l.getPair r else l.get r
def setW (l : Lane) (w : Nat) (r : BitVec 6) (v : Nat) : Lane := if w = 64 then l.setPair r v else l.set r v
end Lane

/-- The K register a 6-bit field names. -/
def kIdx (r : BitVec 6) : BitVec 3 := r.extractLsb' 0 3

/-- The predicate field: K[k[2:0]] xor k[3] (R198). -/
def lanePred (f : LaneFields) (l : Lane) : Bool := (l.getK (kIdx f.k)).xor (f.k.getLsbD 3)

/-- An instruction acts in a lane that is enabled, has not trapped, and whose predicate holds (R198). -/
def laneAct (f : LaneFields) (l : Lane) (g : Lane → Lane) : Lane :=
  if l.on && l.trap.isNone && lanePred f l then g l else l

/-- The instructions whose field [31:26] is lc act in every enabled lane (R198). -/
def laneActAll (l : Lane) (g : Lane → Lane) : Lane := if l.on && l.trap.isNone then g l else l

/-! ## Float (R200, R201, R204): over a format of width `w` -/

/-- A two-operand float operation in format `c`. -/
def laneFloat (c : Nat) (op : Nat → Val → Val → Val × FlagSet) (f : LaneFields) (l : Lane) : Lane :=
  laneAct f l fun l =>
    let w := fmtWidth c
    let p := op f.rm.toNat (decodeFp (fpOf c) (l.getW w f.la)) (decodeFp (fpOf c) (l.getW w f.lb))
    let r := deliver c f.rm.toNat false p.1
    (l.setW w f.ld r.1).raise (r.2 ||| p.2)

/-- A fused multiply-add in format `c`; lc is the field [31:26]. -/
def laneFma (c : Nat) (f : LaneFields) (l : Lane) : Lane :=
  laneActAll l fun l =>
    let w := fmtWidth c
    let v := fun r => decodeFp (fpOf c) (l.getW w r)
    let p := fmaV f.rm.toNat (v f.la) (v f.lb) (v f.k)
    let r := deliver c f.rm.toNat false p.1
    (l.setW w f.ld r.1).raise (r.2 ||| p.2)

/-- A float comparison in format `c`. -/
def laneCmp (c : Nat) (f : LaneFields) (l : Lane) : Lane :=
  laneAct f l fun l =>
    let w := fmtWidth c
    let p := fcmpV f.rm.toNat (decodeFp (fpOf c) (l.getW w f.la)) (decodeFp (fpOf c) (l.getW w f.lb))
    (l.setK (kIdx f.ld) p.1).raise p.2

/-- A lane operation on registers with no flag. -/
def laneBits (op : Nat → Nat → Nat) (f : LaneFields) (l : Lane) : Lane :=
  laneAct f l fun l => l.set f.ld (op (l.get f.la) (l.get f.lb))

/-- A special function (R201). -/
def laneTransc (fn : Nat) (f : LaneFields) (l : Lane) : Lane :=
  laneAct f l fun l => let r := transc fn 0x01 f.rm.toNat (l.get f.la); (l.set f.ld r.1).raise r.2

def opAdd (m : Nat) (a b : Val) : Val × FlagSet := sumV m [a, b]
def opSub (m : Nat) (a b : Val) : Val × FlagSet := sumV m [a, b.negate]
def opMul (_ : Nat) (a b : Val) : Val × FlagSet := mulV a b

def laneLfadd (f : LaneFields) (l : Lane) : Lane := laneFloat 0x01 opAdd f l
def laneLfsub (f : LaneFields) (l : Lane) : Lane := laneFloat 0x01 opSub f l
def laneLfmul (f : LaneFields) (l : Lane) : Lane := laneFloat 0x01 opMul f l
def laneLffma (f : LaneFields) (l : Lane) : Lane := laneFma 0x01 f l
def laneLfmin (f : LaneFields) (l : Lane) : Lane := laneFloat 0x01 (fun _ => minMaxV false) f l
def laneLfmax (f : LaneFields) (l : Lane) : Lane := laneFloat 0x01 (fun _ => minMaxV true) f l
def laneLfabs (f : LaneFields) (l : Lane) : Lane := laneBits (fun a _ => a % 2 ^ 31) f l
def laneLfneg (f : LaneFields) (l : Lane) : Lane := laneBits (fun a _ => a ^^^ 2 ^ 31) f l
def laneLfcmp (f : LaneFields) (l : Lane) : Lane := laneCmp 0x01 f l
def laneLrcp (f : LaneFields) (l : Lane) : Lane := laneTransc 0 f l
def laneLrsqrt (f : LaneFields) (l : Lane) : Lane := laneTransc 1 f l
def laneLsqrt (f : LaneFields) (l : Lane) : Lane := laneTransc 2 f l
def laneLexp2 (f : LaneFields) (l : Lane) : Lane := laneTransc 3 f l
def laneLlog2 (f : LaneFields) (l : Lane) : Lane := laneTransc 4 f l
def laneLtanh (f : LaneFields) (l : Lane) : Lane := laneTransc 5 f l
def laneLdadd (f : LaneFields) (l : Lane) : Lane := laneFloat 0x00 opAdd f l
def laneLdsub (f : LaneFields) (l : Lane) : Lane := laneFloat 0x00 opSub f l
def laneLdmul (f : LaneFields) (l : Lane) : Lane := laneFloat 0x00 opMul f l
def laneLdfma (f : LaneFields) (l : Lane) : Lane := laneFma 0x00 f l
def laneLdcmp (f : LaneFields) (l : Lane) : Lane := laneCmp 0x00 f l

/-! ## Integer (R202) -/

def s32 (x : Nat) : Int := toSigned 32 x

def laneLiadd (f : LaneFields) (l : Lane) : Lane := laneBits (fun a b => a + b) f l
def laneLisub (f : LaneFields) (l : Lane) : Lane := laneBits (fun a b => wrapInt 32 ((a : Int) - b)) f l
def laneLimul (f : LaneFields) (l : Lane) : Lane := laneBits (fun a b => a * b) f l
def laneLimulh (f : LaneFields) (l : Lane) : Lane :=
  laneBits (fun a b => if f.imm.getLsbD 0 then (a * b) >>> 32 else wrapInt 32 (s32 a * s32 b / 2 ^ 32)) f l
def laneLmin (f : LaneFields) (l : Lane) : Lane := laneBits (fun a b => if s32 b < s32 a then b else a) f l
def laneLmax (f : LaneFields) (l : Lane) : Lane := laneBits (fun a b => if s32 a < s32 b then b else a) f l
def laneLminn (f : LaneFields) (l : Lane) : Lane := laneBits (fun a b => min a b) f l
def laneLmaxn (f : LaneFields) (l : Lane) : Lane := laneBits (fun a b => max a b) f l
def laneLband (f : LaneFields) (l : Lane) : Lane := laneBits (fun a b => a &&& b) f l
def laneLbor (f : LaneFields) (l : Lane) : Lane := laneBits (fun a b => a ||| b) f l
def laneLbxor (f : LaneFields) (l : Lane) : Lane := laneBits (fun a b => a ^^^ b) f l
def laneLsll (f : LaneFields) (l : Lane) : Lane := laneBits (fun a b => a <<< (b % 32)) f l
def laneLsrl (f : LaneFields) (l : Lane) : Lane := laneBits (fun a b => a >>> (b % 32)) f l
def laneLsra (f : LaneFields) (l : Lane) : Lane := laneBits (fun a b => wrapInt 32 (s32 a / 2 ^ (b % 32))) f l
def laneLicmp (f : LaneFields) (l : Lane) : Lane :=
  laneAct f l fun l => l.setK (kIdx f.ld) (relInt 32 (f.imm.extractLsb' 0 4).toNat (l.get f.la) (l.get f.lb))

/-! ## Moves and conversion (R203) -/

def laneLcvt (f : LaneFields) (l : Lane) : Lane :=
  laneAct f l fun l =>
    let d := f.lcvtD.toNat
    let c := f.lcvtS.toNat
    let x := decodeElem c (l.getW (fmtWidth c) f.la % 2 ^ fmtWidth c)
    let r := convert d f.rm.toNat (f.imm.getLsbD 13) x
    (l.setW (fmtWidth d) f.ld r.1).raise r.2
def laneLmov (f : LaneFields) (l : Lane) : Lane := laneBits (fun a _ => a) f l
def laneLmovi (f : LaneFields) (l : Lane) : Lane := laneAct f l fun l => l.set f.ld f.imm.toNat
def laneLsel (f : LaneFields) (l : Lane) : Lane :=
  laneAct f l fun l =>
    l.set f.ld (if (l.getK f.rm).xor (f.imm.getLsbD 3) then l.get f.la else l.get f.lb)
def laneLkop (f : LaneFields) (l : Lane) : Lane :=
  laneAct f l fun l =>
    let a := l.getK (kIdx f.la)
    let b := l.getK (kIdx f.lb)
    l.setK (kIdx f.ld) (match f.rm.toNat with
      | 0 => a && b
      | 1 => a || b
      | 2 => a.xor b
      | 3 => a && !b
      | 4 => !a
      | _ => l.get f.la != 0)

/-! ## Elements (R205, R208, R210) -/

/-- An element in lane form: floats and scales widened to f32 (f64 stays), integers extended (R205). -/
def laneWiden (c bits : Nat) : Res :=
  if fmtIsInt c || c = 0x13 then
    (match decodeElem c bits with
      | .int z => (wrapInt (if fmtWidth c = 64 then 64 else 32) z, 0)
      | .flt _ => (0, 0))
  else convertFp (if c = 0 then 0 else 1) 0 false (decodeElem c bits).val

def wide (c : Nat) : Bool := fmtWidth c == 64

def laneTrap (l : Lane) (c : Cause) : Lane := { l with trap := some c }

/-- Reads an element of format `c` into ld. -/
def laneRead (raw : Bool) (c bits : Nat) (f : LaneFields) (l : Lane) : Lane :=
  if wide c && f.ld.getLsbD 0 then laneTrap l .illegalField
  else
    let r : Res := if raw then (bits, 0) else laneWiden c bits
    (l.setW (fmtWidth c) f.ld r.1).raise r.2

def laneLrd (call : LaneCall) (f : LaneFields) (l : Lane) : Lane :=
  laneAct f l fun l =>
    let i := (f.imm.extractLsb' 0 2).toNat
    if call.inFmts.length ≤ i then laneTrap l .illegalField
    else laneRead (f.imm.getLsbD 2) (call.inFmts.getD i 0) (l.ins.getD i 0) f l

/-- The value a lane register gives an output of format `c` (R205). -/
def laneOut (c mode : Nat) (sat raw : Bool) (x : Nat) : Res :=
  if raw then (x % 2 ^ fmtWidth c, 0)
  else if fmtIsInt c then
    convert c mode sat (.int (if fmtSigned c then toSigned (max 32 (fmtWidth c)) x else (x : Int)))
  else if c = 0x13 then (bit (x != 0), 0)
  else convert c mode sat (.flt (decodeFp (fpOf (if c = 0 then 0 else 1)) x))

def laneLwr (call : LaneCall) (f : LaneFields) (l : Lane) : Lane :=
  laneAct f l fun l =>
    let o := (f.imm.extractLsb' 0 1).toNat
    if call.outFmts.length ≤ o then laneTrap l .illegalField
    else
      let c := call.outFmts.getD o 0
      if wide c && f.la.getLsbD 0 then laneTrap l .illegalField
      else
        let x := l.getW (fmtWidth c) f.la
        let r : Res := if call.isRed && o = 0 then (x % 2 ^ fmtWidth c, 0)
          else laneOut c (f.imm.extractLsb' 1 3).toNat (f.imm.getLsbD 4) (f.imm.getLsbD 5) x
        { l.raise r.2 with outs := modifyAt (fun _ => some r.1) l.outs o }

def laneLidx (call : LaneCall) (f : LaneFields) (l : Lane) : Lane :=
  laneAct f l fun l =>
    l.set f.ld (match f.rm.toNat with
      | 0 => l.row
      | 1 => l.col
      | 2 => l.e
      | 3 => call.arg.toNat % 2 ^ 32
      | 4 => call.arg.toNat / 2 ^ 32
      | 5 => l.lane
      | _ => l.group)

def laneLacc (call : LaneCall) (f : LaneFields) (l : Lane) : Lane :=
  laneAct f l fun l =>
    let o := (f.imm.extractLsb' 0 1).toNat
    if call.outFmts.length ≤ o || (call.isRed && o = 0) then laneTrap l .illegalField
    else laneRead (f.imm.getLsbD 1) (call.outFmts.getD o 0) (l.olds.getD o 0) f l

/-! ## Terminators (R206) -/

/-- lnext: k selects the split and does not gate the instruction. -/
def laneLnext (call : LaneCall) (f : LaneFields) (l : Lane) : Lane :=
  laneActAll l fun l =>
    if f.imm.getLsbD 8 then
      let b := l.get f.la % 16
      if b < call.nblocks then { l with succ := some b } else laneTrap l .illegalLaneBlock
    else
      { l with succ := some (if lanePred f l then (f.imm.extractLsb' 0 4).toNat else (f.imm.extractLsb' 4 4).toNat) }

def laneLstop (f : LaneFields) (l : Lane) : Lane := laneAct f l fun l => { l with succ := none }

/-! ## Blocks and groups (R209) -/

/-- What a lane row does to one lane; a row of another stream does nothing. -/
def runLane (call : LaneCall) (i : Instr) (l : Lane) : Lane :=
  match i with
  | .lfadd f => laneLfadd f l
  | .lfsub f => laneLfsub f l
  | .lfmul f => laneLfmul f l
  | .lffma f => laneLffma f l
  | .lfmin f => laneLfmin f l
  | .lfmax f => laneLfmax f l
  | .lfabs f => laneLfabs f l
  | .lfneg f => laneLfneg f l
  | .lfcmp f => laneLfcmp f l
  | .lrcp f => laneLrcp f l
  | .lrsqrt f => laneLrsqrt f l
  | .lsqrt f => laneLsqrt f l
  | .lexp2 f => laneLexp2 f l
  | .llog2 f => laneLlog2 f l
  | .ltanh f => laneLtanh f l
  | .liadd f => laneLiadd f l
  | .lisub f => laneLisub f l
  | .limul f => laneLimul f l
  | .limulh f => laneLimulh f l
  | .lmin f => laneLmin f l
  | .lmax f => laneLmax f l
  | .lminn f => laneLminn f l
  | .lmaxn f => laneLmaxn f l
  | .lband f => laneLband f l
  | .lbor f => laneLbor f l
  | .lbxor f => laneLbxor f l
  | .lsll f => laneLsll f l
  | .lsrl f => laneLsrl f l
  | .lsra f => laneLsra f l
  | .licmp f => laneLicmp f l
  | .lcvt f => laneLcvt f l
  | .lmov f => laneLmov f l
  | .lmovi f => laneLmovi f l
  | .lsel f => laneLsel f l
  | .lkop f => laneLkop f l
  | .ldadd f => laneLdadd f l
  | .ldsub f => laneLdsub f l
  | .ldmul f => laneLdmul f l
  | .ldfma f => laneLdfma f l
  | .ldcmp f => laneLdcmp f l
  | .lrd f => laneLrd call f l
  | .lwr f => laneLwr call f l
  | .lidx f => laneLidx call f l
  | .lacc f => laneLacc call f l
  | .lnext f => laneLnext call f l
  | .lstop f => laneLstop f l
  | _ => l

/-- A lane takes the block it waits for: it is enabled when that is block `b`, and its entry is counted. -/
def enterBlock (b : Nat) (l : Lane) : Lane :=
  if l.succ = some b then
    if 4096 ≤ l.entered then { l with on := true, trap := some .illegalLaneBlock }
    else { l with on := true, succ := none, entered := l.entered + 1 }
  else { l with on := false }

/-- The lowest-numbered block some lane waits to enter. -/
def nextBlock (ls : List Lane) : Option Nat :=
  ls.foldl (fun m l => match l.succ, m with
    | some b, some c => some (min b c)
    | some b, none => some b
    | none, m => m) none

/-- A block over a lane group: every instruction over every enabled lane. -/
def runBlock (call : LaneCall) (is : List Instr) (ls : List Lane) : List Lane :=
  is.foldl (fun ls i => ls.map (runLane call i)) ls

/-- The function over a lane group, at most `n` blocks. -/
def runGroup (call : LaneCall) (blocks : List (List Instr)) : Nat → List Lane → List Lane
  | 0, ls => ls
  | n + 1, ls =>
    match nextBlock ls with
    | none => ls
    | some b =>
      let ls' := runBlock call (blocks.getD b []) (ls.map (enterBlock b))
      if ls'.any fun l => l.trap.isSome then ls' else runGroup call blocks n ls'

/-- More blocks than a group of 64 lanes can enter within the limit of R209. -/
def groupFuel : Nat := 64 * 4098

end Sys2Proof.Machine
end

