-- ==== Sys2Proof/Machine/Fetch.lean ====
section
/-!
DEFINITION. Sys2Proof/Machine/Fetch.lean: code fetch through the instruction and lane-block caches (R80, Table 04-2),
and the fetch and check of a lane function (R190, R194 to R196).
-/

namespace Sys2Proof.Machine

/-- Where code at an address lies: a leaf of SHARED memory with X admits fetch (Table 04-2). -/
def State.fetchPa (s : State) (va : Addr) : (Cause ⊕ Nat) × State :=
  match s.translate s.ctx.asid va with
  | (none, s) => (.inl .pageNotPresent, s)
  | (some (l, _, size), s) =>
    if l.cls = 1 && l.x then (.inr (leafPa l size va), s) else (.inl .pageProtection, s)

/-- The control-stream word at an address that is a multiple of 4. The instruction cache holds aligned runs of 16 bytes,
each filled whole, so that a unit that lies in one is never part old, part new (R122); a cached run is returned as it was
filled, until an icinv or a cpatch drops it (R80). -/
def State.fetchWord (va : Addr) (s : State) : (Cause ⊕ Word) × State :=
  match s.fetchPa va with
  | (.inl c, s) => (.inl c, s)
  | (.inr p, s) =>
    let pa := p / 16 * 16
    let word := fun (q : BitVec 128) => BitVec.ofNat 32 (q.toNat >>> (8 * (p % 16)))
    match s.core.icache.find? fun x => x.1 == pa with
    | some x => (.inr (word x.2), s)
    | none =>
      match s.dataFault true [(pa, 16)] with
      | some c => (.inl c, s)
      | none =>
        let d := BitVec.ofNat 128 (s.rd pa 16)
        (.inr (word d), { s with core := { s.core with icache := ((pa, d) :: s.core.icache).take 4096 } })

/-- A lane word, read at home: its physical address with it. -/
def State.fetchLaneWord (va : Addr) (s : State) : (Cause ⊕ (Nat × BitVec 64)) × State :=
  match s.fetchPa va with
  | (.inl c, s) => (.inl c, s)
  | (.inr pa, s) =>
    match s.dataFault true [(pa, 8)] with
    | some c => (.inl c, s)
    | none => (.inr (pa, BitVec.ofNat 64 (s.rd pa 8)), s)

/-! ## Lane functions -/

/-- The resource classes of Table 09-2. -/
inductive LaneClass where
  | fadd
  | fmul
  | special
  | int
  | move
  | fp64
  | read
  | write
  | term
  deriving DecidableEq, Repr

/-- The class of a lane row. -/
def laneClass : Instr → LaneClass
  | .lfadd _ | .lfsub _ | .lfmin _ | .lfmax _ | .lfcmp _ => .fadd
  | .lfmul _ | .lffma _ => .fmul
  | .lrcp _ | .lrsqrt _ | .lsqrt _ | .lexp2 _ | .llog2 _ | .ltanh _ => .special
  | .lfabs _ | .lfneg _ | .lcvt _ | .lmov _ | .lmovi _ | .lsel _ | .lkop _ => .move
  | .ldadd _ | .ldsub _ | .ldmul _ | .ldfma _ | .ldcmp _ => .fp64
  | .lrd _ | .lidx _ | .lacc _ => .read
  | .lwr _ => .write
  | .lnext _ | .lstop _ => .term
  | _ => .int

/-- Units of a class in one block. -/
def LaneClass.units : LaneClass → Nat
  | .fadd => 4
  | .fmul => 4
  | .special => 1
  | .int => 6
  | .move => 8
  | .fp64 => 1
  | .read => 4
  | .write => 2
  | .term => 1

/-- LAST of a terminator, or none for another row. -/
def laneLast : Instr → Option Bool
  | .lnext f => some f.last
  | .lstop f => some f.last
  | _ => none

/-- The targets an lnext names by immediate. -/
def laneTargets : Instr → List Nat
  | .lnext f => if f.imm.getLsbD 8 then [] else [(f.imm.extractLsb' 0 4).toNat, (f.imm.extractLsb' 4 4).toNat]
  | _ => []

/-- A fetched lane function: its blocks with the address of each word, or the cause and address of the word that fails
a check of Table 09-1. -/
inductive LaneFn where
  | ok (blocks : List (List (Addr × Instr)))
  | bad (c : Cause) (va : Addr)

/-- LAST of a word whose opcode is a terminator's, whatever its other fields. -/
def rawLast (w : BitVec 64) : Option Bool := (laneRow (w.extractLsb' 0 8).toNat (laneFields w)).bind laneLast

/-- The blocks of the function from `va` on, `n` of them read, down to its LAST: none where no word carries it. -/
def laneCount : Nat → Addr → Nat → State → Option Nat
  | 0, _, _, _ => none
  | fuel + 1, va, n, s =>
    match s.fetchLaneWord va with
    | (.inl _, _) => none
    | (.inr w, _) =>
      match rawLast w.2 with
      | none => laneCount fuel (va + 8) n s
      | some true => some (n + 1)
      | some false => if 16 ≤ n + 1 then none else laneCount fuel (va + 8) (n + 1) s

/-- The first of some words with an lnext target that is not below the block count. -/
def badTarget (n : Nat) (ws : List (Addr × Instr)) : Option Addr :=
  (ws.find? fun x => (laneTargets x.2).any fun b => decide (n ≤ b)).map Prod.fst

/-- A word fails a check: the first failing word is an earlier lnext whose target the block count refuses, where the
function has a block count, or this word (R195, notes/assumptions/52.md). -/
def laneBad (c : Cause) (va : Addr) (done : List (List (Addr × Instr))) (cur : List (Addr × Instr)) (n : Option Nat) :
    LaneFn :=
  match n.bind fun n => badTarget n (done.reverse.flatten ++ cur.reverse) with
  | some x => .bad .illegalLaneBlock x
  | none => .bad c va

/-- Reads and checks words from `va` on: `fuel` words are left, `done` the finished blocks, `cur` the words of the
present one, both newest first; the words read go with the function, newest first. -/
def fetchLaneFn : Nat → Addr → List (List (Addr × Instr)) → List (Addr × Instr) → List (Nat × BitVec 64) → State →
    LaneFn × List (Nat × BitVec 64) × State
  | 0, va, _, _, ws, s => (.bad .illegalLaneBlock va, ws, s)
  | fuel + 1, va, done, cur, ws, s =>
    match s.fetchLaneWord va with
    | (.inl c, s) => (.bad c va, ws, s)
    | (.inr w, s) =>
      let bad := fun (c : Cause) => (laneBad c va done cur (laneCount (fuel + 1) va done.length s), ws, s)
      match decodeLane w.2 with
      | .illegal => bad .illegalLaneBlock
      | .lifetime => bad .lifetime
      | .ok i =>
        let used := (cur.filter fun x => laneClass x.2 == laneClass i).length
        if laneClass i == .fp64 && !s.fp64 then bad .unitAbsent
        else if (laneClass i).units ≤ used then bad .illegalLaneBlock
        else
          match laneLast i with
          | none =>
            if 32 ≤ cur.length + 1 then bad .illegalLaneBlock
            else fetchLaneFn fuel (va + 8) done ((va, i) :: cur) (w :: ws) s
          | some last =>
            let done := ((va, i) :: cur).reverse :: done
            if last then (.ok done.reverse, w :: ws, s)
            else if 16 ≤ done.length then bad .illegalLaneBlock
            else fetchLaneFn fuel (va + 8) done [] (w :: ws) s

/-- The blocks of a function that the block cache holds. -/
def laneBlocks : Addr → List (BitVec 64) → List (Addr × Instr) → List (List (Addr × Instr))
  | _, [], _ => []
  | va, w :: ws, cur =>
    match decodeLane w with
    | .ok i =>
      if (laneLast i).isSome then ((va, i) :: cur).reverse :: laneBlocks (va + 8) ws []
      else laneBlocks (va + 8) ws ((va, i) :: cur)
    | _ => []

/-- The functions that the 32 KiB of the block cache keep, the newest first. -/
def fitLanes : Nat → List LaneRes → List LaneRes
  | _, [] => []
  | room, f :: fs => if f.words.length ≤ room then f :: fitLanes (room - f.words.length) fs else []

/-- The function at an entry address: the one the block cache holds, as it stands; else it is fetched, checked, and for
lnext targets below its block count, and the cache takes it (R195). -/
def State.laneFn (s : State) (entry : Addr) : LaneFn × State :=
  if entry.toNat % 8 != 0 then (.bad .misaligned entry, s)
  else
    match s.core.lcache.find? fun f => f.asid == s.ctx.asid && f.entry == entry with
    | some f => (.ok (laneBlocks entry (f.words.map Prod.snd) []), s)
    | none =>
      match fetchLaneFn 512 entry [] [] [] s with
      | (.bad c va, _, s) => (.bad c va, s)
      | (.ok blocks, ws, s) =>
        match badTarget blocks.length blocks.flatten with
        | some va => (.bad .illegalLaneBlock va, s)
        | none =>
          let f : LaneRes := { asid := s.ctx.asid, entry := entry, words := ws.reverse }
          (.ok blocks, { s with core := { s.core with lcache := fitLanes 4096 (f :: s.core.lcache) } })

end Sys2Proof.Machine
end

