-- ==== Sys2Proof/Machine/Reduce.lean ====
section
/-!
DEFINITION. Sys2Proof/Machine/Reduce.lean: reductions and scans (R183, R184).
-/

namespace Sys2Proof.Machine

/-- OP of R183: 0 add, 1 min, 2 max, 3 and, 4 or, 5 xor. `sf` and `df` are the source and destination formats. -/
structure RedOp where
  op : Nat
  sf : Nat
  df : Nat
  mode : Nat := 0
  sat : Bool := false

namespace RedOp
def isF (o : RedOp) : Bool := decide (o.df < 4)
/-- An element as an integer: the format's value, or 0 and 1 of a mask. -/
def ival (o : RedOp) (x : Nat) : Int := match decodeElem o.sf x with | .int z => z | .flt _ => 0
def fval (o : RedOp) (x : Nat) : Val := decodeFp (fpOf o.sf) x
/-- A value held in the destination format, as an integer. -/
def dval (o : RedOp) (x : Nat) : Int := intOf (fmtWidth o.df) (fmtSigned o.df) x

/-- An element delivered alone in the destination format: exact, since a float source is no wider and a bitwise
operation has one format. -/
def lift (o : RedOp) (x : Nat) : Res :=
  if o.isF then deliver o.df 0 false (o.fval x)
  else (x, 0)

/-- The running value, in the destination format, combined with elements: one group of a float or integer add, or one
element of another operation. -/
def addGroup (o : RedOp) (acc : Option Nat) (xs : List Nat) : Res :=
  if o.isF then
    let vs := xs.map o.fval
    let all := match acc with | some a => decodeFp (fpOf o.df) a :: vs | none => vs
    let p := sumV o.mode all
    let r := deliver o.df o.mode o.sat p.1
    -- under .sat an infinite exact result stays infinite: only the elementwise family replaces it (R174)
    (r.1, r.2 ||| p.2)
  else
    let z := xs.foldl (fun z x => z + o.ival x) (match acc with | some a => o.dval a | none => 0)
    deliverInt (fmtWidth o.df) (fmtSigned o.df) o.sat z

/-- min or max of integers: the running value is the source value itself, compared as FMT2 reads it
(notes/assumptions/48.md). -/
def comparesInts (o : RedOp) : Bool := !o.isF && (o.op == 1 || o.op == 2)
/-- The running minima or maxima of a list of integers, the first element's own value first. -/
def runningInts (o : RedOp) (xs : List Nat) : List Int :=
  match xs with
  | [] => []
  | x :: xs => (xs.foldl (fun (st : List Int × Int) y =>
      let z := if o.op = 2 then max st.2 (o.ival y) else min st.2 (o.ival y)
      (z :: st.1, z)) ([o.ival x], o.ival x)).1.reverse
/-- A running integer as the destination holds it. -/
def intRes (o : RedOp) (z : Int) : Res := (wrapInt (fmtWidth o.df) z, 0)

/-- One step of float min and max, and, or, xor: the running value and the next element. -/
def step (o : RedOp) (acc x : Nat) : Res :=
  match o.op with
  | 0 => o.addGroup (some acc) [x]
  | 3 => (acc &&& x, 0)
  | 4 => (acc ||| x, 0)
  | 5 => (acc ^^^ x, 0)
  | n =>
    let p := minMaxV (n == 2) (decodeFp (fpOf o.df) acc) (o.fval x)
    ((deliver o.df 0 false p.1).1, p.2)

/-- The first element of a min or max is an operation on it alone: a signalling NaN raises NV and is delivered as the
canonical NaN (R72). -/
def first (o : RedOp) (x : Nat) : Res :=
  let r := o.lift x
  (r.1, r.2 ||| flagIf (o.isF && (o.fval x).isSnan) FlagSet.nv)

/-- tred over the elements of one row, one column or the extent. -/
def reduce (o : RedOp) (xs : List Nat) : Res :=
  if o.op = 0 then
    (groups16 (xs.length + 1) xs).foldl (fun (st : Nat × FlagSet × Option Nat) g =>
      let r := o.addGroup st.2.2 g
      (r.1, st.2.1 ||| r.2, some r.1)) (0, 0, none) |> fun st => (st.1, st.2.1)
  else if o.comparesInts then o.intRes ((o.runningInts xs).getLast?.getD 0)
  else
    match xs with
    | [] => (0, 0)
    | x :: xs => xs.foldl (fun (st : Nat × FlagSet) y => let r := o.step st.1 y; (r.1, st.2 ||| r.2)) (o.first x)

/-- The inclusive scan of a list. -/
def scan (o : RedOp) (xs : List Nat) : List Res :=
  if o.comparesInts then (o.runningInts xs).map o.intRes
  else match xs with
  | [] => []
  | x :: xs =>
    let r0 := if o.op = 0 then o.addGroup none [x] else o.first x
    (xs.foldl (fun (st : List Res × Nat) y => let r := o.step st.2 y; (r :: st.1, r.1)) ([r0], r0.1)).1.reverse

/-- The identity an exclusive scan starts from (R184). -/
def identity (o : RedOp) : Nat :=
  let w := fmtWidth o.df
  match o.op with
  | 1 => if o.isF then (fpOf o.df).infBits false else if fmtSigned o.df then 2 ^ (w - 1) - 1 else 2 ^ w - 1
  | 2 => if o.isF then (fpOf o.df).infBits true else if fmtSigned o.df then 2 ^ (w - 1) else 0
  | 3 => 2 ^ w - 1
  | _ => 0

/-- The scan's outputs; under EXCL shifted by one from the identity, the last combination not delivered. -/
def outputs (o : RedOp) (excl : Bool) (xs : List Nat) : List Res :=
  if excl then (((o.identity, (0 : FlagSet)) :: o.scan xs).take xs.length) else o.scan xs
end RedOp

/-- The element lists a direction reduces, each with the position its result goes to (R183). -/
def redLines (dir er ec : Nat) : List (List (Nat × Nat)) :=
  match dir with
  | 0 => (upto er).map fun r => (upto ec).map fun c => (r, c)
  | 1 => (upto ec).map fun c => (upto er).map fun r => (r, c)
  | _ => [extent er ec]

/-- Where the result of line `i` of a direction is written. -/
def redDest (dir i : Nat) : Nat × Nat := match dir with | 0 => (i, 0) | 1 => (0, i) | _ => (0, 0)

/-- A reduction of elements read by `get` into `td` (R183). -/
def reduceInto (o : RedOp) (dir : Nat) (td : Tile) (er ec : Nat) (get : Nat → Nat → Nat) : Tile × FlagSet :=
  let ls := redLines dir er ec
  (ls.zip (upto ls.length)).foldl (fun (st : Tile × FlagSet) p =>
    let r := o.reduce (p.1.map fun q => get q.1 q.2)
    let d := redDest dir p.2
    (st.1.put d.1 d.2 r.1, st.2 ||| r.2)) (td, 0)

/-- td is too small for a direction's results (R183). -/
def redTooSmall (dir er ec : Nat) (d : Sr) : Bool :=
  (dir == 0 && decide (d.rows < er)) || (dir == 1 && decide (d.cols < ec))

/-- Operands of tred and tscan: the entries name no layout, so both are row-major or column-major (DESIGN CHOICE,
notes/assumptions/16.md). -/
def redOpnds (f : TileFields) : List Opnd :=
  [{ name := f.td, fmt := some f.fmt1.toNat }, { name := f.ta, fmt := some f.fmt2.toNat }]

/-- The operation of a tred or tscan. -/
def redOpOf (f : TileFields) : RedOp :=
  { op := f.redOp.toNat, sf := f.fmt2.toNat, df := f.fmt1.toNat, mode := f.rm.toNat, sat := f.sat }

/-- tred (R183). -/
def effTred (f : TileFields) (_ : TiqEntry) (s : State) : Eff :=
  let er := s.er [f.ta]
  let ec := s.ec [f.ta]
  let d := s.ctx.tile f.td
  withTiles s (redOpnds f) <|
    if redTooSmall f.dir.toNat er ec d.sr then .shape f.td s
    else
      let r := reduceInto (redOpOf f) f.dir.toNat d er ec (s.ctx.tile f.ta).get
      .tile s f.td r.1 r.2

/-- tscan (R184). -/
def effTscan (f : TileFields) (_ : TiqEntry) (s : State) : Eff :=
  let er := s.er [f.td, f.ta]
  let ec := s.ec [f.td, f.ta]
  withTiles s (redOpnds f) <|
    let r := (redLines f.dir.toNat er ec).foldl (fun (st : Tile × FlagSet) l =>
      let xs := l.map fun q => (s.ctx.tile f.ta).get q.1 q.2
      (l.zip ((redOpOf f).outputs (f.imm.getLsbD 15) xs)).foldl (fun (st : Tile × FlagSet) p =>
        (st.1.put p.1.1 p.1.2 p.2.1, st.2 ||| p.2.2)) st) (s.ctx.tile f.td, 0)
    .tile s f.td r.1 r.2

end Sys2Proof.Machine
end

