-- ==== Sys2Proof/Machine/MapFn.lean ====
section
/-!
DEFINITION. Sys2Proof/Machine/MapFn.lean: map and mapred (R190, R207 to R211), and momu (R191 to R193).
-/

namespace Sys2Proof.Machine

/-! ## Lane groups of a call -/

/-- The operands of a map: its inputs and its outputs. -/
def mapIns (f : TileFields) : List (BitVec 5) := [f.ta, f.tb, f.tc].take f.nin.toNat
def mapOuts (f : TileFields) : List (BitVec 5) := if f.out2 then [f.td, f.xt] else [f.td]

/-- The lane that runs element j of the list of R207. -/
def laneAt (s : State) (ins outs : List Tile) (j r c : Nat) : Lane :=
  { row := r, col := c, e := s.elemNo r c, lane := j % 64, group := j % 384 / 64,
    ins := ins.map fun t => t.get r c, olds := outs.map fun t => t.get r c, outs := outs.map fun _ => none }

/-- The lane groups of an extent, 64 elements each, in ascending e. -/
def laneGroups : Nat → List Lane → List (List Lane)
  | 0, _ => []
  | n + 1, ls => if ls.isEmpty then [] else ls.take 64 :: laneGroups n (ls.drop 64)

/-- Every lane group run over the function, in order, up to the first whose lanes trap: the lanes that have run, and the
trapping lane of the lowest e. -/
def runGroups (call : LaneCall) (blocks : List (List Instr)) : List (List Lane) → List Lane → List Lane × Option Lane
  | [], acc => (acc, none)
  | g :: gs, acc =>
    let ls := runGroup call blocks groupFuel g
    match ls.find? fun l => l.trap.isSome with
    | some l => (acc, some l)
    | none => runGroups call blocks gs (acc ++ ls)

/-- The lanes of a whole call. -/
def runCall (s : State) (call : LaneCall) (blocks : List (List Instr)) (ins outs : List Tile) (er ec : Nat) :
    List Lane × Option Lane :=
  let ps := extent er ec
  let ls := (ps.zip (upto ps.length)).map fun p => laneAt s ins outs p.2 p.1.1 p.1.2
  runGroups call blocks (laneGroups (ls.length / 64 + 1) ls) []

/-- The flags of a call's lanes (R211). -/
def laneFlags (ls : List Lane) : FlagSet := ls.foldl (fun f l => f ||| l.flags) 0

/-- A tile with the elements that lwr wrote to output `o` (R208). -/
def laneWrites (t : Tile) (o : Nat) (ls : List Lane) : Tile :=
  ls.foldl (fun t l => match l.outs.getD o none with | some v => t.put l.row l.col v | none => t) t

/-- Runs the function at the copied A register, or takes the trap of its fetch or of its lowest element. -/
def withCall (f : TileFields) (t : TiqEntry) (s : State) (red : Bool)
    (body : List Lane → State → Eff) : Eff :=
  match s.laneFn t.aop with
  | (.bad c va, s) => .trap { cause := c, va := some va } 0 s
  | (.ok blocks, s) =>
    let ins := (mapIns f).map s.ctx.tile
    let outs := (mapOuts f).map s.ctx.tile
    let names := mapOuts f ++ mapIns f
    let call : LaneCall := { inFmts := ins.map fun x => x.sr.fmt, outFmts := outs.map fun x => x.sr.fmt, arg := t.g0,
                             isRed := red, nblocks := blocks.length }
    match runCall s call (blocks.map fun b => b.map Prod.snd) ins outs (s.er names) (s.ec names) with
    | (_, some l) => .trap { cause := l.trap.getD .illegalLaneBlock, elem := some (l.row, l.col, l.e) } 0 s
    | (ls, none) => body ls s

/-- The operands of a call: any format but bit-plane, row-major or column-major, not block-scaled (R190). -/
def mapOpnds (f : TileFields) : List Opnd :=
  [{ name := f.td }] ++ (mapIns f).map (fun r => { name := r }) ++ (if f.out2 then [{ name := f.xt }] else [])

/-- map (R190). -/
def effMap (f : TileFields) (t : TiqEntry) (s : State) : Eff :=
  withTiles s (mapOpnds f) <|
    withCall f t s false fun ls s =>
      .done (s.mapCtx fun c =>
        let c := c.putTile f.td (laneWrites (c.tile f.td) 0 ls)
        (if f.out2 then c.putTile f.xt (laneWrites (c.tile f.xt) 1 ls) else c).raise (laneFlags ls))

/-- The formats of mapred's result (R208). -/
def mapredFmt (op c : Nat) : Bool :=
  if op ≤ 2 then c == 0 || c == 1 || c == 9 || c == 0xA || c == 0x14 else fmtIsInt c || c == 0x13

/-- mapred (R190, R208): the contributions are reduced as tred reduces elements, with rne and no .sat. -/
def effMapred (f : TileFields) (t : TiqEntry) (s : State) : Eff :=
  let d := s.ctx.tile f.td
  let o : RedOp := { op := f.mapOp.toNat, sf := d.sr.fmt, df := d.sr.fmt }
  let names := mapOuts f ++ mapIns f
  let er := s.er names
  let ec := s.ec names
  withTiles s (mapOpnds f) <|
    if !mapredFmt f.mapOp.toNat d.sr.fmt then .shape f.td s
    else if redTooSmall f.mapDir.toNat er ec d.sr then .shape f.td s
    else
      withCall f t s true fun ls s =>
        let vals := ls.map fun l => (l.outs.getD 0 none).getD o.identity
        let get := fun r c => vals.getD (r * ec + c) 0
        let q := reduceInto o f.mapDir.toNat d er ec get
        .done (s.mapCtx fun c =>
          let c := c.putTile f.td q.1
          (if f.out2 then c.putTile f.xt (laneWrites (c.tile f.xt) 1 ls) else c).raise (laneFlags ls ||| q.2))

/-! ## momu -/

/-- A float value rounded to f32 with rne: its value and flags. -/
def toF32 (v : Val × FlagSet) : Val × FlagSet :=
  let r := deliver 0x01 0 false v.1
  (decodeFp (fpOf 0x01) r.1, v.2 ||| r.2)

/-- The pattern of a value held as f32. -/
def f32Bits (v : Val) : Nat := (deliver 0x01 0 false v).1

/-- A product of three values, exact. -/
def mul3 (a b c : Val) : Val × FlagSet :=
  let p := mulV a b
  let q := mulV p.1 c
  (q.1, p.2 ||| q.2)

/-- A sum of exact terms. -/
def sumTerms (ts : List (Val × FlagSet)) : Val × FlagSet :=
  let r := sumV 0 (ts.map Prod.fst)
  (r.1, ts.foldl (fun f t => f ||| t.2) r.2)

/-- The scalars of a moment update (R191). -/
structure Moments where
  b1 : Val
  b2 : Val
  lr : Val
  eps : Val
  wd : Val
  c1 : Val
  c2 : Val

/-- A constant pair om1, om2 and their flags (R192). -/
def Moments.om (k : Moments) : (Val × FlagSet) × (Val × FlagSet) :=
  let one : Val := .fin false 1 0 false
  (toF32 (sumV 0 [one, k.b1.negate]), toF32 (sumV 0 [one, k.b2.negate]))

/-- One element of momu (R192): the new p, m and v, and whether it was skipped, with flags. `pf` is the parameter's
format. -/
def Moments.elem (k : Moments) (pf : Nat) (p g m v : Val) : (Nat × Nat × Nat) × Bool × FlagSet :=
  let om := k.om
  let m1 := toF32 (sumTerms [mulV k.b1 m, mulV om.1.1 g])
  let v1 := toF32 (sumTerms [mulV k.b2 v, mul3 om.2.1 g g])
  if m1.1.isNan || m1.1.isInf || v1.1.isNan || v1.1.isInf then ((0, 0, 0), true, m1.2 ||| v1.2 ||| FlagSet.nv)
  else
    let v2 : Val := if v1.1.isNeg && !v1.1.isZero then .zero false else v1.1
    let d := toF32 (sqrtDivV v2 k.c2)
    let den := toF32 (sumV 0 [d.1, k.eps])
    let u : Val × FlagSet :=
      if den.1.isZero then (.zero false, 0)
      else
        let q := toF32 (divV m1.1 k.c1)
        let r := toF32 (divV q.1 den.1)
        (r.1, q.2 ||| r.2)
    let t := sumTerms [(p, 0), mulV k.lr.negate u.1, mul3 k.lr.negate k.wd p]
    let r := deliver pf 0 false t.1
    ((r.1, f32Bits m1.1, f32Bits v2), false, m1.2 ||| v1.2 ||| d.2 ||| den.2 ||| u.2 ||| t.2 ||| r.2)

/-- The scalars copied at the push. -/
def momentsOf (scal : List (BitVec 32)) : Moments :=
  let v := fun i => decodeFp (fpOf 0x01) (scal.getD i 0).toNat
  { b1 := v 0, b2 := v 1, lr := v 2, eps := v 3, wd := v 4, c1 := v 5, c2 := v 6 }

/-- momu over an extent: the three tiles, how many elements were skipped, and the flags. -/
def momuRun (k : Moments) (p g m v : Tile) (er ec : Nat) : Tile × Tile × Tile × Nat × FlagSet :=
  (extent er ec).foldl (fun st q =>
    let r := q.1
    let c := q.2
    let x := k.elem p.sr.fmt (p.val r c) (g.val r c) (m.val r c) (v.val r c)
    if x.2.1 then (st.1, st.2.1, st.2.2.1, st.2.2.2.1 + 1, st.2.2.2.2 ||| x.2.2)
    else (st.1.put r c x.1.1, st.2.1.put r c x.1.2.1, st.2.2.1.put r c x.1.2.2, st.2.2.2.1, st.2.2.2.2 ||| x.2.2))
    (p, m, v, 0, k.om.1.2 ||| k.om.2.2)

/-- momu (R191 to R193). -/
def effMomu (f : TileFields) (t : TiqEntry) (s : State) : Eff :=
  let names := [f.td, f.ta, f.tb, f.tc]
  let word := t.scal.getD 7 0
  let run := fun (s : State) (add : Nat → State → State) =>
    let q := momuRun (momentsOf t.scal) (s.ctx.tile f.td) (s.ctx.tile f.ta) (s.ctx.tile f.tb) (s.ctx.tile f.tc)
      (s.er names) (s.ec names)
    Eff.done (add q.2.2.2.1 (s.mapCtx fun c =>
      (((c.putTile f.td q.1).putTile f.tb q.2.1).putTile f.tc q.2.2.1).raise q.2.2.2.2))
  withTiles s [{ name := f.td, fmt := some f.fmt1.toNat }, { name := f.ta, fmt := some f.fmt2.toNat },
               { name := f.tb, fmt := some 0x01 }, { name := f.tc, fmt := some 0x01 }] <|
    if word.extractLsb' 1 31 != 0 then .field s
    else if word.getLsbD 0 then
      withCell s t.aop fun ps s =>
        afterRange false true t.aop.toNat (t.aop.toNat + 8) s <|
          run s fun n s => if n = 0 then s else (s.addCell t.aop ps n).sideEffect
    else run s fun _ s => s

end Sys2Proof.Machine
end

