-- ==== Sys2Proof/Machine/Matrix.lean ====
section
/-!
DEFINITION. Sys2Proof/Machine/Matrix.lean: the matrix engine: products (R212 to R223) and accumulator moves
(R224 to R227).
-/

namespace Sys2Proof.Machine

/-! ## Accumulators: element (i, j) is bits 32 (128 i + j) and up -/

def accGet (m i j : Nat) : Nat := getBits m (32 * (128 * i + j)) 32
def accPut (m i j v : Nat) : Nat := putBits m (32 * (128 * i + j)) 32 v

/-! ## Products -/

/-- An integer value as an integer. -/
def Val.int : Val → Int
  | .fin n m e _ => if n then -((m <<< e.toNat : Nat) : Int) else ((m <<< e.toNat : Nat) : Int)
  | _ => 0

/-- An operand element: its exact value, the flags its block scale raises, and whether it is a pruned position that
STRICT keeps; or none at a pruned position (R69). -/
abbrev Term := Option (Val × FlagSet × Bool)

/-- The products of one output element over the contraction (R217). -/
def prodTerms (k : Nat) (a b : Nat → Term) : List (Option (Val × Val)) :=
  (upto k).map fun x => match a x, b x with
    | some p, some q => some (p.1, q.1)
    | _, _ => none

/-- The flags that the scales of the terms raise, and NV for a NaN against a pruned position that STRICT keeps (R69). -/
def prodFlags (k : Nat) (a b : Nat → Term) : FlagSet :=
  (upto k).foldl (fun fl x => match a x, b x with
    | some p, some q => fl ||| p.2.1 ||| q.2.1 ||| flagIf (p.2.2 && q.1.isNan) FlagSet.nv
    | _, _ => fl) 0

/-- One output element (R217, R218): ACC 0 ZERO, 1 KEEP, 2 DECAY; `old` is the accumulator's bits. -/
def prodElem (int sat : Bool) (acc lam old k : Nat) (a b : Nat → Term) : Res :=
  let ps := prodTerms k a b
  if int then
    let z := if acc = 0 then 0 else toSigned 32 old
    let r := dotInt z sat (ps.map fun o => o.map fun p => (p.1.int, p.2.int))
    (wrapInt 32 r.1, r.2)
  else
    let f32 := fpOf 0x01
    let start : Val × FlagSet :=
      if acc = 0 then (.zero false, 0)
      else if acc = 1 then (decodeFp f32 old, 0)
      else mulV (decodeFp f32 lam) (decodeFp f32 old)
    let r := dotF32 start.1 (if acc = 0 then 0 else old) (acc == 2) ps
    (r.1, r.2 ||| start.2 ||| prodFlags k a b)

/-- The drain conversion of a result (R217). -/
def drainConv (c mode : Nat) (sat int : Bool) (x : Nat) : Res :=
  convert c mode sat (if int then .int (toSigned 32 x) else .flt (decodeFp (fpOf 0x01) x))

/-- The result of a product over its output extent: accumulator, drain tile, flags (R213, R217, R219). -/
def product (f : TileFields) (t : TiqEntry) (s : State) (int : Bool) (m n k : Nat) (a b : Nat → Nat → Term) :
    Nat × Tile × FlagSet :=
  (extent (min s.xr m) (min s.xc n)).foldl (fun (st : Nat × Tile × FlagSet) p =>
    let r := prodElem int f.sat f.acc.toNat (t.g0.toNat % 2 ^ 32) (accGet st.1 p.1 p.2) k (a p.1) (fun x => b x p.2)
    let acc := accPut st.1 p.1 p.2 r.1
    if f.drain && decide (p.1 < st.2.1.sr.rows) && decide (p.2 < st.2.1.sr.cols) then
      let d := drainConv st.2.1.sr.fmt f.drm.toNat f.sat int r.1
      (acc, st.2.1.put p.1 p.2 d.1, st.2.2 ||| r.2 ||| d.2)
    else (acc, st.2.1, st.2.2 ||| r.2)) (s.ctx.getAcc f.td, s.ctx.tile f.tc, 0)

/-- Issue checks of R212, then the product. `ta`, `tb` read the stored tiles under a transpose when set. -/
def effProduct (f : TileFields) (t : TiqEntry) (s : State) (int ta tb : Bool) (a b : Nat → Nat → Term) : Eff :=
  let sa := (s.ctx.tile f.ta).sr
  let sb := (s.ctx.tile f.tb).sr
  let m := if ta then sa.cols else sa.rows
  let ka := if ta then sa.rows else sa.cols
  let kb := if tb then sb.cols else sb.rows
  let n := if tb then sb.rows else sb.cols
  if 128 < m then .shape f.ta s
  else if 128 < n then .shape f.tb s
  else if ka ≠ kb then .shape f.tb s
  else
    let r := product f t s int m n ka (fun i k => if ta then a k i else a i k) (fun k j => if tb then b j k else b k j)
    .done (s.mapCtx fun c =>
      let c := c.setAcc f.td r.1
      (if f.drain then c.putTile f.tc r.2.1 else c).raise r.2.2)

/-- The drain tile as an operand (R219). -/
def drainOpnd (f : TileFields) : List Opnd := if f.drain then [{ name := f.tc }] else []

/-- Transpose bits of R214. -/
def matTa (f : TileFields) : Bool := f.imm.getLsbD 10
def matTb (f : TileFields) : Bool := f.imm.getLsbD 11

/-- An element of a dense operand. -/
def denseTerm (t : Tile) (sgn : Bool) (r c : Nat) : Term := some ((t.src sgn r c).val, 0, false)

/-- An element with its block scale, the product exact (R68, R221). -/
def scaledTerm (t sc : Tile) (r c : Nat) : Term :=
  if t.sr.sblk = 0 then denseTerm t false r c
  else
    let p := mulV (t.val r c) (t.scaleOf sc r c)
    some (p.1, p.2, false)

/-- An element of a sparse-12 operand: a pruned position is none, or +0 under STRICT (R222). -/
def sparseTerm (t sc : Tile) (strict : Bool) (r c : Nat) : Term :=
  match t.getSparse r c with
  | none => if strict then some (.zero false, 0, true) else none
  | some x =>
    let v := (decodeElem t.sr.fmt x).val
    let p := if t.sr.sblk = 0 then (v, 0) else mulV v (t.scaleOf sc r c)
    some (p.1, p.2, false)

/-- mma (R220). -/
def effMma (f : TileFields) (t : TiqEntry) (s : State) : Eff :=
  withTiles s ([{ name := f.ta, fmt := some f.fmt1.toNat }, { name := f.tb, fmt := some f.fmt2.toNat }] ++ drainOpnd f) <|
    effProduct f t s (TileFields.mmaInt f.fmt1) (matTa f) (matTb f)
      (denseTerm (s.ctx.tile f.ta) false) (denseTerm (s.ctx.tile f.tb) false)

/-- The scale tile of a tile. -/
def State.scaleTile (s : State) (r : BitVec 5) : Tile := s.ctx.tile (s.ctx.tile r).sr.stile

/-- The layout whose scale blocks run along k, as an admission mask (R221). -/
def scaledLayoutA (ta : Bool) : Nat := if ta then 2 else 1
def scaledLayoutB (tb : Bool) : Nat := if tb then 1 else 2

/-- mmas (R221). -/
def effMmas (f : TileFields) (t : TiqEntry) (s : State) : Eff :=
  withTiles s ([{ name := f.ta, fmt := some f.fmt1.toNat, layouts := scaledLayoutA (matTa f), scaled := true,
                  scales := true },
                { name := f.tb, fmt := some f.fmt2.toNat, layouts := scaledLayoutB (matTb f), scaled := true,
                  scales := true }] ++ s.scaleOpnd f.ta ++ s.scaleOpnd f.tb ++ drainOpnd f) <|
    if (s.ctx.tile f.ta).sr.sblk = 0 then .shape f.ta s
    else if (s.ctx.tile f.tb).sr.sblk = 0 then .shape f.tb s
    else effProduct f t s false (matTa f) (matTb f)
      (scaledTerm (s.ctx.tile f.ta) (s.scaleTile f.ta)) (scaledTerm (s.ctx.tile f.tb) (s.scaleTile f.tb))

/-- mmsp (R222): scaled on both sides, under the terms of R221, or on neither. -/
def effMmsp (f : TileFields) (t : TiqEntry) (s : State) : Eff :=
  let sa := (s.ctx.tile f.ta).sr
  let sb := (s.ctx.tile f.tb).sr
  let scaled := sa.sblk != 0
  withTiles s ([{ name := f.ta, fmt := some f.fmt1.toNat, layouts := 8, scaled := true, scales := true },
                { name := f.tb, fmt := some f.fmt2.toNat,
                  layouts := if scaled then scaledLayoutB (matTb f) else 3, scaled := true,
                  scales := true }] ++ s.scaleOpnd f.ta ++ s.scaleOpnd f.tb ++ drainOpnd f) <|
    if scaled != (sb.sblk != 0) then .shape f.tb s
    else effProduct f t s (!scaled && TileFields.mmaInt f.fmt1) false (matTb f)
      (sparseTerm (s.ctx.tile f.ta) (s.scaleTile f.ta) (matTa f)) (scaledTerm (s.ctx.tile f.tb) (s.scaleTile f.tb))

/-- mmb (R223): SA and SB give the sign of the operands. -/
def effMmb (f : TileFields) (t : TiqEntry) (s : State) : Eff :=
  withTiles s ([{ name := f.ta, fmt := some 0x12, layouts := 4 }, { name := f.tb, fmt := some 0x12, layouts := 4 }]
      ++ drainOpnd f) <|
    effProduct f t s true (matTa f) (matTb f)
      (denseTerm (s.ctx.tile f.ta) (f.imm.getLsbD 0)) (denseTerm (s.ctx.tile f.tb) (f.imm.getLsbD 1))

/-! ## Accumulator moves -/

/-- mzero (R224). -/
def effMzero (f : TileFields) (_ : TiqEntry) (s : State) : Eff := .done (s.mapCtx fun c => c.setAcc f.td 0)

/-- An accumulator with a value in each element of an extent for which `get` gives one. -/
def accFill (m er ec : Nat) (get : Nat → Nat → Nat) : Nat :=
  (extent er ec).foldl (fun acc p => accPut acc p.1 p.2 (get p.1 p.2)) m

/-- mfill (R225). -/
def effMfill (f : TileFields) (t : TiqEntry) (s : State) : Eff :=
  let old := s.ctx.getAcc f.td
  let er := min s.xr 128
  let ec := min s.xc 128
  if f.sBit then .done (s.mapCtx fun c => c.setAcc f.td (accFill old er ec fun _ _ => t.g0.toNat))
  else
    let a := s.ctx.tile f.ta
    withTiles s [{ name := f.ta, fmt := some (if a.sr.fmt = 1 || a.sr.fmt = 0xA || a.sr.fmt = 0x14 then a.sr.fmt else 1) }] <|
      .done (s.mapCtx fun c => c.setAcc f.td (accFill old (min er a.sr.rows) (min ec a.sr.cols) a.get))

/-- A destination element from accumulator bits (R226): RAW copies, INT reads s32. -/
def drainElem (f : TileFields) (x : Nat) : Res :=
  if f.imm.getLsbD 11 then (x, 0) else drainConv f.fmt1.toNat f.rm.toNat f.sat (f.imm.getLsbD 10) x

/-- mdrain, mrow and mcol: `at_` gives the accumulator position that td(r, c) reads; at or above 128 it is the zero
pattern (Table 10-3). -/
def effDrain (f : TileFields) (s : State) (rowCap : Bool) (pos : Nat → Nat → Nat × Nat) : Eff :=
  let m := s.ctx.getAcc f.ta
  let er := s.er [f.td]
  withTiles s [{ name := f.td, fmt := some f.fmt1.toNat }] <|
    .elems s f.td (if rowCap then min er 128 else er) (min (s.ec [f.td]) 128) fun r c =>
      let p := pos r c
      if 128 ≤ p.1 || 128 ≤ p.2 then (0, 0) else drainElem f (accGet m p.1 p.2)

def effMdrain (f : TileFields) (_ : TiqEntry) (s : State) : Eff := effDrain f s true fun r c => (r, c)
def effMrow (f : TileFields) (t : TiqEntry) (s : State) : Eff := effDrain f s false fun r c => (t.g0.toNat + r, c)
def effMcol (f : TileFields) (t : TiqEntry) (s : State) : Eff := effDrain f s false fun r c => (c, t.g0.toNat + r)

end Sys2Proof.Machine
end

