-- ==== Sys2Proof/Machine/Events.lean ====
section
/-!
DEFINITION. Sys2Proof/Machine/Events.lean: the events table (R350), signals and the wait list (R351, R352), and the
event instructions (R256, R257).
-/

namespace Sys2Proof.Machine

/-! ## The events table -/

def State.evtAddr (s : State) (ev : BitVec 16) : Nat := (s.getSys 0 0x829).toNat + 16 * ev.toNat
/-- The 128 bits of an event's entry (Table 17-12). -/
def State.evt (s : State) (ev : BitVec 16) : Nat := s.rd (s.evtAddr ev) 16
/-- COUNT of an event. -/
def State.evCount (s : State) (ev : BitVec 16) : Nat := getBits (s.evt ev) 0 64
/-- The name is enabled for an address space. -/
def State.evOn (s : State) (ev asid : BitVec 16) : Bool :=
  (s.evt ev).testBit 80 && getBits (s.evt ev) 64 16 == asid.toNat
/-- HOSTOK. -/
def State.evHost (s : State) (ev : BitVec 16) : Bool := (s.evt ev).testBit 82

/-! ## The wait list -/

/-- An event's entry with OVF and WHEAD as the wait list has them: 0x3FFF with no waiter (Table 17-12, R352,
notes/assumptions/53.md). -/
def State.evtEntry (s : State) (ev : BitVec 16) : Nat :=
  let ws := s.waiters.filter fun w => w.ev == ev
  let e := putBits (s.evt ev) 81 1 (bit (ws.any fun w => w.idx.isNone))
  putBits e 96 14 ((ws.findSome? Waiter.idx).getD 0x3FFF)

/-- The entry in the table follows the wait list. -/
def State.syncWaits (s : State) (ev : BitVec 16) : State := s.wr (s.evtAddr ev) 16 (s.evtEntry ev)

/-- The state with a waiter added. -/
def State.addWaiter (s : State) (w : Waiter) : State := State.syncWaits { s with waiters := s.waiters ++ [w] } w.ev

/-- The lowest number that a list does not hold. -/
def firstFree (used : List Nat) : Nat := ((upto (used.length + 1)).find? fun i => !used.contains i).getD 0

/-- Entry i of the overflow list at OVFBASE is written: 64 bytes whose layout no rule gives
(notes/assumptions/53.md). -/
def State.writeOvf (s : State) (i : Nat) : State :=
  (upto 8).foldl (fun s k =>
    let f := s.free
    f.2.wr ((s.getSys 0 0x836).toNat + 64 * i + 8 * k) 8 f.1.toNat) s

/-- Registers a waiter in a free entry of the wait list, else in the overflow list; none when both are full (R352). -/
def State.register (s : State) (w : Waiter) : Option State :=
  let used := s.waiters.filterMap Waiter.idx
  let ovf := (s.waiters.filter fun x => x.idx.isNone).map Waiter.ovf
  if used.length < 8192 then some (s.addWaiter { w with idx := some (firstFree used) })
  else if ovf.length < (s.getSys 0 0x837).toNat then
    some ((s.writeOvf (firstFree ovf)).addWaiter { w with idx := none, ovf := firstFree ovf })
  else none

/-- A waiter of a context. -/
def Waiter.of (c : Ctx) (ev : BitVec 16) (thr : BitVec 64) (kind : WaitKind) : Waiter :=
  { idx := none, ev := ev, thr := thr, kind := kind, ctxid := c.ctxid, inst := c.inst, launch := c.launch }

/-- A waiter, of a kind, that belongs to a context. -/
def Waiter.isOf (w : Waiter) (c : Ctx) (kind : WaitKind) : Bool :=
  w.ctxid == c.ctxid && w.inst == c.inst && w.launch == c.launch && w.kind == kind && !w.restart

/-- The focused context has a waiter of a kind. -/
def State.waits (s : State) (kind : WaitKind) : Bool := s.waiters.any fun w => w.isOf s.ctx kind

/-- The waiters that a counter's new value wakes: those whose threshold it meets, and every blocked futrd of the
event, which then reads its cell again (R258, R351). -/
def Waiter.wakes (ev : BitVec 16) (count : Nat) (w : Waiter) : Bool :=
  w.ev == ev && !w.restart && (w.kind == .futrd || decide (w.thr.toNat ≤ count))

/-- Woken waiters leave both lists; a context that blocks notes that its wait is satisfied. -/
def State.wake (s : State) (ev : BitVec 16) (count : Nat) : State :=
  let ws := s.waiters.filter (Waiter.wakes ev count)
  if ws.isEmpty then s
  else
    let s := { s with waiters := s.waiters.filter fun w => !w.wakes ev count }
    let note := fun (x : Ctx) => if ws.any fun w => w.isOf x x.wait.kind && x.wait.ev == ev
      then { x with wait := { x.wait with sent := true } } else x
    State.syncWaits { s.mapCtxs note with saved := s.saved.map note } ev

/-- A signal: the counter advances modulo 2^64, and wakes what it satisfies (R257, R351). -/
def State.signal (s : State) (ev : BitVec 16) (inc : BitVec 64) : State :=
  if inc = 0 then s
  else
    let c := (s.evCount ev + inc.toNat) % 2 ^ 64
    (s.wr (s.evtAddr ev) 8 c).wake ev c

/-- A context's own waiters are dropped: its wait has ended. -/
def State.unwait (s : State) (kind : WaitKind) : State :=
  match s.waiters.find? fun w => w.isOf s.ctx kind with
  | none => s
  | some w => ({ s with waiters := s.waiters.filter fun w => !w.isOf s.ctx kind } : State).syncWaits w.ev

/-! ## evsig, evwait, evquery -/

/-- The event name: imm16, or the copied G[tb] under DYN (R256). -/
def evName (f : TileFields) (t : TiqEntry) : BitVec 16 := if f.dyn then t.g1.extractLsb' 0 16 else f.imm

/-- The fault that names an event (R256, R352). -/
def evTrap (c : Cause) (ev : BitVec 16) (s : State) : Eff :=
  .trap { cause := c, va := some (ev.setWidth 72), evn := true } 0 s

/-- Runs a body for a name that is enabled for the context's address space. -/
def withEvent (ev : BitVec 16) (s : State) (body : Eff) : Eff :=
  if s.evOn ev s.ctx.asid then body else evTrap .pageProtection ev s

/-- evsig (R257, R389). -/
def effEvsig (f : TileFields) (t : TiqEntry) (s : State) : Eff :=
  withEvent (evName f t) s <|
    if s.ctx.inst.isSome then .trap { cause := .dmrHomeWrite } 0 s
    else afterCopies (fun _ => true) s (.done (s.signal (evName f t) t.g0).sideEffect)

/-- Blocks on an event until it is woken, or stops with WAIT_OVERFLOW (R351, R352). -/
def blockOn (w : Wait) (s : State) : Eff :=
  match s.register (Waiter.of s.ctx w.ev w.thr w.kind) with
  | some s => .block w s
  | none => evTrap .waitOverflow w.ev s

/-- evwait (R257). -/
def effEvwait (f : TileFields) (t : TiqEntry) (s : State) : Eff :=
  let ev := evName f t
  let w : Wait := { kind := .evwait, ev := ev, thr := t.g0 }
  withEvent ev s <|
    if s.waits .evwait then .block w s
    else if (s.ctx.wait.kind == .evwait && s.ctx.wait.sent) || decide (t.g0.toNat ≤ s.evCount ev) then .done s
    else blockOn w s

/-- evquery (R257). -/
def effEvquery (f : TileFields) (t : TiqEntry) (s : State) : Eff :=
  withEvent (evName f t) s <|
    .done (s.mapCtx fun c => c.setG f.td (BitVec.ofNat 64 (s.evCount (evName f t))))

end Sys2Proof.Machine
end

