-- ==== Sys2Proof/Machine/Tokens.lean ====
section
/-!
DEFINITION. Sys2Proof/Machine/Tokens.lean: the token state machine (R369 to R374) and the token instructions (R259 to
R263).
-/

namespace Sys2Proof.Machine

/-! ## Holders (R85) -/

/-- The scheduler root: kind 4, index 0. -/
def rootId : Nat := 0x800000
def holderKind (h : Nat) : Nat := h / 2 ^ 21
/-- A holder value a token instruction rejects (R259). -/
def badHolder (v : GWord) : Bool := v.extractLsb' 24 40 != 0 || decide (6 ≤ holderKind (v.toNat % 2 ^ 24))

/-- The die on which a holder acts, none for a peer or for a holder that runs nowhere. -/
def State.holderDie (s : State) (h : Nat) : Option Nat :=
  match holderKind h with
  | 0 => (s.units.find? fun u => u.2.ctxid.toNat == h && u.2.run != .idle).map fun u => u.1.cid.toNat / 128
  | 5 => (s.groups.find? fun g => g.cgid.toNat == h).bind fun g => g.place.map Prod.fst
  | 3 => none
  | _ => some 0

/-- A transfer between two holders cannot be delivered: a peer without a route, or the other die with the Shuttle pair
lost (R260, R404, R405). A peer's index is its node (notes/assumptions/28.md). -/
def State.cutOff (s : State) (giver h : Nat) : Bool :=
  if holderKind h = 3 then s.unreachable (h % 256 * 2 ^ 48)
  else
    match s.holderDie giver, s.holderDie h with
    | some a, some b => a != b && s.shLost
    | _, _ => false

/-! ## Transitions (Table 18-8) -/

/-- A holder has ended or been lost. -/
def State.hasEnded (s : State) (h : Nat) : Bool := s.ended.any fun r => decide (r.1 ≤ h) && decide (h < r.2)

/-- The first lender that can still hold, popped with those above it; the root when the chain ends (R370). -/
def State.nextLender (s : State) : Nat → Tok → Nat × Tok
  | 0, t => (rootId, t)
  | n + 1, t =>
    if t.depth = 0 then (rootId, t)
    else if s.hasEnded (t.lender 0) then s.nextLender n t.pop
    else (t.lender 0, t.pop)

/-- The tklend row. -/
def State.lend (s : State) (i h : Nat) : State :=
  let t := s.tok i
  { s.setTok i (((((t.push t.holder).setGiver t.holder).setHolder h).setDirty false).setState tokTransit) with
    lent := i :: s.lent }

/-- The tkret row. -/
def State.giveBack (s : State) (i : Nat) : State :=
  let t := s.tok i
  { s.setTok i ((((t.pop.setGiver t.holder).setHolder (t.lender 0)).setDirty false).setState tokTransit) with
    lent := s.lent.filter (fun x => x != i) }

/-- A tkret on behalf of a holder that has ended (R374). -/
def State.returnFor (s : State) (i : Nat) : State :=
  let t := s.tok i
  let r := s.nextLender 5 t
  { s.setTok i ((((Tok.setGiver r.2 t.holder).setHolder r.1).setDirty false).setState tokTransit) with
    lent := s.lent.filter (fun x => x != i) }

/-- A failed delivery: the token is the giver's again, the push or pop undone. -/
def State.undeliver (s : State) (i : Nat) : State :=
  let t := s.tok i
  let u := if s.lent.contains i then t.pop else t.push t.holder
  { s.setTok i (((Tok.setHolder u t.giver).setGiver 0).setState tokHeld) with lent := s.lent.filter (fun x => x != i) }

/-- A token in TRANSIT arrives: it fails, is forwarded past a receiver that has ended, or is accepted. -/
def State.accept (s : State) (i : Nat) : State :=
  let t := s.tok i
  if s.cutOff t.giver t.holder then s.undeliver i
  else if s.hasEnded t.holder then s.returnFor i
  else { s.setTok i ((t.setGiver 0).setState tokHeld) with lent := s.lent.filter (fun x => x != i) }

/-- Reclaim of an ORPHANED region without shares: clean, it is its lender's; dirty, it is POISONED as well. -/
def State.reclaim (s : State) (i : Nat) : State :=
  let t := s.tok i
  let r := s.nextLender 5 t
  s.setTok i (((Tok.setHolder r.2 r.1).setDirty false).setState (if t.dirty then tokPoisoned else tokHeld))

/-- The record of a region that becomes POISONED (Table 18-5, SRC 1). -/
def poisonRecord (t : Tok) : Nat := ({ cause := .memUncorrectable, flags := 1, va := BitVec.ofNat 72 t.base } : FaultRec).image

/-- A SRC 1 entry for a region. -/
def State.reportPoison (s : State) (i : Nat) : State :=
  let t := s.tok i
  s.fqPost { die := 0, record := poisonRecord t, asid := t.asid, src := 1 }

/-- The scheduler's reclaim, with the entry of a region that it leaves POISONED (R373). -/
def State.recover (s : State) (i : Nat) : State :=
  let s := s.reclaim i
  if (s.tok i).state = tokPoisoned then s.reportPoison i else s

/-- The lines of a region leave the scalar data caches, written back, before its token leaves a context (R80). -/
def State.flushRegion (s : State) (i : Nat) : State :=
  let t := s.tok i
  let hit := fun (x : DLine) => x.asid.toNat == t.asid && t.covers (256 * x.va)
  s.mapUnits fun k x => ({ k with dcache := k.dcache.filter fun l => !hit l }, x)

/-- Indices of the valid entries that satisfy a condition. -/
def State.toksWhere (s : State) (p : Tok → Bool) : List Nat :=
  (upto s.tokN).filter fun i => let t := s.tok i; t.v && p t

/-! ## Shares -/

/-- A free entry of the share table (R369). -/
def State.shareFree (s : State) : Option Nat :=
  (upto s.shareN).find? fun i => getBits (s.rd (s.shareAddr i) 8) 40 12 == 0

/-- One share recorded for a holder, or none when the share table has no room. -/
def State.addShare (s : State) (region h : Nat) : Option State :=
  match s.shareFind region h with
  | some i => some (s.wr (s.shareAddr i) 8 (s.rd (s.shareAddr i) 8 + 2 ^ 40))
  | none => s.shareFree.map fun i => s.wr (s.shareAddr i) 8 (region + h <<< 16 + 1 <<< 40)

/-- `n` shares leave a region's count; SHARED at 0 becomes HELD, and goes back for a holder that has ended; ORPHANED at 0 is
reclaimed (R370, R374). -/
def State.dropCount (s : State) (region n : Nat) : State :=
  let t := s.tok region
  let left := t.shares - n
  let s := s.setTok region ((t.setShares left).setState
    (if t.state = tokShared ∧ left = 0 then tokHeld else t.state))
  if t.state = tokShared && left == 0 && s.hasEnded t.holder then s.returnFor region
  else if t.state = tokOrphaned && left == 0 then s.recover region
  else s

/-- One share of a holder returned (tkunshare). -/
def State.unshare (s : State) (region h : Nat) : State :=
  match s.shareFind region h with
  | none => s
  | some i =>
    let e := s.rd (s.shareAddr i) 8
    let n := getBits e 40 12
    (s.wr (s.shareAddr i) 8 (if n ≤ 1 then 0 else putBits e 40 12 (n - 1))).dropCount region 1

/-- Every share record of a holder removed. -/
def State.dropShares (s : State) (h : Nat) : State :=
  (upto s.shareN).foldl (fun s i =>
    let e := s.rd (s.shareAddr i) 8
    if getBits e 40 12 != 0 && getBits e 16 24 == h then
      (s.wr (s.shareAddr i) 8 0).dropCount (getBits e 0 16) (getBits e 40 12)
    else s) s

/-! ## Holders that end or are lost -/

/-- A holder executes end, or is the group of the last unit to do so (R374). -/
def State.endHolder (s : State) (h : Nat) : State :=
  let s := State.dropShares { s with ended := (h, h + 1) :: s.ended } h
  (s.toksWhere fun t => t.holder == h && t.state == tokHeld).foldl State.returnFor s

/-- A holder is lost: its regions are orphaned, reclaimed and, where dirty, poisoned and reported (R373). -/
def State.loseHolder (s : State) (h : Nat) : State :=
  let s : State := { s with ended := (h, h + 1) :: s.ended }
  let mine := s.toksWhere fun t =>
    t.holder == h && (t.state == tokHeld || t.state == tokShared || t.state == tokTransit)
  let s := (mine.foldl (fun s i => s.setTok i (((s.tok i).setGiver 0).setState tokOrphaned)) s).dropShares h
  let orphans := mine.filter fun i => (s.tok i).state == tokOrphaned && (s.tok i).shares == 0
  let s := orphans.foldl State.reclaim s
  (orphans.filter fun i => (s.tok i).state == tokPoisoned).foldl State.reportPoison s

/-! ## tkadm (R158, R370) -/

/-- The region a tkadm names: the valid entry, not split, with that base (notes/assumptions/28.md). -/
def State.regionAt (s : State) (base : Nat) : Option Nat :=
  (s.toksWhere fun t => t.base == base && t.state != tokSplit).head?

/-- Applies a tkadm operation: the status and the state. -/
def State.tkadm (s : State) (base op h : Nat) : Nat × State :=
  match s.regionAt base with
  | none => (2, s)
  | some i =>
    let t := s.tok i
    match op with
    | 0 => if t.state = tokOrphaned ∧ t.shares = 0 then (0, s.reclaim i) else (1, s)
    | 1 =>
      if t.state = tokHeld ∨ t.state = tokShared ∨ t.state = tokOrphaned then (0, s.setTok i (t.setState tokPoisoned))
      else (1, s)
    | 2 =>
      if t.state = tokPoisoned then (0, s.setTok i (t.setState (if t.shares = 0 then tokHeld else tokShared)))
      else (1, s)
    | _ => if t.state = tokHeld ∧ t.holder = rootId then (0, s.setTok i (t.setHolder h)) else (1, s)

/-! ## The token instructions -/

/-- A fault of a token instruction at its region. -/
def tokTrap (c : Cause) (va : Addr) (s : State) : Eff := .trap { cause := c, va := some va } 0 s

/-- The checks of R259 that are common to the token instructions: page, class, governing region, poison, and the body
with the governing entry. -/
def withRegion (t : TiqEntry) (query : Bool) (s : State) (body : Nat → State → Eff) : Eff :=
  match s.translate s.ctx.asid t.aop with
  | (none, s) => tokTrap .pageNotPresent t.aop s
  | (some (l, _, _), s) =>
    if l.cls != 0 then tokTrap .classMismatch t.aop s
    else
      match s.governing s.ctx.asid l.tri t.aop.toNat with
      | none => tokTrap .ownership t.aop s
      | some i =>
        if !query && s.ctx.inst.isSome then tokTrap .dmrHomeWrite t.aop s
        else if !query && (s.tok i).state = tokPoisoned then tokTrap .memUncorrectable t.aop s
        else body i s

/-- The base check, and the wait for a region in transit to the issuer. -/
def atBase (t : TiqEntry) (i : Nat) (s : State) (body : Eff) : Eff :=
  let r := s.tok i
  if r.base != t.aop.toNat then tokTrap .misaligned t.aop s
  else if r.state = tokTransit && s.ctx.ids.contains r.holder then .block { kind := .token, addr := t.aop } s
  else body

/-- A status in G[td], and the side effect of a change (R29). -/
def tokDone (f : TileFields) (status : Nat) (s : State) : Eff :=
  let s := s.mapCtx fun c => c.setG f.td (BitVec.ofNat 64 status)
  .done (if status = 0 then s.sideEffect else s)

/-- The issuer holds a region. -/
def State.holds (s : State) (t : Tok) : Bool :=
  s.ctx.ids.contains t.holder && (t.state == tokHeld || t.state == tokShared)

/-- tklend (R260). -/
def effTklend (f : TileFields) (t : TiqEntry) (s : State) : Eff :=
  if badHolder t.g0 then .field s
  else
    let h := t.g0.toNat % 2 ^ 24
    withRegion t false s fun i s => atBase t i s <| afterCopies (fun _ => true) s <|
      let r := s.tok i
      if !s.holds r then tokDone f 1 s
      else if h = r.holder then .done (s.mapCtx fun c => c.setG f.td 0)
      else if r.shares != 0 then tokDone f 2 s
      else if r.depth = 4 then tokDone f 3 s
      else if s.cutOff r.holder h then tokTrap .linkLost t.aop s
      else tokDone f 0 ((s.flushRegion i).lend i h)

/-- tkret (R260). -/
def effTkret (f : TileFields) (t : TiqEntry) (s : State) : Eff :=
  withRegion t false s fun i s => atBase t i s <| afterCopies (fun _ => true) s <|
    let r := s.tok i
    if !s.holds r then tokDone f 1 s
    else if r.shares != 0 then tokDone f 2 s
    else if r.depth = 0 then tokDone f 4 s
    else if s.cutOff r.holder (r.lender 0) then tokTrap .linkLost t.aop s
    else tokDone f 0 ((s.flushRegion i).giveBack i)

/-- The first of `n` consecutive free entries of the token table: the lowest (notes/assumptions/28.md). -/
def State.freeRun (s : State) (n : Nat) : Option Nat :=
  (upto (s.tokN + 1 - n)).find? fun i => i != 0 && (upto n).all fun k => !(s.tok (i + k)).v

/-- A part of a split region (Table 18-8, tksplit). -/
def partOf (r : Tok) (parent k j : Nat) : Tok :=
  putBits (putBits (putBits (putBits (putBits (putBits (putBits r 0 56 ((r.base + j * 2 ^ k) / 65536)) 56 6 k)
    112 4 tokHeld) 229 1 1) 230 6 0) 256 16 parent) 272 16 0

/-- tksplit (R261). -/
def effTksplit (f : TileFields) (t : TiqEntry) (s : State) : Eff :=
  if t.g0.extractLsb' 6 58 != 0 then .field s
  else
    let k := t.g0.toNat
    withRegion t false s fun i s => atBase t i s <| afterCopies (fun _ => true) s <|
      let r := s.tok i
      if !s.holds r then tokDone f 1 s
      else if r.shares != 0 then tokDone f 2 s
      else if k < 16 ∨ r.log2 ≤ k ∨ 8 < r.log2 - k then tokDone f 5 s
      else
        match s.freeRun (2 ^ (r.log2 - k)) with
        | none => tokDone f 5 s
        | some c =>
          let s := (upto (2 ^ (r.log2 - k))).foldl (fun s j => s.setTok (c + j) (partOf r i k j)) s
          tokDone f 0 (s.setTok i (putBits (putBits (r.setState tokSplit) 230 6 k) 272 16 c))

/-- The smallest split region based at an address, from entry `i`, at most `n` splits down (R259). -/
def State.splitAt (s : State) (va : Nat) : Nat → Nat → Option Nat
  | 0, _ => none
  | n + 1, i =>
    let t := s.tok i
    if t.state = tokSplit then
      match s.splitAt va n (t.child + (va - t.base) / 2 ^ t.ksplit) with
      | some j => some j
      | none => if t.base = va then some i else none
    else none

/-- The entry that an OWNED page names. -/
def State.triOf (s : State) (va : Addr) : Nat :=
  match (s.translate s.ctx.asid va).1 with | some (l, _, _) => l.tri | none => 0

/-- tkjoin (R261). -/
def effTkjoin (f : TileFields) (t : TiqEntry) (s : State) : Eff :=
  withRegion t false s fun _ s => afterCopies (fun _ => true) s <|
    match s.splitAt t.aop.toNat 40 (s.triOf t.aop) with
    | none => tokDone f 5 s
    | some i =>
      let r := s.tok i
      let parts := (upto (2 ^ (r.log2 - r.ksplit))).map fun j => r.child + j
      let toks := parts.map s.tok
      let me := (toks.head?.map Tok.holder).getD 0
      if toks.any fun p => p.state == tokPoisoned then tokTrap .memUncorrectable t.aop s
      else if !s.ctx.ids.contains me || toks.any (fun p => p.state == tokSplit || p.state == tokTransit
          || p.state == tokOrphaned || p.holder != me || getBits p 128 99 != getBits r 128 99) then tokDone f 5 s
      else if toks.any fun p => p.shares != 0 then tokDone f 2 s
      else
        let s := parts.foldl (fun s j => s.setTok j 0) s
        tokDone f 0 (s.setTok i (putBits (putBits (((r.setHolder me).setDirty (toks.any Tok.dirty)).setState tokHeld)
          230 6 0) 272 16 0))

/-- The holders a tkshare names: base plus each set bit of the mask (R262). -/
def shareHolders (t : TiqEntry) : List Nat :=
  ((upto 16).filter fun i => t.g1.getLsbD i).map fun i => t.g0.toNat % 2 ^ 24 + i

/-- tkshare (R262). -/
def effTkshare (f : TileFields) (t : TiqEntry) (s : State) : Eff :=
  let hs := shareHolders t
  if badHolder t.g0 || t.g1.extractLsb' 16 48 != 0 || hs.isEmpty
      || hs.any (fun h => h / 2 ^ 21 != t.g0.toNat % 2 ^ 24 / 2 ^ 21) then .field s
  else
    withRegion t false s fun i s => atBase t i s <| afterCopies (fun _ => true) s <|
      let r := s.tok i
      if !s.holds r then tokDone f 1 s
      else if 4095 < r.shares + hs.length then tokDone f 3 s
      else
        match hs.foldl (fun (st : Option State) h => st.bind fun s => s.addShare i h) (some s) with
        | none => tokDone f 3 s
        | some s' => tokDone f 0 (s'.setTok i ((r.setShares (r.shares + hs.length)).setState tokShared))

/-- The identity under which the issuer has a share of a region. -/
def State.sharer (s : State) (i : Nat) : Option Nat := s.ctx.ids.find? fun h => (s.shareFind i h).isSome

/-- tkunshare (R262); no row of Table 18-8 takes one from an ORPHANED region, so it is refused. -/
def effTkunshare (f : TileFields) (t : TiqEntry) (s : State) : Eff :=
  withRegion t false s fun i s => atBase t i s <| afterCopies (fun _ => true) s <|
    match s.sharer i with
    | none => tokDone f 1 s
    | some h => if (s.tok i).state = tokOrphaned then tokDone f 1 s else tokDone f 0 (s.unshare i h)

/-- The word of Table 11-6. -/
def State.queryWord (s : State) (i : Nat) : BitVec 64 :=
  let t := s.tok i
  BitVec.ofNat 64 (t.holder + t.log2 <<< 24 + bit (t.state == tokTransit) <<< 30 + bit (t.state == tokPoisoned) <<< 31
    + t.shares <<< 32 + t.depth <<< 44 + bit t.part <<< 47 + bit (s.ctx.ids.contains t.holder) <<< 48
    + bit (s.sharer i).isSome <<< 49 + bit (t.state == tokOrphaned) <<< 50)

/-- tkquery (R263). -/
def effTkquery (f : TileFields) (t : TiqEntry) (s : State) : Eff :=
  withRegion t true s fun i s => atBase t i s <| .done (s.mapCtx fun c => c.setG f.td (s.queryWord i))

end Sys2Proof.Machine
end

