-- ==== Sys2Proof/Machine/Sched.lean ====
section
/-!
DEFINITION. Sys2Proof/Machine/Sched.lean: launch records (Tables 17-6 to 17-8), fresh units (R34, R295, R338), core
slots (R23), and squashed units (R30, R432).
-/

namespace Sys2Proof.Machine

/-! ## Launch records -/

/-- A working-set declaration (Table 17-7). -/
structure Decl where
  src : Addr
  len : Nat
  dst : Nat
  csp : Bool
  resv : Bool
  stride : Int
  deriving DecidableEq, Repr

/-- A lend entry (Table 17-8). -/
structure LendEntry where
  region : Nat
  kind : Nat
  resv : Bool
  index : Nat
  deriving DecidableEq, Repr

/-- The declaration in the 32 bytes of a bit string. -/
def declOf (b : Nat) : Decl :=
  { src := BitVec.ofNat 72 b, len := getBits b 128 32, dst := getBits b 160 23, csp := b.testBit 191,
    resv := getBits b 183 8 != 0 || getBits b 72 56 != 0, stride := toSigned 64 (getBits b 192 64) }

namespace Launch
/-- `n` bytes of the record at an offset. -/
def field (l : Launch) (off n : Nat) : Nat := getBits l.record (8 * off) (8 * n)
def cgs (l : Launch) : Nat := l.field 0x002 1
def place (l : Launch) : Nat := l.field 0x003 1
def cls (l : Launch) : Nat := l.field 0x004 1
def tsc (l : Launch) : Nat := l.field 0x005 1
def flag (l : Launch) (i : Nat) : Bool := (l.field 0x006 1).testBit i
def isOverlap (l : Launch) : Bool := l.flag 0
def dmr (l : Launch) : Bool := l.flag 1
def preemptible (l : Launch) : Bool := l.flag 2
def noStage (l : Launch) : Bool := l.flag 3
def nws (l : Launch) : Nat := l.field 0x007 1
def nlend (l : Launch) : Nat := l.field 0x008 1
def spad (l : Launch) : Nat := l.field 0x009 1
def stklog (l : Launch) : Nat := l.field 0x00A 1
def obj (l : Launch) : Nat := l.field 0x00C 4
def ucnt (l : Launch) : Nat := l.field 0x010 4
def cevt (l : Launch) : BitVec 16 := BitVec.ofNat 16 (l.field 0x018 2)
def cinc (l : Launch) : BitVec 64 := BitVec.ofNat 64 (l.field 0x01C 4)
def entry (l : Launch) : Addr := BitVec.ofNat 72 (l.field 0x020 9)
def cword (l : Launch) : Addr := BitVec.ofNat 72 (l.field 0x030 9)
def stkbase (l : Launch) : Addr := BitVec.ofNat 72 (l.field 0x040 9)
def sdl (l : Launch) : Nat := l.field 0x050 4
def ctxbase (l : Launch) : Nat := l.field 0x054 4 % 2 ^ 21
def gbase (l : Launch) : Nat := l.field 0x058 4 % 2 ^ 21
def decls (l : Launch) : List Decl := (upto l.nws).map fun i => declOf (l.field (0x080 + 32 * i) 32)
def lends (l : Launch) : List LendEntry :=
  (upto l.nlend).map fun i =>
    let b := l.field (0x180 + 16 * i) 16
    { region := getBits b 0 72, kind := getBits b 72 8, resv := getBits b 80 16 != 0, index := getBits b 96 32 }

/-- Groups of the launch (R13). -/
def ngroups (l : Launch) : Nat := ceilDiv l.ucnt l.cgs
/-- Units of group g. -/
def gsize (l : Launch) (g : Nat) : Nat := min l.cgs (l.ucnt - g * l.cgs)

/-- Holder IDs (R338). -/
def ctxid (l : Launch) (u : Nat) : BitVec 24 := BitVec.ofNat 24 (l.ctxbase + u)
def cgid (l : Launch) (g : Nat) : BitVec 24 := BitVec.ofNat 24 (5 * 2 ^ 21 + l.gbase + g)

/-- Unit u at its first instruction (R34, R295, R338): the argument block, the stack, the CSRs from the launch. -/
def unit (l : Launch) (u : Nat) (inst : Option (BitVec 1)) (diem : BitVec 2) : Ctx :=
  let g := u / l.cgs
  let size := 2 ^ l.stklog
  let c : Ctx :=
    { pc := l.entry, entry := l.entry, tsc := BitVec.ofNat 2 l.tsc, uid := BitVec.ofNat 32 u,
      ucnt := BitVec.ofNat 32 l.ucnt, cgr := BitVec.ofNat 36 (g + l.gsize g <<< 32), lid := BitVec.ofNat 3 (u % l.cgs),
      diem := diem, ctxid := l.ctxid u, cgid := l.cgid g, asid := l.asid, launch := some l.id, inst := inst,
      run := .ready, crc := if inst.isSome then crcBytes 0 (bytesOf 4 u) else 0 }
  let c := (upto 8).foldl (fun c i => c.setG (BitVec.ofNat 5 (i + 1)) (BitVec.ofNat 64 (l.field (0x200 + 8 * i) 8))) c
  let c := (upto 8).foldl (fun c i => c.setA (BitVec.ofNat 4 i) (BitVec.ofNat 72 (l.field (0x240 + 16 * i) 9))) c
  if l.stklog = 0 then c
  else
    { c.setA 15 (l.stkbase + BitVec.ofNat 72 ((u + 1) * size)) with
      splim := BitVec.ofNat 64 ((l.stkbase.toNat + u * size) / 65536 * 256) }
end Launch

def State.launchOf (s : State) (id : Nat) : Option Launch := s.launches.find? fun l => l.id == id

/-- The state with a launch changed. -/
def State.mapLaunch (s : State) (id : Nat) (f : Launch → Launch) : State :=
  { s with launches := s.launches.map fun l => if l.id == id then f l else l }

/-! ## Cores in service (R2, R24, R386) -/

/-- A die takes work: die 1 while it is in service. -/
def State.dieUp (s : State) (d : Nat) : Bool := d == 0 || (d == 1 && s.die1Up)

/-- Core c (CID[6:0]) of a die is fenced by CFENCE0 or CFENCE1. -/
def State.fenced (s : State) (die c : Nat) : Bool :=
  if c < 64 then (s.getSys die 0x860).getLsbD c else (s.getSys die 0x861).getLsbD (c - 64)

/-- A core exists and receives dispatch. -/
def State.inService (s : State) (cid : Nat) : Bool :=
  decide (cid % 128 < 96) && s.dieUp (cid / 128) && !s.fenced (cid / 128) (cid % 128)

/-- A core that nothing has used yet. -/
def freshCore (cid : Nat) : Core := { cid := BitVec.ofNat 8 cid }

/-- The core with a CID and its running slot. -/
def State.unitAt (s : State) (cid : Nat) : Core × Ctx :=
  (s.units.find? fun u => u.1.cid.toNat == cid).getD (freshCore cid, {})

/-- The state with the core of a CID changed. -/
def State.setUnit (s : State) (cid : Nat) (u : Core × Ctx) : State :=
  if s.core.cid.toNat = cid then { s with core := u.1, ctx := u.2 }
  else if s.others.any fun x => x.1.cid.toNat == cid then
    { s with others := s.others.map fun x => if x.1.cid.toNat == cid then u else x }
  else { s with others := s.others ++ [u] }

/-! ## Groups on cores -/

def State.mapGroups (s : State) (p : Group → Bool) (f : Group → Group) : State :=
  { s with groups := s.groups.map fun g => if p g then f g else g }

/-- CIDs of the cores on whose running or staged slots a unit of a group stands. -/
def State.coresOf (s : State) (g : Group) : List Nat :=
  (s.units.filter fun u => (u.2.run != .idle && g.has u.2) || (u.1.staged.any g.has)).map fun u => u.1.cid.toNat

/-- A unit of a group is running. -/
def State.groupRuns (s : State) (g : Group) : Bool := s.units.any fun u => u.2.run == .running && g.has u.2

/-- The slices a group's units wait for at their start: their L2 slices on its die, and its cluster-space slices. -/
def State.groupSlices (s : State) (g : Group) : List Slice :=
  match s.launchOf g.launch with
  | none => []
  | some l => s.slices.filter fun x =>
      x.launch == some l.id && x.stage.isNone
      && (if x.csp then x.k == g.idx
          else (match g.place with | some p => x.die == p.1 | none => true)
            && (x.shared || (decide (g.idx * l.cgs ≤ x.k) && decide (x.k < g.idx * l.cgs + l.gsize g.idx))))

/-- Bytes charged for an L2 slice: its length in whole lines (R345). -/
def Slice.need (x : Slice) : Nat := ceilDiv x.len 256 * 256

/-- An L2 slice that is never admitted: it is larger than its queue's budget, or than that of every die it may be bound to
(R345). -/
def State.neverStaged (s : State) (x : Slice) (dies : List Nat) : Bool :=
  !x.csp && (decide (s.rd ((s.getSys 0 0x828).toNat + 64 * x.q + 44) 4 * 2 ^ 20 < x.need)
    || dies.all fun d => decide ((s.getSys 0 (0x833 + d)).toNat * 2 ^ 20 < x.need))

/-- A slice holds back no start. -/
def State.sliceOk (s : State) (x : Slice) : Bool :=
  x.st == .ready || x.st == .held || x.st == .free || s.neverStaged x [x.die]

/-- READY slices of a started group become HELD (Table 17-11). -/
def State.holdSlices (s : State) (g : Group) : State :=
  let mine := s.groupSlices g
  { s with slices := s.slices.map fun x => if mine.contains x && (x.st == .ready || x.st == .fill) then { x with st := .held } else x }

/-- A staged group with no unit to restore may start: every one of its cores is free, and its slices are READY (R23,
R346). -/
def State.mayStart (s : State) (g : Group) : Bool :=
  let us := s.units.filter fun u => u.1.staged.any g.has
  us.any (fun u => u.1.staged.any fun c => c.run == .ready)
  && us.all (fun u => u.1.staged.all fun c => c.run != .stopped)
  && us.all (fun u => u.2.run == .idle && (u.1.reserved == none || u.1.reserved == some (g.launch, g.idx)))
  && (s.groupSlices g).all s.sliceOk

/-- A unit takes the running slots of some cores: the stopped contexts that they held are the scheduler's alone. -/
def State.takeSlots (s : State) (cids : List Nat) : State :=
  { s with saved := s.saved.map fun c => if c.held.any cids.contains then { c with held := none } else c }

/-- The staged units of a group become running together. -/
def State.startGroup (s : State) (g : Group) : State :=
  let s := s.takeSlots ((s.units.filter fun u => u.1.staged.any g.has).map fun u => u.1.cid.toNat)
  let s := s.mapUnits fun k x =>
    match k.staged with
    | some c =>
      if !g.has c then (k, x)
      else if c.run == .parked then ({ k with staged := none, reserved := some (g.launch, g.idx) }, c)
      else ({ k with staged := none, reserved := none }, { c with run := .running })
    | none => (k, x)
  (s.holdSlices g).mapGroups (fun h => h.launch == g.launch && h.idx == g.idx && h.inst == g.inst) fun h =>
    { h with begun := true }

/-- The OWNED lines of the data cache, which a context that leaves the core writes back and invalidates (R80). -/
def Core.dropOwned (k : Core) : Core := { k with dcache := k.dcache.filter fun l => !l.owned }

/-- The running slot of a core is freed. -/
def State.freeSlot (s : State) (cid : Nat) : State :=
  let u := s.unitAt cid
  s.setUnit cid (({ u.1 with reserved := none } : Core).dropOwned, {})

/-! ## Squashed units -/

/-- What a squashed unit keeps: its identity, its wait counts and its sequence numbers (R30, R50, R188, R250). -/
def Ctx.parked (c : Ctx) : Ctx :=
  { ctxid := c.ctxid, cgid := c.cgid, asid := c.asid, launch := c.launch, uid := c.uid, ucnt := c.ucnt, cgr := c.cgr,
    lid := c.lid, diem := c.diem, inst := c.inst, entry := c.entry, txcnt := c.txcnt, cbargen := c.cbargen,
    sendcnt := c.sendcnt, recvcnt := c.recvcnt, nextseq := c.nextseq, run := .parked }

/-- When no unit of a group runs and one is parked, the group leaves the part: its parked units wait off their cores
(R432). -/
def State.settleGroup (s : State) (g : Group) : State :=
  let parked := s.units.filter fun u => u.2.run == .parked && g.has u.2
  if s.groupRuns g || parked.isEmpty || s.units.any (fun u => u.2.run == .stopped && g.has u.2) then s
  else
    let s : State := { s with saved := s.saved ++ parked.map Prod.snd }
    let s := s.mapUnits fun k x => if x.run == .parked && g.has x then ({ k with reserved := none }, {}) else (k, x)
    s.mapGroups (fun h => h == g) fun g => { g with place := none }

/-- The futures squash of the focused context (R30, R432). -/
def State.squash (s : State) : State :=
  let s : State := { s with ctx := s.ctx.parked,
                            core := { s.core.dropOwned with
                              reserved := s.ctx.launch.map fun l => (l, s.ctx.cgr.toNat % 2 ^ 32) } }
  match s.group with
  | some g => s.settleGroup g
  | none => s

/-- A parked unit starts afresh from its entry point: its arguments are loaded again; its counts go on (R30). -/
def State.restart (s : State) (c : Ctx) : Ctx :=
  match c.launch.bind s.launchOf with
  | some l =>
    { l.unit c.uid.toNat c.inst c.diem with
      txcnt := c.txcnt, cbargen := c.cbargen, sendcnt := c.sendcnt, recvcnt := c.recvcnt, nextseq := c.nextseq }
  | none => { c with pc := c.entry, run := .ready }

/-- futwr enqueues a cell's restart waiters: on a reserved core the unit runs again at once; in a staged slot or off its
core it is ready for its group's start (R258, R432). -/
def State.enqueueWaiters (s : State) (cell : Nat) : State :=
  let ws := s.waiters.filter fun w => w.restart && w.cell == cell
  let mine := fun (c : Ctx) => c.run == .parked
    && ws.any fun w => w.ctxid == c.ctxid && w.inst == c.inst && w.launch == c.launch
  let s' : State := { s with waiters := s.waiters.filter fun w => !(w.restart && w.cell == cell) }
  let s' := s'.mapUnits fun k x =>
    let k := { k with staged := k.staged.map fun c => if mine c then s.restart c else c }
    if mine x then ({ k with reserved := none }, { s.restart x with run := .running }) else (k, x)
  let s' : State := { s' with saved := s'.saved.map fun c => if mine c then { c with run := .ready } else c }
  ws.foldl (fun s w => s.syncWaits w.ev) s'

end Sys2Proof.Machine
end

