-- ==== Sys2Proof/Machine/Launch.lean ====
section
/-!
DEFINITION. Sys2Proof/Machine/Launch.lean: status blocks (R326), lend entries (R343), the end of a unit (R157) and of a
launch (R353, R354), and the commit of a redundant launch (R391).
-/

namespace Sys2Proof.Machine

/-! ## Queue descriptors and status blocks -/

/-- `n` bytes of a queue descriptor (Table 17-1). -/
def State.qd (s : State) (q off n : Nat) : Nat := s.rd ((s.getSys 0 0x828).toNat + 64 * q + off) n
def State.qdWr (s : State) (q off n v : Nat) : State := s.wr ((s.getSys 0 0x828).toNat + 64 * q + off) n v
def State.qRing (s : State) (q : Nat) : Addr := BitVec.ofNat 72 (s.qd q 0 9)
def State.qStatus (s : State) (q : Nat) : Addr := BitVec.ofNat 72 (s.qd q 16 9)
def State.qWords (s : State) (q : Nat) : Nat := 2 ^ s.qd q 32 1
def State.qPrio (s : State) (q : Nat) : Nat := s.qd q 33 1
def State.qEn (s : State) (q : Nat) : Bool := (s.qd q 34 1).testBit 0
def State.qVf (s : State) (q : Nat) : Nat := s.qd q 35 1
def State.qAsid (s : State) (q : Nat) : BitVec 16 := BitVec.ofNat 16 (s.qd q 36 2)
def State.qCcg (s : State) (q : Nat) : Nat := 2 ^ 21 + s.qd q 40 4 % 2 ^ 21
def State.qBud (s : State) (q : Nat) : Nat := s.qd q 44 4 * 2 ^ 20
def State.qLast (s : State) (q : Nat) : Nat := s.qd q 48 8
def State.qHead (s : State) (q : Nat) : Nat := s.qd q 56 8

def State.queue (s : State) (q : Nat) : Option Queue := s.queues.find? fun x => x.q == q
def State.mapQueue (s : State) (q : Nat) (f : Queue → Queue) : State :=
  { s with queues := s.queues.map fun x => if x.q == q then f x else x }

namespace QState
def code : QState → Nat
  | idle => 0
  | ready => 1
  | running => 2
  | blocked => 3
  | stopped => 4
  | done => 5
end QState

/-- The 40 bytes of a status block that hold fields (Table 17-3). -/
def Queue.status (x : Queue) : Nat :=
  x.consumed.toNat + x.completed.toNat <<< 64 + x.st.code <<< 128 + x.err.toNat <<< 136 + x.detail.toNat <<< 144
  + x.errseq.toNat <<< 192 + x.late.toNat <<< 256

/-- The physical address of a queue's status block, at its home, whatever the page's class (R326). -/
def State.statusPa (s : State) (q : Nat) : Option Nat × State :=
  match s.walkLeaf false (s.qAsid q) (s.qStatus q) with
  | (none, s) => (none, s)
  | (some (l, _, size), s) => (some (leafPa l size (s.qStatus q)), s)

/-- The sequencer that ran a queue is idle. -/
def State.release (s : State) (q : Nat) : State := { s with seqs := s.seqs.filter fun p => p.2 != q }

/-- A queue's state after a stop: a queue that has executed its qend stays DONE (R327). -/
def Queue.stopState (x : Queue) : QState := if x.finished && !(x.copies.any QCopy.stopped) then .done else .stopped

/-- Writes a queue's status block; a block that does not translate is lost and stops the queue with QERR_ACCESS (R326). -/
def State.putStatus (s : State) (q : Nat) : State :=
  match s.queue q with
  | none => s
  | some x =>
    let s := s.mapQueue q fun x => { x with fresh := 0 }
    match s.statusPa q with
    | (some pa, s) => s.wr pa 40 x.status
    | (none, s) =>
      (s.mapQueue q fun x => { x with st := x.stopState, err := 0x05, detail := 0, errseq := 0, why := 0 }).release q

/-- COMPLETED moves over the finished commands at the head; the commands of one SEQ complete together (R326). -/
def advance : Nat → Queue → Queue
  | 0, x => x
  | n + 1, x =>
    match x.out with
    | [] => x
    | (q, _) :: _ =>
      if (x.out.takeWhile fun o => o.1 == q).all fun o => o.2 == .none then
        advance n { x with completed := q, out := x.out.dropWhile fun o => o.1 == q }
      else x

/-- A queue's finished commands are reported (R326, R377). -/
def State.advanceQueue (s : State) (q : Nat) : State :=
  match s.queue q with
  | none => s
  | some x =>
    let y := advance (x.out.length + 1) x
    if y.completed == x.completed && y.out == x.out then s else (s.mapQueue q fun _ => y).putStatus q

/-- A pending command of a queue is done. -/
def State.donePending (s : State) (q : Nat) (p : Pending) : State :=
  (s.mapQueue q fun x => { x with out := x.out.map fun o => if o.2 == p then (o.1, .none) else o }).advanceQueue q

/-! ## Lends (R343) -/

/-- What a lend entry meets. -/
inductive Lent where
  | ok (s : State)
  | wait
  | fail

/-- The governing region based at an address, under an address space (R334). -/
def State.regionOf (s : State) (asid : BitVec 16) (va : Addr) : Option Nat × State :=
  match s.walkLeaf false asid va with
  | (none, s) => (none, s)
  | (some (l, _, _), s) =>
    if l.cls != 0 then (none, s)
    else
      match s.governing asid l.tri va.toNat with
      | some i => (if (s.tok i).base = va.toNat then some i else none, s)
      | none => (none, s)

/-- The lender chain of a region holds the scheduler root. -/
def Tok.chainHasRoot (t : Tok) : Bool := (upto t.depth).any fun i => t.lender i == rootId

/-- A lend of a region by the root to a holder. -/
def State.lendTo (s : State) (asid : BitVec 16) (region h : Nat) : Lent :=
  match s.regionOf asid (BitVec.ofNat 72 region) with
  | (none, _) => .fail
  | (some i, s) =>
    let t := s.tok i
    if t.state = tokPoisoned then .fail
    else if t.holder = h then .ok s
    else if t.holder = rootId then (if t.state = tokHeld then .ok (s.lend i h) else .wait)
    else if t.chainHasRoot then .wait
    else .fail

/-- The lends of a group's dispatch: its own entries, and those of its units with their stacks. -/
def Launch.lendsOf (l : Launch) (g : Nat) : List (Nat × Nat) :=
  let units := (upto (l.gsize g)).map fun i => g * l.cgs + i
  (l.lends.filterMap fun e =>
    if e.kind = 1 ∧ e.index = g then some (e.region, (l.cgid g).toNat)
    else if e.kind = 0 ∧ units.contains e.index then some (e.region, (l.ctxid e.index).toNat)
    else none)
  ++ (if l.stklog = 0 then [] else units.map fun u => (l.stkbase.toNat + u * 2 ^ l.stklog, (l.ctxid u).toNat))

/-- Performs lends in order; the first that fails decides, then the first that waits. -/
def State.lendAll (s : State) (asid : BitVec 16) : List (Nat × Nat) → Lent
  | [] => .ok s
  | e :: es =>
    match s.lendTo asid e.1 e.2 with
    | .ok s => s.lendAll asid es
    | .wait =>
      match s.lendAll asid es with
      | .fail => .fail
      | _ => .wait
    | .fail => .fail

/-! ## Redundant launches (R391) -/

/-- Drops translations made through a leaf from every TLB. -/
def State.dropLeaf (s : State) (pte : Nat) : State :=
  State.mapUnits { s with clTlb := s.clTlb.filter fun t => t.2.pte != pte } fun k x =>
    ({ k with tlb := k.tlb.filter fun t => t.pte != pte }, x)

/-- A shadow takes its original's place: the leaf names the frame, with D set; the original joins the pool. A leaf of
more than one page keeps its frame, which takes the shadow's bytes (notes/assumptions/33.md). -/
def State.install (s : State) (x : Shadow) : State :=
  if x.size = 16 then
    let e := s.rd x.pte 8
    let s := s.wr x.pte 8 (putBits (e ||| 0x10) 8 40 (x.frame / 65536))
    let die := x.inst.toNat
    let slot := ((upto ((s.getSys die 0x85F).toNat % 2 ^ 24)).find? fun i => s.poolAt die i == x.frame).getD 0
    State.dropLeaf { s with pools := insert s.pools (die * 2 ^ 24 + slot) x.page } x.pte
  else s.copyPage x.page x.frame

/-- The shadows of a launch leave: with equal signatures, each page's shadow of the die that holds the original is
installed first. -/
def State.commitShadows (s : State) (l : Launch) (commit : Bool) : State :=
  let mine := s.shadows.filter fun x => x.launch == l.id
  let home := fun (x : Shadow) => s.target x.page == .hbm x.inst.toNat
  let keep := if commit then mine.filter fun x => home x || !(mine.any fun y => y.page == x.page && home y) else []
  let s := keep.foldl State.install s
  { s with shadows := s.shadows.filter fun x => x.launch != l.id }

/-! ## Completion (R353) -/

/-- The completion word (Table 17-13). -/
def Launch.word (l : Launch) (status : Nat) (mis : Bool) : Nat :=
  status + l.flags.toNat <<< 8 + bit mis <<< 14 + bit l.late <<< 15 + l.units <<< 16 + (l.seq.toNat % 2 ^ 16) <<< 48

/-- An 8-byte write by an agent at the home of a translated address; a HOME page of the host that admits no access takes
none (R375). -/
def State.agentWrite (s : State) (asid : BitVec 16) (va : Addr) (n v : Nat) : State :=
  match s.walkLeaf false asid va with
  | (none, s) => s
  | (some (l, pte, size), s) =>
    if l.cls = 2 && s.target (leafPa l size va) = .host && !s.hatomOk asid then s
    else
      let s := s.wr (leafPa l size va) n v
      s.wr pte 8 (s.rd pte 8 ||| 0x10)

/-- The launch's contexts, groups, waiters, messages, slices and shadows are gone from the part. -/
def State.forget (s : State) (id : Nat) : State :=
  let evs := (s.waiters.filter fun w => w.launch == some id).map Waiter.ev
  let s := (s.keepEntries fun c => c.launch == some id).mapUnits fun k x =>
    let k := { k with
      staged := if k.staged.any fun c => c.launch == some id then none else k.staged
      reserved := if k.reserved.any fun r => r.1 == id then none else k.reserved
      fqwait := if x.launch == some id then none else k.fqwait
      prereq := if x.launch == some id then none else k.prereq }
    (k, if x.launch == some id then {} else x)
  let s := { s with
    saved := s.saved.filter fun c => c.launch != some id
    aside := s.aside.filter fun a => a.who.launch != some id
    groups := s.groups.filter fun g => g.launch != id
    xchg := s.xchg.filter fun p => p.1 != id
    waiters := s.waiters.filter fun w => w.launch != some id
    slices := s.slices.filter fun x => x.launch != some id }
  evs.foldl State.syncWaits s

/-- The launch completes: the shadows, the word, the signal, COMPLETED (R353, R391). The staging slices of the queue's
qstage commands are held until then (R348). -/
def State.complete (s : State) (l : Launch) (status : Nat) : State :=
  let mis := l.dmr && status == 0 && l.sig0 != l.sig1
  let s := if l.dmr then s.commitShadows l (status == 0 && !mis) else s
  let s := if mis then s.count 0 0x85C else s
  let s := s.forget l.id
  let s := { s with
    launches := s.launches.filter fun x => x.id != l.id
    slices := s.slices.filter fun x => !(x.launch.isNone && x.q == l.q && x.st == SliceState.held) }
  let s := s.agentWrite l.asid l.cword 8 (l.word status mis)
  let s := s.signal l.cevt l.cinc
  s.donePending l.q (.launch l.id)

/-! ## The end of a unit (R157) -/

/-- Slices that the end of a unit, or of its group, frees (Table 17-11). -/
def Slice.freedBy (l : Launch) (uid : Nat) (last : Bool) (x : Slice) : Bool :=
  x.launch == some l.id && !x.shared && (if x.csp then last && x.k == uid / l.cgs else x.k == uid)

/-- Every unit that is to run has ended. -/
def Launch.over_ (l : Launch) (s : State) : Bool :=
  if l.lendFail then
    !(s.groups.any fun g => g.launch == l.id && decide (g.ended.length < l.gsize g.idx))
  else l.units == l.ucnt

/-- Steps 3 to 5 of end for the focused context, and the launch's completion with its last unit. -/
def State.endUnit (s : State) : State :=
  let c := s.ctx
  let cid := s.core.cid.toNat
  match c.launch.bind s.launchOf, s.group with
  | some l, some g =>
    let g' : Group := { g with ended := c.lid.toNat :: g.ended }
    let last := g'.ended.length == l.gsize g.idx
    let twin := s.groups.find? fun h => h.launch == g.launch && h.idx == g.idx && h.inst != g.inst
    let both := !l.dmr || (match twin with | some h => h.ended.contains c.lid.toNat | none => false)
    let bothLast := last && (!l.dmr || (match twin with | some h => h.ended.length == l.gsize g.idx | none => false))
    let s := s.mapGroups (fun h => h == g) fun _ =>
      { g' with place := if last then none else g'.place, bytes := if last then 0 else g'.bytes,
                size := if last then 0 else g'.size }
    let s := if both then s.endHolder c.ctxid.toNat else s
    let s := if bothLast then s.endHolder c.cgid.toNat else s
    let s := { s with slices := s.slices.filter fun x => !(both && x.freedBy l c.uid.toNat bothLast) }
    let s := s.mapLaunch l.id fun l => { l with
      units := if both then l.units + 1 else l.units
      insts := l.insts + 1
      flags := l.flags ||| c.fcsr
      sig0 := if c.inst == some 0 then l.sig0 ^^^ c.crc else l.sig0
      sig1 := if c.inst == some 1 then l.sig1 ^^^ c.crc else l.sig1 }
    let s := s.freeSlot cid
    let s := match s.groups.find? fun h => h.launch == g.launch && h.idx == g.idx && h.inst == g.inst with
      | some h => s.settleGroup h
      | none => s
    match s.launchOf l.id with
    | some l => if l.over_ s then s.complete l (if l.lendFail then 3 else 0) else s
    | none => s
  | _, _ => (s.endHolder c.ctxid.toNat).freeSlot cid

/-! ## A launch ended before its time (R354) -/

/-- Holder IDs of a launch's two windows. -/
def Launch.windows (l : Launch) : List (Nat × Nat) :=
  [(l.ctxbase, l.ctxbase + l.ucnt), (5 * 2 ^ 21 + l.gbase, 5 * 2 ^ 21 + l.gbase + l.ngroups)]

/-- Holders in a window that a region or a share record names. -/
def State.holdersIn (s : State) (r : Nat × Nat) : List Nat :=
  let inR := fun h => decide (r.1 ≤ h) && decide (h < r.2)
  let toks := (s.toksWhere fun t => inR t.holder).map fun i => (s.tok i).holder
  let shs := (upto s.shareN).filterMap fun i =>
    let e := s.rd (s.shareAddr i) 8
    if getBits e 40 12 != 0 && inR (getBits e 16 24) then some (getBits e 16 24) else none
  (toks ++ shs).eraseDups

/-- CANCEL or a fatal fault ends a launch: its holders that have not ended are lost, and the word reports the status. -/
def State.endLaunch (s : State) (l : Launch) (status : Nat) : State :=
  let lost := (l.windows.flatMap s.holdersIn).filter fun h => !s.hasEnded h
  let s := s.forget l.id
  let s := lost.foldl State.loseHolder { s with ended := l.windows ++ s.ended }
  let s := match s.launchOf l.id with | some l => s.complete l status | none => s
  { s with ended := l.windows ++ s.ended }

end Sys2Proof.Machine
end

