-- ==== Sys2Proof/Machine/Queue.lean ====
section
/-!
DEFINITION. Sys2Proof/Machine/Queue.lean: queue commands (R324 to R337), notice pages (R323, R327), sequencers (R340).
-/

namespace Sys2Proof.Machine

/-! ## The sequencer's accesses (R329) -/

/-- The party of a queue's sequencer: the scheduler root and the queue's copy-channel group. -/
def State.seqParty (s : State) (q : Nat) (write : Bool) : Party :=
  { asid := s.qAsid q, ids := [rootId, s.qCcg q], acc := { write := write, agent := true } }

/-- What an access of a sequencer gives: the bytes, a fault, or a wait for a token in transit to the party (R86). -/
inductive Got where
  | val (v : Nat) (s : State)
  | fault (s : State)
  | wait (s : State)

/-- Reads `n` bytes, page by page. -/
def State.seqRead (s : State) (q : Nat) (va : Addr) (n : Nat) : Got :=
  match s.elemCheck (s.seqParty q false) 1 [] va n with
  | (.ok ps _, _, s) => if (s.dataFault true ps).isSome then .fault s else .val (s.rdPieces ps) s
  | (.wait _, _, s) => .wait s
  | (_, _, s) => .fault s

/-- Writes `n` bytes. -/
def State.seqWrite (s : State) (q : Nat) (va : Addr) (n v : Nat) : Got :=
  match s.elemCheck (s.seqParty q true) 1 [] va n with
  | (.ok ps _, _, s) =>
    if (s.dataFault false ps).isSome then .fault s
    else .val 0 ((s.wrPieces ps v).commitPages (s.seqParty q true) [{ va := va, n := n }])
  | (.wait _, _, s) => .wait s
  | (_, _, s) => .fault s

/-- Word i of the command stream a queue reads: its subprogram, or its ring from HEAD. -/
def State.cmdWord (s : State) (x : Queue) (i : Nat) : Got :=
  match x.sub with
  | some b => s.seqRead x.q (b.addr + BitVec.ofNat 72 (8 * (b.pos + i))) 8
  | none => s.seqRead x.q (s.qRing x.q + BitVec.ofNat 72 (8 * ((s.qHead x.q + i) % s.qWords x.q))) 8

/-- `n` words of the stream from word i on, as one bit string. -/
def State.cmdWords (s : State) (x : Queue) (i : Nat) : Nat → Got
  | 0 => .val 0 s
  | n + 1 =>
    match s.cmdWords x i n with
    | .val v s =>
      match s.cmdWord x (i + n) with
      | .val w s => .val (v + w <<< (64 * n)) s
      | r => r
    | r => r

/-- Words that the queue may read now. -/
def State.wordsLeft (s : State) (x : Queue) : Nat :=
  match x.sub with
  | some b => b.len - b.pos
  | none => (x.tail.toNat + 2 ^ 64 - s.qHead x.q) % 2 ^ 64

/-! ## Positions and stops -/

/-- A queue joins the end of its ready list. -/
def State.makeReady (s : State) (q : Nat) : State :=
  { s.mapQueue q fun x => { x with st := .ready, stamp := s.nextStamp } with nextStamp := s.nextStamp + 1 }

/-- A queue stops with an error; nothing of the command has happened (R327). -/
def State.stopQueue (s : State) (q err detail : Nat) (seq : BitVec 64) : State :=
  ((s.mapQueue q fun x => { x with
      st := x.stopState, err := BitVec.ofNat 8 err, why := BitVec.ofNat 8 err, detail := BitVec.ofNat 16 detail, errseq := seq }).release q).putStatus q

/-- The position moves by `n` words. -/
def State.skipWords (s : State) (x : Queue) (n : Nat) : State :=
  match x.sub with
  | some b => s.mapQueue x.q fun x => { x with sub := some { b with pos := b.pos + n } }
  | none => s.qdWr x.q 56 8 (s.qHead x.q + n)

/-- SEQ under which a command runs: its own, or its qjump's (R325). -/
def Queue.seqOf (x : Queue) (seq : BitVec 64) : BitVec 64 := match x.sub with | some b => b.seq | none => seq

/-- A command begins: LASTSEQ and CONSUMED take its SEQ (R325, R326). -/
def State.begin_ (s : State) (x : Queue) (seq : BitVec 64) : State :=
  if x.sub.isSome then s
  else (s.qdWr x.q 48 8 seq.toNat).mapQueue x.q fun x => { x with consumed := seq }

/-- The end of a subprogram: its qjump is done, and the queue goes on after it (R333). -/
def State.endSub (s : State) (q : Nat) : State :=
  (s.mapQueue q fun x => { x with sub := none, skip := 0 }).donePending q .jump

/-- A subprogram whose words are all read ends. -/
def State.checkSub (s : State) (q : Nat) : State :=
  match (s.queue q).bind Queue.sub with
  | some b => if b.len ≤ b.pos then s.endSub q else s
  | none => s

/-- What executing a command gives. -/
inductive QRes where
  | ok (s : State) (p : Pending)
  | block (s : State)
  | stop (err detail : Nat) (s : State)
  /-- the queue has been moved on by the command itself -/
  | moved (s : State)
  /-- an access of the command waits: the sequencer comes back to it -/
  | retry (s : State)

/-- Goes on with the bytes of an extension address, or stops at a fault on it (R329). -/
def Got.andThen (r : Got) (body : Nat → State → QRes) : QRes :=
  match r with
  | .val v s => body v s
  | .fault s => .stop 0x05 0 s
  | .wait s => .retry s

/-- A command has executed: its position, its entry among the outstanding commands, and CONSUMED at least every 64. -/
def State.executed (s : State) (x : Queue) (len : Nat) (seq : BitVec 64) (p : Pending) : State :=
  let s := (s.begin_ x seq).skipWords x len
  let s := s.mapQueue x.q fun y => { y with
    out := y.out ++ [(x.seqOf seq, p)], begun := false, ran := y.ran + 1, fresh := y.fresh + 1 }
  let s := s.advanceQueue x.q
  let s := match s.queue x.q with | some y => if 64 ≤ y.fresh then s.putStatus x.q else s | none => s
  s.checkSub x.q

/-- Runs a queue row for the queue in turn. -/
def queueExec (name : String) (c : QueueCmd) (len : Nat) (body : Queue → State → QRes) (s : State) : Out :=
  match s.queue s.curq with
  | none => .refused (.notEnabled name)
  | some x =>
    match body x s with
    | .ok s p => .next (s.executed x len c.seq p)
    | .block s =>
      .next (((((s.begin_ x c.seq).mapQueue x.q fun x => { x with st := .blocked, begun := true })).release x.q).putStatus
        x.q)
    | .stop e d s => .next (s.stopQueue x.q e d (x.seqOf c.seq))
    | .moved s => .next s
    | .retry s => .next s

/-! ## Checks 5 and 6 of R325 -/

/-- The address in the first two extension words (R324). -/
def cmdAddr (c : QueueCmd) : Addr := c.x1.extractLsb' 0 8 ++ c.x0
/-- An event a queue may name. -/
def State.qEvent (s : State) (q : Nat) (ev : BitVec 16) : Bool := s.evOn ev (s.qAsid q)
/-- Every earlier command of the queue has completed. -/
def Queue.quiet (x : Queue) : Bool :=
  x.out.all fun o => o.2 == .none || (o.2 == .jump && x.sub.any fun b => b.seq == o.1)
/-- SIG of a command as an event and its increment. -/
def cmdSig (c : QueueCmd) : Option (BitVec 16 × BitVec 32) := if c.flag then some (c.ev, c.opnd) else none

/-! ## Copies of a queue (R331) -/

/-- The party of a queue's copies. -/
def State.copyGroup (s : State) (q : Nat) : Party :=
  { asid := s.qAsid q, ids := [s.qCcg q], acc := { agent := true } }

/-- The die that holds a copy's destination. -/
def State.dstDie (s : State) (q : Nat) (d : Desc) : Nat × State :=
  match s.walkLeaf false (s.qAsid q) d.dst with
  | (some (l, _, size), s) => ((match s.target (leafPa l size d.dst) with | .hbm n => n | _ => 0), s)
  | (none, s) => (0, s)

/-- The queue's first copy is done: its signal is made, and the next begins. -/
def State.endCopy (s : State) (q : Nat) (x : QCopy) : State :=
  let s := s.mapQueue q fun y => { y with
    copies := y.copies.drop 1
    out := (y.out.foldl (fun (st : List (BitVec 64 × Pending) × Bool) o =>
      if !st.2 && o.1 == x.seq && o.2 == .copy then (st.1 ++ [(o.1, .none)], true) else (st.1 ++ [o], st.2)) ([], false)).1 }
  let s := match x.sig with | some e => s.signal e.1 (e.2.setWidth 64) | none => s
  s.advanceQueue q

/-- Strip k of the queue's first copy, moved by the engines of its destination's die: written, or it stops the queue with
QERR_ACCESS; where a token is in transit to the group it waits (R86, R331). -/
def State.queueStrip (s : State) (q k : Nat) (force : Option Cause) : State :=
  match (s.queue q).bind fun x => x.copies.head? with
  | none => s
  | some x =>
    let fail := fun (s : State) =>
      (s.mapQueue q fun y => { y with copies := modifyAt (fun c => { c with stopped := true }) y.copies 0 }).stopQueue q
        0x05 0 x.seq
    if force.isSome then fail s
    else
      let home := s.core.cid
      let back := fun (s : State) => { s with core := { s.core with cid := home } }
      let r := s.dstDie q x.desc
      let s : State := { r.2 with core := { r.2.core with cid := BitVec.ofNat 8 (128 * r.1) } }
      match s.runStrip x.desc (s.copyGroup q) x.done x.checked k with
      | .stop _ s => fail (back s)
      | .wait _ s => back s
      | .done m s =>
        let s := back s
        let x' := { x with done := k :: x.done, checked := m }
        let s := s.mapQueue q fun y => { y with copies := modifyAt (fun _ => x') y.copies 0 }
        if (upto (Desc.strips x.desc)).all fun k => x'.done.contains k then s.endCopy q x' else s

/-- Every strip of the queue's copies, one after another: what an eager machine does (notes/assumptions/3.md). -/
def State.runQueueCopies : Nat → Nat → State → State
  | 0, _, s => s
  | n + 1, q, s =>
    match (s.queue q).bind fun x => x.copies.head? with
    | none => s
    | some x =>
      if x.stopped then s
      else
        match (upto (Desc.strips x.desc)).find? fun k => !x.done.contains k with
        | some k => State.runQueueCopies n q (s.queueStrip q k none)
        | none => s

/-- Strips that the queue's copies have still to make. -/
def State.queueStrips (s : State) (q : Nat) : Nat :=
  match s.queue q with
  | some x => x.copies.foldl (fun n c => n + Desc.strips c.desc) 0
  | none => 0

/-! ## Launch records (Table 17-9) -/

/-- The leaf that an agent's translation finds. -/
def State.leafOf (s : State) (asid : BitVec 16) (va : Addr) : Option Leaf × State :=
  let r := s.walkLeaf false asid va
  (r.1.map Prod.fst, r.2)

/-- Two ranges have a member in common. -/
def rangesMeet (a b : Nat × Nat) : Bool := decide (max a.1 b.1 < min a.2 b.2)

/-- The number of the first of checks 1 to 4 of Table 17-9 that a record fails. -/
def State.recordCheck (s : State) (l : Launch) : Option Nat :=
  let one := s.variant == .l5 || !s.die1
  if l.field 0x000 2 != 1 || l.field 0x00B 1 != 0 || l.field 0x014 4 != 0 || l.field 0x01A 2 != 0
      || l.field 0x05C 36 != 0 || l.field 0x2C0 64 != 0 || decide (16 ≤ l.field 0x006 1)
      || decide (2 ^ 21 ≤ l.field 0x054 4) || decide (2 ^ 21 ≤ l.field 0x058 4)
      || (decide (l.nws ≤ 8) && l.decls.any Decl.resv) || (decide (l.nlend ≤ 8) && l.lends.any LendEntry.resv) then some 1
  else if !([1, 2, 4, 8].contains l.cgs) || decide (3 < l.place) || decide (3 < l.cls) || decide (3 < l.tsc)
      || decide (8 < l.nws) || decide (8 < l.nlend) || decide (128 < l.spad)
      || !(l.stklog == 0 || (decide (16 ≤ l.stklog) && decide (l.stklog ≤ 32))) then some 2
  else if (one && (l.place == 2 || l.dmr)) || (l.dmr && (s.variant == .l5 || l.place != 0)) then some 3
  else if !(s.objects.any fun o => o.handle.toNat == l.obj && !o.retiring && l.entry.toNat % 4 == 0
      && decide (o.base ≤ l.entry.toNat) && decide (l.entry.toNat < o.base + o.size)) then some 4
  else none

/-- The number of the first of checks 6 to 8 that a record fails. -/
def State.windowCheck (s : State) (l : Launch) : Option Nat :=
  if decide (2 ^ 21 < l.ctxbase + l.ucnt) || decide (2 ^ 21 < l.gbase + l.ngroups)
      || s.launches.any (fun m => l.windows.any fun a => m.windows.any fun b => rangesMeet a b) then some 6
  else if l.decls.any (fun d => d.len == 0 || (d.csp && (l.spad == 0 || decide (l.spad * 65536 < d.dst + d.len)))) then
    some 7
  else if l.lends.any (fun e => decide (1 < e.kind) || decide ((if e.kind = 0 then l.ucnt else l.ngroups) ≤ e.index)) then
    some 8
  else none

/-- The number of the first check of Table 17-9 that a record fails; check 5 translates CWORD. -/
def State.launchCheck (s : State) (l : Launch) : Option Nat × State :=
  match s.recordCheck l with
  | some n => (some n, s)
  | none =>
    if l.cword.toNat % 8 != 0 then (some 5, s)
    else
      let r := s.leafOf l.asid l.cword
      if !(r.1.any fun e => e.cls == 2) || !r.2.evOn l.cevt l.asid || (l.stklog != 0 && l.stkbase.toNat % 65536 != 0) then
        (some 5, r.2)
      else (r.2.windowCheck l, r.2)

/-! ## Slices of an accepted launch (R344, R345) -/

/-- L2 staging is off for a queue. -/
def State.stagingOff (s : State) (q : Nat) : Bool := s.qBud q == 0 || s.getSys 0 0x835 == 0

/-- The slice k of a declaration. -/
def declSlice (l : Launch) (d : Decl) (k die : Nat) : Slice :=
  { launch := some l.id, q := l.q, k := k, csp := d.csp, shared := d.stride == 0 && !d.csp, asid := l.asid,
    src := d.src + BitVec.ofInt 72 (k * d.stride), len := d.len, dst := d.dst, die := die }

/-- Dies on which a launch runs from its acceptance on (R24, R345). -/
def State.launchDies (s : State) (l : Launch) : List Nat :=
  match l.place with
  | 1 => [0]
  | 2 => [1]
  | 3 => if s.die1Up && !s.shLost then [0, 1] else [0]
  | _ => []

/-- The slices of a launch at its acceptance: every unit's or group's own, and a shared slice on each of its dies; for
placement ANY those come with the first binding. -/
def State.launchSlices (s : State) (l : Launch) : List Slice :=
  l.decls.flatMap fun d =>
    if d.csp then (upto l.ngroups).map fun g => declSlice l d g 0
    else if l.noStage || s.stagingOff l.q then []
    else if d.stride = 0 then (s.launchDies l).map fun die => declSlice l d 0 die
    else (upto l.ucnt).map fun u => declSlice l d u 0

/-- A range of IDs taken out of a list of ranges. -/
def cutRange (r : Nat × Nat) (rs : List (Nat × Nat)) : List (Nat × Nat) :=
  rs.flatMap fun x =>
    if rangesMeet r x then (if x.1 < r.1 then [(x.1, r.1)] else []) ++ (if r.2 < x.2 then [(r.2, x.2)] else []) else [x]

/-! ## The commands (Table 17-5) -/

/-- qlaunch (R335 to R337). A launch that stages cluster space keeps memory as it stands now (R110). -/
def qlaunchBody (c : QueueCmd) (x : Queue) (s : State) : QRes :=
  let va := cmdAddr c
  if va.toNat % 256 != 0 then .stop 0x05 0 s
  else
    (s.seqRead x.q va 768).andThen fun rec_ s =>
      let l : Launch := { id := s.nextLaunch, q := x.q, seq := x.seqOf c.seq, asid := s.qAsid x.q, record := rec_,
                          prev := x.prev, unstaged := s.stagingOff x.q }
      let l := { l with dies := BitVec.ofNat 2 (match s.launchDies l with | [0] => 1 | [1] => 2 | _ => 3) }
      match s.launchCheck l with
      | (some n, s) => .stop 0x03 n s
      | (none, s) =>
        if 16 ≤ (s.launches.filter fun m => m.q == x.q).length then .block s
        else
          let l := { l with snap := if l.decls.any Decl.csp then s.mem else [] }
          let s : State := { s with
            nextLaunch := s.nextLaunch + 1
            launches := s.launches ++ [l]
            slices := s.slices ++ (if l.ucnt = 0 then [] else s.launchSlices l)
            ended := l.windows.foldl (fun e r => cutRange r e) s.ended }
          let s := s.mapQueue x.q fun y => { y with prev := some l.id }
          if l.ucnt = 0 then .ok (s.complete l 0) .none else .ok s (.launch l.id)

/-- A copy that begins at its qcopy has the pages of its first chunk checked there (R246, R331). -/
def State.firstChunk (s : State) (x : Queue) (d : Desc) : StripRun Nat :=
  if x.copies.isEmpty then copyScan d (s.copyGroup x.q) d.count 0 [] [] s else .done 0 s

/-- qcopy (R331). -/
def qcopyBody (c : QueueCmd) (x : Queue) (s : State) : QRes :=
  if c.flag && !s.qEvent x.q c.ev then .stop 0x08 0 s
  else if (cmdAddr c).toNat % 16 != 0 then .stop 0x05 0 s
  else
    (s.seqRead x.q (cmdAddr c) 128).andThen fun b s =>
      let d : Desc := BitVec.ofNat 1024 b
      if d.scs || d.dcs || d.bad then .stop 0x02 0 s
      else
        match s.firstChunk x d with
        | .stop _ s => .stop 0x05 0 s
        | .wait _ s => .retry s
        | .done m s =>
          let s := s.mapQueue x.q fun y => { y with
            copies := y.copies ++ [{ seq := x.seqOf c.seq, sig := cmdSig c, desc := d, checked := m }] }
          .ok s .copy

/-- qwait. -/
def qwaitBody (c : QueueCmd) (x : Queue) (s : State) : QRes :=
  if !s.qEvent x.q c.ev || c.ev == 0xFFFF then .stop 0x08 0 s
  else if c.x0.toNat ≤ s.evCount c.ev then .ok s .none
  else .block s

/-- qsig (R330). -/
def qsigBody (c : QueueCmd) (x : Queue) (s : State) : QRes :=
  if !s.qEvent x.q c.ev then .stop 0x08 0 s else .ok (s.signal c.ev (c.opnd.setWidth 64)) .none

/-- qintr: the command completes, its status write follows, then the interrupt (R326, R328). -/
def qintrBody (c : QueueCmd) (x : Queue) (s : State) : QRes :=
  let t := (s.executed x 2 c.seq .none).putStatus x.q
  .moved { t with msi := (s.qVf x.q, (c.opnd.extractLsb' 0 11).toNat) :: t.msi }

/-- qfence. -/
def qfenceBody (_ : QueueCmd) (x : Queue) (s : State) : QRes := if x.quiet then .ok s .none else .block s

/-- qbr (R332). -/
def qbrBody (c : QueueCmd) (x : Queue) (s : State) : QRes :=
  if !s.qEvent x.q c.ev || c.ev == 0xFFFF then .stop 0x08 0 s
  else if decide (c.x0.toNat ≤ s.evCount c.ev) != c.flag then
    .ok (s.mapQueue x.q fun y => { y with skip := (c.opnd.extractLsb' 0 8).toNat }) .none
  else .ok s .none

/-- qjump (R333). -/
def qjumpBody (c : QueueCmd) (x : Queue) (s : State) : QRes :=
  if x.sub.isSome then .stop 0x07 0 s
  else if (cmdAddr c).toNat % 8 != 0 then .stop 0x05 0 s
  else
    let s := s.executed x 4 c.seq .jump
    .moved (s.mapQueue x.q fun y => { y with sub := some { addr := cmdAddr c, len := c.opnd.toNat, seq := c.seq } })

/-- A qstage slice that places nothing (R348): a host source, an unreadable one, no budget, or one too large for that of
every die in service. -/
def State.stageNothing (s : State) (x : Slice) : Bool × State :=
  if s.stagingOff x.q || s.neverStaged x (if s.die1Up then [0, 1] else [0]) then (true, s)
  else
    match s.walkLeaf false x.asid x.src with
    | (some (l, _, size), s) => (l.cls == 3 || s.target (leafPa l size x.src) == .host, s)
    | (none, s) => (true, s)

/-- A qstage command completes, and makes its signal. -/
def State.endStage (s : State) (q : Nat) (seq : BitVec 64) (sig : Option (BitVec 16 × BitVec 32)) : State :=
  let s := match sig with | some p => s.signal p.1 (p.2.setWidth 64) | none => s
  (s.mapQueue q fun y => { y with
    out := (y.out.foldl (fun (st : List (BitVec 64 × Pending) × Bool) o =>
      if !st.2 && o.1 == seq && o.2 == .stage then (st.1 ++ [(o.1, .none)], true) else (st.1 ++ [o], st.2)) ([], false)).1
    }).advanceQueue q

/-- qstage (R348). -/
def qstageBody (c : QueueCmd) (x : Queue) (s : State) : QRes :=
  if c.flag && !s.qEvent x.q c.ev then .stop 0x08 0 s
  else if (cmdAddr c).toNat % 8 != 0 then .stop 0x05 0 s
  else
    (s.seqRead x.q (cmdAddr c) 32).andThen fun b s =>
      let d := declOf b
      if d.csp || d.resv || d.len = 0 || decide (2 ^ 31 < d.len) then .stop 0x02 0 s
      else
        let y : Slice := { launch := none, q := x.q, k := 0, csp := false, shared := false, asid := s.qAsid x.q,
                           src := d.src, len := d.len, dst := 0, stage := some (x.seqOf c.seq, cmdSig c) }
        let r := s.stageNothing y
        if r.1 then
          .ok (match cmdSig c with | some e => r.2.signal e.1 (e.2.setWidth 64) | none => r.2) .none
        else .ok { r.2 with slices := r.2.slices ++ [y] } .stage

/-- The region a qlend names, or the error that stops it (R334). -/
def State.qRegion (s : State) (q : Nat) (va : Addr) : (Nat ⊕ Nat) × State :=
  match s.leafOf (s.qAsid q) va with
  | (none, s) => (.inr 0x05, s)
  | (some _, s) =>
    match s.regionOf (s.qAsid q) va with
    | (some i, s) => (.inl i, s)
    | (none, s) => (.inr 0x06, s)

/-- OPND of a qlend names a holder of a reserved kind: a value out of its range (R85, R329). -/
def holderBad (c : QueueCmd) : Bool := decide (6 ≤ holderKind (c.opnd.extractLsb' 0 24).toNat)

/-- qlend with RET = 0 (R334). -/
def qlendBody (c : QueueCmd) (x : Queue) (s : State) : QRes :=
  if holderBad c then .stop 0x02 0 s
  else
    match s.qRegion x.q (cmdAddr c) with
    | (.inr e, s) => .stop e 0 s
    | (.inl i, s) =>
      let t := s.tok i
      let h := (c.opnd.extractLsb' 0 24).toNat
      if t.state = tokTransit ∧ t.holder = rootId then .block s
      else if t.state = tokHeld ∧ t.holder = rootId then
        (if h = rootId then .ok s .none else if s.cutOff rootId h then .stop 0x06 0 s else .ok (s.lend i h) .none)
      else .stop 0x06 0 s

/-- A qlend.ret gives the region back itself: the queue's group holds it, no share of it is out, and every earlier qcopy
has completed (R427). -/
def State.groupReturns (s : State) (x : Queue) (i : Nat) : Bool :=
  let t := s.tok i
  t.holder == s.qCcg x.q && t.state == tokHeld && t.shares == 0 && t.depth != 0 && x.copies.isEmpty

/-- qlend with RET = 1 (R334, R427). -/
def qlendRetBody (c : QueueCmd) (x : Queue) (s : State) : QRes :=
  match s.qRegion x.q (cmdAddr c) with
  | (.inr e, s) => .stop e 0 s
  | (.inl i, s) =>
    let t := s.tok i
    if t.holder = rootId ∧ (t.state = tokHeld ∨ t.state = tokShared) then .ok s .none
    else if s.groupReturns x i then .block (s.giveBack i)
    else .block s

/-- qmark: its address is checked before it waits (R325, check 6). -/
def qmarkBody (c : QueueCmd) (x : Queue) (s : State) : QRes :=
  if (cmdAddr c).toNat % 8 != 0 then .stop 0x05 0 s
  else
    let r := s.seqWrite x.q (cmdAddr c) 8 c.x2.toNat
    match r with
    | .fault _ => r.andThen fun _ s => .ok s .none
    | _ => if x.quiet then r.andThen fun _ s => .ok s .none else .block s

/-- qnop. -/
def qnopBody (_ : QueueCmd) (_ : Queue) (s : State) : QRes := .ok s .none

/-- qend: the end of a subprogram, or DONE (R327, R333). -/
def qendBody (c : QueueCmd) (x : Queue) (s : State) : QRes :=
  if x.sub.isSome then .moved ((s.executed x 2 c.seq .none).endSub x.q)
  else
    let s := s.executed x 2 c.seq .none
    .moved (((s.mapQueue x.q fun y => { y with st := .done, finished := true }).release x.q).putStatus x.q)

def execQlaunch (c : QueueCmd) : State → Out := queueExec "QLAUNCH" c 4 (qlaunchBody c)
/-- qcopy; its strips are made at once on an eager machine. -/
def execQcopy (c : QueueCmd) (s : State) : Out :=
  match queueExec "QCOPY" c 4 (qcopyBody c) s with
  | .next t => .next (if t.eager then t.runQueueCopies (t.queueStrips s.curq) s.curq else t)
  | r => r
def execQwait (c : QueueCmd) : State → Out := queueExec "QWAIT" c 3 (qwaitBody c)
def execQsig (c : QueueCmd) : State → Out := queueExec "QSIG" c 2 (qsigBody c)
def execQintr (c : QueueCmd) : State → Out := queueExec "QINTR" c 2 (qintrBody c)
def execQfence (c : QueueCmd) : State → Out := queueExec "QFENCE" c 2 (qfenceBody c)
def execQbr (c : QueueCmd) : State → Out := queueExec "QBR" c 3 (qbrBody c)
def execQjump (c : QueueCmd) : State → Out := queueExec "QJUMP" c 4 (qjumpBody c)
def execQstage (c : QueueCmd) : State → Out := queueExec "QSTAGE" c 4 (qstageBody c)
def execQlend (c : QueueCmd) : State → Out := queueExec "QLEND" c 4 (qlendBody c)
def execQlendRet (c : QueueCmd) : State → Out := queueExec "QLEND_RET" c 4 (qlendRetBody c)
def execQmark (c : QueueCmd) : State → Out := queueExec "QMARK" c 5 (qmarkBody c)
def execQnop (c : QueueCmd) : State → Out := queueExec "QNOP" c 2 (qnopBody c)
def execQend (c : QueueCmd) : State → Out := queueExec "QEND" c 2 (qendBody c)

/-! ## Sequencers (R325, R340) -/

/-- What a queue's next command is. -/
inductive NextCmd where
  | ok (i : Instr) (len : Nat) (seq : BitVec 64)
  /-- a command that qbr skips -/
  | skipped (len : Nat) (seq : BitVec 64)
  /-- the words that TAIL announces end before the command does -/
  | short
  /-- QERR code and the SEQ to report -/
  | bad (err : Nat) (seq : BitVec 64)
  /-- a word of it cannot be read yet -/
  | wait

/-- The qbr of a queue skips a command of an opcode: its length, SEQ and opcode are checked, and its effects are not
performed; a qend of a subprogram is not skipped (R332). -/
def Queue.skips (x : Queue) (op : Nat) : Bool := x.skip != 0 && !(x.sub.isSome && op == 0x0D)

/-- Reads and checks the next command (R325, checks 1 to 4; R332; R333). -/
def State.nextCmd (s : State) (x : Queue) : NextCmd × State :=
  let left := s.wordsLeft x
  if left < 2 then
    ((if x.sub.isSome then .bad 0x02 (x.seqOf 0) else .short), s)
  else
    match s.cmdWords x 0 2 with
    | .fault s => (.bad 0x05 (x.seqOf 0), s)
    | .wait s => (.wait, s)
    | .val v s =>
      let w0 := BitVec.ofNat 64 v
      let seq := BitVec.ofNat 64 (v >>> 64)
      let op := (w0.extractLsb' 0 8).toNat
      let n := queueLen op
      if (x.sub.isSome && seq != 0) || (x.sub.isNone && !x.begun && decide (seq.toNat ≤ s.qLast x.q)) then
        (.bad 0x04 (x.seqOf seq), s)
      else if n = 0 then
        ((match decodeQueue w0 seq 0 0 0 with | .lifetime => .bad 0x0A (x.seqOf seq) | _ => .bad 0x01 (x.seqOf seq)), s)
      else if left < n then ((if x.sub.isSome then .bad 0x02 (x.seqOf seq) else .short), s)
      else
        match s.cmdWords x 2 (n - 2) with
        | .fault s => (.bad 0x05 (x.seqOf seq), s)
        | .wait s => (.wait, s)
        | .val e s =>
          if x.skips op then (.skipped n seq, s)
          else
            ((match decodeQueue w0 seq (BitVec.ofNat 64 e) (BitVec.ofNat 64 (e >>> 64)) (BitVec.ofNat 64 (e >>> 128)) with
              | .ok i => .ok i n seq
              | .lifetime => .bad 0x0A (x.seqOf seq)
              | .field => .bad 0x02 (x.seqOf seq)
              | _ => .bad 0x01 (x.seqOf seq)), s)

/-- A launch's failed lend stops its queue at a command boundary, with the SEQ of the qlaunch (R343). -/
def State.stopLend (s : State) (q : Nat) (seq : BitVec 64) : State :=
  (s.mapQueue q fun x => { x with lendErr := none, lendStop := true }).stopQueue q 0x06 0 seq

/-- An IDLE queue stands at a command boundary. -/
def State.stopIdle (s : State) : State :=
  s.queues.foldl (fun s x => match x.st, x.lendErr with | .idle, some seq => s.stopLend x.q seq | _, _ => s) s

/-- The command a queue executes in its sequencer's turn, or the state when there is none. A command that has begun and
waits ends before the next command boundary, at which a stop is taken (R327, R343). -/
def State.fetchCmd (s : State) (x : Queue) : (Instr ⊕ Unit) × State :=
  if x.stopReq && !x.begun then
    (.inr (), s.mapQueue x.q (fun x => { x with stopReq := false }) |>.stopQueue x.q 0 0 0)
  else
    match if x.begun then none else x.lendErr with
    | some seq => (.inr (), s.stopLend x.q seq)
    | none =>
      match s.nextCmd x with
      | (.short, s) =>
        (.inr (), ((s.mapQueue x.q fun x => { x with st := if x.skip = 0 then .idle else .blocked }).release
          x.q).putStatus x.q)
      | (.bad e q, s) => (.inr (), s.stopQueue x.q e 0 q)
      | (.wait, s) => (.inr (), s)
      | (.skipped len seq, s) =>
        (.inr (), (s.executed x len seq .none).mapQueue x.q fun y => { y with skip := y.skip - 1 })
      | (.ok i _ _, s) => (.inl i, s.mapQueue x.q fun y => { y with skip := 0 })

/-- What a blocked queue's command would do now. -/
def qBody (i : Instr) (x : Queue) (s : State) : Option QRes :=
  match i with
  | .qlaunch c => some (qlaunchBody c x s)
  | .qwait c => some (qwaitBody c x s)
  | .qfence c => some (qfenceBody c x s)
  | .qlend c => some (qlendBody c x s)
  | .qlendRet c =>
    some (match s.qRegion x.q (cmdAddr c) with
      | (.inl i, s) => if s.groupReturns x i then .ok s .none else qlendRetBody c x s
      | _ => qlendRetBody c x s)
  | .qmark c => some (qmarkBody c x s)
  | _ => none

/-- A blocked queue's wait is satisfied. -/
def State.unblocked (s : State) (x : Queue) : Bool :=
  match (s.nextCmd x).1 with
  | .short => false
  | .wait => false
  | .bad _ _ => true
  | .skipped _ _ => true
  | .ok i _ _ => match qBody i x s with | some (.block _) => false | some (.retry _) => false | _ => true

/-- Blocked queues whose waits are satisfied become READY (R340). -/
def State.wakeQueues (s : State) : State :=
  s.queues.foldl (fun s x => if x.st == .blocked && s.unblocked x then s.makeReady x.q else s) s

/-- The home die of a queue. -/
def State.homeDie (s : State) (q : Nat) : Nat := if 16384 ≤ q ∧ s.die1Up ∧ !s.shLost then 1 else 0

/-- The head of a die's highest non-empty ready list. -/
def State.readyHead (s : State) (die : Nat) : Option Queue :=
  (s.queues.filter fun x => x.st == .ready && s.homeDie x.q == die).foldl (fun (b : Option Queue) x =>
    match b with
    | none => some x
    | some y =>
      if s.qPrio y.q < s.qPrio x.q ∨ (s.qPrio x.q = s.qPrio y.q ∧ x.stamp < y.stamp) then some x else some y) none

/-- The queue an idle sequencer of a die takes. -/
def State.pickQueue (s : State) (n : Nat) : Option Queue :=
  let d := n / 32
  match s.readyHead d with
  | some x => some x
  | none => s.readyHead (1 - d)

/-- Sequencer n runs queues: its die is in service and, on die 1, the Shuttle pair is not lost (R404). -/
def State.seqUp (s : State) (n : Nat) : Bool := decide (n < 32) || (decide (n < 64) && s.die1Up && !s.shLost)

/-- Sequencer n takes a queue. -/
def State.takeQueue (s : State) (n q : Nat) : State :=
  { s.mapQueue q fun x => { x with st := .running, ran := 0 } with seqs := (n, q) :: s.seqs.filter fun p => p.1 != n }

/-! ## Notice pages (R323, R327, R354) -/

/-- A write of TAIL. -/
def State.writeTail (s : State) (q : Nat) (v : BitVec 64) : State :=
  match s.queue q with
  | none => s
  | some x =>
    if x.finished || v == x.tail then s
    else if v.toNat < x.tail.toNat ∨ s.qHead q + s.qWords q < v.toNat then
      (if x.st == .stopped then s else s.stopQueue q 0x09 0 0)
    else
      let s := s.mapQueue q fun x => { x with tail := v }
      if x.st == .idle then s.makeReady q else s

/-- CANCEL: the queue's launches end, its copies and stagings stop without their signals, and it is STOPPED. -/
def State.cancel (s : State) (q : Nat) : State :=
  let s := (s.launches.filter fun l => l.q == q).foldl (fun s l => s.endLaunch l 2) s
  let s : State := { s with slices := s.slices.filter fun x => !(x.launch.isNone && x.q == q) }
  let s := s.mapQueue q fun x => { x with
    copies := [], lendErr := none
    out := x.out.map fun o => if o.2 == .copy || o.2 == .stage then (o.1, .none) else o }
  match s.queue q with
  | none => s
  | some x =>
    let s := s.advanceQueue q
    if x.st == .done then s else s.stopQueue q 0 0 0

/-- The length of the command at a stopped queue's position, none where the part does not know it. -/
def State.cmdLen (s : State) (x : Queue) : Option (Nat × BitVec 64) :=
  match s.cmdWords x 0 2 with
  | .val v _ =>
    let n := queueLen (v % 256)
    if n = 0 then none else some (n, BitVec.ofNat 64 (v >>> 64))
  | _ => none

/-- SKIP moves past the command at the position; one among the commands of a qbr counts as skipped (R332). -/
def State.skipPast (s : State) (x : Queue) (len : Nat) (seq : BitVec 64) : State :=
  let s := if x.sub.isNone && decide (s.qLast x.q < seq.toNat) then s.qdWr x.q 48 8 seq.toNat else s
  ((s.skipWords x len).mapQueue x.q fun y => { y with begun := false, skip := y.skip - 1 }).checkSub x.q

/-- A queue goes on: its stopped copy from its lowest strip not yet made, and its commands, unless its qend has executed
(R327, R331). -/
def State.goOn (s : State) (q : Nat) : State :=
  let s := s.mapQueue q fun x => { x with
    err := 0, why := 0, detail := 0, lendStop := false, stopReq := false
    copies := x.copies.map fun c =>
      let low := ((upto (Desc.strips c.desc)).find? fun k => !c.done.contains k).getD 0
      if c.stopped then { c with stopped := false, checked := low * Desc.perStrip c.desc } else c }
  let s := if (s.queue q).any Queue.finished then s.mapQueue q fun x => { x with st := .done } else s.makeReady q
  let s := s.putStatus q
  if s.eager then s.runQueueCopies (s.queueStrips q) q else s

/-- RESUME of a stopped queue, with SKIP where it is set. -/
def State.resume (s : State) (q : Nat) (skip : Bool) : State :=
  match s.queue q with
  | none => s
  | some x =>
    let pass := match s.cmdLen x with | some (n, seq) => (s.skipPast x n seq).goOn q | none => s
    if x.st != .stopped then s.mapQueue q fun x => { x with stopReq := false }
    else if !skip || x.why == 0x09 || x.lendStop || x.why == 0 then s.goOn q
    else
      match x.copies.head? with
      | some c => if c.stopped then (s.endCopy q { c with sig := none }).goOn q else pass
      | none =>
        if x.sub.any (fun b => x.why == 0x02 && decide (b.len < b.pos + ((s.cmdLen x).map Prod.fst).getD 2)) then
          (s.endSub q).goOn q
        else pass

/-- A write to the control register of a notice page: CANCEL, STOP, RESUME, in that order (R327). -/
def State.writeControl (s : State) (q : Nat) (v : BitVec 64) : State :=
  if v.extractLsb' 4 60 != 0 || (s.queue q).isNone then s
  else
    let s := if v.getLsbD 3 then s.cancel q else s
    let st := (s.queue q).map Queue.st
    let s := if v.getLsbD 0 && st != some .stopped && st != some .done then
        (if st == some .idle then s.stopQueue q 0 0 0 else s.mapQueue q fun x => { x with stopReq := true })
      else s
    if v.getLsbD 1 then s.resume q (v.getLsbD 2) else s

/-- A host signal (R323, R330, R350). -/
def State.hostSignal (s : State) (q : Nat) (ev : BitVec 16) (inc : BitVec 64) : State :=
  if (s.queue q).isNone then s
  else if s.qEvent q ev && s.evHost ev then s.signal ev inc
  else (s.mapQueue q fun x => { x with err := 0x08 }).putStatus q

/-- Setting EN in a queue's descriptor; firmware refuses a status address outside HBM and host memory (R322, R326). -/
def State.enable (s : State) (q : Nat) : State :=
  let ok := match s.statusPa q with
    | (some pa, _) => (match s.target pa with | .hbm _ => true | .host => true | _ => false)
    | (none, _) => false
  if !ok || decide (32768 ≤ q) then s
  else
    let s := s.qdWr q 34 1 (s.qd q 34 1 ||| 1)
    let last := BitVec.ofNat 64 (s.qLast q)
    let x : Queue := { q := q, tail := BitVec.ofNat 64 (s.qHead q), consumed := last, completed := last }
    State.putStatus { s.release q with queues := s.queues.filter (fun y => y.q != q) ++ [x] } q

/-- Reads of a notice page: TAIL. -/
def State.readNotice (s : State) (q off : Nat) : BitVec 64 :=
  if off = 0 then (match s.queue q with | some x => x.tail | none => 0) else 0

/-- A write to a register of a notice page. -/
def State.writeNotice (s : State) (q off : Nat) (v : BitVec 64) : State :=
  match off with
  | 0x000 => s.writeTail q v
  | 0x008 => s.writeControl q v
  | 0x010 => s.hostSignal q (v.extractLsb' 0 16) ((v.extractLsb' 16 48).setWidth 64)
  | _ => s

def execTail (q : Nat) (v : BitVec 64) (s : State) : Out := .next (s.writeTail q v)
def execStop (q : Nat) (v : BitVec 64) (s : State) : Out :=
  if v.getLsbD 0 then .next (s.writeControl q v) else .refused (.notEnabled "STOP")
def execResume (q : Nat) (v : BitVec 64) (s : State) : Out :=
  if v.getLsbD 1 then .next (s.writeControl q v) else .refused (.notEnabled "RESUME")
def execSkip (q : Nat) (v : BitVec 64) (s : State) : Out :=
  if v.getLsbD 1 && v.getLsbD 2 then .next (s.writeControl q v) else .refused (.notEnabled "SKIP")
def execCancel (q : Nat) (v : BitVec 64) (s : State) : Out :=
  if v.getLsbD 3 then .next (s.writeControl q v) else .refused (.notEnabled "CANCEL")
def execHostSignal (q : Nat) (evn : BitVec 16) (inc : BitVec 64) (s : State) : Out := .next (s.hostSignal q evn inc)
/-- QUEUE_ENABLE: firmware has written the descriptor while its EN was 0, or the queue is DONE (R322, R327). -/
def execQueueEnable (q : Nat) (s : State) : Out :=
  if (s.queue q).any fun x => x.st != .done && s.qEn q then .refused (.notEnabled "QUEUE_ENABLE") else .next (s.enable q)

/-- The queue a sequencer runs has had its 64 commands, and a queue of equal or higher priority is READY (R340). -/
def State.switchDue (s : State) (x : Queue) : Bool :=
  decide (64 ≤ x.ran) && s.queues.any fun y => y.st == .ready && decide (s.qPrio x.q ≤ s.qPrio y.q)

/-- The queue a sequencer runs joins the end of its list, and the sequencer takes the next. -/
def State.switchQueue (s : State) (n q : Nat) : State :=
  let s := (s.makeReady q).release q
  match s.pickQueue n with
  | some y => s.takeQueue n y.q
  | none => s

/-- SEQUENCER_SWITCH: sequencer n leaves its queue for queue q. -/
def execSequencerSwitch (n q : Nat) (s : State) : Out :=
  match (s.seqs.find? fun p => p.1 == n).bind fun p => s.queue p.2 with
  | none => .refused (.notEnabled "SEQUENCER_SWITCH")
  | some x =>
    let t := s.switchQueue n x.q
    if s.switchDue x && t.seqs.contains (n, q) then .next t else .refused (.notEnabled "SEQUENCER_SWITCH")

end Sys2Proof.Machine
end

