-- ==== Sys2Proof/Machine/Stop.lean ====
section
/-!
DEFINITION. Sys2Proof/Machine/Stop.lean: the stop of a context at a fault, a pre-emption or a descheduling (R264 to R272,
R366, R367).
-/

namespace Sys2Proof.Machine

/-- LSEQ of the focused context's launch. -/
def State.lseq (s : State) : BitVec 16 :=
  match s.ctx.launch.bind s.launchOf with
  | some l => l.seq.setWidth 16
  | none => 0

/-- What a wait of a unit that stops leaves behind is withdrawn: its pending recv, and, unless it is descheduled, its
waiters (R251, R272). -/
def State.dropWaits (s : State) (c : Ctx) (keep : Bool) : State :=
  let s := s.mapGroups (fun g => g.has c) fun g => { g with recvs := g.recvs.filter fun r => r.2.1 != c.lid.toNat }
  if keep then s
  else
    let mine := fun (w : Waiter) => w.ctxid == c.ctxid && w.inst == c.inst && w.launch == c.launch && !w.restart
    let evs := (s.waiters.filter mine).map Waiter.ev
    evs.foldl State.syncWaits { s with waiters := s.waiters.filter fun w => !mine w }

/-! ## Retirement (R21, R50) -/

/-- The rows that Reed checks (Table 20-2). -/
def reedChecks (i : Instr) : Bool :=
  match i with
  | .tadd _ | .tsub _ | .tmul _ | .tdiv _ | .tmin _ | .tmax _ | .tabs _ | .tneg _ | .tfma _ | .trem _ | .tand _ | .tor _
  | .txor _ | .tandn _ | .tsll _ | .tsrl _ | .tsra _ | .tmulh _ | .trcp _ | .trsqrt _ | .tsqrt _ | .texp2 _ | .tlog2 _
  | .ttanh _ | .tcmp _ | .tseq _ | .tcvt _ | .tdequant _ | .map _ | .tquant _ | .momu _ | .tred _ | .tscan _
  | .mapred _ | .mma _ | .mmas _ | .mmsp _ | .mmb _ => true
  | .mdrain f | .mrow f | .mcol f => !f.imm.getLsbD 11
  | _ => false

/-- The old slots that still have readers when an entry has retired (R19). -/
def freeOlds (seq : BitVec 32) (os : List OldSlot) : List OldSlot :=
  (os.map fun o => { o with readers := o.readers.filter fun r => r != seq }).filter fun o => !o.readers.isEmpty

/-- The head entry retires: the restart state it kept is gone, and the unit counts it. -/
def Ctx.retire (c : Ctx) (t : TiqEntry) : Ctx :=
  { c with tiq := c.tiq.tail, retd := c.retd + 1, performed := 0, partialDst := none, tes := 0, skipwp := false,
           wait := {}, olds := freeOlds t.seq c.olds, ilock := c.ilock.filter fun x => x.seq != t.seq }
def Core.retire (k : Core) (t : TiqEntry) : Core :=
  { k with reedmis := false, lfsr := if reedChecks t.i then Config.lfsrNext k.lfsr else k.lfsr }
def State.retireHead (s : State) (t : TiqEntry) : State := { s with ctx := s.ctx.retire t, core := s.core.retire t }

/-! ## Pre-emption -/

/-- A running slot at the next retire boundary: an entry that has been performed retires first (R272). -/
def atBoundary (u : Core × Ctx) : Core × Ctx :=
  match u.2.tiq with
  | t :: _ => if t.returned && t.done then (u.1.retire t, u.2.retire t) else u
  | [] => u

/-- The strips that other channels have started for a core's copies complete before its context stops (R271). -/
def State.landStrips (s : State) (cid : Nat) : State :=
  if (s.unitAt cid).2.copies.any fun c => !c.stolen.isEmpty then s.onCore cid State.finishStolen else s

/-- A running unit that is pre-empted: the core is free for another unit, and holds the context until one takes its slot
(R272, R23). Its OWNED lines leave the data cache (R80). -/
def State.preemptUnit (s : State) (cid : Nat) (reason : BitVec 8) : State :=
  if (s.unitAt cid).2.run != .running then s
  else
    let s := s.landStrips cid
    let u := atBoundary (s.unitAt cid)
    let s := s.dropWaits u.2 (reason == 2)
    let s := s.setUnit cid (({ u.1 with prereq := none, reedmis := false } : Core).dropOwned, {})
    { s with saved := s.saved ++ [{ u.2.rest reason .preempt u.2.tes.toNat with held := some cid }] }

/-- CIDs of a group's running units. -/
def State.runningOf (s : State) (g : Group) : List Nat :=
  (s.units.filter fun u => u.2.run == .running && g.has u.2).map fun u => u.1.cid.toNat

/-- A group with no unit on a core has no place; its reservation stays with the scheduler (R77). -/
def State.unplace (s : State) (g : Group) : State :=
  if (s.coresOf g).isEmpty then
    s.mapGroups (fun h => h.launch == g.launch && h.idx == g.idx && h.inst == g.inst) fun h => { h with place := none }
  else s

/-- Every running unit of a group is pre-empted together (R14). -/
def State.preemptGroup (s : State) (g : Group) (reason : BitVec 8) : State :=
  let s := (s.runningOf g).foldl (fun s c => s.preemptUnit c reason) s
  (s.settleGroup g).unplace g

/-- The other units of the focused context's group are pre-empted when it stops at a fault (R367). -/
def State.preemptMates (s : State) : State :=
  match s.group with
  | none => s
  | some g => ((s.runningOf g).filter fun c => c != s.core.cid.toNat).foldl (fun s c => s.preemptUnit c 1) s

/-- THE STOP at a fault: TES, the saved TIQ, the fault record and its report, and the group (R264, R266, R366, R367). -/
def State.fault (s : State) (i : Info) (tes : Nat) (seq : BitVec 32) (pc : Addr) : State :=
  let s := if s.ctx.copies.any fun c => !c.stolen.isEmpty then s.finishStolen else s
  let r := i.record s.ctx seq pc s.lseq
  let s := s.dropWaits s.ctx false
  let s := s.mapCtx fun c => { c.rest 0 i.cause tes with frec := some r }
  let s : State := { s with core := { s.core with prereq := none, reedmis := false } }
  (s.reportFault r).preemptMates

/-- A trap the control unit finds: every older entry has retired, and the unit has no effect; `resume` is the PC the
frame keeps (R267). -/
def State.ctlTrap (s : State) (i : Info) (resume : Addr) : State :=
  (s.mapCtx fun c => { c with pc := resume }).fault i 0 s.ctx.nextseq s.ctx.pc

/-- The fault of an entry of the TIQ: the entry and the younger ones are saved (R264). -/
def State.entryFault (s : State) (i : Info) (tes : Nat) (t : TiqEntry) : State := s.fault i tes t.seq t.pc

end Sys2Proof.Machine
end

