-- ==== Sys2Proof/Machine/Links.lean ====
section
/-!
DEFINITION. Sys2Proof/Machine/Links.lean: the Shuttle modules (R396 to R404), the Loom ports (R405) and the PCIe link
events (R406), with their reports (R402).
-/

namespace Sys2Proof.Machine

/-! ## Reports (R402) -/

/-- The REC of an SRC 2 entry. -/
def linkRecord (cause kind index reason raten rateo widthn repl : Nat) : Nat :=
  cause + kind <<< 8 + index <<< 16 + reason <<< 24 + raten <<< 32 + rateo <<< 40 + widthn <<< 48 + repl <<< 64

/-- A link report, written to a die's fault queue. -/
def State.linkReport (s : State) (die record : Nat) : State :=
  s.fqPost { die := die, record := record, asid := 0, src := 2 }

/-- SHCTL.EVN counts each Shuttle report. -/
def State.shSignal (s : State) : State := if s.shEven then s.signal s.shEvn 1 else s

/-! ## Modules -/

def State.mod (s : State) (m : Nat) : Module := s.mods.toList.getD m {}
def State.mapMod (s : State) (m : Nat) (f : Module → Module) : State :=
  { s with mods := s.mods.mapIdx fun i x => if i = m then f x else x }

/-- Modules 0 to 15, absent on the L5 (R394). -/
def State.hasMod (s : State) (m : Nat) : Bool := decide (m < 16) && s.variant != .l5

namespace Module
/-- WIDTH ≠ 0 and OFF = 0. -/
def inService (x : Module) : Bool := x.width != 0 && !x.off
/-- The sum of both directions' REPLAYS. -/
def repl (x : Module) : Nat := (x.replays[0] + x.replays[1]).toNat
/-- Bits set in a register. -/
def ones {n : Nat} (v : BitVec n) : Nat := ((upto n).filter fun i => v.getLsbD i).length
/-- Spare lanes of a direction beyond what its retirements use, below 0 when they do not suffice. -/
def left (x : Module) (d : Fin 2) : Int := 4 - (ones x.retired[d] : Int) - (ones x.retsp[d] : Int)
/-- Data lanes in service after the retirements (R400). -/
def widthOf (x : Module) : Nat :=
  let r := x.retired[0] ||| x.retired[1]
  if 0 ≤ x.left 0 ∧ 0 ≤ x.left 1 then 64
  else if r.extractLsb' 0 32 = 0 ∨ r.extractLsb' 32 32 = 0 then 32
  else 0
/-- SPARES: the lesser of the two directions. -/
def sparesOf (x : Module) : Nat := (max 0 (min (x.left 0) (x.left 1))).toNat
/-- A lane of a direction retired: a data lane, or spare lane `lane - 64`. -/
def retire (x : Module) (p : Nat × Nat) : Module :=
  let d : Fin 2 := if p.1 = 0 then 0 else 1
  if p.2 < 64 then { x with retired := x.retired.set d (x.retired[d] ||| 1#64 <<< p.2) }
  else { x with retsp := x.retsp.set d (x.retsp[d] ||| 1#4 <<< (p.2 - 64)) }
/-- A rate change may begin: no change is pending but a lane retirement, which it takes along (Table 21-7). -/
def mayJoin (x : Module) : Bool := x.change = 0 || (x.change = 3 && !x.quiesce)
/-- An automatic step-down (R403): it takes the place of a rate change that is pending, and follows one that runs. -/
def stepsDown (x : Module) : Module :=
  let x := { x with trate := x.rate - 1 }
  if x.mayJoin || (x.change = 1 && !x.quiesce) then { x with change := 5 } else { x with stepDown := true }
/-- A training opens a new replay window in each direction. -/
def freshWindow (x : Module) : Module :=
  { x with winFlits := Vector.replicate 2 0, winReplays := Vector.replicate 2 0, winReported := Vector.replicate 2 false }
end Module

/-- Modules in service (Table 21-4, INSVC). -/
def State.insvc (s : State) : Nat := (s.mods.toList.filter Module.inService).length

/-- A report of module m with a reason, its rate before the event being `rateo` (R402). -/
def State.modReport (s : State) (m reason : Nat) (rateo : BitVec 3) : State :=
  let x := s.mod m
  State.shSignal ((s.mapMod m fun x => { x with deg := true }).linkReport 0
    (linkRecord 0x1B 0 m reason x.rate.toNat rateo.toNat x.width.toNat x.repl))

/-! ## Loss of the pair (R404) -/

/-- Transfers of tokens that can no longer be delivered go back to their givers (R370). -/
def State.failTransfers (s : State) : State :=
  (s.toksWhere fun t => t.state == tokTransit && s.cutOff t.giver t.holder).foldl State.undeliver s

/-- Die 1's sequencers run no queue while the pair is lost: their queues are READY again. -/
def State.clearDie1 (s : State) : State :=
  (s.seqs.filter fun p => decide (32 ≤ p.1)).foldl (fun s p => (s.release p.2).makeReady p.2) s

/-- INSVC has changed: the pair is lost when it is below MINMOD, and whole again when it is not. `m` is the module
whose departure is the cause. -/
def State.checkPair (s : State) (m : Nat) (rateo : BitVec 3) : State :=
  if s.insvc < s.minmod.toNat ∧ !s.shLost ∧ s.variant ≠ .l5 then
    let repl := s.mods.toList.foldl (fun n x => n + x.repl) 0
    let width := (s.mods.toList.filter Module.inService).foldl (fun n x => n + x.width.toNat) 0
    let s : State := { s with shLost := true
                              launches := s.launches.map fun l => if l.place = 3 then { l with dies := 1 } else l }
    let s := s.mapMod m fun x => { x with deg := true }
    let s := State.shSignal (s.linkReport 0 (linkRecord 0x19 1 m 6 0 rateo.toNat width repl))
    s.failTransfers.clearDie1
  else if s.minmod.toNat ≤ s.insvc then { s with shLost := false }
  else s

/-! ## Changes of a module (R397, Table 21-7) -/

/-- Modules that may carry entry h instead of module m: in service, up and not quiesced. -/
def State.carriers (s : State) (m : Nat) : List Nat :=
  (upto 16).filter fun i => i != m && (s.mod i).inService && !(s.mod i).quiesce

/-- Steering entries of module m with the modules they move to (R399): the part's own choice. -/
def State.moves (s : State) (m : Nat) : List (Nat × Nat) :=
  let cs := s.carriers m
  if cs.isEmpty then []
  else ((upto 64).filter fun h => s.steer.toList.getD h 0 == m).map fun h => (h, cs.getD (h % cs.length) 0)

/-- Step 1 of a pending change: the lowest pending module, when none is quiesced. -/
def State.startChange (s : State) : State :=
  if s.mods.toList.any Module.quiesce then s
  else
    match (upto 16).find? fun m => (s.mod m).change != 0 with
    | none => s
    | some m =>
      { s.mapMod m fun x => { x with quiesce := true, trained := false, retry := false, target := x.trate } with
        drains := if (s.mod m).change = 2 then [] else s.moves m }

/-- The change of module m is over; a target replaced meanwhile is applied by a further change. -/
def State.endChange (s : State) (m : Nat) : State :=
  (s.mapMod m fun x =>
    { x with quiesce := false, trained := false, retry := false, stepDown := false
             change := if x.off && x.width != 0 then 4
                       else if x.inService && x.trate != x.target && x.trate != x.rate then (if x.stepDown then 5 else 1)
                       else if x.inService && !x.pendingRet.isEmpty then 3 else 0 }).startChange

/-- Step 3: the module's own entries return, each after its drain. -/
def State.returnEntries (s : State) (m : Nat) : State :=
  let hs := (upto 64).filter fun h => h % 16 == m && s.steer.toList.getD h 0 != m
  let s := s.mapMod m fun x => { x with trained := true }
  if hs.isEmpty then s.endChange m else { s with drains := hs.map fun h => (h, m) }

/-- The module is out of service. -/
def State.moduleOut (s : State) (m : Nat) : State :=
  let rate := (s.mod m).rate
  let s := s.mapMod m fun x =>
    { x with width := 0, up := false, quiesce := false, trained := false, retry := false, change := 0, pendingRet := [],
             stepDown := false }
  ((s.modReport m 3 rate).checkPair m rate).startChange

/-- Step 1 is over when no drain is left: an OFF write is then complete. -/
def State.drained (s : State) (m : Nat) : State :=
  if !s.drains.isEmpty then s
  else if (s.mod m).trained then s.endChange m
  else if (s.mod m).change = 4 then s.moduleOut m
  else s

/-- Starts pending changes, and completes an OFF write that has nothing to drain. -/
def State.runChanges (s : State) : State :=
  let s := s.startChange
  match (upto 16).find? fun m => (s.mod m).quiesce with
  | some m => if (s.mod m).change = 4 then s.drained m else s
  | none => s

/-- A write of a module's register 0x008 (Table 21-3): discarded as a whole where its row forbids it. -/
def State.writeTrate (s : State) (m : Nat) (v : BitVec 64) : State :=
  let code : BitVec 3 := v.extractLsb' 0 3
  if v.extractLsb' 5 59 != 0 || decide (5 ≤ code.toNat) || (code != 0 && !s.oden) then s
  else
    let x := s.mod m
    let s := s.mapMod m fun x => { x with trate := code, autosd := v.getLsbD 3, off := v.getLsbD 4 }
    let s :=
      if !x.off && v.getLsbD 4 then
        if x.width = 0 then s
        else (s.mapMod m fun x => { x with change := if x.quiesce then x.change else 4 }).checkPair m x.rate
      else if x.off && !v.getLsbD 4 then
        s.mapMod m fun x => { x with width := 0, up := false, change := 2 }
      else if (s.mod m).inService && code != x.rate && x.mayJoin then s.mapMod m fun x => { x with change := 1 }
      else s
    s.runChanges

/-- The lanes and rate after a training (R400): the pending retirements apply. -/
def Module.train (x : Module) (rate : BitVec 3) : Module :=
  let y := x.pendingRet.foldl Module.retire x
  Module.freshWindow { y with rate := rate, width := BitVec.ofNat 7 y.widthOf, spares := BitVec.ofNat 3 y.sparesOf,
                              pendingRet := [], up := y.widthOf != 0 }

/-- A training ends, `ok` telling whether it succeeded at its rate (R397, R400, R403). -/
def State.trainingDone (s : State) (m : Nat) (ok : Bool) : State :=
  let x := s.mod m
  if x.change = 2 then
    let rate := if x.retry then x.rate else x.target
    if ok && (x.train rate).width != 0 then
      ((s.mapMod m fun x => x.train rate).checkPair m x.rate).returnEntries m
    else if !x.retry then s.mapMod m fun x => { x with retry := true, tfail := true }
    else
      let s := s.mapMod m fun x => { x with tfail := true, quiesce := false, retry := false, change := 0 }
      (s.modReport m 4 x.rate).startChange
  else
    let y := x.train (if ok && x.change != 3 then x.target else x.rate)
    if y.width = 0 || (x.change = 3 && !ok) then (s.mapMod m fun _ => { y with rate := x.rate }).moduleOut m
    else
      let s := s.mapMod m fun _ => if ok then y else { y with tfail := true }
      let s := if y.width.toNat < x.width.toNat then s.modReport m 2 x.rate else s
      let s := if !ok then s.modReport m 4 x.rate else if x.change = 5 then s.modReport m 5 x.rate else s
      s.returnEntries m

/-! ## Replay (R398, R402, R403) -/

/-- Flits of one replay window (R402). -/
def windowFlits : Nat := 2 ^ 24

/-- Module or Loom port of a flit row: numbers from 16 up are Loom ports. -/
def State.linkUp (s : State) (m : Nat) : Bool :=
  if m < 16 then s.hasMod m && (s.mod m).up && decide ((s.mod m).width != 0) else (s.ports.toList.getD (m - 16) {}).up

def State.mapPort (s : State) (p : Nat) (f : Port → Port) : State :=
  { s with ports := s.ports.mapIdx fun i x => if i = p then f x else x }
def State.port (s : State) (p : Nat) : Port := s.ports.toList.getD p {}
/-- Die of a Loom port. -/
def portDie (p : Nat) : Nat := p / 4

/-- A report of a Loom port. -/
def State.portReport (s : State) (p cause reason : Nat) : State :=
  let x := s.port p
  (s.mapPort p fun x => { x with deg := true }).linkReport (portDie p)
    (linkRecord cause 2 p reason 0 0 x.lanes.toNat x.replays.toNat)

/-- The direction of a receiving die. -/
def dir (d : Nat) : Fin 2 := if d = 0 then 0 else 1

/-- Flits delivered in the open window of a link's direction. -/
def State.winFlits (s : State) (m d : Nat) : Nat :=
  if m < 16 then (s.mod m).winFlits[dir d] else (s.port (m - 16)).winFlits

/-- A flit passes CRC at its receiver in sequence. On a Loom port a codeword that FEC corrected is counted. -/
def State.flitDelivered (s : State) (m d : Nat) : State :=
  if m < 16 then s.mapMod m fun x => { x with winFlits := x.winFlits.set (dir d) (x.winFlits[dir d] + 1) }
  else s.mapPort (m - 16) fun x =>
    { x with winFlits := x.winFlits + 1, fecce := if d = 1 then x.fecce + 1 else x.fecce }

/-- The window's replays pass LIMIT: a report with REASON 1, once a window, and the automatic step-down. -/
def State.checkCeiling (s : State) (m d : Nat) : State :=
  let x := s.mod m
  if x.limit != 0 && decide (x.limit.toNat < x.winReplays[dir d]) && !x.winReported[dir d] then
    let s := s.mapMod m fun x => { x with winReported := x.winReported.set (dir d) true }
    let s := s.modReport m 1 x.rate
    if x.autosd && x.rate != 0 then
      (s.mapMod m Module.stepsDown).runChanges
    else s
  else s

/-- A flit fails CRC: the receiver requests a replay. -/
def State.flitFailed (s : State) (m d : Nat) : State :=
  if m < 16 then
    (s.mapMod m fun x => { x with
      crcerr := x.crcerr.set (dir d) (x.crcerr[dir d] + 1), replays := x.replays.set (dir d) (x.replays[dir d] + 1)
      winReplays := x.winReplays.set (dir d) (x.winReplays[dir d] + 1) }).checkCeiling m d
  else
    let p := m - 16
    let s := s.mapPort p fun x => { x with fecue := x.fecue + 1, replays := x.replays + 1, winReplays := x.winReplays + 1 }
    let x := s.port p
    if x.limit != 0 && decide (x.limit.toNat < x.winReplays) && !x.winReported then
      (s.mapPort p fun x => { x with winReported := true }).portReport p 0x1B 1
    else s

/-- The next window opens. -/
def State.nextWindow (s : State) (m d : Nat) : State :=
  if m < 16 then s.mapMod m fun x => { x with
    winFlits := x.winFlits.set (dir d) 0, winReplays := x.winReplays.set (dir d) 0
    winReported := x.winReported.set (dir d) false }
  else s.mapPort (m - 16) fun x => { x with winFlits := 0, winReplays := 0, winReported := false }

/-! ## Lane retirement and mainband loss (R400, R401) -/

/-- A lane of module m that is in use. -/
def Module.laneIn (x : Module) (d lane : Nat) : Bool :=
  !x.pendingRet.contains (d, lane)
    && (if lane < 64 then !x.retired[dir d].getLsbD lane else decide (lane < 68) && !x.retsp[dir d].getLsbD (lane - 64))

/-- A module loses its mainband: its entries move without a drain. -/
def State.lossOf (s : State) (m : Nat) : State :=
  let cs := s.carriers m
  let next := fun h => cs.getD (h % cs.length) m
  let s : State := { s with
    steer := s.steer.mapIdx fun h x => if x = m && !cs.isEmpty then next h else x
    drains := if (s.mod m).quiesce then [] else s.drains.map fun p => if p.2 = m then (p.1, next p.1) else p }
  s.moduleOut m

/-! ## Loom (R405) -/

/-- Ports a variant lacks (R394). -/
def State.hasPort (s : State) (p : Nat) : Bool :=
  match s.variant with
  | .l9 => decide (p < 8)
  | .l7 => p == 0 || p == 1 || p == 4 || p == 5
  | .l5 => decide (p < 4)

/-- Node n has a port that is UP. -/
def State.routed (s : State) (n : Nat) : Bool := (upto 8).any fun p => (lookup 0 s.lroute n).getLsbD p && (s.port p).up

/-- Nodes that port p alone served are reported as lost, and their token transfers fail. -/
def State.lostRoutes (s : State) (p : Nat) : State :=
  let lost := (s.lroute.filter fun r => r.2.getLsbD p && !s.routed r.1)
  (lost.foldl (fun s _ => s.portReport p 0x19 6) s).failTransfers

/-- A write of a port's EN: a port that is not enabled carries nothing, and trains anew once it is enabled again (R423,
notes/assumptions/35.md). -/
def State.portEn (s : State) (p : Nat) (on : Bool) : State :=
  let down := (s.port p).up && !on
  let s := s.mapPort p fun x => { x with en := on, up := x.up && on, lanes := if down then 0 else x.lanes }
  if down then s.lostRoutes p else s

/-- A port runs at fewer lanes, or goes down. -/
def State.loomLoss (s : State) (p width : Nat) : State :=
  let s := s.mapPort p fun x => { x with lanes := BitVec.ofNat 4 width, up := width != 0 }
  if width = 0 then (s.portReport p 0x1B 3).lostRoutes p else s.portReport p 0x1B 2

/-! ## The rows -/

def execTrate (m : Nat) (v : BitVec 64) (s : State) : Out := .next (if s.hasMod m then s.writeTrate m v else s)

/-- A register 0x008 value with OFF as given and the other fields as they stand. -/
def Module.ctl (x : Module) (off : Bool) : BitVec 64 :=
  BitVec.ofNat 64 (x.trate.toNat + 8 * bit x.autosd + 16 * bit off)

def execModuleOff (m : Nat) (s : State) : Out :=
  if s.hasMod m && !(s.mod m).off then .next (s.writeTrate m ((s.mod m).ctl true))
  else .refused (.notEnabled "OFF")
def execModuleOffReturn (m : Nat) (s : State) : Out :=
  if s.hasMod m && (s.mod m).off then .next (s.writeTrate m ((s.mod m).ctl false))
  else .refused (.notEnabled "OFF_RETURN")

def execFlitDelivery (m d : Nat) (s : State) : Out :=
  if s.linkUp m && decide (s.winFlits m d < windowFlits) then .next (s.flitDelivered m d)
  else .refused (.notEnabled "FLIT_DELIVERY")
def execFlitCrcError (m d : Nat) (s : State) : Out :=
  if s.linkUp m then .next (s.flitFailed m d) else .refused (.notEnabled "FLIT_CRC_ERROR")
def execReplayWindowClose (m d : Nat) (s : State) : Out :=
  if s.linkUp m && s.winFlits m d == windowFlits then .next (s.nextWindow m d)
  else .refused (.notEnabled "REPLAY_WINDOW_CLOSE")

/-- An entry whose old module has delivered everything moves (R399). -/
def execSteeringDrain (h : Nat) (s : State) : Out :=
  match s.drains.find? fun p => p.1 == h, (upto 16).find? fun m => (s.mod m).quiesce with
  | some p, some m =>
    .next (State.drained { s with steer := s.steer.mapIdx fun i x => if i = h then p.2 else x,
                                  drains := s.drains.filter fun q => q.1 != h } m)
  | _, _ => .refused (.notEnabled "STEERING_DRAIN")

def execTrainingComplete (m : Nat) (ok : Bool) (s : State) : Out :=
  let x := s.mod m
  if s.hasMod m && x.quiesce && !x.trained && x.change != 4 && s.drains.isEmpty then .next (s.trainingDone m ok)
  else .refused (.notEnabled "TRAINING_COMPLETE")

def execLaneRetirement (m d lane : Nat) (s : State) : Out :=
  if s.hasMod m && (s.mod m).inService && (s.mod m).laneIn d lane && decide (d < 2) then
    .next (s.mapMod m fun x => { x with
      pendingRet := x.pendingRet ++ [(d, lane)], change := if x.change = 0 then 3 else x.change }).runChanges
  else .refused (.notEnabled "LANE_RETIREMENT")

def execMainbandLoss (m : Nat) (s : State) : Out :=
  if s.hasMod m && (s.mod m).width != 0 then .next (s.lossOf m) else .refused (.notEnabled "MAINBAND_LOSS")

def execLoomLaneLoss (p width : Nat) (s : State) : Out :=
  if s.hasPort p && (s.port p).up && (width == 0 || width == 4) && decide (width < (s.port p).lanes.toNat) then
    .next (s.loomLoss p width)
  else .refused (.notEnabled "LOOM_LANE_LOSS")

/-- A port trains: its lanes are in service, and the far node is known. -/
def execLoomPortTrained (p : Nat) (peer : BitVec 8) (s : State) : Out :=
  if s.hasPort p && (s.port p).en && !(s.port p).up then
    .next (s.mapPort p fun x => { x with
      lanes := 8, up := true, peer := peer, winFlits := 0, winReplays := 0, winReported := false })
  else .refused (.notEnabled "LOOM_PORT_TRAINED")

/-- An uncorrectable PCIe link event: the report's bytes [7:2] are the event's, and its REPL is free. -/
def execPcieLinkEvent (detail : BitVec 64) (s : State) : Out :=
  let r := s.free
  .next (r.2.linkReport 0 (0x1B + 3 <<< 8 + (detail.toNat % 2 ^ 48) <<< 16 + r.1.toNat <<< 64))

end Sys2Proof.Machine
end

