-- ==== Sys2Proof/Machine/Window.lean ====
section
/-!
DEFINITION. Sys2Proof/Machine/Window.lean: the register windows (R394, Table 21-1): reads and writes of one naturally
aligned register of 8 bytes.
-/

namespace Sys2Proof.Machine

/-! ## The registers of a unit -/

/-- A read of a Shuttle module's register (Table 21-3). -/
def Module.read (x : Module) (off : Nat) : Nat :=
  match off with
  | 0x000 => x.rate.toNat + x.width.toNat <<< 4 + x.spares.toNat <<< 11 + bit x.up <<< 14 + bit x.quiesce <<< 15
      + bit x.tfail <<< 16 + bit x.deg <<< 17
  | 0x008 => x.trate.toNat + bit x.autosd <<< 3 + bit x.off <<< 4
  | 0x010 => x.limit.toNat
  | 0x018 => x.replays[0].toNat
  | 0x020 => x.replays[1].toNat
  | 0x028 => x.crcerr[0].toNat
  | 0x030 => x.crcerr[1].toNat
  | 0x038 => x.retired[0].toNat
  | 0x040 => x.retired[1].toNat
  | 0x048 => x.retsp[0].toNat + x.retsp[1].toNat <<< 8
  | _ => 0

/-- A write of a Shuttle module's register: reserved bits that are non-zero discard it as a whole. -/
def State.writeModule (s : State) (m off : Nat) (v : BitVec 64) : State :=
  match off with
  | 0x000 =>
    if v &&& 0xFFFFFFFFFFFC0008#64 != 0 then s
    else s.mapMod m fun x => { x with tfail := x.tfail && !v.getLsbD 16, deg := x.deg && !v.getLsbD 17 }
  | 0x008 => s.writeTrate m v
  | 0x010 => if v.extractLsb' 32 32 != 0 then s else s.mapMod m fun x => { x with limit := v.extractLsb' 0 32 }
  | _ => s

/-- SHCTL (Table 21-4). -/
def State.shctl (s : State) : Nat :=
  s.minmod.toNat + bit s.oden <<< 5 + s.shEvn.toNat <<< 16 + bit s.shEven <<< 32 + s.insvc <<< 33 + bit s.shLost <<< 38

/-- A write of SHCTL. -/
def State.writeShctl (s : State) (v : BitVec 64) : State :=
  let m : BitVec 5 := v.extractLsb' 0 5
  if v &&& 0xFFFFFF800000FFC0#64 != 0 || m = 0 || decide (16 < m.toNat) then s
  else
    State.checkPair { s with minmod := m, oden := v.getLsbD 5, shEvn := v.extractLsb' 16 16, shEven := v.getLsbD 32 } 0 0

/-- A read of a Loom port's register (Table 21-6). -/
def Port.read (x : Port) (off : Nat) : Nat :=
  match off with
  | 0x000 => x.lanes.toNat + bit x.up <<< 4 + bit x.deg <<< 5 + x.peer.toNat <<< 8
  | 0x008 => bit x.en
  | 0x010 => x.fecce.toNat
  | 0x018 => x.fecue.toNat
  | 0x020 => x.replays.toNat
  | 0x028 => x.limit.toNat
  | _ => 0

/-- A write of a Loom port's register. -/
def State.writePort (s : State) (p off : Nat) (v : BitVec 64) : State :=
  match off with
  | 0x000 => if v &&& 0xFFFFFFFFFFFF00C0#64 != 0 then s else s.mapPort p fun x => { x with deg := x.deg && !v.getLsbD 5 }
  | 0x008 => if v.extractLsb' 1 63 != 0 then s else s.portEn p (v.getLsbD 0)
  | 0x028 => if v.extractLsb' 32 32 != 0 then s else s.mapPort p fun x => { x with limit := v.extractLsb' 0 32 }
  | _ => s

/-- A write of LROUTE n: a bit of an absent port is reserved. -/
def State.writeRoute (s : State) (n : Nat) (v : BitVec 64) : State :=
  if v.extractLsb' 8 56 != 0 || (upto 8).any (fun p => v.getLsbD p && !s.hasPort p) then s
  else { s with lroute := (s.lroute.filter fun r => r.1 != n)
                          ++ (if v = 0 then [] else [(n, v.extractLsb' 0 8)]) }

/-! ## The windows -/

/-- What an offset of the register space names (Table 21-1). -/
inductive Reg where
  | notice (q off : Nat)
  | shuttle (m off : Nat)
  | shctl
  | loom (p off : Nat)
  | route (n : Nat)
  | none
  deriving DecidableEq, Repr

/-- The register at an offset of the part's node. -/
def State.regAt (s : State) (off : Nat) : Reg :=
  if off < 0xF00008000000 then (if 0xF00000000000 ≤ off then .notice (off / 4096 % 32768) (off % 4096) else .none)
  else if 0xF10000000000 ≤ off ∧ off < 0xF10000010000 then
    (if s.variant = .l5 then .none else .shuttle (off / 4096 % 16) (off % 4096))
  else if off = 0xF10100000000 then (if s.variant = .l5 then .none else .shctl)
  else if 0xF20000000000 ≤ off ∧ off < 0xF20000008000 then
    (if s.hasPort (off / 4096 % 8) then .loom (off / 4096 % 8) (off % 4096) else .none)
  else if 0xF20100000000 ≤ off ∧ off < 0xF20100000000 + 255 * 8 ∧ off % 8 = 0 then .route ((off - 0xF20100000000) / 8)
  else .none

/-- A read of the register at an offset. -/
def State.winRead (s : State) (off : Nat) : BitVec 64 :=
  match s.regAt off with
  | .notice q o => s.readNotice q o
  | .shuttle m o => BitVec.ofNat 64 ((s.mod m).read o)
  | .shctl => BitVec.ofNat 64 s.shctl
  | .loom p o => BitVec.ofNat 64 ((s.port p).read o)
  | .route n => (lookup 0 s.lroute n).setWidth 64
  | .none => 0

/-- A write of the register at an offset. -/
def State.winWrite (s : State) (off : Nat) (v : BitVec 64) : State :=
  match s.regAt off with
  | .notice q o => s.writeNotice q o v
  | .shuttle m o => s.writeModule m o v
  | .shctl => s.writeShctl v
  | .loom p o => s.writePort p o v
  | .route n => s.writeRoute n v
  | .none => s

/-- Any access to a window: one that is not a naturally aligned access of 8 bytes reads 0 and writes nothing. -/
def State.winLoad (s : State) (pa n : Nat) : BitVec 64 :=
  if n = 8 ∧ pa % 8 = 0 then s.winRead (pa % 2 ^ 48) else 0
def State.winStore (s : State) (pa n : Nat) (v : BitVec 64) : State :=
  if n = 8 ∧ pa % 8 = 0 then s.winWrite (pa % 2 ^ 48) v else s

/-- A write of a register without behaviour of its own; no register stands at an address that R359 leaves empty. -/
def execRegisterWrite (pa : Nat) (v : BitVec 64) (s : State) : Out :=
  if s.target pa = .nothing then .fault (.unmapped pa) else .next (s.winStore pa 8 v)

end Sys2Proof.Machine
end

