-- ==== Sys2Proof/Machine/ScalarMem.lean ====
section
/-!
DEFINITION. Sys2Proof/Machine/ScalarMem.lean: what the entries of ld, st, lda, sta and pref do (R151 to R153).
-/

namespace Sys2Proof.Machine

/-- off13, or the 37-bit combined value under a prefix (R120). -/
def cmOffset (o : BitVec 13) (x : Pfx) : Int :=
  match x with
  | none => o.toInt
  | some p => (p.extractLsb' 0 24 ++ o).toInt

/-- The effective address (R151). -/
def cmAddr (a : Addr) (o : BitVec 13) (x : Pfx) (width : Nat) : Addr := a + BitVec.ofInt 72 (cmOffset o x * width)

/-- A qualified access: its order is .acq or .rel (R152). -/
def cmAcc (write : Bool) (x : Pfx) : Acc := { write := write, scalar := true, qual := Pfx.order x != 0 }

/-- The limit of the stack: LIMIT << 16, none where SPLIM is 0 (R138, Table 15-2). -/
def Ctx.stackLimit (c : Ctx) : Option Nat := if c.splim = 0 then none else some ((c.splim.extractLsb' 8 56).toNat * 65536)

/-- A value that A15 may not take (R138). -/
def Ctx.stackBad (c : Ctx) (d : BitVec 4) (v : Addr) : Bool :=
  d == 15 && c.stackLimit.any fun l => decide (v.toNat < l)

/-- A fault of a scalar access: precise at its entry, nothing performed (R151). -/
def cmFault (c : Cause) (va : Addr) (write : Bool) (s : State) : Eff := .trap { cause := c, va := some va, wr := write } 0 s

/-- The check of a scalar access and its body over the physical pieces and the class. A .rel store waits for every copy
of the issuer (R109), another access for the copies it overlaps (R22). -/
def withScalar (x : Pfx) (write : Bool) (va : Addr) (n : Nat) (s : State)
    (body : List (Nat × Nat) → Nat → State → Eff) : Eff :=
  match s.vaCheck (s.party (cmAcc write x)) n [] { va := va, n := n } with
  | (.fault c _, _, s) => cmFault c va write s
  | (.wait v, _, s) => .block { kind := .token, addr := v } s
  | (.stall, _, s) => .block {} s
  | (.ok ps cls, _, s) =>
    afterCopies (fun c => (write && Pfx.order x != 0) || c.meets false write va.toNat (va.toNat + n)) s <|
      match s.dataFault (!write) ps with
      | some c => cmFault c va write s
      | none => body ps cls s

/-! ## The scalar data cache and the home slices (R79, R80) -/

/-- Lines that the model's data cache holds: the newest (notes/assumptions/50.md). -/
def dataLines : Nat := 256

/-- The cache with a line in front; a line it held stays dirty. -/
def fitLine (ls : List DLine) (x : DLine) : List DLine :=
  let same := fun (y : DLine) => y.pa == x.pa && y.asid == x.asid && y.va == x.va
  ({ x with dirty := x.dirty || (ls.find? same).any DLine.dirty } :: ls.filter fun y => !same y).take dataLines

/-- The data cache takes the lines of an access to an OWNED or SHARED page; a store makes them dirty (R80). -/
def State.fillData (s : State) (va : Addr) (n : Nat) (ps : List (Nat × Nat)) (cls : Nat) (dirty : Bool) : State :=
  if 2 ≤ cls then s
  else
    let lines := ((pieces va n).zip ps).flatMap fun q =>
      (upto ((q.2.1 + q.2.2 - 1) / 256 + 1 - q.2.1 / 256)).map fun i =>
        ({ pa := q.2.1 / 256 + i, asid := s.ctx.asid, va := q.1.1.toNat / 256 + i, owned := cls == 0,
           dirty := dirty } : DLine)
    { s with core := { s.core with dcache := lines.foldl fitLine s.core.dcache } }

/-- The home slice of a line of local HBM holds it; no other memory is held in L2 (R79). -/
def State.fillL2 (s : State) (pa : Nat) : State :=
  if s.inHbm pa then { s with l2 := if s.l2.contains (pa / 256) then s.l2 else pa / 256 :: s.l2 } else s

/-- The window register a DEVICE access names, or none for memory. -/
def State.windowOf (s : State) (ps : List (Nat × Nat)) (cls : Nat) : Option Nat :=
  match ps with
  | [p] => if cls = 3 ∧ s.target p.1 = .window then some p.1 else none
  | _ => none

/-- The value of `n` checked bytes: memory, or a register. -/
def State.scalarRead (s : State) (ps : List (Nat × Nat)) (cls n : Nat) : Nat :=
  match s.windowOf ps cls with
  | some pa => (s.winLoad pa n).toNat
  | none => s.rdPieces ps

/-- The low bits of a value sign-extended to 64. -/
def sext64 (w v : Nat) : GWord := BitVec.ofInt 64 (toSigned w v)

/-- ld (R151). -/
def effLd (g : BitVec 5) (size : BitVec 2) (o : BitVec 13) (x : Pfx) (t : TiqEntry) (s : State) : Eff :=
  let n := 2 ^ size.toNat
  withScalar x false (cmAddr t.aop o x n) n s fun ps cls s =>
    .done ((s.fillData (cmAddr t.aop o x n) n ps cls false).mapCtx fun c =>
      c.setG g (BitVec.ofNat 64 (s.scalarRead ps cls n)))

/-- ld.s8, ld.s16, ld.s32. -/
def effLdS (g : BitVec 5) (size : BitVec 2) (o : BitVec 13) (x : Pfx) (t : TiqEntry) (s : State) : Eff :=
  let n := 2 ^ size.toNat
  withScalar x false (cmAddr t.aop o x n) n s fun ps cls s =>
    .done ((s.fillData (cmAddr t.aop o x n) n ps cls false).mapCtx fun c =>
      c.setG g (sext64 (8 * n) (s.scalarRead ps cls n)))

/-- A store of `n` bytes: its page's D, the poison it clears, the DMR signature, and the side effect unless the page is
DEVICE (R29, R237, R381, R390). -/
def scalarStore (x : Pfx) (va : Addr) (n v : Nat) (s : State) : Eff :=
  withScalar x true va n s fun ps cls s =>
    match s.windowOf ps cls with
    | some pa => .done (s.winStore pa n (BitVec.ofNat 64 v))
    | none =>
      let s := ((s.wrPieces ps v).clearPoison ps).commitPages (s.party (cmAcc true x)) [{ va := va, n := n }]
      let s := (s.sign va n v).fillData va n ps cls true
      .done (if cls = 3 then s else s.sideEffect)

/-- st. -/
def effSt (size : BitVec 2) (o : BitVec 13) (x : Pfx) (t : TiqEntry) (s : State) : Eff :=
  let n := 2 ^ size.toNat
  scalarStore x (cmAddr t.aop o x n) n (t.g0.toNat % 2 ^ (8 * n)) s

/-- lda: bytes 0 to 8 of the slot; A15 below the stack limit is not written (R138). The limit is that of the unit's fetch, since a
write of SPLIM governs the units fetched after it (R154; DEDUCED, notes/assumptions/54.md). -/
def effLda (g : BitVec 5) (o : BitVec 13) (x : Pfx) (t : TiqEntry) (s : State) : Eff :=
  withScalar x false (cmAddr t.aop o x 16) 16 s fun ps cls s =>
    let v := BitVec.ofNat 72 (s.scalarRead ps cls 16)
    if ({ s.ctx with splim := t.splim } : Ctx).stackBad (aIdx g) v then .trap { cause := .stackLimit } 0 s
    else .done ((s.fillData (cmAddr t.aop o x 16) 16 ps cls false).mapCtx fun c => c.setA (aIdx g) v)

/-- sta: the slot layout of R35, bytes 9 to 15 zero. -/
def effSta (o : BitVec 13) (x : Pfx) (t : TiqEntry) (s : State) : Eff :=
  scalarStore x (cmAddr t.aop o x 16) 16 (addrSlot t.aop2) s

/-- The issuer holds the token of an OWNED page. -/
def State.holdsPage (s : State) (l : Leaf) (va : Addr) : Bool :=
  match s.governing s.ctx.asid l.tri va.toNat with
  | some i => s.ctx.ids.contains (s.tok i).holder && ((s.tok i).state == tokHeld || (s.tok i).state == tokShared)
  | none => false

/-- pref: the line goes to the data cache, or under hint 1 to its home slice alone; where R153 says that it does nothing,
and of a poisoned line (R381), the state is as before. -/
def effPref (hint : BitVec 5) (size : BitVec 2) (o : BitVec 13) (x : Pfx) (t : TiqEntry) (s : State) : Eff :=
  let va := cmAddr t.aop o x (2 ^ size.toNat)
  match s.translate s.ctx.asid va with
  | (none, _) => .done s
  | (some (l, _, sz), s') =>
    let pa := leafPa l sz va
    if decide (2 ≤ l.cls) || (l.cls = 0 && !s.holdsPage l va) || (hint == 1 && s.target pa == .host)
        || s.isPoisoned (pa / 256 * 256) 256 then .done s
    else if hint = 1 then .done (s'.fillL2 pa)
    else .done ((s'.fillL2 pa).fillData va 1 [(pa, 1)] l.cls false)

end Sys2Proof.Machine
end

