-- ==== Sys2Proof/Machine/TileMem.lean ====
section
/-!
DEFINITION. Sys2Proof/Machine/TileMem.lean: tile loads and stores, gathers and scatters, multicast loads, and the
cluster scratchpad (R234 to R244, R249).
-/

namespace Sys2Proof.Machine

/-! ## Addresses and access kinds -/

/-- What a tile memory row's ordering byte makes of its access (R233). -/
def memAcc (f : TileFields) (write : Bool) : Acc :=
  let o := (f.order).toNat
  { write := write, qual := decide (1 ≤ o ∧ o ≤ 3), ord := o == 4 }

/-- A release waits for every copy of the issuer (R109); other accesses for those they overlap. -/
def gate (f : TileFields) (write : Bool) (xs : List MElem) (s : State) (body : Eff) : Eff :=
  if f.order == 2 || f.order == 3 then afterCopies (fun _ => true) s body
  else
    let r := vaRange xs
    afterRange false write r.1 r.2 s body

/-- Base of tld and tst: A[as] + (G[gs] << SCL) + sext(offset), modulo 2^72 (R234). -/
def memBase (f : TileFields) (t : TiqEntry) : Addr :=
  t.aop + (t.g0.setWidth 72 <<< (f.md.extractLsb' 0 2).toNat) + BitVec.ofInt 72 f.offset

/-- The pitch: G[tb] as s64, or the dense pitch when tb names G0 (R234). -/
def memPitch (f : TileFields) (t : TiqEntry) (sr : Sr) : Int := if f.tb = 0 then (sr.densePitch : Int) else t.g1.toInt

/-- The address of a byte of a line. -/
def linePlace (base : Addr) (pitch : Int) (l b : Nat) : Addr × Int := (base + BitVec.ofInt 72 (l * pitch + b), 0)

/-- Base or pitch off the alignment of R234. -/
def baseOff (sr : Sr) (base : Addr) (pitch : Int) : Bool :=
  base.toNat % sr.memAlign != 0 || (sr.flat && pitch % (sr.memAlign : Int) != 0)

/-- MISALIGNED before any element is accessed. -/
def baseTrap (tile : BitVec 5) (write : Bool) (base : Addr) (s : State) : Eff :=
  .trap { cause := .misaligned, va := some base, tile := some tile, wr := write } s.ctx.tes.toNat s

/-! ## tld, tst, tst.nfz -/

/-- The elements of a tile in generic memory. -/
def State.vaElems (s : State) (name : BitVec 5) (t : Tile) (base : Addr) (pitch : Int) : List MElem :=
  tileElems t (s.er [name]) (s.ec [name]) s.xc (linePlace base pitch)

/-- A tile load of the lines at `base` and `pitch` (R234, R238). -/
def effLoad (f : TileFields) (s : State) (base : Addr) (pitch : Int) : Eff :=
  let t := s.loadBase f.td
  if baseOff t.sr base pitch then baseTrap f.td false base s
  else
    let xs := s.vaElems f.td t base pitch
    gate f false xs s <|
      loadEff false f.td (loadVa (s.party (memAcc f false)) 1 putElem (s.fromTes xs) [] t s)

/-- tld (R238). -/
def effTld (f : TileFields) (t : TiqEntry) (s : State) : Eff :=
  withTiles s [{ name := f.td, layouts := 15, scaled := true }] <|
    effLoad f s (memBase f t) (memPitch f t (s.ctx.tile f.td).sr)

/-- A tile store of the lines at `base` and `pitch`, and what follows it (R235, R238). -/
def effStore (f : TileFields) (s : State) (src : Tile) (base : Addr) (pitch : Int) (fin : State → Eff) : Eff :=
  if baseOff src.sr base pitch then baseTrap f.ta true base s
  else
    let xs := s.vaElems f.ta src base pitch
    gate f true xs s <|
      storeEff false f.ta fin
        (storeChunks (s.party (memAcc f true)) 1 (linesOverlap src.sr pitch) (chunks (s.fromTes xs)) s)

/-- tst (R238). -/
def effTst (f : TileFields) (t : TiqEntry) (s : State) : Eff :=
  withTiles s [{ name := f.ta, layouts := 15, scaled := true }] <|
    effStore f s (s.ctx.tile f.ta) (memBase f t) (memPitch f t (s.ctx.tile f.ta).sr) fun s => .done s.sideEffect

/-- An element is NaN or infinite in its format, its scale not applied (R239). -/
def nonFinite (fmt x : Nat) : Bool :=
  match decodeElem fmt x with
  | .flt v => v.isNan || v.isInf
  | .int _ => false

/-- A tile with the non-finite values of an extent, or of a sparse-12 footprint, made all-zero bits, and how many there
were (R239). -/
def scrub (t : Tile) (er ec : Nat) : Tile × Nat :=
  match t.sr.layout with
  | 3 =>
    (extent (t.sr.rows * (t.sr.cols / 12)) t.sr.spn).foldl (fun (st : Tile × Nat) p =>
      let pos := 8 * (p.1 * (t.sr.sparseV + 2)) + t.sr.w * p.2
      if nonFinite t.sr.fmt (getBits t.slot pos t.sr.w) then
        ({ st.1 with slot := putBits st.1.slot pos t.sr.w 0 }, st.2 + 1)
      else st) (t, 0)
  | 2 => (t, 0)
  | _ =>
    (extent er ec).foldl (fun (st : Tile × Nat) p =>
      if nonFinite t.sr.fmt (t.get p.1 p.2) then (st.1.put p.1 p.2 0, st.2 + 1) else st) (t, 0)

/-- tst.nfz (R239): the cell is checked first, and the add is made after the last element. -/
def effTstNfz (f : TileFields) (t : TiqEntry) (s : State) : Eff :=
  withTiles s [{ name := f.ta, layouts := 15, scaled := true }] <|
    withCell s t.aop2 fun ps s => afterRange false true t.aop2.toNat (t.aop2.toNat + 8) s <|
      let q := scrub (s.ctx.tile f.ta) (s.er [f.ta]) (s.ec [f.ta])
      effStore f s q.1 (memBase f t) (memPitch f t q.1.sr) fun s =>
        .done (if q.2 = 0 then s else s.addCell t.aop2 ps q.2).sideEffect

/-! ## Gathers and scatters -/

/-- An index element as an integer: signed for s32 and s64 (R240). -/
def indexOf (t : Tile) (r c : Nat) : Int := match t.src false r c with | .int z => z | .flt _ => 0

/-- Index formats: s32, s64, n16, n32. -/
def indexFmt (c : Nat) : Bool := c == 9 || c == 0xA || c == 0x14 || c == 0x15

/-- The data formats of a gather or scatter: w of 8 to 64, not mask or bit-plane (R240). -/
def gatherFmt (sr : Sr) : Bool :=
  (sr.w == 8 || sr.w == 16 || sr.w == 32 || sr.w == 64) && sr.fmt != 0x12 && sr.fmt != 0x13

/-- MSK of tldg and tstg. -/
def msk (f : TileFields) : Bool := f.md.getLsbD 3

/-- The elements of a gather or scatter that its mask admits, each at its own address. -/
def State.gatherElems (s : State) (t : Tile) (idx : Tile) (mask : Option Tile) (base : Addr)
    (scl : Nat) (names : List (BitVec 5)) : List MElem :=
  (((extent (s.er names) (s.ec names))).filter fun q =>
    match mask with | some m => m.get q.1 q.2 % 2 == 1 | none => true).map fun q =>
      let va := base + BitVec.ofInt 72 (indexOf idx q.1 q.2 * 2 ^ scl)
      { row := q.1, col := q.2, e := s.elemNo q.1 q.2, va := va, n := t.sr.w / 8, w := t.sr.w,
        line := s.elemNo q.1 q.2, v := t.get q.1 q.2 }

/-- Checks of R240, conditions of its entry (R161, check 6), and the body over the elements. -/
def effGather (f : TileFields) (t : TiqEntry) (s : State) (data : BitVec 5)
    (body : List MElem → Eff) : Eff :=
  let names := [data, f.tb] ++ (if msk f then [f.tc] else [])
  withTiles s (names.map fun r => { name := r }) <|
    if !gatherFmt (s.ctx.tile data).sr then .shape data s
    else if !indexFmt (s.ctx.tile f.tb).sr.fmt then .shape f.tb s
    else if msk f && (s.ctx.tile f.tc).sr.fmt != 0x13 then .shape f.tc s
    else
      body (s.gatherElems (s.ctx.tile data) (s.ctx.tile f.tb) (if msk f then some (s.ctx.tile f.tc) else none)
        (t.aop + BitVec.ofInt 72 f.offset) (f.md.extractLsb' 0 3).toNat names)

/-- tldg (R240, R241). -/
def effTldg (f : TileFields) (t : TiqEntry) (s : State) : Eff :=
  effGather f t s f.td fun xs =>
    gate f false xs s <|
      loadEff false f.td (loadVa (s.party (memAcc f false)) ((s.ctx.tile f.td).sr.w / 8) putElem (s.fromTes xs) []
        (s.loadBase f.td) s)

/-- tstg (R240, R241). One whose mask admits no element retires a visible side effect as any other (DESIGN CHOICE,
notes/assumptions/54.md). -/
def effTstg (f : TileFields) (t : TiqEntry) (s : State) : Eff :=
  effGather f t s f.ta fun xs =>
    gate f true xs s <|
      storeEff false f.ta (fun s => .done s.sideEffect)
        (storeChunks (s.party (memAcc f true)) ((s.ctx.tile f.ta).sr.w / 8) (elemsOverlap xs)
          (chunks (s.fromTes xs)) s)

/-! ## tldm (R242 to R244) -/

/-- The issuer's position in its cluster pair. -/
def State.pairBit (s : State) : Nat := (s.core.cid.toNat / 8 % 2) * 8 + s.core.cid.toNat % 8
/-- The cluster pair of the issuer, over both dies. -/
def State.pairNo (s : State) : Nat := s.core.cid.toNat / 16

/-- The source lies in HBM of the issuer's die: every element's page does. -/
def State.onDie (s : State) (xs : List (MElem × List (Nat × Nat) × Nat)) : Bool :=
  xs.all fun x => x.2.1.all fun p => s.target p.1 == .hbm s.die

/-- The key of a request (R243): of one address space, and at the line that its base names. -/
def Merge.sameKey (a b : Merge) : Bool :=
  a.mtag == b.mtag && a.cmask == b.cmask && a.asid == b.asid && a.base == b.base && a.pa == b.pa && a.pitch == b.pitch
  && a.rows == b.rows && a.cols == b.cols && a.fmt == b.fmt && a.layout == b.layout && a.er == b.er && a.ec == b.ec

/-- Two requests meet in one home slice, of one cluster pair (R289). -/
def Merge.meets (a b : Merge) : Bool := a.die == b.die && a.slice == b.slice && a.pair == b.pair

/-- Every core that CMASK names has joined. -/
def Merge.full (m : Merge) : Bool := (upto 16).all fun i => !m.cmask.getLsbD i || m.joined.contains i

/-- The one read of an entry: the elements' bits up to the first that cannot be read, and its cause. -/
def readElems (s : State) : List (MElem × List (Nat × Nat) × Nat) → List Nat × Option Cause
  | [] => ([], none)
  | x :: xs =>
    match s.dataFault true x.2.1 with
    | some c => ([], some c)
    | none =>
      let r := readElems s xs
      ((s.rdPieces x.2.1 >>> x.1.sh) % 2 ^ x.1.w :: r.1, r.2)

/-- A merged request: it joins the open entry of its key or opens one, and is answered by that entry (R112, R243). It joins
whatever stores have come after the entry's read, even its own (DESIGN CHOICE, notes/assumptions/54.md). -/
def State.mergeJoin (s : State) (k : Merge) (xs : List (MElem × List (Nat × Nat) × Nat)) : Merge × State :=
  match s.merges.find? fun m => m.sameKey k && m.meets k with
  | some m =>
    let m' := { m with joined := s.pairBit :: m.joined }
    (m', { s with merges := (if m'.full then [] else [m']) ++ s.merges.filter (fun x => x != m) })
  | none =>
    let r := readElems s xs
    let m' := { k with joined := [s.pairBit], data := r.1, bad := r.2 }
    (m', { s with merges := (if m'.full then [] else [m']) ++ s.merges })

/-- The entry of a request whose elements lie in checked pieces. -/
def State.mergeKey (s : State) (f : TileFields) (g : GWord) (dst : Tile) (base : Addr) (pitch : Int)
    (xs : List (MElem × List (Nat × Nat) × Nat)) : Merge :=
  let pa := ((xs.head?.bind fun x => x.2.1.head?).map Prod.fst).getD 0
  { die := s.die, slice := homeSlice pa, asid := s.ctx.asid, pa := pa, mtag := g.extractLsb' 16 12,
    cmask := g.extractLsb' 0 16, pair := s.pairNo, base := base.toNat, pitch := (pitch % (2 ^ 64 : Int)).toNat,
    rows := dst.sr.rows, cols := dst.sr.cols, fmt := dst.sr.fmt, layout := dst.sr.layout, er := s.er [f.td],
    ec := s.ec [f.td] }

/-- tldm (R242): a target checks its own translation and token first; an error of the one read faults every target at its
lowest element that could not be read (R244). -/
def effTldm (f : TileFields) (t : TiqEntry) (s : State) : Eff :=
  withTiles s [{ name := f.td, layouts := 15, scaled := true }] <|
    if t.g0.extractLsb' 28 36 != 0 then .field s
    else
      let base := t.aop + BitVec.ofInt 72 f.offset
      let dst := s.loadBase f.td
      let pitch := memPitch f t dst.sr
      if baseOff dst.sr base pitch then baseTrap f.td false base s
      else
        let xs := s.vaElems f.td dst base pitch
        gate f false xs s <|
          match checkVa (s.party {}) 1 xs [] [] s with
          | .done (ws, _) s' =>
            let k := s.mergeKey f t.g0 dst base pitch ws
            let other := s.merges.any fun m => m.mtag == k.mtag && m.meets k && !m.sameKey k
            if s'.onDie ws && k.cmask.getLsbD s.pairBit && s.getSys s.die 0x838 != 0 && !other then
              let r := s'.mergeJoin k ws
              let q := (ws.zip r.1.data).foldl
                (fun t x => if s.ctx.tes.toNat ≤ x.1.1.e then putElem t x.1.1 x.2 else t) dst
              let bad := (ws.drop r.1.data.length).head?.bind fun x => r.1.bad.map fun c => (c, x.1)
              match bad with
              | some b => loadEff false f.td (.fault b.1 none b.2 q r.2)
              | none => .done (r.2.mapCtx fun c => c.putTile f.td q)
            else effLoad f s base pitch
          | _ => effLoad f s base pitch

/-! ## Cluster scratchpad (R249) -/

/-- The offset of a byte of a line, an exact integer. -/
def csPlace (f : TileFields) (t : TiqEntry) (sr : Sr) (l b : Nat) : Addr × Int :=
  (0, t.g0.toInt + f.offset + l * memPitch f t sr + b)

def State.csElems (s : State) (f : TileFields) (t : TiqEntry) (name : BitVec 5) : List MElem :=
  let x := s.ctx.tile name
  tileElems x (s.er [name]) (s.ec [name]) s.xc (csPlace f t x.sr)

/-- Under CHV, the latest copy of the channel holds back a byte its arrival pointer has not passed (R91). -/
def arriveMeets (c : Copy) (xs : List MElem) : Bool :=
  Desc.dcs c.desc && !c.finished &&
    (let ps := c.arrive
     let r := Desc.dstRange c.desc
     xs.any fun x => (upto x.n).any fun i =>
       let a := x.off + i
       decide (r.1 ≤ a) && decide (a < r.2) && decide (ps.getD (a.toNat / 8 % 64) 0 ≤ a.toNat))

/-- The copies that hold back a csld. -/
def csldMeets (f : TileFields) (s : State) (xs : List MElem) (c : Copy) : Bool :=
  let r := csRange xs
  if f.md.getLsbD 2 && c.ch == f.md.extractLsb' 0 2 then
    (if c.no = (s.ctx.chans[c.ch.toNat]'c.ch.isLt).no then arriveMeets c xs else c.meets true false r.1 r.2)
  else c.meets true false r.1 r.2

/-- csld (R249). -/
def effCsld (f : TileFields) (t : TiqEntry) (s : State) : Eff :=
  withTiles s [{ name := f.td, layouts := 15, scaled := true }] <|
    let xs := s.csElems f t f.td
    afterCopies (csldMeets f s xs) s <|
      loadEff true f.td (loadCs (s.ctx.tile f.td).sr.memAlign (s.fromTes xs) (s.loadBase f.td) s)

/-- csst (R249). -/
def effCsst (f : TileFields) (t : TiqEntry) (s : State) : Eff :=
  withTiles s [{ name := f.ta, layouts := 15, scaled := true }] <|
    let x := s.ctx.tile f.ta
    let xs := s.csElems f t f.ta
    let r := csRange xs
    afterRange true true r.1 r.2 s <|
      storeEff true f.ta (fun s => .done s.sideEffect)
        (storeCs x.sr.memAlign (linesOverlap x.sr (memPitch f t x.sr)) (s.fromTes xs) s)

end Sys2Proof.Machine
end

