-- ==== Sys2Proof/Machine/Sync.lean ====
section
/-!
DEFINITION. Sys2Proof/Machine/Sync.lean: futures (R28 to R30, R258), exchanges and messages (R188, R189, R250, R251),
barriers and fences (R252, R253), atomics (R254, R255).
-/

namespace Sys2Proof.Machine

/-! ## Home locations -/

/-- The check of an `n`-byte HOME location that an instruction reads and may write. -/
def withHome (a : Acc) (va : Addr) (n : Nat) (s : State) (body : List (Nat × Nat) → State → Eff) : Eff :=
  let trap := fun (c : Cause) (s : State) => Eff.trap { cause := c, va := some va, wr := a.write } s.ctx.tes.toNat s
  match s.vaCheck (s.party a) n [] { va := va, n := n } with
  | (.ok ps _, _, s) =>
    match s.dataFault true ps with
    | some c => trap c s
    | none => body ps s
  | (.fault c _, _, s) => trap c s
  | (.wait v, _, s) => .block { kind := .token, addr := v } s
  | (.stall, _, s) => .block {} s

/-- A write to a checked home location, with its dirty bit. -/
def State.putHome (s : State) (va : Addr) (ps : List (Nat × Nat)) (n v : Nat) : State :=
  (s.wrPieces ps v).commitPages (s.party {}) [{ va := va, n := n }]

/-! ## Futures (Table 01-3) -/

def cellEvt (c : Nat) : BitVec 16 := BitVec.ofNat 16 (getBits c 64 16)
def cellFull (c : Nat) : Bool := getBits c 80 8 != 0
def cellDeps (c : Nat) : Nat := getBits c 96 32

/-- futrd (R30). -/
def effFutrd (f : TileFields) (t : TiqEntry) (s : State) : Eff :=
  withHome { home := true } t.aop 16 s fun ps s => afterRange false true t.aop.toNat (t.aop.toNat + 16) s <|
    let c := s.rdPieces ps
    let w : Wait := { kind := .futrd, ev := cellEvt c, addr := t.aop }
    if s.waits .futrd then .block w s
    else if cellFull c then .done (s.mapCtx fun x => x.setG f.td (BitVec.ofNat 64 (getBits c 0 64)))
    else
      withEvent (cellEvt c) s <|
        if s.ctx.sidefx then blockOn w s
        else
          match s.register { Waiter.of s.ctx (cellEvt c) 0 .futrd with
              restart := true, cell := (ps.head?.map Prod.fst).getD 0 } with
          | none => evTrap .waitOverflow (cellEvt c) s
          | some s => .done (s.putHome t.aop ps 16 (putBits c 96 32 (cellDeps c + 1))).squash

/-- futwr (R258). -/
def effFutwr (f : TileFields) (t : TiqEntry) (s : State) : Eff :=
  withHome { home := true, write := true } t.aop 16 s fun ps s =>
    afterCopies (fun _ => true) s <|
      let c := s.rdPieces ps
      if cellFull c then .done (s.mapCtx fun x => x.setG f.td 1)
      else
        withEvent (cellEvt c) s <|
          let v := putBits (putBits (putBits c 0 64 t.g0.toNat) 80 8 1) 96 32 0
          let s := ((s.putHome t.aop ps 16 v).enqueueWaiters ((ps.head?.map Prod.fst).getD 0)).signal (cellEvt c) 1
          .done (s.mapCtx fun x => x.setG f.td 0).sideEffect

/-! ## Footprints that travel -/

/-- A tile whose footprint takes bytes: those below `len` from the sender, 0x00 beyond (R188, R250). -/
def Tile.receive (t : Tile) (len bytes : Nat) : Tile :=
  { t with slot := putBits t.slot 0 (8 * t.sr.footprint) (bytes % 2 ^ (8 * len)) }

/-- A tile operand of any format and layout, its scales travelling as bytes. -/
def anyTile (r : BitVec 5) : Opnd := { name := r, layouts := 15, scaled := true }

/-! ## txchg -/

/-- Bytes of a tile's footprint. -/
def Tile.bytes (t : Tile) : Nat := getBits t.slot 0 (8 * t.sr.footprint)

/-- The partner's UID (R25): the unit of the same LID in the other group of the pair, with both dies granted. -/
def State.partner (s : State) : Option Nat :=
  match s.ctx.launch.bind s.launchOf with
  | none => none
  | some l =>
    let g := s.ctx.cgr.toNat % 2 ^ 32 ^^^ 1
    let u := g * l.cgs + s.ctx.lid.toNat
    if s.ctx.diem = 3 ∧ l.place = 3 ∧ g < l.ngroups ∧ s.ctx.lid.toNat < l.gsize g then some u else none

/-- The unit with a UID of the focused context's launch has executed end. -/
def State.unitEnded (s : State) (uid : Nat) : Bool :=
  match s.ctx.launch.bind s.launchOf with
  | none => false
  | some l => s.groups.any fun g =>
      g.launch == l.id && g.inst == s.ctx.inst && g.idx == uid / l.cgs && g.ended.contains (uid % l.cgs)

/-- A step ends: td takes bytes, G[gs] the status, and the step count advances. -/
def txDone (f : TileFields) (status len bytes : Nat) (s : State) : Eff :=
  .done (s.mapCtx fun c =>
    { ((c.putTile f.td ((c.tile f.td).receive len bytes)).setG f.gs (BitVec.ofNat 64 status)) with
      txcnt := c.txcnt + 1 })

/-- txchg (R188, R189). -/
def effTxchg (f : TileFields) (_ : TiqEntry) (s : State) : Eff :=
  withTiles s [anyTile f.td, anyTile f.ta] <|
    let src := s.ctx.tile f.ta
    let me := s.ctx.uid.toNat
    let k := s.ctx.txcnt.toNat
    let l := s.ctx.launch.getD 0
    match s.partner with
    | none => txDone f 1 src.sr.footprint src.bytes s
    | some u =>
      let mine : Parcel := { src := me, dst := u, k := k, len := src.sr.footprint, bytes := src.bytes }
      match s.xchg.find? fun p => p.1 == l && p.2.src == u && p.2.dst == me && p.2.k == k with
      | some p =>
        if s.shLost && !s.ctx.wait.sent then .trap { cause := .linkLost } 0 s
        else
          let s : State := { s with xchg := (s.xchg.filter fun q => q != p) ++ (if s.ctx.wait.sent then [] else [(l, mine)]) }
          txDone f 0 p.2.len p.2.bytes s
      | none =>
        if s.unitEnded u then
          txDone f 3 src.sr.footprint src.bytes { s with xchg := s.xchg.filter fun q => q != (l, mine) }
        else if s.shLost then .trap { cause := .linkLost } 0 s
        else
          .block { kind := .txchg, sent := true }
            (if s.ctx.wait.sent then s else { s with xchg := s.xchg ++ [(l, mine)] })

/-! ## send and recv -/

/-- GSIZE of the focused context. -/
def State.gsize (s : State) : Nat := s.ctx.cgr.toNat / 2 ^ 32
/-- A partner LID that traps ILLEGAL_FIELD (R250). -/
def State.badPartner (s : State) (v : GWord) : Bool := decide (s.gsize ≤ v.toNat) || v.toNat == s.ctx.lid.toNat

/-- send (R250, R251). -/
def effSend (f : TileFields) (t : TiqEntry) (s : State) : Eff :=
  withTiles s [anyTile f.ta] <|
    if s.badPartner t.g0 then .field s
    else afterCopies (fun _ => true) s <|
      let to_ := t.g0.toNat
      let me := s.ctx.lid.toNat
      let k := (s.ctx.sendcnt.toList.getD to_ 0).toNat
      let src := s.ctx.tile f.ta
      let fin := fun (status : Nat) (s : State) => Eff.done (s.mapCtx fun c =>
        { (c.setG f.td (BitVec.ofNat 64 status)) with
          sendcnt := Vector.ofFn fun i => if i.val = to_ then c.sendcnt[i] + 1 else c.sendcnt[i] }).sideEffect
      match s.group with
      | none => .block { kind := .send, lid := BitVec.ofNat 8 to_ } s
      | some g =>
        if g.recvs.contains (me, to_, k) then
          let p : Parcel := { src := me, dst := to_, k := k, len := src.sr.footprint, bytes := src.bytes }
          fin 0 (s.mapGroup fun g => { g with recvs := g.recvs.filter (fun r => r != (me, to_, k)), msgs := g.msgs ++ [p] })
        else if g.ended.contains to_ then fin 1 s
        else .block { kind := .send, lid := BitVec.ofNat 8 to_ } s

/-- recv (R250, R251). -/
def effRecv (f : TileFields) (t : TiqEntry) (s : State) : Eff :=
  withTiles s [anyTile f.td] <|
    if s.badPartner t.g0 then .field s
    else
      let src := t.g0.toNat
      let me := s.ctx.lid.toNat
      let k := (s.ctx.recvcnt.toList.getD src 0).toNat
      let fin := fun (status len bytes : Nat) (s : State) => Eff.done (s.mapCtx fun c =>
        { ((c.putTile f.td ((c.tile f.td).receive len bytes)).setG f.tb (BitVec.ofNat 64 status)) with
          recvcnt := Vector.ofFn fun i => if i.val = src then c.recvcnt[i] + 1 else c.recvcnt[i] })
      let w : Wait := { kind := .recv, lid := BitVec.ofNat 8 src }
      match s.group with
      | none => .block w s
      | some g =>
        match g.msgs.find? fun p => p.src == src && p.dst == me && p.k == k with
        | some p => fin 0 p.len p.bytes (s.mapGroup fun g => { g with msgs := g.msgs.filter fun q => q != p })
        | none =>
          if g.ended.contains src then
            fin 1 0 0 (s.mapGroup fun g => { g with recvs := g.recvs.filter fun r => r != (src, me, k) })
          else if g.recvs.contains (src, me, k) then .block w s
          else .block w (s.mapGroup fun g => { g with recvs := (src, me, k) :: g.recvs })

/-! ## cbar and fence -/

/-- Every unit of a group has arrived at a generation or has ended (R252). -/
def Group.complete (g : Group) (size gen : Nat) : Bool :=
  (upto size).all fun l => g.ended.contains l || g.arrived.any fun a => a.1 == l && decide (gen ≤ a.2)

/-- cbar (R252). -/
def effCbar (_ : TileFields) (_ : TiqEntry) (s : State) : Eff :=
  let gen := s.ctx.cbargen.toNat + 1
  let me := s.ctx.lid.toNat
  let fin := fun (s : State) => Eff.done (s.mapCtx fun c => { c with cbargen := c.cbargen + 1 }).sideEffect
  afterCopies (fun _ => true) s <|
    match s.group with
    | none => fin s
    | some g =>
      let g' := { g with arrived := insert g.arrived me gen }
      let s := s.mapGroup fun g => { g with arrived := insert g.arrived me gen }
      if g'.complete s.gsize gen then fin s else .block { kind := .cbar } s

/-- fence (R253): the copies of the issuer are all that is outstanding (notes/assumptions/3.md). -/
def effFence (_ : TileFields) (_ : TiqEntry) (s : State) : Eff := afterCopies (fun _ => true) s (.done s)

/-! ## Atomics -/

/-- The new value of an atomic on `w` bits, none where it writes nothing (R254). -/
def atomNew (op w old d c : Nat) : Option Nat :=
  let sg := toSigned w
  match op with
  | 0 => some ((old + d) % 2 ^ w)
  | 1 => some (if sg d < sg old then d else old)
  | 2 => some (if sg old < sg d then d else old)
  | 3 => some (min old d)
  | 4 => some (max old d)
  | 5 => some (old &&& d)
  | 6 => some (old ||| d)
  | 7 => some (old ^^^ d)
  | 8 => some d
  | _ => if old = c then some d else none

/-- The ordering of an atomic row: a release waits for every copy, another access for those it overlaps. -/
def atomGate (f : TileFields) (xs : List MElem) (s : State) (body : Eff) : Eff := gate f true xs s body

/-- atom (R254). -/
def effAtom (f : TileFields) (t : TiqEntry) (s : State) : Eff :=
  let n := if f.imm.getLsbD 4 then 8 else 4
  let w := 8 * n
  withHome { memAcc f true with home := true } t.aop n s fun ps s =>
    atomGate f [{ va := t.aop, n := n }] s <|
      let old := s.rdPieces ps
      let s := match atomNew f.atomOp.toNat w old (t.g0.toNat % 2 ^ w) (t.g1.toNat % 2 ^ w) with
        | some v => s.putHome t.aop ps n v
        | none => s
      .done (s.mapCtx fun c => c.setG f.td (BitVec.ofNat 64 old)).sideEffect

/-- RET of tatom. -/
def tatomRet (f : TileFields) : Bool := f.md.getLsbD 3

/-- The new value of a tatom element and its flags: float add, min and max round in the element's format (R255). -/
def tatomNew (fmt op w old d c : Nat) : Option Nat × FlagSet :=
  if fmtIsInt fmt || op == 8 || op == 9 then (atomNew op w old d c, 0)
  else
    let r := match op with
      | 0 => elemAdd fmt 0 false old d 0
      | 1 => elemMinMax false fmt 0 false old d 0
      | _ => elemMinMax true fmt 0 false old d 0
    (some r.1, r.2)

/-- Performs checked elements in ascending e: the old values go to `td` under RET, and the elements that were written are
listed. A location that cannot be read stops the run, and the performed set keeps what came before it. -/
def runAtoms (f : TileFields) (fmt : Nat) (data cmp : Tile) :
    List (MElem × List (Nat × Nat) × Nat) → Tile → FlagSet → List MElem → State → Run (Tile × FlagSet × List MElem)
  | [], td, fl, ws, s => .done (td, fl, ws) s
  | (x, ps, _) :: xs, td, fl, ws, s =>
    if s.performedBit x.e then runAtoms f fmt data cmp xs td fl ws s
    else
      match s.dataFault true ps with
      | some c => .fault c none x (td, fl, ws) s
      | none =>
        let old := s.rdPieces ps
        let r := tatomNew fmt f.atomOp.toNat x.w old (data.get x.row x.col) (cmp.get x.row x.col)
        let s := match r.1 with | some v => s.wrPieces ps v | none => s
        runAtoms f fmt data cmp xs (if tatomRet f then td.put x.row x.col old else td) (fl ||| r.2)
          (if r.1.isSome then x :: ws else ws) (s.setPerformed x.e)

/-- The formats of tatom's data: s64, s32, n32, f64, f32. -/
def tatomFmt (c : Nat) : Bool := c == 9 || c == 0xA || c == 0x14 || c == 0 || c == 1

/-- The chunks of a tatom: each is checked whole, then performed; the dirty bits of the pages it has written are committed,
and of no page where every cas failed (R104, R237). -/
def atomChunks (f : TileFields) (fmt : Nat) (data cmp : Tile) (p : Party) :
    List (List MElem) → Tile → FlagSet → State → Run (Tile × FlagSet × Nat)
  | [], td, fl, s => .done (td, fl, 0) s
  | xs :: rest, td, fl, s =>
    let e0 := (xs.head?.map MElem.e).getD 0
    match checkVa p ((xs.head?.map MElem.n).getD 1) xs [] [] s with
    | .fault c src x _ s => .fault c src x (td, fl, e0) s
    | .wait va _ s => .wait va (td, fl, e0) s
    | .stall _ s => .stall (td, fl, e0) s
    | .done (ws, _) s =>
      match runAtoms f fmt data cmp ws td fl [] s with
      | .done r s => atomChunks f fmt data cmp p rest r.1 r.2.1 (s.commitPages p r.2.2.reverse)
      | .fault c src x r s => .fault c src x (r.1, r.2.1, 0) (s.commitPages p r.2.2.reverse)
      | .wait va r s => .wait va (r.1, r.2.1, e0) s
      | .stall r s => .stall (r.1, r.2.1, e0) s

/-- tatom (R255). Its formats are conditions of its entry (R161, check 6). -/
def effTatom (f : TileFields) (t : TiqEntry) (s : State) : Eff :=
  let fmt := (s.ctx.tile f.ta).sr.fmt
  let extra := (if tatomRet f then [f.td] else []) ++ (if f.isCas then [f.tc] else [])
  let other := fun (r : BitVec 5) => (s.ctx.tile r).sr.fmt != fmt
  withTiles s (((if tatomRet f then [f.td] else []) ++ [f.ta, f.tb] ++ (if f.isCas then [f.tc] else [])).map fun r => { name := r }) <|
    if tatomRet f && other f.td then .shape f.td s
    else if !tatomFmt fmt || (fmtIsInt fmt == false && !([0, 1, 2, 8, 9].contains f.atomOp.toNat)) then .shape f.ta s
    else if !indexFmt (s.ctx.tile f.tb).sr.fmt then .shape f.tb s
    else if f.isCas && other f.tc then .shape f.tc s
    else
      let data := s.ctx.tile f.ta
      let xs := s.gatherElems data (s.ctx.tile f.tb) none (t.aop + BitVec.ofInt 72 f.offset12)
        (f.md.extractLsb' 0 3).toNat ([f.ta, f.tb] ++ extra)
      atomGate f xs s <|
        match atomChunks f fmt data (s.ctx.tile f.tc) (s.party { memAcc f true with home := true })
            (chunks (s.fromTes xs)) (s.loadBase f.td) 0 s with
        | .done r s =>
          .done ((s.mapCtx fun c => if tatomRet f then c.putTile f.td r.1 else c).mapCtx fun c => c.raise r.2.1).sideEffect
        | .fault c src x r s =>
          .trap (elemInfo false true (some f.ta) c src x) (if c = .memUncorrectable ∨ c = .linkLost then 0 else r.2.2)
            (s.mapCtx fun k => { k with partialDst := if tatomRet f then some r.1.slot else none })
        | .wait va r s => .block { kind := .token, addr := va } (s.mapCtx fun k => { k with
            tes := BitVec.ofNat 18 r.2.2, partialDst := if tatomRet f then some r.1.slot else none })
        | .stall _ s => .block {} s

end Sys2Proof.Machine
end

