-- ==== Sys2Proof/Machine/TileMgmt.lean ====
section
/-!
DEFINITION. Sys2Proof/Machine/TileMgmt.lean: tile management, fills, moves, permutes, slides and broadcasts
(R45, R166 to R173, R185 to R187).
-/

namespace Sys2Proof.Machine

/-! ## Shape records -/

/-- The shape word of a tshape or tview: the immediate fields under F = 1, the copied G register otherwise (R166). -/
def shapeWord (f : TileFields) (t : TiqEntry) : BitVec 64 :=
  if f.md.getLsbD 1 then f.shapeImm.setWidth 64 else t.g0

/-- tshape: a new record over a zeroed slot (R166). -/
def effTshape (f : TileFields) (t : TiqEntry) (s : State) : Eff :=
  withTiles s [{ name := f.td, fresh := true, scaled := true }] <|
    .done (s.mapCtx fun c => c.setTile f.td { sr := Sr.ofWord (shapeWord f t) c.tsc true, slot := 0 })

/-- tshape.keep: a new record over the name's slot; an unallocated name gets a zeroed slot (R166). -/
def effTshapeKeep (f : TileFields) (t : TiqEntry) (s : State) : Eff :=
  withTiles s [{ name := f.td, fresh := true, scaled := true }] <|
    .done (s.mapCtx fun c =>
      let o := c.tile f.td
      c.setTile f.td
        { sr := Sr.ofWord (shapeWord f t) c.tsc (!o.sr.al || o.sr.zf), slot := if o.sr.al then o.slot else 0 })

/-- tview: a new record over a copy of the source's slot (R167). -/
def effTview (f : TileFields) (t : TiqEntry) (s : State) : Eff :=
  withTiles s [{ name := f.td, fresh := true, scaled := true }, { name := f.ta, layouts := 15, scaled := true }] <|
    .done (s.mapCtx fun c =>
      c.setTile f.td { sr := Sr.ofWord (shapeWord f t) c.tsc (c.tile f.ta).sr.zf, slot := (c.tile f.ta).slot })

/-- tfree: the name becomes unallocated (R168). -/
def effTfree (f : TileFields) (_ : TiqEntry) (s : State) : Eff :=
  withTiles s [{ name := f.td, fresh := true, scaled := true }] <|
    .done (s.mapCtx fun c => c.setTile f.td {})

/-- A row or column request, taken as signed, granted within 1 and a limit (R45). -/
def grant (req : GWord) (limit : Nat) : Nat := min (max req.toInt 1).toNat limit

/-- setx: the active extent is granted and returned (R45, R169). -/
def effSetx (f : TileFields) (t : TiqEntry) (s : State) : Eff :=
  withTiles s [{ name := f.ta, layouts := 15, scaled := true }] <|
    let sr := (s.ctx.tile f.ta).sr
    let r := grant t.g1 sr.rows
    let k := grant t.g2 sr.cols
    .done (s.mapCtx fun c =>
      ({ c with xr := BitVec.ofNat 9 r, xc := BitVec.ofNat 11 k }).setG f.td (BitVec.ofNat 64 (r + k * 65536)))

/-! ## Fills and moves -/

/-- tseq (R170). -/
def effTseq (f : TileFields) (t : TiqEntry) (s : State) : Eff :=
  let c := f.fmt1.toNat
  let isI := fmtIsInt c || c == 0x13
  withTiles s [{ name := f.td, fmt := some c }] <|
    .elems s f.td (s.er [f.td]) (s.ec [f.td]) fun r k =>
      let e := s.elemNo r k
      if isI then convert c f.rm.toNat f.sat (.int (t.g0.toInt + e * t.g1.toInt))
      else
        let p := mulV (.fin false e 0 false) (decodeFp (fpOf 0) t.g1.toNat)
        let q := sumV f.rm.toNat [decodeFp (fpOf 0) t.g0.toNat, p.1]
        let d := convert c f.rm.toNat f.sat (.flt q.1)
        (d.1, d.2 ||| p.2 ||| q.2)

/-- tfill (R171). -/
def effTfill (f : TileFields) (t : TiqEntry) (s : State) : Eff :=
  withTiles s [{ name := f.td, fmt := some f.fmt1.toNat }] <|
    .bits s f.td (s.er [f.td]) (s.ec [f.td]) fun _ _ => t.g0.toNat

/-- tmov (R172): bit-plane on both sides or on neither. -/
def effTmov (f : TileFields) (_ : TiqEntry) (s : State) : Eff :=
  let a := (s.ctx.tile f.ta).sr
  let d := (s.ctx.tile f.td).sr
  withTiles s [{ name := f.td, layouts := 7, fmt := some a.fmt }, { name := f.ta, layouts := 7 }] <|
    if d.planesM1 != a.planesM1 then .shape f.td s
    else .bits s f.td (s.er [f.td, f.ta]) (s.ec [f.td, f.ta]) (s.ctx.tile f.ta).get

/-- Operands td and ta of one format that is not bit-plane. -/
def sameFmt (f : TileFields) (s : State) : List Opnd :=
  [{ name := f.td, fmt := some (s.ctx.tile f.ta).sr.fmt }, { name := f.ta }]

/-- ttr (R173). -/
def effTtr (f : TileFields) (_ : TiqEntry) (s : State) : Eff :=
  let a := s.ctx.tile f.ta
  let d := s.ctx.tile f.td
  let er := min s.xr (min a.sr.rows d.sr.cols)
  let ec := min s.xc (min a.sr.cols d.sr.rows)
  withTiles s (sameFmt f s) <| .bits s f.td ec er fun r k => a.get k r

/-! ## Permutes, slides, broadcasts -/

/-- tperm (R185). -/
def effTperm (f : TileFields) (_ : TiqEntry) (s : State) : Eff :=
  let a := s.ctx.tile f.ta
  let x := s.ctx.tile f.tb
  withTiles s (sameFmt f s ++ [{ name := f.tb }]) <|
    if !(x.sr.fmt == 0x14 || x.sr.fmt == 0x15) then .shape f.tb s
    else
      .bits s f.td (s.er [f.td, f.tb]) (s.ec [f.td, f.tb]) fun r k =>
        let i := x.get r k
        if f.imm.getLsbD 10 then (if r < a.sr.rows ∧ i < a.sr.cols then a.get r i else 0)
        else if i < a.sr.rows * a.sr.cols then a.get (i / a.sr.cols) (i % a.sr.cols) else 0

/-- The position a slide by `k` reads for position `i` of `n`: none for the zero pattern (R186). -/
def slideFrom (rot : Bool) (n i : Nat) (k : Int) : Option Nat :=
  let j := (i : Int) - k
  if rot then some (j % n).toNat else if 0 ≤ j ∧ j < n then some j.toNat else none

/-- tslide (R186). -/
def effTslide (f : TileFields) (t : TiqEntry) (s : State) : Eff :=
  let a := s.ctx.tile f.ta
  let k : Int := if f.md.getLsbD 0 then t.g0.toInt else f.imm.toInt
  let er := s.er [f.td, f.ta]
  let ec := s.ec [f.td, f.ta]
  withTiles s (sameFmt f s) <|
    .bits s f.td er ec fun r c =>
      if f.md.getLsbD 1 then
        (match slideFrom (f.md.getLsbD 2) er r k with | some i => a.get i c | none => 0)
      else (match slideFrom (f.md.getLsbD 2) ec c k with | some i => a.get r i | none => 0)

/-- tbcast (R187). -/
def effTbcast (f : TileFields) (t : TiqEntry) (s : State) : Eff :=
  let a := s.ctx.tile f.ta
  let i := t.g0.toNat
  withTiles s (sameFmt f s) <|
    .bits s f.td (s.er [f.td, f.ta]) (s.ec [f.td, f.ta]) fun r c =>
      match (f.md.extractLsb' 0 2).toNat with
      | 0 => if i < a.sr.rows then a.get i c else 0
      | 1 => if i < a.sr.cols then a.get r i else 0
      | _ => if i < a.sr.rows * a.sr.cols then a.get (i / a.sr.cols) (i % a.sr.cols) else 0

end Sys2Proof.Machine
end

