-- ==== Sys2Proof/Machine/Effects.lean ====
section
/-!
DEFINITION. Sys2Proof/Machine/Effects.lean: what performing an entry of the TIQ does, row by row (R15): the tile
instructions and the scalar memory accesses.
-/

namespace Sys2Proof.Machine

/-- What performing an entry does, or none for an instruction that the TIQ never holds. -/
def effectOf (i : Instr) : Option (TiqEntry → State → Eff) :=
  match i with
  | .ld g _ z o x => some (effLd g z o x)
  | .ldS g _ z o x => some (effLdS g z o x)
  | .st _ _ z o x => some (effSt z o x)
  | .lda g _ o x => some (effLda g o x)
  | .sta _ _ o x => some (effSta o x)
  | .pref h _ z o x => some (effPref h z o x)
  | .tshape f => some (effTshape f)
  | .tshapeKeep f => some (effTshapeKeep f)
  | .tview f => some (effTview f)
  | .tfree f => some (effTfree f)
  | .setx f => some (effSetx f)
  | .tseq f => some (effTseq f)
  | .tfill f => some (effTfill f)
  | .tmov f => some (effTmov f)
  | .ttr f => some (effTtr f)
  | .tadd f => some (effTadd f)
  | .tsub f => some (effTsub f)
  | .tmul f => some (effTmul f)
  | .tdiv f => some (effTdiv f)
  | .tmin f => some (effTmin f)
  | .tmax f => some (effTmax f)
  | .tabs f => some (effTabs f)
  | .tneg f => some (effTneg f)
  | .tfma f => some (effTfma f)
  | .trcp f => some (effTrcp f)
  | .trsqrt f => some (effTrsqrt f)
  | .tsqrt f => some (effTsqrt f)
  | .texp2 f => some (effTexp2 f)
  | .tlog2 f => some (effTlog2 f)
  | .ttanh f => some (effTtanh f)
  | .trem f => some (effTrem f)
  | .tand f => some (effTand f)
  | .tor f => some (effTor f)
  | .txor f => some (effTxor f)
  | .tandn f => some (effTandn f)
  | .tsll f => some (effTsll f)
  | .tsrl f => some (effTsrl f)
  | .tsra f => some (effTsra f)
  | .tmulh f => some (effTmulh f)
  | .tcmp f => some (effTcmp f)
  | .tsel f => some (effTsel f)
  | .tcvt f => some (effTcvt f)
  | .tquant f => some (effTquant f)
  | .tdequant f => some (effTdequant f)
  | .tred f => some (effTred f)
  | .tscan f => some (effTscan f)
  | .tperm f => some (effTperm f)
  | .tslide f => some (effTslide f)
  | .tbcast f => some (effTbcast f)
  | .txchg f => some (effTxchg f)
  | .map f => some (effMap f)
  | .mapred f => some (effMapred f)
  | .momu f => some (effMomu f)
  | .mma f => some (effMma f)
  | .mmas f => some (effMmas f)
  | .mmsp f => some (effMmsp f)
  | .mmb f => some (effMmb f)
  | .mzero f => some (effMzero f)
  | .mfill f => some (effMfill f)
  | .mdrain f => some (effMdrain f)
  | .mrow f => some (effMrow f)
  | .mcol f => some (effMcol f)
  | .tld f => some (effTld f)
  | .tst f => some (effTst f)
  | .tstNfz f => some (effTstNfz f)
  | .tldg f => some (effTldg f)
  | .tstg f => some (effTstg f)
  | .tldm f => some (effTldm f)
  | .csld f => some (effCsld f)
  | .csst f => some (effCsst f)
  | .cpy f => some (effCpy f)
  | .cpyw f => some (effCpyw f)
  | .cpyc f => some (effCpyc f)
  | .cpyq f => some (effCpyq f)
  | .send f => some (effSend f)
  | .recv f => some (effRecv f)
  | .tatom f => some (effTatom f)
  | .cbar f => some (effCbar f)
  | .fence f => some (effFence f)
  | .atom f => some (effAtom f)
  | .evsig f => some (effEvsig f)
  | .evwait f => some (effEvwait f)
  | .evquery f => some (effEvquery f)
  | .futrd f => some (effFutrd f)
  | .futwr f => some (effFutwr f)
  | .tklend f => some (effTklend f)
  | .tkret f => some (effTkret f)
  | .tksplit f => some (effTksplit f)
  | .tkjoin f => some (effTkjoin f)
  | .tkshare f => some (effTkshare f)
  | .tkunshare f => some (effTkunshare f)
  | .tkquery f => some (effTkquery f)
  | _ => none

/-- A register that an entry writes as a scalar return (R16). -/
inductive Dst where
  | g (r : BitVec 5)
  | a (r : BitVec 4)
  deriving DecidableEq, Repr

/-- The registers an entry returns a scalar to (R16). -/
def returnsOf (i : Instr) : List Dst :=
  match i with
  | .ld g _ _ _ _ | .ldS g _ _ _ _ => [.g g]
  | .lda g _ _ _ => [.a (aIdx g)]
  | .setx f | .cpyq f | .evquery f | .futrd f | .futwr f | .atom f | .send f
  | .tklend f | .tkret f | .tksplit f | .tkjoin f | .tkshare f | .tkunshare f | .tkquery f => [.g f.td]
  | .txchg f => [.g f.gs]
  | .recv f => [.g f.tb]
  | _ => []

/-- The tile and scalar-memory fields a push copies (R137). -/
def fieldsOf (i : Instr) : Option TileFields :=
  match i with
  | .tshape f | .tshapeKeep f | .tview f | .tfree f | .setx f | .tseq f
  | .tfill f | .tmov f | .ttr f | .tadd f | .tsub f | .tmul f
  | .tdiv f | .tmin f | .tmax f | .tabs f | .tneg f | .tfma f
  | .trcp f | .trsqrt f | .tsqrt f | .texp2 f | .tlog2 f | .ttanh f
  | .trem f | .tand f | .tor f | .txor f | .tandn f | .tsll f
  | .tsrl f | .tsra f | .tmulh f | .tcmp f | .tsel f | .tcvt f
  | .tquant f | .tdequant f | .tred f | .tscan f | .tperm f | .tslide f
  | .tbcast f | .txchg f | .map f | .mapred f | .momu f | .mma f
  | .mmas f | .mmsp f | .mmb f | .mzero f | .mfill f | .mdrain f
  | .mrow f | .mcol f | .tld f | .tst f | .tstNfz f | .tldg f
  | .tstg f | .tldm f | .csld f | .csst f | .cpy f | .cpyw f
  | .cpyc f | .cpyq f | .send f | .recv f | .tatom f | .cbar f
  | .fence f | .atom f | .evsig f | .evwait f | .evquery f | .futrd f
  | .futwr f | .tklend f | .tkret f | .tksplit f | .tkjoin f | .tkshare f
  | .tkunshare f | .tkquery f => some f
  | _ => none

end Sys2Proof.Machine
end

