-- ==== Sys2Proof/Machine/Issue.lean ====
section
/-!
DEFINITION. Sys2Proof/Machine/Issue.lean: what the block sequencer knows of an entry before it is performed: its resource
(R18, Table 01-2), the tile names it writes and reads (R19, R20), and the bytes it accesses (R22, R317).
-/

namespace Sys2Proof.Machine

/-! ## Resources (R18) -/

/-- The resources of Table 01-2. -/
inductive Resource where
  | lane
  | matrix
  | memory
  | channel (ch : BitVec 2)
  deriving DecidableEq, Repr

def Resource.code : Resource → Nat
  | .lane => 0
  | .matrix => 1
  | .memory => 2
  | .channel ch => 3 + ch.toNat

/-- The resource that an entry issues to; management instructions occupy none. -/
def resourceOf (i : Instr) : Option Resource :=
  match i with
  | .tshape _ | .tshapeKeep _ | .tview _ | .tfree _ | .setx _ => none
  | .mma _ | .mmas _ | .mmsp _ | .mmb _ | .mzero _ | .mfill _ | .mdrain _ | .mrow _ | .mcol _ => some .matrix
  | .cpy f | .cpyw f | .cpyc f | .cpyq f => some (.channel (TileFields.ch f))
  | .tld _ | .tst _ | .tstNfz _ | .tldg _ | .tstg _ | .tldm _ | .csld _ | .csst _ | .send _ | .recv _ | .txchg _
  | .tatom _ | .cbar _ | .fence _ | .atom _ | .evsig _ | .evwait _ | .evquery _ | .futrd _ | .futwr _
  | .tklend _ | .tkret _ | .tksplit _ | .tkjoin _ | .tkshare _ | .tkunshare _ | .tkquery _
  | .ld .. | .ldS .. | .st .. | .lda .. | .sta .. | .pref .. => some .memory
  | _ => some .lane

/-! ## Tile names (R19, R20) -/

/-- A tile name that an entry reads, and whether it reads it as a whole (R20). -/
abbrev TileRead := BitVec 5 × Bool

/-- The scale tile of a values tile (R161). -/
def State.scaleNames (s : State) (r : BitVec 5) : List (BitVec 5) := (s.scaleOpnd r).map Opnd.name

/-- The names an entry writes, under the shape records it meets. -/
def State.tileWrites (s : State) (i : Instr) : List (BitVec 5) :=
  match i with
  | .tst _ | .tstNfz _ | .tstg _ | .csst _ | .send _ | .mfill _ | .mzero _ | .tfree _ | .setx _ | .cpy _ | .cpyw _ | .cpyc _
  | .cpyq _ | .cbar _ | .fence _ | .atom _ | .evsig _ | .evwait _ | .evquery _ | .futrd _ | .futwr _ | .tklend _
  | .tkret _ | .tksplit _ | .tkjoin _ | .tkshare _ | .tkunshare _ | .tkquery _ => []
  | .tatom f => if tatomRet f then [f.td] else []
  | .mma f | .mmas f | .mmsp f | .mmb f => if f.drain then [f.tc] else []
  | .map f | .mapred f => mapOuts f
  | .momu f => [f.td, f.tb, f.tc]
  | .tquant f => f.td :: s.scaleNames f.td
  | i => match fieldsOf i with | some f => [f.td] | none => []

/-- The names an entry reads, each as a whole or by row groups in ascending order. -/
def State.tileReads (s : State) (i : Instr) : List TileRead :=
  let rows := fun (rs : List (BitVec 5)) => rs.map fun r => ((r, false) : TileRead)
  let ab := fun (f : TileFields) => if f.sBit then [f.ta] else [f.ta, f.tb]
  let mat := fun (f : TileFields) (ta : Bool) => [((f.ta, ta) : TileRead), (f.tb, matTb f)]
  match i with
  | .tst f | .tstNfz f | .csst f | .tcvt f | .tquant f | .tmov f | .tabs f | .tneg f | .trcp f | .trsqrt f | .tsqrt f
  | .texp2 f | .tlog2 f | .ttanh f => rows [f.ta]
  | .tdequant f => rows (f.ta :: s.scaleNames f.ta)
  | .tldg f => rows (f.tb :: if msk f then [f.tc] else [])
  | .tstg f => rows ([f.ta, f.tb] ++ if msk f then [f.tc] else [])
  | .tatom f => rows ([f.ta, f.tb] ++ if f.isCas then [f.tc] else [])
  | .mfill f => if f.sBit then [] else rows [f.ta]
  | .mma f | .mmb f => mat f (matTa f)
  | .mmas f => mat f (matTa f) ++ rows (s.scaleNames f.ta ++ s.scaleNames f.tb)
  | .mmsp f => mat f false ++ rows (s.scaleNames f.ta ++ s.scaleNames f.tb)
  | .tadd f | .tsub f | .tmul f | .tdiv f | .tmin f | .tmax f | .trem f | .tand f | .tor f | .txor f | .tandn f
  | .tsll f | .tsrl f | .tsra f | .tmulh f | .tcmp f => rows (ab f)
  | .tfma f | .tsel f => rows (ab f ++ [f.tc])
  | .ttr f | .tslide f | .tbcast f | .send f | .txchg f | .tview f => [(f.ta, true)]
  | .tred f | .tscan f => [(f.ta, f.dir != 0)]
  | .tperm f => [(f.ta, true), (f.tb, false)]
  | .map f => rows (mapIns f)
  | .mapred f => (mapIns f).map fun r => (r, f.mapDir != 0)
  | .momu f => rows [f.td, f.ta, f.tb, f.tc]
  | _ => []

/-! ## What the entries before one do to the machine it meets -/

/-- The entries of the focused context before entry n. -/
def State.older (s : State) (n : Nat) : List TiqEntry := s.ctx.tiq.take n

/-- The machine as entry n meets its shape records and its active extent: management entries before it have acted. -/
def State.viewAt (s : State) (n : Nat) : State :=
  (s.older n).foldl (fun s t =>
    if (resourceOf t.i).isSome then s
    else
      match effectOf t.i with
      | some e => (match e t s with | .done s => s | _ => s)
      | none => s) s

/-- Row groups of an entry's active extent (R20). -/
def State.groupsOf (s : State) (n : Nat) (t : TiqEntry) : Nat :=
  let v := s.viewAt n
  match v.tileWrites t.i ++ (v.tileReads t.i).map Prod.fst with
  | [] => 0
  | ns => ceilDiv (v.er ns) 8

/-- Entry n has completed, as far as those that read its results see: it has been performed, or has read and written all
its row groups; a management entry has when it has issued. -/
def State.complete_ (s : State) (n : Nat) (t : TiqEntry) : Bool :=
  t.returned || (t.issued && ((resourceOf t.i).isNone || decide (s.groupsOf n t ≤ t.groups)))

/-- The last entry before n that writes a name. -/
def State.lastWriter (s : State) (n : Nat) (r : BitVec 5) : Option (Nat × TiqEntry) :=
  (((upto n).zip (s.older n)).filter fun p => ((s.viewAt p.1).tileWrites p.2.i).contains r).getLast?

/-- Row groups of a producer can be read before it ends: not of the matrix engine, nor of an entry that writes its
destination at once (R20). -/
def chainable (i : Instr) : Bool :=
  match i with
  | .recv _ | .txchg _ | .tldm _ => false
  | i => match resourceOf i with | some .lane => true | some .memory => true | _ => false

/-- Row group k of the sources of entry n is readable (R18, R20). -/
def State.readable (s : State) (n : Nat) (t : TiqEntry) (k : Nat) : Bool :=
  ((s.viewAt n).tileReads t.i).all fun r =>
    match s.lastWriter n r.1 with
    | none => true
    | some w => s.complete_ w.1 w.2 || (!r.2 && chainable w.2.i && w.2.issued && decide (k < w.2.groups))

/-- The readers of the slot that a name has when entry n meets it: the entries after its last writer that read it, and
entry n itself where it reads the name (R19, R163). -/
def State.slotReaders (s : State) (n : Nat) (t : TiqEntry) (r : BitVec 5) : List (BitVec 32) :=
  let from_ := match s.lastWriter n r with | some w => w.1 + 1 | none => 0
  ((((upto n).zip (s.older n)).filter fun p =>
    decide (from_ ≤ p.1) && ((s.viewAt p.1).tileReads p.2.i).any fun x => x.1 == r).map fun p => p.2.seq)
  ++ (if ((s.viewAt n).tileReads t.i).any fun x => x.1 == r then [t.seq] else [])

/-- The old slots that entry n leaves to their readers: one for each name it writes whose slot has unretired readers; each
takes a slot of the rename pool (R19). -/
def State.renames (s : State) (n : Nat) (t : TiqEntry) : List OldSlot :=
  (((s.viewAt n).tileWrites t.i).eraseDups.map fun r => ({ name := r, readers := s.slotReaders n t r } : OldSlot)).filter
    fun o => !o.readers.isEmpty

/-! ## Bytes accessed (R22, R317) -/

/-- The bounding range of an access: cluster space, write, first byte, first byte beyond. -/
structure Range where
  cs : Bool := false
  write : Bool
  lo : Int
  hi : Int
  deriving DecidableEq, Repr

namespace Range
/-- The range of `n` bytes at an address. -/
def at_ (write : Bool) (va : Addr) (n : Nat) : Range := { write := write, lo := va.toNat, hi := va.toNat + n }
/-- Two accesses that may not be in flight together: they overlap, and one writes. -/
def conflicts (a b : Range) : Bool := (a.write || b.write) && a.cs == b.cs && decide (a.lo < b.hi) && decide (b.lo < a.hi)
/-- Two accesses overlap. -/
def overlaps (a b : Range) : Bool := conflicts { a with write := true } b
end Range

/-- An entry of the interlock table as a range. -/
def Ilock.range (x : Ilock) : Range := { cs := x.cs, write := x.write, lo := x.lo, hi := x.hi }

/-- The region that a token row names: all of it, or its base where none governs it. -/
def State.regionRange (s : State) (va : Addr) : Range :=
  match (s.translate s.ctx.asid va).1.bind fun l => s.governing s.ctx.asid (Leaf.tri l.1) va.toNat with
  | some i => { write := true, lo := (s.tok i).base, hi := (s.tok i).base + 2 ^ (s.tok i).log2 }
  | none => Range.at_ true va 1

/-- The ranges that entry n accesses: none while an index or mask tile of it is still to be written, or for a copy, whose
descriptor has still to be read. -/
def State.rangesOf (s : State) (n : Nat) (t : TiqEntry) : Option (List Range) :=
  let v := s.viewAt n
  let lines := fun (w : Bool) (r : BitVec 5) (f : TileFields) =>
    let p := vaRange (v.vaElems r (v.ctx.tile r) (memBase f t) (memPitch f t (v.ctx.tile r).sr))
    ({ write := w, lo := p.1, hi := p.2 } : Range)
  let cells := fun (w : Bool) (names : List (BitVec 5)) (xs : List MElem) =>
    if names.any fun r => (s.lastWriter n r).isSome then none
    else some [({ write := w, lo := (vaRange xs).1, hi := (vaRange xs).2 } : Range)]
  let gather := fun (w : Bool) (data : BitVec 5) (f : TileFields) =>
    let m := if msk f then [f.tc] else []
    cells w (f.tb :: m) (v.gatherElems (v.ctx.tile data) (v.ctx.tile f.tb) (if msk f then some (v.ctx.tile f.tc) else none)
      (t.aop + BitVec.ofInt 72 f.offset) (f.md.extractLsb' 0 3).toNat ([data, f.tb] ++ m))
  let pad := fun (w : Bool) (r : BitVec 5) (f : TileFields) =>
    let p := csRange (v.csElems f t r)
    some [({ cs := true, write := w, lo := p.1, hi := p.2 } : Range)]
  match t.i with
  | .ld _ _ z o x | .ldS _ _ z o x => some [Range.at_ false (cmAddr t.aop o x (2 ^ z.toNat)) (2 ^ z.toNat)]
  | .st _ _ z o x => some [Range.at_ true (cmAddr t.aop o x (2 ^ z.toNat)) (2 ^ z.toNat)]
  | .lda _ _ o x => some [Range.at_ false (cmAddr t.aop o x 16) 16]
  | .sta _ _ o x => some [Range.at_ true (cmAddr t.aop o x 16) 16]
  | .tld f => some [lines false f.td f]
  | .tldm f =>
    let p := vaRange (v.vaElems f.td (v.ctx.tile f.td) (t.aop + BitVec.ofInt 72 f.offset)
      (memPitch f t (v.ctx.tile f.td).sr))
    some [{ write := false, lo := p.1, hi := p.2 }]
  | .tst f => some [lines true f.ta f]
  | .tstNfz f => some [lines true f.ta f, Range.at_ true t.aop2 8]
  | .tldg f => gather false f.td f
  | .tstg f => gather true f.ta f
  | .tatom f =>
    let names := [f.ta, f.tb] ++ (if tatomRet f then [f.td] else []) ++ (if f.isCas then [f.tc] else [])
    cells true [f.tb] (v.gatherElems (v.ctx.tile f.ta) (v.ctx.tile f.tb) none (t.aop + BitVec.ofInt 72 f.offset12)
      (f.md.extractLsb' 0 3).toNat names)
  | .csld f => pad false f.td f
  | .csst f => pad true f.ta f
  | .atom f => some [Range.at_ true t.aop (if f.imm.getLsbD 4 then 8 else 4)]
  | .futrd _ | .futwr _ => some [Range.at_ true t.aop 16]
  | .momu _ => some (if (t.scal.getD 7 0).getLsbD 0 then [Range.at_ true t.aop 8] else [])
  | .tklend _ | .tkret _ | .tksplit _ | .tkjoin _ | .tkshare _ | .tkunshare _ | .tkquery _ => some [s.regionRange t.aop]
  | .cpy _ => none
  | _ => some []

/-- Entries of the interlock table in use: those of the entries in flight, and two of each copy (R22, R317). -/
def Ctx.ilocks (c : Ctx) : Nat := c.ilock.length + 2 * c.copies.length

/-- The entries that a row takes in the table. -/
def lockNeed (i : Instr) : Nat :=
  match i with
  | .cpy _ | .tstNfz _ => 2
  | .ld .. | .ldS .. | .st .. | .lda .. | .sta .. | .tld _ | .tst _ | .tldg _ | .tstg _ | .tldm _ | .csld _ | .csst _
  | .tatom _ | .atom _ | .futrd _ | .futwr _ | .tklend _ | .tkret _ | .tksplit _ | .tkjoin _ | .tkshare _ | .tkunshare _
  | .tkquery _ => 1
  | _ => 0

/-- The copies in flight leave no entry of the table to a row: nothing that it needs can free before one of them ends. -/
def Ctx.tableFull (c : Ctx) (i : Instr) : Bool := lockNeed i != 0 && decide (32 < lockNeed i + 2 * c.copies.length)

/-- An entry that the accesses after it may not pass: an acquire, a receiver of Table 05-3, a fence or a token row (R99,
R102). -/
def holdsBack (i : Instr) : Bool :=
  let acq := fun (f : TileFields) => f.order == 1 || f.order == 3
  match i with
  | .ld _ _ _ _ x | .ldS _ _ _ _ x | .lda _ _ _ x => Pfx.order x != 0
  | .tld f | .tldg f | .tatom f | .atom f => acq f
  | .fence _ | .evwait _ | .recv _ | .futrd _ | .cbar _ | .txchg _
  | .tklend _ | .tkret _ | .tksplit _ | .tkjoin _ | .tkshare _ | .tkunshare _ | .tkquery _ => true
  | _ => false

end Sys2Proof.Machine
end

