-- ==== Sys2Proof/Machine/Tiq.lean ====
section
/-!
DEFINITION. Sys2Proof/Machine/Tiq.lean: the tile instruction queue: scalar returns (R16), pushes (R15, R17, R137), the
head entry, retirement (R21), Reed (R382, R383), and the rows ISSUE, SCALAR_RETURN, ACCESS_COMPLETE and RETIRE.
-/

namespace Sys2Proof.Machine

/-! ## Scalar returns (R16) -/

/-- Registers whose scalar return is pending. -/
def Ctx.pending (c : Ctx) : List Dst :=
  (c.tiq.flatMap fun t => if t.returned then [] else returnsOf t.i).filter fun d => d != .g 0

/-- An instruction that reads or writes one of these registers waits. -/
def Ctx.mustWait (c : Ctx) (ds : List Dst) : Bool := ds.any fun d => c.pending.contains d

/-- The G registers that a tile instruction reads. -/
def gUses (i : Instr) : List (BitVec 5) :=
  match i with
  | .setx f => [f.tb, f.tc]
  | .tseq f | .tld f | .tst f | .tstNfz f | .tldm f | .csld f | .csst f | .atom f | .evsig f | .evwait f | .evquery f
  | .tkshare f => [f.gs, f.tb]
  | .momu f => (upto 8).map fun k => f.gs + BitVec.ofNat 5 k
  | .txchg _ => []
  | i => match fieldsOf i with | some f => [f.gs] | none => []

/-- The A registers that a tile instruction reads. -/
def aUses (i : Instr) : List (BitVec 4) :=
  match i with
  | .map f | .mapred f | .momu f | .tld f | .tst f | .tldg f | .tstg f | .tldm f | .cpy f | .tatom f | .atom f
  | .futrd f | .futwr f | .tklend f | .tkret f | .tksplit f | .tkjoin f | .tkshare f | .tkunshare f | .tkquery f => [f.as]
  | .tstNfz f => [f.as, aIdx f.tc]
  | _ => []

/-- The registers that a TIQ instruction reads or writes. -/
def tiqUses (i : Instr) : List Dst :=
  returnsOf i ++
  match i with
  | .ld _ a _ _ _ | .ldS _ a _ _ _ | .lda _ a _ _ | .pref _ a _ _ _ => [.a a]
  | .st g a _ _ _ => [.g g, .a a]
  | .sta g a _ _ => [.a (aIdx g), .a a]
  | i => (gUses i).map Dst.g ++ (aUses i).map Dst.a

/-! ## The push (R137) -/

/-- The TIQ's capacity (R15). -/
def tiqSize : Nat := 64

/-- The entry an instruction pushes: its operands as they stand. -/
def Ctx.entryOf (c : Ctx) (i : Instr) : TiqEntry :=
  let e : TiqEntry := { i := i, seq := c.nextseq, pc := c.pc, splim := c.splim }
  match i with
  | .ld g a _ _ _ | .ldS g a _ _ _ | .st g a _ _ _ | .lda g a _ _ | .pref g a _ _ _ =>
    { e with aop := c.getA a, g0 := c.getG g }
  | .sta g a _ _ => { e with aop := c.getA a, g0 := c.getG g, aop2 := c.getA (aIdx g) }
  | i =>
    match fieldsOf i with
    | none => e
    | some f =>
      let e := { e with aop := c.getA f.as, g0 := c.getG f.gs, g1 := c.getG f.tb, g2 := c.getG f.tc }
      match i with
      | .momu f => { e with scal := (upto 8).map fun k => (c.getG (f.gs + BitVec.ofNat 5 k)).extractLsb' 0 32 }
      | .tstNfz f => { e with aop2 := c.getA (aIdx f.tc) }
      | _ => e

/-- The state with an entry pushed. -/
def State.push (s : State) (i : Instr) : State :=
  s.mapCtx fun c => { c with tiq := c.tiq ++ [c.entryOf i], nextseq := c.nextseq + 1 }

/-! ## The head entry (R21) -/

/-- What performing the head entry comes to. -/
inductive Head where
  | retired (s : State)
  | stopped (s : State)
  | blocked (s : State)
  | empty

/-- The effect of an entry at the head: a memory or copy row waits while the copies in flight fill the interlock table
(R22, R317), and so meets a stopped one (R247). -/
def State.headEff (s : State) (t : TiqEntry) (e : TiqEntry → State → Eff) : Eff :=
  if s.ctx.tableFull t.i then afterCopies (fun c => c.stop.isSome) s (.block {} s) else e t s

/-- The head entry has executed once: SKIPWP no longer passes its accesses (R282). -/
def Ctx.tried (c : Ctx) : Ctx := { c with skipwp := false }

/-- The machine after the head entry's turn, from the machine before it. -/
def Head.after (s : State) : Head → State
  | .retired t => t
  | .stopped t => t
  | .blocked t => t
  | .empty => s

/-- Performs the entry at the head, and retires it, unless it squashed its unit. -/
def State.performHead (s : State) : Head :=
  match s.ctx.tiq with
  | [] => .empty
  | t :: _ =>
    if t.returned then .retired (s.retireHead t)
    else
      match effectOf t.i with
      | none => .empty
      | some e =>
        match s.headEff t e with
        | .done s => .retired (if s.ctx.run == .running && !s.ctx.tiq.isEmpty then s.retireHead t else s)
        | .trap i tes s => .stopped ((s.mapCtx Ctx.tried).entryFault i tes t)
        | .block w s => .blocked (s.mapCtx fun c => { c with wait := w })

/-- The strips of the issuer's copies that can move now, on an eager machine. -/
def State.runAll (s : State) : State := if s.eager then s.runCopies else s

/-- Performs entries from the head on, up to one that waits or faults; `fuel` is at least their number. -/
def State.drain : Nat → State → State
  | 0, s => s
  | n + 1, s =>
    match s.performHead with
    | .retired s => State.drain n s.runAll
    | .stopped s => s
    | .blocked s => s
    | .empty => s

/-- What an eager machine does with its TIQ (notes/assumptions/3.md). -/
def State.settle (s : State) : State := if s.eager then s.runAll.drain s.ctx.tiq.length else s

/-! ## Tile instructions and scalar accesses in the control stream -/

/-- Words of a prefix. -/
def pfxLen (x : Pfx) : Nat := if x.isSome then 1 else 0

/-- The control unit goes on to the next unit. -/
def Ctx.skip (c : Ctx) (words : Nat) : Ctx := { c with pc := c.pc + BitVec.ofNat 72 (4 * words) }

/-- A control instruction has executed: it retires, and the control unit goes on. -/
def Ctx.advance (c : Ctx) (words : Nat) : Ctx := { c.skip words with retd := c.retd + 1 }

/-- A trap of the control unit: it waits until every older entry has retired (R127, R267). -/
def State.trapCtl (s : State) (i : Info) (resume : Addr) : State :=
  if s.ctx.tiq.isEmpty then s.ctlTrap i resume else s

/-- The instruction needs a unit that this part lacks (R3, R165). -/
def State.lacks (s : State) (i : Instr) : Bool :=
  match i with
  | .mmb _ => !s.bitPlane
  | .tadd f | .tsub f | .tmul f | .tdiv f | .tmin f | .tmax f | .tabs f | .tneg f | .tfma f | .tcmp f =>
    !s.fp64 && f.fmt1 == 0
  | .tred f | .tscan f => !s.fp64 && (f.fmt1 == 0 || f.fmt2 == 0)
  | _ => false

/-- An instruction that goes to the TIQ: it waits for pending scalar returns and for room, and is pushed. -/
def State.toTiq (s : State) (i : Instr) (words : Nat) : State :=
  if s.ctx.mustWait (tiqUses i) || decide (tiqSize ≤ s.ctx.tiq.length) then s
  else ((s.push i).mapCtx fun c => c.skip words).settle

/-- A scalar memory row. -/
def cmExec (i : Instr) (x : Pfx) (s : State) : Out := .next (s.toTiq i (1 + pfxLen x))

/-- A tile row: its predicate first, then the unit it needs, then the push (R17, Table 06-14, steps 8 and 9). A unit
that its predicate switches off becomes no TIQ entry, so RETD does not count it (R50). -/
def tileExec (i : Instr) (f : TileFields) (s : State) : Out :=
  let words := 2 + pfxLen f.pfx
  .next (if s.ctx.getP f.p == f.negp then s.mapCtx fun c => c.skip words
    else if s.lacks i then s.trapCtl { cause := .unitAbsent, dstep := 9 } s.ctx.pc
    else s.toTiq i words)

/-! ## The block sequencer's own steps, on a machine that is not eager -/

/-- Rename slots of a tile store configuration (Table 02-2). -/
def renamePool (tsc : BitVec 2) : Nat :=
  match tsc.toNat with
  | 0 => 160
  | 1 => 64
  | 2 => 16
  | _ => 8

/-- The resource of entry n has room: it holds no entry in flight, or fewer than it has room for. The head always has:
what younger entries hold cannot free before it. -/
def State.hasRoom (s : State) (n : Nat) (t : TiqEntry) : Bool :=
  match resourceOf t.i with
  | none => true
  | some r =>
    let used := (((upto s.ctx.tiq.length).zip s.ctx.tiq).filter fun p =>
      p.2.issued && resourceOf p.2.i == some r
      && (match r with | .lane | .matrix => !s.complete_ p.1 p.2 | _ => !p.2.returned)).length
    n == 0 || used == 0 || decide (used < Config.room r.code)

/-- The interlock admits entry n: its ranges conflict with no access in flight, with no copy, and with no older entry that
has still to issue; the table has room (R22, R317). Only the head may issue with ranges that are not known. -/
def State.admitsRange (s : State) (n : Nat) (t : TiqEntry) : Bool :=
  lockNeed t.i == 0 && !(match t.i with | .momu _ => true | _ => false) ||
  (match s.rangesOf n t with
    | none => n == 0
    | some rs =>
      rs.all (fun r => !(s.ctx.ilock.any fun x => r.conflicts x.range)
        && !(s.ctx.copies.any fun c => c.meets r.cs r.write r.lo r.hi))
      && ((upto n).zip (s.older n)).all fun p =>
        p.2.issued || (match s.rangesOf p.1 p.2 with
          | some qs => rs.all fun r => !(qs.any r.conflicts)
          | none => rs.isEmpty))
  && (decide (s.ctx.ilocks + lockNeed t.i ≤ 32) || (n == 0 && !s.ctx.tableFull t.i))

/-- An older entry that must rename and has not issued holds back the entries after it: all where the pool is empty, else
those that must rename themselves (R19, R315). -/
def State.renameWaits (s : State) (n : Nat) (mine : List OldSlot) : Bool :=
  let full := decide (renamePool s.ctx.tsc ≤ s.ctx.olds.length)
  ((upto n).zip (s.older n)).any fun p => !p.2.issued && (full || !mine.isEmpty) && !(s.renames p.1 p.2).isEmpty

/-- Entry n may issue: its sources are readable, its resource has room, the interlock admits it (R18), and the rename pool
has the slots it needs (R19); the head waits for no younger entry's slot. -/
def State.mayIssue (s : State) (n : Nat) (t : TiqEntry) : Bool :=
  let ren := s.renames n t
  !t.issued && s.readable n t 0 && s.hasRoom n t && s.admitsRange n t && !s.renameWaits n ren
  && (n == 0 || ren.isEmpty || decide (s.ctx.olds.length + ren.length ≤ renamePool s.ctx.tsc))

/-- Entry n issues: it leaves old slots to their readers, and holds the interlock for its ranges. -/
def State.issue (s : State) (n : Nat) (t : TiqEntry) : State :=
  let rs := (s.rangesOf n t).getD []
  let locks := rs.map fun r => ({ seq := t.seq, lo := r.lo.toNat, hi := r.hi.toNat, cs := r.cs, write := r.write } : Ilock)
  let ren := s.renames n t
  s.mapCtx fun c =>
    { c with
      tiq := modifyAt (fun t => { t with issued := true, done := locks.isEmpty }) c.tiq n
      olds := ren ++ c.olds
      ilock := locks ++ c.ilock }

/-- Entry n reads and writes its next row group, which every source holds (R20). -/
def State.rowGroup (s : State) (n : Nat) : State :=
  match s.ctx.tiq[n]? with
  | none => s
  | some t =>
    if t.issued && !t.returned && decide (t.groups < s.groupsOf n t) && s.readable n t t.groups then
      s.mapCtx fun c => { c with tiq := modifyAt (fun t => { t with groups := t.groups + 1 }) c.tiq n }
    else s

/-- The core is counted suspect (R386). -/
def State.suspectCore (s : State) : State := { s with core := { s.core with suspect := s.core.suspect + 1 } }

/-- LGREP counts the passes that replayed (R384). -/
def State.countReplays : Nat → State → State
  | 0, s => s
  | n + 1, s => State.countReplays n (s.count s.die 0x859)

/-- ISSUE, with the lane-group replays of its worst pass (R384; those of other passes are turns of their own): a third error in one pass stops the context, once every
older entry has retired, with the first element of the pass (notes/assumptions/36.md). -/
def execIssue (n replays : Nat) (s : State) : Out :=
  match s.ctx.tiq[n]? with
  | none => .refused (.notEnabled "ISSUE")
  | some t =>
    if s.ctx.run != .running || !s.mayIssue n t || (replays != 0 && resourceOf t.i != some .lane)
        || (decide (3 ≤ replays) && n != 0) then
      .refused (.notEnabled "ISSUE")
    else if replays < 3 then .next ((s.issue n t).countReplays replays)
    else
      .next ((s.countReplays 2).suspectCore.entryFault
        { cause := .memUncorrectable, elem := some (0, 0, 0), tile := (fieldsOf t.i).map TileFields.ta } 0 t)

/-- An access to `n` bytes of DEVICE memory. -/
def State.isDevice (s : State) (va : Addr) (n : Nat) : Bool :=
  (pieces va n).any fun p => (s.translate s.ctx.asid p.1).1.any fun l => Leaf.cls l.1 == 3

/-- The bytes and the qualifier of a scalar load. -/
def loadOf (t : TiqEntry) : Option (Addr × Nat × Pfx) :=
  match t.i with
  | .ld _ _ z o x | .ldS _ _ z o x => some (cmAddr t.aop o x (2 ^ z.toNat), 2 ^ z.toNat, x)
  | .lda _ _ o x => some (cmAddr t.aop o x 16, 16, x)
  | _ => none

/-- A scalar load may be performed before the entries older than it: all have issued, and none that has still to be
performed orders it (R16, R99, R102, R107): it is unqualified and not of DEVICE memory, none of them holds it back, and
none accesses its bytes. -/
def State.returnOk (s : State) (n : Nat) (t : TiqEntry) : Bool :=
  match loadOf t with
  | none => false
  | some (va, k, x) =>
    t.issued && !t.returned && Pfx.order x == 0 && !s.isDevice va k
    && ((upto n).zip (s.older n)).all fun p =>
      p.2.issued && (p.2.returned || (!holdsBack p.2.i
        && (match s.rangesOf p.1 p.2 with | some qs => !(qs.any (Range.at_ false va k).overlaps) | none => false)))

/-- Entry n has been performed: its data has returned, and it leaves the interlock. -/
def Ctx.performedAt (c : Ctx) (n : Nat) (seq : BitVec 32) : Ctx :=
  { c with tiq := modifyAt (fun t => { t with done := true, returned := true }) c.tiq n,
           ilock := c.ilock.filter fun x => x.seq != seq }

/-- SCALAR_RETURN: a scalar load's data reaches its register ahead of the load's retirement. SKIPWP is the head's alone
(R282). -/
def execScalarReturn (n : Nat) (s : State) : Out :=
  match s.ctx.tiq[n]? with
  | none => .refused (.notEnabled "SCALAR_RETURN")
  | some t =>
    if !s.returnOk n t then .refused (.notEnabled "SCALAR_RETURN")
    else
      match effectOf t.i with
      | none => .refused (.notEnabled "SCALAR_RETURN")
      | some e =>
        match e t (if n = 0 then s else s.mapCtx Ctx.tried) with
        | .done u => .next (u.mapCtx fun c => { c.performedAt n t.seq with skipwp := n != 0 && s.ctx.skipwp })
        | _ => .refused (.notEnabled "SCALAR_RETURN")

/-- ACCESS_COMPLETE: the access of the head entry is performed, or its wait begins; the entry leaves the interlock when it
is performed (R22, R87). -/
def execAccessComplete (n : Nat) (s : State) : Out :=
  let no : Out := .refused (.notEnabled "ACCESS_COMPLETE")
  match s.ctx.tiq with
  | [] => no
  | t :: _ =>
    if n != 0 || s.ctx.run != .running || !t.issued || t.done || t.returned then no
    else
      match effectOf t.i with
      | none => no
      | some e =>
        match s.headEff t e with
        | .done s => .next (if s.ctx.run == .running && !s.ctx.tiq.isEmpty then
            s.mapCtx fun c => { (c.performedAt 0 t.seq).tried with wait := {} } else s)
        | .block w s => .next (s.mapCtx fun c => { c with wait := w })
        | .trap _ _ _ => no

/-- The younger entries that have issued are squashed by a Reed mismatch; they issue again (R383). -/
def State.reedSquash (s : State) : State :=
  let s := s.mapCtx fun c => { c with tiq := c.tiq.map TiqEntry.rested, ilock := [], olds := [] }
  { s with core := { s.core with reedmis := true } }

/-- RETIRE, with what Reed found. The head entry, performed now where its access has not performed it, retires; where it
waits, its wait begins. A fault of the entry comes before a mismatch: Reed checks completed instructions (R270). -/
def execRetire (reed : ReedOutcome) (s : State) : Out :=
  match s.ctx.tiq with
  | [] => .refused (.notEnabled "RETIRE")
  | t :: _ =>
    if s.ctx.run != .running || !t.issued || !t.done || (reed != .clean && !reedChecks t.i) then
      .refused (.notEnabled "RETIRE")
    else
      match s.performHead with
      | .retired u =>
        .next (if reed == .mismatch then
            (if s.core.reedmis then
              (s.count s.die 0x858).suspectCore.entryFault { cause := .sdcDetected, tile := (fieldsOf t.i).map TileFields.td } 0 t
            else s.reedSquash)
          else if reed == .corrected || s.core.reedmis then u.count u.die 0x857 else u)
      | .blocked u => if reed == .mismatch then .refused (.notEnabled "RETIRE") else .next u
      | _ => .refused (.notEnabled "RETIRE")

/-- CONTEXT_STOP: the head entry faults, and its context stops. -/
def execContextStop (s : State) : Out :=
  if s.ctx.run != .running then .refused (.notEnabled "CONTEXT_STOP")
  else
    match s.performHead with
    | .stopped s => .next s
    | _ => .refused (.notEnabled "CONTEXT_STOP")

end Sys2Proof.Machine
end

