-- ==== Sys2Proof/Machine/Alu.lean ====
section
/-!
DEFINITION. Sys2Proof/Machine/Alu.lean: the integer instructions of the control stream (R139 to R143, R156).
-/

namespace Sys2Proof.Machine

/-- A control instruction waits for the pending scalar returns of the registers it names (R16), and then acts. -/
def ctlStep (s : State) (regs : List Dst) (act : State) : Out := .next (if s.ctx.mustWait regs then s else act)

/-- An instruction that puts a value in G[d]. -/
def aluStep (d : BitVec 5) (srcs : List (BitVec 5)) (words : Nat) (v : GWord) (s : State) : Out :=
  ctlStep s ((d :: srcs).map Dst.g) (s.mapCtx fun c => (c.setG d v).advance words)

/-- An instruction that puts a condition in P[d]. -/
def cmpStep (d : BitVec 5) (srcs : List (BitVec 5)) (words : Nat) (v : Bool) (s : State) : Out :=
  ctlStep s (srcs.map Dst.g) (s.mapCtx fun c => (c.setP (pIdx d) v).advance words)

/-- A general register of the focused context. -/
def State.gr (s : State) (r : BitVec 5) : GWord := s.ctx.getG r

/-! ## Table 07-1 -/

def execAdd (d a b : BitVec 5) (s : State) : Out := aluStep d [a, b] 1 (s.gr a + s.gr b) s
def execSub (d a b : BitVec 5) (s : State) : Out := aluStep d [a, b] 1 (s.gr a - s.gr b) s
def execMul (d a b : BitVec 5) (s : State) : Out := aluStep d [a, b] 1 (s.gr a * s.gr b) s
/-- Bits [127:64] of the signed product. -/
def execMulh (d a b : BitVec 5) (s : State) : Out :=
  aluStep d [a, b] 1 (BitVec.ofInt 64 ((s.gr a).toInt * (s.gr b).toInt / 2 ^ 64)) s
/-- Bits [127:64] of the unsigned product. -/
def execMulhn (d a b : BitVec 5) (s : State) : Out :=
  aluStep d [a, b] 1 (BitVec.ofNat 64 ((s.gr a).toNat * (s.gr b).toNat / 2 ^ 64)) s
def execDiv (d a b : BitVec 5) (s : State) : Out :=
  aluStep d [a, b] 1 (BitVec.ofNat 64 (divInt 64 true (s.gr a).toNat (s.gr b).toNat)) s
def execDivn (d a b : BitVec 5) (s : State) : Out :=
  aluStep d [a, b] 1 (BitVec.ofNat 64 (divInt 64 false (s.gr a).toNat (s.gr b).toNat)) s
def execRem (d a b : BitVec 5) (s : State) : Out :=
  aluStep d [a, b] 1 (BitVec.ofNat 64 (remInt 64 true (s.gr a).toNat (s.gr b).toNat)) s
def execRemn (d a b : BitVec 5) (s : State) : Out :=
  aluStep d [a, b] 1 (BitVec.ofNat 64 (remInt 64 false (s.gr a).toNat (s.gr b).toNat)) s
def execAnd (d a b : BitVec 5) (s : State) : Out := aluStep d [a, b] 1 (s.gr a &&& s.gr b) s
def execOr (d a b : BitVec 5) (s : State) : Out := aluStep d [a, b] 1 (s.gr a ||| s.gr b) s
def execXor (d a b : BitVec 5) (s : State) : Out := aluStep d [a, b] 1 (s.gr a ^^^ s.gr b) s
def execAndn (d a b : BitVec 5) (s : State) : Out := aluStep d [a, b] 1 (s.gr a &&& ~~~(s.gr b)) s
/-- The shift amount gb[5:0]. -/
def shiftAmt (b : GWord) : Nat := (b.extractLsb' 0 6).toNat
def execSll (d a b : BitVec 5) (s : State) : Out := aluStep d [a, b] 1 (s.gr a <<< shiftAmt (s.gr b)) s
def execSrl (d a b : BitVec 5) (s : State) : Out := aluStep d [a, b] 1 (s.gr a >>> shiftAmt (s.gr b)) s
def execSra (d a b : BitVec 5) (s : State) : Out := aluStep d [a, b] 1 ((s.gr a).sshiftRight (shiftAmt (s.gr b))) s
def execMin (d a b : BitVec 5) (s : State) : Out :=
  aluStep d [a, b] 1 (if (s.gr a).toInt ≤ (s.gr b).toInt then s.gr a else s.gr b) s
def execMax (d a b : BitVec 5) (s : State) : Out :=
  aluStep d [a, b] 1 (if (s.gr a).toInt ≤ (s.gr b).toInt then s.gr b else s.gr a) s
def execMinn (d a b : BitVec 5) (s : State) : Out :=
  aluStep d [a, b] 1 (if (s.gr a).toNat ≤ (s.gr b).toNat then s.gr a else s.gr b) s
def execMaxn (d a b : BitVec 5) (s : State) : Out :=
  aluStep d [a, b] 1 (if (s.gr a).toNat ≤ (s.gr b).toNat then s.gr b else s.gr a) s
/-- Leading zero bits of a 64-bit value: 64 for 0. -/
def clz64 (v : GWord) : Nat := ((upto 64).find? fun i => v.getLsbD (63 - i)).getD 64
def ctz64 (v : GWord) : Nat := ((upto 64).find? fun i => v.getLsbD i).getD 64
def popc64 (v : GWord) : Nat := ((upto 64).filter fun i => v.getLsbD i).length
def execClz (d a : BitVec 5) (s : State) : Out := aluStep d [a] 1 (BitVec.ofNat 64 (clz64 (s.gr a))) s
def execCtz (d a : BitVec 5) (s : State) : Out := aluStep d [a] 1 (BitVec.ofNat 64 (ctz64 (s.gr a))) s
def execPopc (d a : BitVec 5) (s : State) : Out := aluStep d [a] 1 (BitVec.ofNat 64 (popc64 (s.gr a))) s
def execSext8 (d a : BitVec 5) (s : State) : Out :=
  aluStep d [a] 1 (((s.gr a).extractLsb' 0 8).signExtend 64) s
def execSext16 (d a : BitVec 5) (s : State) : Out :=
  aluStep d [a] 1 (((s.gr a).extractLsb' 0 16).signExtend 64) s
def execSext32 (d a : BitVec 5) (s : State) : Out :=
  aluStep d [a] 1 (((s.gr a).extractLsb' 0 32).signExtend 64) s

/-! ## Immediates (R140, R141) -/

/-- The immediate of a CI instruction as a 64-bit value (R140). -/
def imm64 (i : BitVec 14) (x : Pfx) : GWord := BitVec.ofInt 64 (ciImm i x)
/-- Words of a unit of one word and its prefix. -/
def unitLen (x : Pfx) : Nat := 1 + pfxLen x

def execAddi (d a : BitVec 5) (i : BitVec 14) (x : Pfx) (s : State) : Out :=
  aluStep d [a] (unitLen x) (s.gr a + imm64 i x) s
def execAndi (d a : BitVec 5) (i : BitVec 14) (x : Pfx) (s : State) : Out :=
  aluStep d [a] (unitLen x) (s.gr a &&& imm64 i x) s
def execOri (d a : BitVec 5) (i : BitVec 14) (x : Pfx) (s : State) : Out :=
  aluStep d [a] (unitLen x) (s.gr a ||| imm64 i x) s
def execXori (d a : BitVec 5) (i : BitVec 14) (x : Pfx) (s : State) : Out :=
  aluStep d [a] (unitLen x) (s.gr a ^^^ imm64 i x) s
def execSlli (d a : BitVec 5) (i : BitVec 14) (x : Pfx) (s : State) : Out :=
  aluStep d [a] (unitLen x) (s.gr a <<< (ciImm i x).toNat) s
def execSrli (d a : BitVec 5) (i : BitVec 14) (x : Pfx) (s : State) : Out :=
  aluStep d [a] (unitLen x) (s.gr a >>> (ciImm i x).toNat) s
def execSrai (d a : BitVec 5) (i : BitVec 14) (x : Pfx) (s : State) : Out :=
  aluStep d [a] (unitLen x) ((s.gr a).sshiftRight (ciImm i x).toNat) s

/-- li: 19 bits, or 49 under a prefix, sign-extended. -/
def execLi (d : BitVec 5) (i : BitVec 19) (x : Pfx) (s : State) : Out :=
  aluStep d [] (unitLen x) (match x with | none => i.signExtend 64 | some p => (p ++ i).signExtend 64) s
/-- lui: the top 19 bits, or 49 under a prefix, are replaced; the source is G[d] itself. -/
def execLui (d : BitVec 5) (i : BitVec 19) (x : Pfx) (s : State) : Out :=
  aluStep d [] (unitLen x)
    (match x with
      | none => i ++ (s.gr d).extractLsb' 0 45
      | some p => (p ++ i) ++ (s.gr d).extractLsb' 0 15) s

/-! ## Compare and select (R142, R143) -/

def execCmp (d a b : BitVec 5) (r : BitVec 9) (s : State) : Out :=
  cmpStep d [a, b] 1 (relInt 64 r.toNat (s.gr a).toNat (s.gr b).toNat) s
/-- cmpi: the relation of ga to the immediate. -/
def cmpiStep (rel : Nat) (d a : BitVec 5) (i : BitVec 14) (x : Pfx) (s : State) : Out :=
  cmpStep d [a] (unitLen x) (relInt 64 rel (s.gr a).toNat (imm64 i x).toNat) s
def execCmpiEq (d a : BitVec 5) (i : BitVec 14) (x : Pfx) (s : State) : Out := cmpiStep 0 d a i x s
def execCmpiNe (d a : BitVec 5) (i : BitVec 14) (x : Pfx) (s : State) : Out := cmpiStep 1 d a i x s
def execCmpiLt (d a : BitVec 5) (i : BitVec 14) (x : Pfx) (s : State) : Out := cmpiStep 2 d a i x s
def execCmpiLe (d a : BitVec 5) (i : BitVec 14) (x : Pfx) (s : State) : Out := cmpiStep 3 d a i x s
def execCmpiGt (d a : BitVec 5) (i : BitVec 14) (x : Pfx) (s : State) : Out := cmpiStep 4 d a i x s
def execCmpiGe (d a : BitVec 5) (i : BitVec 14) (x : Pfx) (s : State) : Out := cmpiStep 5 d a i x s
def execCmpiLtn (d a : BitVec 5) (i : BitVec 14) (x : Pfx) (s : State) : Out := cmpiStep 6 d a i x s
def execCmpiGen (d a : BitVec 5) (i : BitVec 14) (x : Pfx) (s : State) : Out := cmpiStep 9 d a i x s

/-- sel: ga where P[n] xor the inversion is 1. -/
def execSel (d a b : BitVec 5) (n : BitVec 3) (i : BitVec 1) (s : State) : Out :=
  aluStep d [a, b] 1 (if s.ctx.getP n != (i == 1) then s.gr a else s.gr b) s

/-- nop (R156). -/
def execNop (s : State) : Out := ctlStep s [] (s.mapCtx fun c => c.advance 1)

end Sys2Proof.Machine
end

