-- ==== Sys2Proof/Machine/AddrArith.lean ====
section
/-!
DEFINITION. Sys2Proof/Machine/AddrArith.lean: address arithmetic (R138, R144, R145).
-/

namespace Sys2Proof.Machine

/-- An address register of the focused context. -/
def State.ar (s : State) (r : BitVec 4) : Addr := s.ctx.getA r

/-- An instruction that puts an address in A[d]; A15 below the stack limit traps STACK_LIMIT and is left unchanged
(R138). -/
def addrStep (d : BitVec 4) (regs : List Dst) (words : Nat) (v : Addr) (s : State) : Out :=
  ctlStep s (.a d :: regs)
    (if s.ctx.stackBad d v then s.trapCtl { cause := .stackLimit } s.ctx.pc
     else s.mapCtx fun c => (c.setA d v).advance words)

def execAadd (d a : BitVec 4) (g : BitVec 5) (sh : BitVec 3) (s : State) : Out :=
  addrStep d [.a a, .g g] 1 (s.ar a + ((s.gr g).signExtend 72 <<< sh.toNat)) s
def execAsub (d a : BitVec 4) (g : BitVec 5) (sh : BitVec 3) (s : State) : Out :=
  addrStep d [.a a, .g g] 1 (s.ar a - ((s.gr g).signExtend 72 <<< sh.toNat)) s
def execAmovg (d : BitVec 4) (g : BitVec 5) (s : State) : Out := addrStep d [.g g] 1 ((s.gr g).setWidth 72) s
def execAmovh (a : BitVec 4) (g : BitVec 5) (s : State) : Out :=
  ctlStep s [.g g, .a a] (s.mapCtx fun c => (c.setG g ((s.ar a).extractLsb' 64 8 |>.setWidth 64)).advance 1)
def execGmova (a : BitVec 4) (g : BitVec 5) (s : State) : Out :=
  ctlStep s [.g g, .a a] (s.mapCtx fun c => (c.setG g ((s.ar a).extractLsb' 0 64)).advance 1)
def execAhi (d a : BitVec 4) (g : BitVec 5) (s : State) : Out :=
  addrStep d [.a a, .g g] 1 ((s.gr g).extractLsb' 0 8 ++ (s.ar a).extractLsb' 0 64) s
def execAaddi (d a : BitVec 5) (i : BitVec 14) (x : Pfx) (s : State) : Out :=
  addrStep (aIdx d) [.a (aIdx a)] (unitLen x) (s.ar (aIdx a) + BitVec.ofInt 72 (ciImm i x)) s

/-- The relations of acmp: eq, ne, ltn, len, gtn, gen. -/
def relAddr (r : Nat) (a b : Addr) : Bool :=
  match r with
  | 0 => a == b
  | 1 => a != b
  | 2 => decide (a.toNat < b.toNat)
  | 3 => decide (a.toNat ≤ b.toNat)
  | 4 => decide (b.toNat < a.toNat)
  | _ => decide (b.toNat ≤ a.toNat)

/-- acmp: d names P, b names A. -/
def execAcmp (d a : BitVec 4) (b : BitVec 5) (r : BitVec 3) (s : State) : Out :=
  ctlStep s [.a a, .a (aIdx b)]
    (s.mapCtx fun c => (c.setP (d.extractLsb' 0 3) (relAddr r.toNat (s.ar a) (s.ar (aIdx b)))).advance 1)

end Sys2Proof.Machine
end

