-- ==== Sys2Proof/Machine/Branch.lean ====
section
/-!
DEFINITION. Sys2Proof/Machine/Branch.lean: branches, loops and calls (R148 to R150), trap and brk (R155), end (R157).
-/

namespace Sys2Proof.Machine

/-- The address of a unit's own word: after its prefix, where it has one. -/
def State.wordPc (s : State) (x : Pfx) : Addr := s.ctx.pc + BitVec.ofNat 72 (4 * pfxLen x)

/-- A displacement field of `w` bits in words, with the prefix's payload above it (R120), as bytes. -/
def dispOf {w : Nat} (d : BitVec w) (x : Pfx) : Addr :=
  BitVec.ofInt 72 (4 * (match x with | none => d.toInt | some p => (p ++ d).toInt))

/-- Control goes to an address; the transfer retires. -/
def Ctx.jump (c : Ctx) (t : Addr) : Ctx := { c with pc := t, retd := c.retd + 1 }

def execBr (d : BitVec 24) (x : Pfx) (s : State) : Out :=
  ctlStep s [] (s.mapCtx fun c => c.jump (s.wordPc x + dispOf d x))
def execBrp (p : BitVec 3) (n : BitVec 1) (d : BitVec 20) (x : Pfx) (s : State) : Out :=
  ctlStep s [] (s.mapCtx fun c =>
    if c.getP p != (n == 1) then c.jump (s.wordPc x + dispOf d x) else c.advance (unitLen x))
/-- loop: decrements, and jumps when the new value is not 0. G0's decrement is discarded, and its value is 0 - 1. -/
def execLoop (g : BitVec 5) (i : BitVec 19) (x : Pfx) (s : State) : Out :=
  let v := s.gr g - 1
  ctlStep s [.g g] (s.mapCtx fun c =>
    if v != 0 then (c.setG g v).jump (s.wordPc x + dispOf i x) else (c.setG g v).advance (unitLen x))
/-- call: A13 takes the address after the call word. -/
def execCall (d : BitVec 24) (x : Pfx) (s : State) : Out :=
  ctlStep s [.a 13] (s.mapCtx fun c => (c.setA 13 (s.wordPc x + 4)).jump (s.wordPc x + dispOf d x))
/-- calli: A[a] is read before A13 is written; landing is pending. -/
def execCalli (a : BitVec 5) (s : State) : Out :=
  ctlStep s [.a (aIdx a), .a 13]
    (s.mapCtx fun c => { (c.setA 13 (c.pc + 4)).jump (s.ar (aIdx a)) with landp := true })
def execJmpi (a : BitVec 5) (s : State) : Out :=
  ctlStep s [.a (aIdx a)] (s.mapCtx fun c => { c.jump (s.ar (aIdx a)) with landp := true })
def execRet (s : State) : Out := ctlStep s [.a 13] (s.mapCtx fun c => c.jump (s.ar 13))
def execLand (s : State) : Out := ctlStep s [] (s.mapCtx fun c => { c.advance 1 with landp := false })

/-! ## trap and brk -/

/-- The code of trap and brk: 19 bits, or 49 under a prefix. -/
def trapCode (i : BitVec 19) (x : Pfx) : Addr := match x with | none => i.setWidth 72 | some p => (p ++ i).setWidth 72

/-- trap: the frame's PC is the unit after it, which a resumed context executes next. -/
def execTrap (i : BitVec 19) (x : Pfx) (s : State) : Out :=
  .next (s.trapCtl { cause := .trapInstr, va := some (trapCode i x) } (s.ctx.pc + BitVec.ofNat 72 (4 * unitLen x)))
/-- brk: the frame's PC is its own. -/
def execBrk (i : BitVec 19) (x : Pfx) (s : State) : Out :=
  .next (s.trapCtl { cause := .breakpoint, va := some (trapCode i x) } s.ctx.pc)

/-! ## end -/

/-- What end meets in its step 1: older entries, copies that have not completed, or a stopped copy, which it reports
(R157, R247). -/
def execEndUnit (s : State) : Out :=
  .next (
    if !s.ctx.tiq.isEmpty then s
    else
      match s.ctx.copies.findSome? fun c => c.stop.map fun f => (c, f) with
      | some (c, f) => s.ctlTrap (stopInfo c f) s.ctx.pc
      | none => if s.ctx.copies.isEmpty then s.endUnit else s)

end Sys2Proof.Machine
end

