-- ==== Sys2Proof/Machine/Csr.lean ====
section
/-!
DEFINITION. Sys2Proof/Machine/Csr.lean: the CSRs (R47, R48, R51, R376): their values, their write rules, and csrr, csrw,
csrs, csrc (R154).
-/

namespace Sys2Proof.Machine

/-! ## Capabilities (Table 02-8) -/

/-- Dies in service. -/
def State.dies (s : State) : Nat := if s.die1Up then 2 else 1
/-- Cores of a die that are not fenced. -/
def State.coresD (s : State) (die : Nat) : Nat := ((upto 96).filter fun c => !s.fenced die c).length
/-- Loom ports in service: every port of the variant on a die in service, trained and enabled or not (DESIGN CHOICE,
notes/assumptions/41.md). -/
def State.portsUp (s : State) : Nat := ((upto 8).filter fun p => s.hasPort p && (s.variant == .l5 || s.dieUp (portDie p))).length

def State.cap0 (s : State) : Nat :=
  bit s.fp64 + 2 * bit s.bitPlane + 4 * bit (s.die1Up && !s.shLost) + 8 * bit s.die1Up + 16 * bit (s.die1Up && !s.shLost)
/-- CORESD is the count of the reading core's own die (DESIGN CHOICE, notes/assumptions/41.md). -/
def State.cap1 (s : State) : Nat := s.dies + s.coresD s.die <<< 2 + 12 <<< 10
def State.cap2 (s : State) : Nat :=
  (match s.variant with | .l7 => 4 | _ => 6) * s.dies + (s.hbmPerDie / 2 ^ 30 * s.dies) <<< 8 + 64 <<< 24
def State.cap3 (s : State) : Nat := s.portsUp + (if s.variant = .l5 then 0 else s.insvc) <<< 4

/-! ## Reads -/

/-- A user CSR's value (Table 02-5); none for a number not in the table. -/
def State.userCsr (s : State) (n : Nat) : Option Nat :=
  let c := s.ctx
  match n with
  | 0x000 => some c.fcsr.toNat
  | 0x001 => some c.efc.toNat
  | 0x002 => some c.xr.toNat
  | 0x003 => some c.xc.toNat
  | 0x004 => some c.tsc.toNat
  | 0x005 => some c.tes.toNat
  | 0x006 => some (c.tiq.length + c.nextseq.toNat <<< 32)
  | 0x010 => some c.uid.toNat
  | 0x011 => some c.ucnt.toNat
  | 0x012 => some c.cgr.toNat
  | 0x013 => some c.lid.toNat
  | 0x014 => some c.diem.toNat
  | 0x015 => some s.core.cid.toNat
  | 0x020 => some s.core.cyc
  | 0x021 => some c.retd.toNat
  | 0x030 => some s.cap0
  | 0x031 => some s.cap1
  | 0x032 => some s.cap2
  | 0x033 => some s.cap3
  | 0x034 => some (s.stepping.toNat + s.gen.toNat <<< 8)
  | 0x050 => some c.splim.toNat
  | _ => if 0x040 ≤ n ∧ n < 0x050 then some (c.bpa.toList.getD (n - 0x040) 0).toNat else none

/-- The system CSRs kept by number (Tables 18-9, 17-10, 20-3, 22-7), without EPC, EPCH and ESTAT. -/
def sysNumber (n : Nat) : Bool :=
  n == 0x808 || n == 0x810 || n == 0x811 || (0x818 ≤ n && n ≤ 0x81B) || (0x820 ≤ n && n ≤ 0x823) || n == 0x828 || n == 0x829
    || (0x830 ≤ n && n ≤ 0x838) || n == 0x840 || (0x850 ≤ n && n ≤ 0x861) || (0x870 ≤ n && n ≤ 0x874)

/-- A system CSR's value, as a core of a die reads it. -/
def State.sysCsr (s : State) (die n : Nat) : Option Nat :=
  match n with
  | 0x800 => some s.core.epc.toNat
  | 0x801 => some s.core.epch.toNat
  | 0x802 => some s.core.estat.toNat
  | _ => if sysNumber n then some (s.getSys die n).toNat else none

/-- A CSR's value. -/
def State.csr (s : State) (n : Nat) : Option Nat := if n < 0x800 then s.userCsr n else s.sysCsr s.die n

/-! ## Writes -/

/-- A write of TSC: every slot is discarded, every name becomes unallocated (R38). -/
def Ctx.writeTsc (c : Ctx) (v : BitVec 2) : Ctx := { c with tsc := v, tiles := Vector.replicate 32 {}, olds := [] }

/-- A write of a user CSR: none where it traps ILLEGAL_FIELD (R47, R154). -/
def Ctx.writeUser (c : Ctx) (n : Nat) (v : GWord) : Option Ctx :=
  match n with
  | 0x000 => if v.extractLsb' 6 58 != 0 then none else some { c with fcsr := v.extractLsb' 0 6 }
  | 0x001 => if v.extractLsb' 32 32 != 0 then none else some { c with efc := v.extractLsb' 0 32 }
  | 0x002 => if v = 0 ∨ 256 < v.toNat then none else some { c with xr := v.extractLsb' 0 9 }
  | 0x003 => if v = 0 ∨ 1024 < v.toNat then none else some { c with xc := v.extractLsb' 0 11 }
  | 0x004 => if v.extractLsb' 2 62 != 0 then none else some (c.writeTsc (v.extractLsb' 0 2))
  | 0x050 => if v.extractLsb' 0 8 != 0 then none else some { c with splim := v }
  | _ =>
    if 0x040 ≤ n ∧ n < 0x050 then
      (if v.getLsbD 1 then none
       else some { c with bpa := c.bpa.mapIdx fun i x => if i = n - 0x040 then v else x })
    else none

/-- A physical base of bits [55:16], a count of at most 65,536, and a plain field of `w` bits. -/
def baseField (v : GWord) : Option GWord := if v &&& 0xFF0000000000FFFF#64 != 0 then none else some v
def countField (v : GWord) : Option GWord := if 65536 < v.toNat then none else some v
def plainField (w : Nat) (v : GWord) : Option GWord := if 2 ^ w ≤ v.toNat then none else some v
/-- A budget or share: an over-range value is clamped and stored (R376, Table 17-10). -/
def clampField (m : Nat) (v : GWord) : Option GWord := some (BitVec.ofNat 64 (min m v.toNat))

/-- Value that a write of a system CSR stores: none where it traps. -/
def State.sysField (s : State) (die n : Nat) (v : GWord) : Option GWord :=
  match n with
  | 0x808 => if 254 < v.toNat ∨ s.sys.any (fun x => x.1 == 0x808) then none else some v
  | 0x810 | 0x818 | 0x81A | 0x828 | 0x829 | 0x85E => baseField v
  | 0x820 => if fqEn (s.getSys die 0x821) then none else baseField v
  | 0x811 => countField v
  | 0x819 | 0x81B => plainField 17 v
  | 0x822 => some v
  | 0x830 | 0x831 | 0x832 | 0x861 => plainField 32 v
  | 0x833 | 0x834 => clampField 512 v
  | 0x835 => clampField 16 v
  | 0x836 => if v.extractLsb' 0 6 != 0 then none else plainField 56 v
  | 0x837 | 0x85F => plainField 24 v
  | 0x838 => plainField 16 v
  | 0x85D => if v = 0 then none else plainField 8 v
  | 0x860 => some v
  | 0x870 => if v.toNat < 1200 ∨ 2800 < v.toNat then none else some v
  | _ => if 0x850 ≤ n ∧ n ≤ 0x85C then some v else none

/-- Entries that wait for room in a die's fault queue are written while it has room: those of no core first, then those
that stopped cores hold (R366). -/
def State.drainFaults (s : State) (die : Nat) : State :=
  let s := (s.fqPend.filter fun e => e.die == die).foldl (fun s e =>
    match s.fqWrite e.die e.record e.core e.asid e.src with
    | some t => { t with fqPend := t.fqPend.erase e }
    | none => s) s
  (s.units.filter fun u => u.1.cid.toNat / 128 == die && u.1.fqwait.isSome).foldl (fun s u =>
    match u.1.fqwait with
    | none => s
    | some r =>
      match s.fqWrite die r.image u.1.cid.toNat u.2.asid.toNat 0 with
      | some t => t.mapUnits fun k x => (if k.cid == u.1.cid then { k with fqwait := none } else k, x)
      | none => s) s

/-- A write of FQCTL (Table 18-10): setting EN zeroes the counts; FULL is cleared by writing 1. None where it traps. -/
def State.writeFqctl (s : State) (die : Nat) (v : GWord) : Option State :=
  let old := s.getSys die 0x821
  if v &&& 0xFFFFFFFFFFFFF8E0#64 != 0 || decide (fqLog2 v < 6) || decide (16 < fqLog2 v)
      || (fqEn old && fqLog2 v != fqLog2 old) then none
  else
    let full := old.getLsbD 10 && !v.getLsbD 10
    let s := s.setSys die 0x821 ((v &&& 0x31F) ||| (if full then 0x400 else 0))
    let s := if fqEn v && !fqEn old then
        { (s.setSys die 0x822 0).setSys die 0x823 0 with
          fqseq := if die = 0 then s.fqseq.set 0 0 else s.fqseq.set 1 0 }
      else s
    some (if fqEn v then s.drainFaults die else s)

/-- A write of FQHEAD: firmware has read entries, and the interrupt it took for them is gone; entries that waited are
written (R366, R368). -/
def State.writeFqhead (s : State) (die : Nat) (v : GWord) : State :=
  (State.setSys { s with fqIrq := s.fqIrq &&& ~~~(1#2 <<< die) } die 0x822 v).drainFaults die

/-- A write of a system CSR by a core, or for the host, on a die: none where it traps. -/
def State.writeSys (s : State) (die n : Nat) (v : GWord) : Option State :=
  match n with
  | 0x800 => some { s with core := { s.core with epc := v } }
  | 0x801 => if v.extractLsb' 8 56 != 0 then none else some { s with core := { s.core with epch := v.extractLsb' 0 8 } }
  | 0x802 => if v.extractLsb' 1 63 != 0 then none else some { s with core := { s.core with estat := v.extractLsb' 0 1 } }
  | 0x821 => s.writeFqctl die v
  | 0x822 => some (s.writeFqhead die v)
  | _ =>
    (s.sysField die n v).map fun w =>
      let s := s.setSys die n w
      if 0x850 ≤ n ∧ n ≤ 0x85C then { s with rasRep := s.rasRep.filter fun k => k != sysKey (if dieScoped n then die else 0) n }
      else s

/-- A write of a CSR. -/
def State.writeCsr (s : State) (n : Nat) (v : GWord) : Option State :=
  if n < 0x800 then (s.ctx.writeUser n v).map fun c => { s with ctx := c } else s.writeSys s.die n v

/-! ## csrr, csrw, csrs, csrc -/

/-- CSRs whose reads wait for every older entry (R48). -/
def waitsRead (n : Nat) : Bool := n ≤ 0x005 || n == 0x021
/-- CSRs whose writes wait. -/
def waitsWrite (n : Nat) : Bool := n ≤ 0x005 || n == 0x021

/-- Read-only CSRs (Tables 02-5, 18-9, 22-7). -/
def csrRo (n : Nat) : Bool :=
  n == 0x005 || n == 0x006 || (0x010 ≤ n && n ≤ 0x015) || n == 0x020 || n == 0x021 || (0x030 ≤ n && n ≤ 0x034)
    || n == 0x823 || n == 0x840 || (0x871 ≤ n && n ≤ 0x874)

/-- The trap of a CSR number that the tables do not name, or of a write it refuses. -/
def csrTrap (s : State) (dstep : Nat) : State := s.trapCtl { cause := .illegalField, dstep := dstep } s.ctx.pc

/-- csrr -/
def execCsrr (g : BitVec 5) (c : BitVec 12) (s : State) : Out :=
  let n := c.toNat
  ctlStep s [.g g] (
    match s.csr n with
    | none => csrTrap s 7
    | some v =>
      if waitsRead n && !s.ctx.tiq.isEmpty then s
      else s.mapCtx fun x => (x.setG g (BitVec.ofNat 64 v)).advance 1)

/-- A write of a CSR with a value made from its old one. -/
def csrWrite (g : BitVec 5) (c : BitVec 12) (f : GWord → GWord → GWord) (s : State) : Out :=
  let n := c.toNat
  ctlStep s [.g g] (
    match s.csr n with
    | none => csrTrap s 7
    | some old =>
      if csrRo n then csrTrap s 7
      else if waitsWrite n && !s.ctx.tiq.isEmpty then s
      else
        match s.writeCsr n (f (BitVec.ofNat 64 old) (s.gr g)) with
        | none => csrTrap s 0
        | some t => t.mapCtx fun x => x.advance 1)

def execCsrw (g : BitVec 5) (c : BitVec 12) (s : State) : Out := csrWrite g c (fun _ v => v) s
def execCsrs (g : BitVec 5) (c : BitVec 12) (s : State) : Out := csrWrite g c (fun o v => o ||| v) s
def execCsrc (g : BitVec 5) (c : BitVec 12) (s : State) : Out := csrWrite g c (fun o v => o &&& ~~~v) s

/-! ## The rows of register writes -/

/-- TSC: a write of TSC in the focused context, once every older entry has retired (R38). -/
def execTscWrite (v : BitVec 64) (s : State) : Out :=
  if s.ctx.run != .running || !s.ctx.tiq.isEmpty || v.extractLsb' 2 62 != 0 then .refused (.notEnabled "TSC")
  else .next (s.mapCtx fun c => c.writeTsc (v.extractLsb' 0 2))

/-- FQCTL: firmware's write on a die; a value the register refuses changes nothing. -/
def execFqctl (d : Nat) (v : BitVec 64) (s : State) : Out := .next ((s.writeFqctl (d % 2) v).getD s)
/-- FQHEAD. -/
def execFqhead (d : Nat) (v : BitVec 64) (s : State) : Out := .next (s.writeFqhead (d % 2) v)

end Sys2Proof.Machine
end

