-- ==== Sys2Proof/Machine/Frame.lean ====
section
/-!
DEFINITION. Sys2Proof/Machine/Frame.lean: the context frame (R274 to R277, Tables 12-4 and 12-5): a context as the bytes of
a frame, and a frame as a context.
-/

namespace Sys2Proof.Machine

/-! ## Bytes at offsets -/

/-- A bit string made of fields: offset in bytes, bytes, value. -/
def packAt (fs : List (Nat × Nat × Nat)) : Nat := fs.foldl (fun n f => n + (f.2.2 % 2 ^ (8 * f.2.1)) <<< (8 * f.1)) 0

/-- `n` bytes of a bit string from a byte offset. -/
def fieldAt (b off n : Nat) : Nat := getBits b (8 * off) (8 * n)

/-- A count rounded up to a multiple. -/
def alignUp (a n : Nat) : Nat := ceilDiv n a * a

/-! ## Sections (R277) -/

namespace WaitKind
/-- KIND of the wait section. -/
def code : WaitKind → Nat
  | none => 0
  | evwait => 1
  | futrd => 2
  | token => 3
  | txchg => 4
  | send => 5
  | recv => 6
  | cbar => 7
def ofCode (n : Nat) : WaitKind :=
  match n with
  | 1 => evwait
  | 2 => futrd
  | 3 => token
  | 4 => txchg
  | 5 => send
  | 6 => recv
  | 7 => cbar
  | _ => none
end WaitKind

/-- ENC and PFX of an instruction, as bit strings. -/
def encPfx (i : Instr) : Nat × Nat :=
  match encode i with
  | [w] => (w.toNat, 0)
  | [a, b] => if (a.extractLsb' 0 2).toNat = 3 then (b.toNat, (a.extractLsb' 2 30).toNat + 2 ^ 30) else (a.toNat + b.toNat <<< 32, 0)
  | [x, a, b] => (a.toNat + b.toNat <<< 32, (x.extractLsb' 2 30).toNat + 2 ^ 30)
  | _ => (0, 0)

/-- The 128 bytes of a TIQ entry. -/
def TiqEntry.image (t : TiqEntry) : Nat :=
  let e := encPfx t.i
  packAt ([(0, 8, e.1), (8, 4, e.2), (12, 4, t.seq.toNat), (16, 16, t.pc.toNat), (32, 16, t.aop.toNat),
      (48, 8, t.g0.toNat), (56, 8, t.g1.toNat), (64, 8, t.g2.toNat), (104, 16, t.aop2.toNat)]
    ++ (upto t.scal.length).map fun k => (72 + 4 * k, 4, (t.scal.getD k 0).toNat))

/-- The instruction that ENC and PFX hold. -/
def instrOf (enc pfx : Nat) : Option Instr :=
  let x : Pfx := if pfx.testBit 30 then some (BitVec.ofNat 30 pfx) else none
  match decodeUnit false x (BitVec.ofNat 32 enc) (BitVec.ofNat 32 (enc >>> 32)) with
  | .ok i => some i
  | _ => none

/-- The entry that 128 bytes hold; none where they hold no instruction of a work unit. -/
def tiqEntryOf (b : Nat) : Option TiqEntry :=
  (instrOf (fieldAt b 0 8) (fieldAt b 8 4)).map fun i =>
    { i := i, seq := BitVec.ofNat 32 (fieldAt b 12 4), pc := BitVec.ofNat 72 (fieldAt b 16 9)
      aop := BitVec.ofNat 72 (fieldAt b 32 9), g0 := BitVec.ofNat 64 (fieldAt b 48 8)
      g1 := BitVec.ofNat 64 (fieldAt b 56 8), g2 := BitVec.ofNat 64 (fieldAt b 64 8)
      scal := match i with
        | .momu _ => (upto 8).map fun k => BitVec.ofNat 32 (fieldAt b (72 + 4 * k) 4)
        | _ => []
      aop2 := BitVec.ofNat 72 (fieldAt b 104 9) }

/-- The 256 bytes of a copy entry. -/
def Copy.image (c : Copy) : Nat :=
  let low := c.lowJ / Desc.perStrip c.desc
  packAt [(0, 128, c.desc.toNat), (128, 1, c.ch.toNat),
    (129, 1, if c.stop.isSome then 2 else if c.done.isEmpty then 0 else 1),
    (130, 1, match c.stop with | some f => f.cause.code.toNat | none => 0), (136, 8, c.lowJ), (144, 16, c.pc.toNat),
    (160, 16, match c.stop with | some f => f.va.toNat | none => 0),
    (176, 32, (upto 256).foldl (fun n i => n + bit (c.done.contains (low + i)) <<< i) 0)]

/-- The cause of a code. -/
def Cause.ofCode (n : Nat) : Option Cause :=
  [Cause.illegalOp, .illegalField, .illegalShape, .illegalLaneBlock, .lifetime, .unitAbsent, .misaligned, .pageNotPresent,
   .pageProtection, .ownership, .shareWrite, .classMismatch, .memUncorrectable, .linkLost, .targetFull, .linkDegraded,
   .breakpoint, .watchpoint, .trapInstr, .stackLimit, .sdcDetected, .dmrHomeWrite, .preempt, .codeGone,
   .waitOverflow].find? fun c => c.code.toNat == n

/-- The fault record in 64 bytes (Table 12-2). -/
def faultRecOf (b : Nat) : Option FaultRec :=
  (Cause.ofCode (fieldAt b 0 1)).map fun c =>
    { cause := c, flags := BitVec.ofNat 8 (fieldAt b 1 1), tile := BitVec.ofNat 5 (fieldAt b 2 1)
      dstep := BitVec.ofNat 8 (fieldAt b 3 1), tiqseq := BitVec.ofNat 32 (fieldAt b 4 4)
      row := BitVec.ofNat 16 (fieldAt b 8 2), col := BitVec.ofNat 16 (fieldAt b 10 2), e := BitVec.ofNat 32 (fieldAt b 12 4)
      va := BitVec.ofNat 72 (fieldAt b 16 9), pc := BitVec.ofNat 72 (fieldAt b 32 9)
      ctxid := BitVec.ofNat 24 (fieldAt b 48 3), uid := BitVec.ofNat 32 (fieldAt b 52 4)
      lseq := BitVec.ofNat 16 (fieldAt b 56 2) }

/-- The copy that a copy entry holds, stopped or not; `k` is what the scheduler keeps of it: its number on the channel, and
the kind of access that stopped it (notes/assumptions/20.md). Its chunks are checked again from LOWJ on (R247). -/
def copyOf (b : Nat) (k : Option Copy) : Copy :=
  let d : Desc := BitVec.ofNat 1024 (fieldAt b 0 128)
  let low := fieldAt b 136 8 / d.perStrip
  let kept := k.bind Copy.stop
  { desc := d, ch := BitVec.ofNat 2 (fieldAt b 128 1), pc := BitVec.ofNat 72 (fieldAt b 144 9)
    no := (k.map Copy.no).getD 0, checked := fieldAt b 136 8
    done := upto (min low d.strips) ++ ((upto 256).filter fun i => (fieldAt b 176 32).testBit i
      && decide (low + i < d.strips)).map fun i => low + i
    stop := if fieldAt b 129 1 = 2 then
        (Cause.ofCode (fieldAt b 130 1)).map fun c =>
          { cause := c, va := BitVec.ofNat 72 (fieldAt b 160 9), cs := kept.any CopyStop.cs, wr := kept.any CopyStop.wr }
      else none }

/-- The 64 bytes of the wait state. -/
def Wait.image (w : Wait) : Nat :=
  packAt [(0, 1, w.kind.code), (1, 1, bit (w.kind == .txchg && w.sent)), (2, 2, w.ev.toNat), (8, 8, w.thr.toNat), (16, 16, w.addr.toNat),
    (32, 1, w.lid.toNat)]

def waitOf (b : Nat) : Wait :=
  { kind := .ofCode (fieldAt b 0 1), sent := b.testBit 8, ev := BitVec.ofNat 16 (fieldAt b 2 2)
    thr := BitVec.ofNat 64 (fieldAt b 8 8), addr := BitVec.ofNat 72 (fieldAt b 16 9), lid := BitVec.ofNat 8 (fieldAt b 32 1) }

/-- A tile record: its bytes, and their number. -/
def tileRec (name kind len bytes : Nat) : Nat × Nat :=
  (packAt [(0, 1, name), (1, 1, kind), (4, 4, len), (16, len, bytes)], 16 + alignUp 16 len)

/-- The name of the head entry's destination. -/
def Ctx.headTd (c : Ctx) : BitVec 5 := ((c.tiq.head?.bind fun t => fieldsOf t.i).map TileFields.td).getD 0

/-- The bytes of the bitmap of performed elements. -/
def bitmapBytes : Nat := 32768

/-- The tile records of a context. -/
def Ctx.tileRecs (c : Ctx) : List (Nat × Nat) :=
  ((upto 32).filterMap fun n =>
    let t := c.tiles.toList.getD n {}
    if t.sr.al then some (tileRec n 0 t.sr.footprint (getBits t.slot 0 (8 * t.sr.footprint))) else none)
  ++ (match c.partialDst with
      | some b =>
        let n := (c.tile c.headTd).sr.footprint
        [tileRec c.headTd.toNat 1 n (getBits b 0 (8 * n))]
      | none => [])
  ++ (if c.performed = 0 then [] else [tileRec c.headTd.toNat 2 bitmapBytes c.performed])

/-! ## The frame -/

def frameMagic : Nat := 0x46434B59
def frameVersion : Nat := 1
/-- Bytes of the header and the fixed area. -/
def fixBytes : Nat := 0x580
/-- A frame never exceeds 2,560 KiB. -/
def maxFrame : Nat := 2621440

/-- The CSRs of the fixed area, in their order. -/
def Ctx.csrWords (c : Ctx) : List Nat :=
  [c.fcsr.toNat, c.efc.toNat, c.xr.toNat, c.xc.toNat, c.tsc.toNat, c.tes.toNat, c.uid.toNat, c.ucnt.toNat, c.cgr.toNat,
   c.lid.toNat, c.diem.toNat, c.retd.toNat, c.splim.toNat]

/-- Words of a list at consecutive offsets. -/
def wordsAt (off size : Nat) (xs : List Nat) : List (Nat × Nat × Nat) :=
  (upto xs.length).map fun i => (off + size * i, size, xs.getD i 0)

/-- A context's frame: its bytes as a bit string, and their number. -/
def Ctx.image (c : Ctx) : Nat × Nat :=
  let tiq := c.tiq
  let offTiq := 0x600
  let offCopy := offTiq + 128 * tiq.length
  let offCopy := alignUp 256 offCopy
  let offWait := offCopy + 256 * c.copies.length
  let offAcc := offWait + 256
  let offTile := offAcc + 262144
  let recs := c.tileRecs
  let placed := recs.foldl (fun (st : Nat × Nat) r => (st.1 + r.1 <<< (8 * st.2), st.2 + r.2)) (0, 0)
  let total := offTile + placed.2
  let flags := bit c.landp + 2 * bit c.sidefx + 4 * bit c.skipbp + 8 * bit c.skipwp + 16 * bit (c.wait.kind != .none)
  let header := [(0x000, 4, frameMagic), (0x004, 2, frameVersion), (0x006, 2, fixBytes), (0x008, 8, total),
    (0x010, 1, c.reason.toNat), (0x011, 1, c.cause.toNat), (0x012, 1, flags), (0x013, 1, tiq.length),
    (0x014, 2, c.copies.length), (0x016, 2, recs.length), (0x018, 4, c.ctxid.toNat), (0x01C, 4, c.cgid.toNat),
    (0x020, 16, c.pc.toNat), (0x030, 2, c.asid.toNat), (0x040, 8, offTiq), (0x048, 8, offCopy), (0x050, 8, offWait),
    (0x058, 8, offAcc), (0x060, 8, offTile),
    (0x070, 64, if c.reason = 0 then (match c.frec with | some r => r.image | none => 0) else 0),
    (0x0B0, 8, c.txcnt.toNat), (0x0B8, 8, c.cbargen.toNat)]
    ++ wordsAt 0x0C0 4 (c.sendcnt.toList.map BitVec.toNat) ++ wordsAt 0x0E0 4 (c.recvcnt.toList.map BitVec.toNat)
  let fixed := wordsAt 0x100 8 ((upto 32).map fun i => (c.getG (BitVec.ofNat 5 i)).toNat)
    ++ wordsAt 0x200 16 (c.a.toList.map BitVec.toNat)
    ++ [(0x300, 1, (upto 8).foldl (fun n i => n + bit (c.getP (BitVec.ofNat 3 i)) <<< i) 0)]
    ++ wordsAt 0x310 8 c.csrWords ++ wordsAt 0x378 8 (c.bpa.toList.map BitVec.toNat)
    ++ (upto 4).flatMap (fun i =>
        let w := c.watch.toList.getD i {}
        [(0x400 + 32 * i, 16, w.base.toNat), (0x410 + 32 * i, 8, w.len.toNat), (0x418 + 32 * i, 1, w.ctl.toNat)])
    ++ wordsAt 0x480 8 (c.tiles.toList.map fun t => t.sr.toNat)
  (packAt (header ++ fixed ++ wordsAt offTiq 128 (tiq.map TiqEntry.image)
      ++ wordsAt offCopy 256 (c.copies.map Copy.image) ++ [(offWait, 64, c.wait.image)]
      ++ wordsAt offAcc 65536 c.acc.toList) + placed.1 <<< (8 * offTile), total)

/-! ## Loading a frame -/

/-- The reserved bytes of 0x000 to 0x57F (Tables 12-2, 12-4, 12-5, 12-8). -/
def reservedBytes : List Nat :=
  let r := fun a b => (upto (b + 1 - a)).map fun i => a + i
  r 0x01B 0x01B ++ r 0x01F 0x01F ++ r 0x032 0x03F ++ r 0x068 0x06F ++ r 0x0A3 0x0A3 ++ r 0x0AA 0x0AF ++ r 0x301 0x30F
    ++ r 0x3F8 0x3FF ++ r 0x419 0x41F ++ r 0x439 0x43F ++ r 0x459 0x45F ++ r 0x479 0x47F

/-- The watch range i of a frame. -/
def watchOf (b i : Nat) : Watch :=
  { base := BitVec.ofNat 72 (fieldAt b (0x400 + 32 * i) 9), len := BitVec.ofNat 64 (fieldAt b (0x410 + 32 * i) 8)
    ctl := BitVec.ofNat 8 (fieldAt b (0x418 + 32 * i) 1) }

/-- An enabled range whose length or alignment breaks the limits of Table 12-8. -/
def Watch.bad (w : Watch) : Bool :=
  w.ctl.getLsbD 0 && (w.base.toNat % 8 != 0 || w.len.toNat % 8 != 0 || w.len == 0 || decide (2 ^ 48 < w.len.toNat))

/-- ctxload refuses the frame with status 3. -/
def frameBad (b : Nat) : Bool :=
  fieldAt b 0 4 != frameMagic || fieldAt b 4 2 != frameVersion || reservedBytes.any (fun o => fieldAt b o 1 != 0)
    || (upto 4).any fun i => (watchOf b i).bad

/-- The records of a frame's tile section, from a position: name, kind and bytes. -/
def recsOf (b : Nat) : Nat → Nat → List (Nat × Nat × Nat)
  | 0, _ => []
  | n + 1, off =>
    let len := min (fieldAt b (off + 4) 4) 131072
    (fieldAt b off 1 % 32, fieldAt b (off + 1) 1, fieldAt b (off + 16) len) :: recsOf b n (off + 16 + alignUp 16 len)

/-- A vector from a function of the index. -/
def vec {α : Type} (n : Nat) (f : Nat → α) : Vector α n := Vector.ofFn fun i => f i.val

/-- The context that a frame's bytes hold; what no frame holds comes from `k` (R390, notes/assumptions/20.md). -/
def ctxOfFrame (b : Nat) (k : Aside) : Ctx :=
  let w := fun off n => fieldAt b off n
  let flags := w 0x012 1
  let tsc : BitVec 2 := BitVec.ofNat 2 (w 0x330 8)
  let recs := recsOf b (min (w 0x016 2) 34) (w 0x060 8)
  let find := fun (kind n : Nat) => (recs.find? fun r => r.2.1 == kind && (kind != 0 || r.1 == n)).map fun r => r.2.2
  let sr := fun i =>
    let s : Sr := BitVec.ofNat 64 (w (0x480 + 8 * i) 8)
    s &&& ~~~(1#64 <<< 39) ||| (if s.al && s.isIll tsc then 1#64 <<< 39 else 0)
  let tiq := (upto (min (w 0x013 1) 64)).filterMap fun i => tiqEntryOf (w (w 0x040 8 + 128 * i) 128)
  { g := vec 32 fun i => if i = 0 then 0 else BitVec.ofNat 64 (w (0x100 + 8 * i) 8)
    a := vec 16 fun i => BitVec.ofNat 72 (w (0x200 + 16 * i) 9)
    p := vec 8 fun i => i != 0 && (w 0x300 1).testBit i
    tiles := vec 32 fun i => { sr := sr i, slot := (find 0 i).getD 0 }
    acc := vec 4 fun i => w (w 0x058 8 + 65536 * i) 65536
    fcsr := BitVec.ofNat 6 (w 0x310 8), efc := BitVec.ofNat 32 (w 0x318 8), xr := BitVec.ofNat 9 (w 0x320 8)
    xc := BitVec.ofNat 11 (w 0x328 8), tsc := tsc, tes := BitVec.ofNat 18 (w 0x338 8)
    uid := BitVec.ofNat 32 (w 0x340 8), ucnt := BitVec.ofNat 32 (w 0x348 8), cgr := BitVec.ofNat 36 (w 0x350 8)
    lid := BitVec.ofNat 3 (w 0x358 8), diem := BitVec.ofNat 2 (w 0x360 8), retd := BitVec.ofNat 64 (w 0x368 8)
    splim := BitVec.ofNat 64 (w 0x370 8), bpa := vec 16 fun i => BitVec.ofNat 64 (w (0x378 + 8 * i) 8) &&& ~~~2#64
    watch := vec 4 fun i => watchOf b i
    pc := BitVec.ofNat 72 (w 0x020 9), landp := flags.testBit 0, sidefx := flags.testBit 1, skipbp := flags.testBit 2
    skipwp := flags.testBit 3, ctxid := BitVec.ofNat 24 (w 0x018 4), cgid := BitVec.ofNat 24 (w 0x01C 4)
    asid := BitVec.ofNat 16 (w 0x030 2), launch := k.who.launch
    tiq := tiq.map fun t => { t with splim := BitVec.ofNat 64 (w 0x370 8) }
    nextseq := match tiq.getLast? with | some t => t.seq + 1 | none => 0
    performed := (find 2 0).getD 0, partialDst := find 1 0
    copies := (upto (min (w 0x014 2) 16)).map fun i => copyOf (w (w 0x048 8 + 256 * i) 256) k.who.copies[i]?
    chans := k.who.chans, wait := if flags.testBit 4 then waitOf (w (w 0x050 8) 64) else {}
    txcnt := BitVec.ofNat 64 (w 0x0B0 8), cbargen := BitVec.ofNat 64 (w 0x0B8 8)
    sendcnt := vec 8 fun i => BitVec.ofNat 32 (w (0x0C0 + 4 * i) 4)
    recvcnt := vec 8 fun i => BitVec.ofNat 32 (w (0x0E0 + 4 * i) 4)
    run := .stopped, reason := BitVec.ofNat 8 (w 0x010 1), cause := BitVec.ofNat 8 (w 0x011 1)
    frec := if w 0x010 1 = 0 then faultRecOf (w 0x070 64) else none
    crc := k.who.crc, inst := k.who.inst, entry := k.who.entry }

/-! ## The frame in memory -/

/-- The pieces of `n` bytes at an address, none across a page, as accesses that carry the bytes of `v`. -/
def pageElems : Nat → Addr → Nat → Nat → List MElem
  | 0, _, _, _ => []
  | fuel + 1, va, n, v =>
    if n = 0 then []
    else
      let k := min n (65536 - va.toNat % 65536)
      { va := va, n := k, w := 8 * k, v := v % 2 ^ (8 * k) }
        :: pageElems fuel (va + BitVec.ofNat 72 k) (n - k) (v >>> (8 * k))

/-- Pages that a frame can touch. -/
def framePages : Nat := 42

end Sys2Proof.Machine
end

