-- ==== Sys2Proof/Machine/Place.lean ====
section
/-!
DEFINITION. Sys2Proof/Machine/Place.lean: the dispatch unit (R339, R341 to R343), pre-emption and descheduling (R33, R272,
R342), resumption (R278), exchanges delivered (R189), and lost contexts (R385).
-/

namespace Sys2Proof.Machine

/-! ## Clusters -/

/-- The CID of a core from its die, its cluster and its position in it (Table 02-7). -/
def cidOf (die cl pos : Nat) : Nat := die * 128 + cl * 8 + pos
def clusterOf (cid : Nat) : Nat := cid % 128 / 8

/-- Scratchpad bytes of a cluster (R76). -/
def padBytes : Nat := 8 * 2 ^ 20
/-- The bytes of a cluster's scratchpad that no reservation takes. -/
def State.padFree (s : State) (die cl : Nat) : Nat :=
  padBytes - (s.groups.filter fun g => g.place == some (die, cl)).foldl (fun n g => n + g.size) 0

/-- Positions of a cluster whose cores are in service and have a free staged slot. -/
def State.freePos (s : State) (die cl : Nat) : List Nat :=
  (upto 8).filter fun p => s.inService (cidOf die cl p) && (s.unitAt (cidOf die cl p)).1.staged.isNone

/-- Bytes of a slice that are admitted and not yet placed. -/
def Slice.outstanding (x : Slice) : Nat :=
  if x.st = .admitted ∨ x.st = .fill then x.len - min x.len (4096 * x.strips.length) else 0

/-- Staged bytes outstanding on a cluster: those of the groups placed there. -/
def State.clusterLoad (s : State) (die cl : Nat) : Nat :=
  (s.groups.filter fun g => g.place == some (die, cl)).foldl (fun n g =>
    n + ((s.groupSlices g).filter fun x => !x.shared).foldl (fun m x => m + x.outstanding) 0) 0

/-- Staged bytes outstanding on a die. -/
def State.dieLoad (s : State) (die : Nat) : Nat :=
  (s.slices.filter fun x => x.die == die && !x.csp).foldl (fun m x => m + x.outstanding) 0

/-! ## Groups off their cores -/

/-- The members of a group that the scheduler keeps, in ascending LID. -/
def State.kept (s : State) (g : Group) : List Ctx :=
  (upto 8).filterMap fun l => s.saved.find? fun c => g.has c && c.lid.toNat == l

/-- The members of a group on cores: the core, and the LID of the unit in its running or staged slot. -/
def State.seats (s : State) (g : Group) : List (Nat × Nat) :=
  s.units.flatMap fun u =>
    (if u.2.run != .idle && g.has u.2 then [(u.1.cid.toNat, u.2.lid.toNat)] else [])
    ++ (match u.1.staged with | some c => if g.has c then [(u.1.cid.toNat, c.lid.toNat)] else [] | none => [])

/-- The LIDs of a group that have not ended. -/
def State.alive (s : State) (g : Group) : List Nat :=
  match s.launchOf g.launch with
  | some l => (upto (l.gsize g.idx)).filter fun i => !g.ended.contains i
  | none => []

/-- The wait of a saved context is satisfied (R33). -/
def State.waitOver (s : State) (c : Ctx) : Bool :=
  match c.wait.kind with
  | .evwait => c.wait.sent || !s.waiters.any fun w => w.isOf c .evwait
  | .futrd => c.wait.sent || !s.waiters.any fun w => w.isOf c .futrd
  | .txchg => s.shLost || s.xchg.any (fun p => some p.1 == c.launch && p.2.dst == c.uid.toNat && p.2.k == c.txcnt.toNat)
      || (match c.launch.bind s.launchOf with
          | none => false
          | some l =>
            let u := (c.cgr.toNat % 2 ^ 32 ^^^ 1) * l.cgs + c.lid.toNat
            s.groups.any fun g => g.launch == l.id && g.inst == c.inst && g.idx == u / l.cgs && g.ended.contains (u % l.cgs))
  | _ => true

/-- A saved context that can go on: woken futrd restarts, pre-empted units, and descheduled ones whose wait is over. -/
def State.canGo (s : State) (c : Ctx) : Bool :=
  c.run == .ready || (c.run == .stopped && (c.reason != 2 || s.waitOver c))

/-- A group off the part, or with a unit that ctxload has staged, every one of whose units is at hand and one of which can
go on (R14, R30, R33). -/
def State.resumable (s : State) (g : Group) : Bool :=
  let kept := s.kept g
  let staged := s.units.filterMap fun u => u.1.staged.filter g.has
  !kept.isEmpty && !(s.units.any fun u => u.2.run != .idle && g.has u.2)
  && (s.alive g).all (fun l => (kept ++ staged).any fun c => c.lid.toNat == l)
  && (kept.any s.canGo || !staged.isEmpty)

/-! ## Choosing a cluster (R341) -/

/-- A group to be placed: its index, its instance, its die, and the LIDs that need cores. -/
structure Req where
  idx : Nat
  inst : Option (BitVec 1)
  die : Nat
  lids : List Nat
  deriving DecidableEq, Repr

/-- A place found for it: its cluster, and the position of each LID. -/
structure Spot where
  req : Req
  cl : Nat
  seats : List (Nat × Nat)
  deriving DecidableEq, Repr

/-- Positions for LIDs in ascending order: the one a partner has on the other die, else the lowest free one. -/
def assign (known : List (Nat × Nat)) : List Nat → List Nat → Option (List (Nat × Nat))
  | [], _ => some []
  | l :: ls, free =>
    let pick := match known.find? fun k => k.1 == l with
      | some k => if free.contains k.2 then some k.2 else none
      | none => free.find? fun p => !known.any fun k => k.2 == p
    match pick with
    | none => none
    | some p => (assign known ls (free.filter fun x => x != p)).map fun xs => (l, p) :: xs

/-- Groups placed together on one cluster index: the same positions for the same LIDs. -/
def State.seatsOn (s : State) (spad : Nat) (known : List (Nat × Nat)) (rs : List Req) (cl : Nat) : Option (List Spot) :=
  let free := (upto 8).filter fun p => rs.all fun r => (s.freePos r.die cl).contains p
  let lids := (upto 8).filter fun l => rs.any fun r => r.lids.contains l
  if rs.all fun r => decide (spad ≤ s.padFree r.die cl) then
    (assign known lids free).map fun xs => rs.map fun r =>
      { req := r, cl := cl, seats := xs.filter fun x => r.lids.contains x.1 }
  else none

/-- The cluster with the fewest staged bytes outstanding, then the lowest index; `fixed` names the only one admitted. -/
def State.bestSpots (s : State) (spad : Nat) (fixed : Option (Nat × List (Nat × Nat))) (rs : List Req) :
    Option (List Spot) :=
  let known := (fixed.map Prod.snd).getD []
  let cls := match fixed with | some f => [f.1] | none => upto 12
  let load := fun cl => rs.foldl (fun n r => n + s.clusterLoad r.die cl) 0
  (cls.foldl (fun (b : Option (Nat × List Spot)) cl =>
    match s.seatsOn spad known rs cl, b with
    | some x, some y => if load cl < y.1 then some (load cl, x) else some y
    | some x, none => some (load cl, x)
    | none, b => b) none).map Prod.snd

/-- Where a group on cores stands: its cluster, and the position of each of its LIDs. -/
def State.standing (s : State) (g : Group) : Option (Nat × List (Nat × Nat)) :=
  g.place.map fun p => (p.2, (s.seats g).map fun x => (x.2, x.1 % 8))

/-- The group that fixes the cluster and the positions of another: the other of a SPAN pair, or of two instances. -/
def State.anchor (s : State) (l : Launch) (idx : Nat) (inst : Option (BitVec 1)) : Option (Nat × List (Nat × Nat)) :=
  let other := fun (g : Group) => g.launch == l.id && g.place.isSome
    && (if l.dmr then g.idx == idx && g.inst != inst
        else l.place == 3 && l.dies == 3 && g.idx == (idx ^^^ 1))
  (s.groups.find? other).bind s.standing

/-- The cluster on which ctxload has staged a unit of a group. -/
def State.stagedAt (s : State) (g : Group) : Option (Nat × Nat) :=
  (s.units.find? fun u => u.1.staged.any g.has).map fun u => (u.1.cid.toNat / 128, clusterOf u.1.cid.toNat)

/-! ## What a launch may dispatch (R339, R342, R347) -/

/-- A launch has dispatched its last unit. -/
def Launch.allOut (l : Launch) : Bool := decide (l.ngroups ≤ l.next)

/-- The launch may dispatch: its first unit waits until the launches before it in its queue have started, and the last of
them has completed, or, under OVERLAP, has dispatched its last unit (R339). -/
def State.mayDispatch (s : State) (l : Launch) : Bool :=
  l.next != 0
  || ((s.launches.takeWhile fun m => m.id != l.id).all (fun m => m.q != l.q || m.next != 0)
      && match s.launches.find? fun m => some m.id == l.prev with
         | none => true
         | some m => l.isOverlap && m.allOut)

/-- Dies on which a group of a launch may be placed. -/
def State.groupDies (s : State) (l : Launch) (idx : Nat) : List Nat :=
  let bound := (s.slices.find? fun x => x.launch == some l.id && !x.shared && !x.csp && x.st != .wait && x.k / l.cgs == idx).map
    Slice.die
  let ds := match l.place with
    | 0 => (match bound with | some d => [d] | none => [0, 1])
    | 1 => [0]
    | 2 => [1]
    | _ => if l.dies = 3 then [idx % 2] else [0]
  ds.filter s.dieUp

/-- Places for a resumed group: on the cluster where ctxload has staged a unit of it, else where it fits. -/
def State.resumePlan (s : State) (l : Launch) (g : Group) : Option (List Spot) :=
  let lids := (s.kept g).map fun c => c.lid.toNat
  let req := fun d => [{ idx := g.idx, inst := g.inst, die := d, lids := lids : Req }]
  match s.stagedAt g with
  | some p => s.seatsOn g.size [] (req p.1) p.2
  | none =>
    let ds := match g.inst with | some d => [d.toNat] | none => s.groupDies l g.idx
    ds.findSome? fun d => s.bestSpots g.size (s.anchor l g.idx g.inst) (req d)

/-- Places for the fresh group or pair of groups that begins at an index. -/
def State.freshPlan (s : State) (l : Launch) (idx : Nat) : Option (List Spot) :=
  let spad := l.spad * 65536
  let lids := fun g => upto (l.gsize g)
  let absent := fun (d : BitVec 1) => !s.groups.any fun g => g.launch == l.id && g.idx == idx && g.inst == some d
  if l.dmr then
    let ds := [(0 : BitVec 1), 1].filter absent
    match ds with
    | [] => none
    | [d] => s.bestSpots spad (s.anchor l idx (some d)) [{ idx := idx, inst := some d, die := d.toNat, lids := lids idx }]
    | _ => s.bestSpots spad none (ds.map fun d => { idx := idx, inst := some d, die := d.toNat, lids := lids idx })
  else
    let paired := l.place == 3 && l.dies == 3 && l.again.isEmpty && idx % 2 == 0 && decide (idx + 1 < l.ngroups)
    if paired then
      s.bestSpots spad none [{ idx := idx, inst := none, die := 0, lids := lids idx },
        { idx := idx + 1, inst := none, die := 1, lids := lids (idx + 1) }]
    else
      (s.groupDies l idx).findSome? fun d =>
        s.bestSpots spad (s.anchor l idx none) [{ idx := idx, inst := none, die := d, lids := lids idx }]

/-- The resumable groups of a launch that find a place. -/
def State.resumes (s : State) (l : Launch) : List (Group × List Spot) :=
  (s.groups.filter fun g => g.launch == l.id && s.resumable g).filterMap fun g => (s.resumePlan l g).map fun p => (g, p)

/-- The index of the next fresh group: one withdrawn before, else the next in order; none once a lend has failed (R343). -/
def Launch.nextFresh (l : Launch) : Option Nat :=
  if l.lendFail then none
  else
    match l.again with
    | g :: _ => some g
    | [] => if l.next < l.ngroups then some l.next else none

/-- Where a launch's next group goes: groups to resume first (R342). -/
def State.nextPlan (s : State) (l : Launch) : Option (List Spot) :=
  if !s.mayDispatch l then none
  else
    match s.resumes l with
    | p :: _ => some p.2
    | [] => l.nextFresh.bind (s.freshPlan l)

/-- Dies of a plan. -/
def planDies (p : List Spot) : List Nat := p.map fun x => x.req.die

/-- The dispatch unit of a die takes the highest CLASS first, and within it goes round the launches (R341). -/
def State.isTurn (s : State) (l : Launch) (die : Nat) : Bool :=
  let mine := fun (m : Launch) => m.cls == l.cls && m.id != l.id
    && (match s.nextPlan m with | some p => (planDies p).contains die | none => false)
  let higher := s.launches.any fun m => decide (l.cls < m.cls)
    && (match s.nextPlan m with | some p => (planDies p).contains die | none => false)
  let last := lookup 0 s.rr (die * 4 + l.cls)
  let turn := fun (m : Launch) => if m.id < last then m.id + s.nextLaunch + 1 else m.id
  !higher && s.launches.all fun m => !mine m || decide (turn l < turn m)

/-! ## Placing (R23, R76, R77) -/

/-- Ranges of a group's reservation that Caravan is to place. -/
def Launch.padRanges (l : Launch) : List (Nat × Nat) :=
  (l.decls.filter Decl.csp).map fun d => (d.dst, d.dst + d.len)

/-- DIEM of a unit on a die (R24, R387). -/
def Launch.diemOn (l : Launch) (die : Nat) : BitVec 2 :=
  if l.place = 3 then l.dies else BitVec.ofNat 2 (2 ^ die)

/-- A unit in the staged slot of a core. -/
def State.stage (s : State) (cid : Nat) (c : Ctx) : State :=
  let u := s.unitAt cid
  s.setUnit cid ({ u.1 with staged := some { c with held := none } }, u.2)

/-- The group of a launch, an index and an instance. -/
def Group.named (l : Nat) (r : Req) (g : Group) : Bool := g.launch == l && g.idx == r.idx && g.inst == r.inst

/-- L2 slices of a group that stand in WAIT follow it to its die, and a die to which a group of the launch is first bound
gets its shared slices (R345, R347). -/
def State.bindDie (s : State) (l : Launch) (idx die : Nat) : State :=
  if l.place != 0 || l.noStage || l.unstaged then s
  else
    let s : State := { s with
      slices := s.slices.map fun x =>
        if x.launch == some l.id && !x.shared && !x.csp && x.st == .wait && x.k / l.cgs == idx then { x with die := die } else x }
    if s.slices.any (fun x => x.launch == some l.id && x.shared && !x.csp && x.die == die) then s
    else { s with slices := s.slices ++ (l.decls.filter fun d => !d.csp && d.stride == 0).map fun d => declSlice l d 0 die }

/-- A fresh group takes its place: its reservation, its units on staged slots. -/
def State.placeFresh (s : State) (l : Launch) (x : Spot) : State :=
  let g : Group := { launch := l.id, idx := x.req.idx, inst := x.req.inst, cgid := l.cgid x.req.idx,
                     place := some (x.req.die, x.cl), size := l.spad * 65536, pending := l.padRanges }
  let s : State := { s with groups := s.groups ++ [g] }
  let s := s.bindDie l x.req.idx x.req.die
  x.seats.foldl (fun s p =>
    s.stage (cidOf x.req.die x.cl p.2) (l.unit (x.req.idx * l.cgs + p.1) x.req.inst (l.diemOn x.req.die))) s

/-- A saved unit as it stands in its new staged slot: a restarted one is fresh, and DIEM shows the dies it has now. -/
def State.revive (s : State) (l : Launch) (die : Nat) (c : Ctx) : Ctx :=
  let c := { c with diem := l.diemOn die }
  if c.run = .ready then s.restart c else c

/-- A saved group takes its place, its reservation as it was. -/
def State.placeSaved (s : State) (l : Launch) (x : Spot) : State :=
  match s.groups.find? (Group.named l.id x.req) with
  | none => s
  | some g =>
    let cs := s.kept g
    let s : State := { s with
      saved := s.saved.filter fun c => !g.has c
      groups := (s.groups.filter fun h => h != g) ++ [{ g with place := some (x.req.die, x.cl) }] }
    x.seats.foldl (fun s p =>
      match cs.find? fun c => c.lid.toNat == p.1 with
      | some c => s.stage (cidOf x.req.die x.cl p.2) (s.revive l x.req.die c)
      | none => s) s

/-- The turn passes to the launches after this one. -/
def State.served (s : State) (l : Launch) (p : List Spot) : State :=
  { s with rr := (planDies p).foldl (fun r d => insert r (d * 4 + l.cls) (l.id + 1)) s.rr }

/-- DISPATCH: group g of launch l, with its pair or its other instance where they go together, is assigned to staged
slots. -/
def execDispatch (l g : Nat) (s : State) : Out :=
  let no : Out := .refused (.notEnabled "DISPATCH")
  match s.launchOf l with
  | none => no
  | some L =>
    if !s.mayDispatch L then no
    else
      match (s.resumes L).find? fun p => p.1.idx == g with
      | some p =>
        if (planDies p.2).all (s.isTurn L) then .next ((p.2.foldl (fun s x => s.placeSaved L x) s).served L p.2) else no
      | none =>
        if !(s.resumes L).isEmpty || L.nextFresh != some g then no
        else
          match s.freshPlan L g with
          | none => no
          | some p =>
            if !(planDies p).all (s.isTurn L) then no
            else
              let s := p.foldl (fun s x => s.placeFresh L x) s
              let top := p.foldl (fun n x => max n (x.req.idx + 1)) 0
              let s := s.mapLaunch l fun l => { l with next := max l.next top, again := l.again.filter fun i => i != g }
              .next (s.served L p)

/-! ## Withdrawal (R23, Table 17-11) -/

/-- A withdrawn group's slices start again. -/
def State.resetSlices (s : State) (g : Group) : State :=
  let mine := (s.groupSlices g).filter fun x => !x.shared
  { s with slices := s.slices.map fun x =>
      if mine.contains x && (x.st == .admitted || x.st == .fill || x.st == .ready) then
        { x with st := .wait, strips := [], charge := 0 } else x }

/-- A staged group leaves its staged slots: one that has never run without trace, another back to the scheduler, every
unit as it stands. -/
def State.withdraw (s : State) (g : Group) : State :=
  let back := s.units.filterMap fun u => u.1.staged.filter g.has
  let s := (if g.begun then s else s.resetSlices g).mapUnits fun k x =>
    (if k.staged.any g.has then { k with staged := none } else k, x)
  if g.begun then State.mapGroups { s with saved := s.saved ++ back } (fun h => h == g) fun h => { h with place := none }
  else
    State.mapLaunch { s with groups := s.groups.filter fun h => h != g } g.launch fun l =>
      { l with again := g.idx :: l.again.filter fun i => i != g.idx }

/-! ## The start of staged groups (R23, R343, R346) -/

/-- A launch fails a lend: nothing more of it starts, and its queue is to stop; what has run before goes on (R343). -/
def State.failLend (s : State) (l : Launch) : State :=
  let s := s.mapLaunch l.id fun l => { l with lendFail := true }
  let s := s.mapQueue l.q fun x => { x with lendErr := some l.seq }
  let s := (s.groups.filter fun g => g.launch == l.id && !g.begun).foldl State.withdraw s
  match s.launchOf l.id with
  | some l => if l.over_ s then s.complete l 3 else s
  | none => s

/-- The lends of a group that is about to start for the first time, before the other instance of it has (R102, R343). -/
def State.startLends (s : State) (g : Group) : Lent :=
  match s.launchOf g.launch with
  | some l =>
    if s.groups.any fun h => h.launch == g.launch && h.idx == g.idx && h.begun then .ok s
    else s.lendAll l.asid (l.lendsOf g.idx)
  | none => .ok s

/-- A staged group starts, where its lends can be performed (notes/assumptions/56.md). -/
def State.tryStart (s : State) (g : Group) : State :=
  match s.startLends g with
  | .ok s => s.startGroup g
  | .wait => s
  | .fail => match s.launchOf g.launch with | some l => s.failLend l | none => s

/-- Every staged group that may start does, one after another. -/
def State.startStaged (s : State) : State :=
  s.groups.foldl (fun s g =>
    match s.groups.find? fun h => h.launch == g.launch && h.idx == g.idx && h.inst == g.inst with
    | some h => if s.mayStart h then s.tryStart h else s
    | none => s) s

/-- STAGE_DEADLINE: the units of a staged group whose cores are free start before their slices are READY (R346, Table
17-11). -/
def execStageDeadline (l g : Nat) (s : State) : Out :=
  let no : Out := .refused (.notEnabled "STAGE_DEADLINE")
  let hit := fun (h : Group) =>
    let us := s.units.filter fun u => u.1.staged.any h.has
    h.launch == l && h.idx == g && us.any (fun u => u.1.staged.any fun c => c.run == .ready)
    && us.all (fun u => (u.1.staged.all fun c => c.run != .stopped) && u.2.run == .idle
        && (u.1.reserved == none || u.1.reserved == some (l, g)))
    && !(s.groupSlices h).all s.sliceOk
  match s.groups.find? hit, s.launchOf l with
  | some h, some L =>
    match s.startLends h with
    | .wait => no
    | .fail => .next (s.failLend L)
    | .ok t =>
      let bad := (s.groupSlices h).filter fun x => !s.sliceOk x
      let late := ((upto (L.gsize g)).filter fun i => bad.any fun x => x.csp || x.shared || x.k == g * L.cgs + i).length
      let t := (t.startGroup h).mapLaunch l fun L => { L with late := true }
      .next (t.mapQueue L.q fun x => { x with late := x.late + BitVec.ofNat 64 late })
  | _, _ => no

/-! ## Pre-emption and descheduling -/

/-- PREEMPTION_REQUEST: the scheduler asks for core c's context, and with it for its cluster group (R14, R272). -/
def execPreemptionRequest (c : Nat) (s : State) : Out :=
  let u := s.unitAt c
  if u.2.run != .running then .refused (.notEnabled "PREEMPTION_REQUEST")
  else
    let mates := match s.groups.find? fun g => g.has u.2 with | some g => s.runningOf g | none => [c]
    .next (s.mapUnits fun k x => (if mates.contains k.cid.toNat then { k with prereq := some 1 } else k, x))

/-- PREEMPTION_STOP: the request takes effect at the focused core's retire boundary, for the whole cluster group. -/
def execPreemptionStop (s : State) : Out :=
  match s.core.prereq with
  | none => .refused (.notEnabled "PREEMPTION_STOP")
  | some r =>
    if s.ctx.run != .running then .refused (.notEnabled "PREEMPTION_STOP")
    else
      .next (match s.group with
        | some g => s.preemptGroup g r
        | none => s.preemptUnit s.core.cid.toNat r)

/-- The unit is blocked as R33 counts it. -/
def Ctx.blockedWait (c : Ctx) : Bool :=
  !c.tiq.isEmpty && (((c.wait.kind == .evwait || c.wait.kind == .futrd) && !c.wait.sent) || c.wait.kind == .txchg)

/-- A unit of a class or a higher one waits for a core on a die: a staged one, or a group that may be dispatched. -/
def State.someWaits (s : State) (cls die : Nat) : Bool :=
  s.units.any (fun u => u.1.cid.toNat / 128 == die && u.1.staged.any fun c =>
    (c.launch.bind s.launchOf).any fun l => decide (cls ≤ l.cls))
  || s.launches.any fun l => decide (cls ≤ l.cls) && s.mayDispatch l
      && (((s.groups.any fun g => g.launch == l.id && s.resumable g)
            && (s.groups.any fun g => g.launch == l.id && s.resumable g && (s.groupDies l g.idx).contains die))
          || (match l.nextFresh with | some i => l.dmr || (s.groupDies l i).contains die | none => false))

/-- DESCHEDULE: every unit of group g that has not ended is blocked, and a unit waits for a core on its die (R33). A parked
unit counts as blocked (DESIGN CHOICE, notes/assumptions/54.md). -/
def execDeschedule (l g : Nat) (s : State) : Out :=
  let hit := fun (h : Group) =>
    let us := s.units.filter fun u => u.2.run != .idle && h.has u.2
    h.launch == l && h.idx == g && us.any (fun u => u.2.run == .running)
    && us.all (fun u => u.2.run == .parked || (u.2.run == .running && u.2.blockedWait && !s.waitOver u.2))
    && (match h.place, s.launchOf l with | some p, some L => s.someWaits L.cls p.1 | _, _ => false)
  match s.groups.find? hit with
  | some h => .next (s.preemptGroup h 2)
  | none => .refused (.notEnabled "DESCHEDULE")

/-- The group that PRIORITY_PREEMPTION moves: the most recently dispatched of a PREEMPTIBLE launch below a class, on one of
some dies. -/
def State.victim (s : State) (cls : Nat) (dies : List Nat) : Option Group :=
  s.groups.reverse.find? fun g =>
    (match g.place with | some p => dies.contains p.1 | none => false)
    && (match s.launchOf g.launch with | some l => l.preemptible && decide (l.cls < cls) | none => false)
    && !(s.coresOf g).isEmpty

/-- PRIORITY_PREEMPTION: group g of launch l has waited for cores, and a group of a lower class makes room (R342). -/
def execPriorityPreemption (l g : Nat) (s : State) : Out :=
  let no : Out := .refused (.notEnabled "PRIORITY_PREEMPTION")
  match s.launchOf l with
  | none => no
  | some L =>
    let waits := match s.groups.find? fun h => h.launch == l && h.idx == g && s.resumable h with
      | some h => (s.resumePlan L h).isNone
      | none => (s.resumes L).isEmpty && L.nextFresh == some g && (s.freshPlan L g).isNone
    let dies := if L.dmr || (L.place == 3 && L.dies == 3) then [0, 1] else s.groupDies L g
    if !s.mayDispatch L || !waits then no
    else
      match s.victim L.cls dies with
      | none => no
      | some v => .next (if (s.runningOf v).isEmpty then s.withdraw v else s.preemptGroup v 1)

/-! ## Resumption (R278) -/

/-- A context has code in an object that was forcibly unloaded. -/
def State.codeGone (s : State) (c : Ctx) : Bool :=
  (c.pc :: c.tiq.map fun t => t.pc).any fun a => s.gone.any fun r => decide (r.1 ≤ a.toNat) && decide (a.toNat < r.1 + r.2)

/-- A stopped copy is the one whose stop the context has reported (R247). -/
def Ctx.reported (c : Ctx) (x : Copy) : Bool :=
  match c.frec, x.stop with
  | some r, some f => c.reason == 0 && r.cause == f.cause && r.pc == x.pc && r.va == f.va
  | _, _ => false

/-- A staged context as it becomes running: its copies are accepted again, and the one it has reported goes on; one that it
has not reported stays stopped (R247, R270, R278). NEXTSEQ after an empty TIQ is open (notes/assumptions/22.md). -/
def Ctx.resumed (c : Ctx) (seq : BitVec 64) : Ctx :=
  { c with run := .running, frec := none
           nextseq := match c.tiq.getLast? with | some t => t.seq + 1 | none => seq.setWidth 32
           copies := c.copies.map fun x =>
             if c.reported x then { x with stop := none, stolen := [], checked := x.lowJ } else { x with stolen := [] } }

/-- The staged context of a core becomes running. -/
def State.takeStaged (s : State) (cid : Nat) : State :=
  let r := s.free
  let u := r.2.unitAt cid
  match u.1.staged with
  | none => s
  | some c =>
    if c.run = .stopped then r.2.setUnit cid ({ u.1 with staged := none, reserved := none }, c.resumed r.1)
    else if c.run = .parked then
      s.setUnit cid ({ u.1 with staged := none, reserved := c.launch.map fun l => (l, c.cgr.toNat % 2 ^ 32) }, c)
    else s.setUnit cid ({ u.1 with staged := none, reserved := none }, { c with run := .running })

/-- Marked bytes of the group's reservation are to be read again (R433). -/
def State.reread (s : State) (g : Group) : State :=
  let bad := g.unreadable.filter fun u => u.cause != .memUncorrectable
  let s := s.mapGroups (fun h => h == g) fun g =>
    { g with pending := bad.map (fun u => (u.lo, u.hi)) ++ g.pending
             again := bad.map (fun u => (u.lo, u.hi)) ++ g.again
             unreadable := g.unreadable.filter fun u => u.cause == .memUncorrectable }
  { s with
    slices := s.slices.map fun x =>
      if x.launch == some g.launch && x.csp && x.k == g.idx then
        { x with strips := x.strips.filter fun i =>
            !(bad.any fun u => decide (u.lo < x.dst + 4096 * (i + 1)) && decide (x.dst + 4096 * i < u.hi)) }
      else x }

/-- Fault service, or a fault that says so, ends a launch (R284, R354, R368). -/
def State.endFatal (s : State) (id : Nat) : State :=
  match s.launchOf id with
  | some l => s.endLaunch l 1
  | none => s

/-- A context in unloaded code stops as it resumes, and its launch ends (R284). -/
def State.stopGone (s : State) (cid : Nat) : State :=
  let c := (s.unitAt cid).2
  if c.run = .running ∧ s.codeGone c then
    let s := s.onCore cid fun s => s.fault { cause := .codeGone } s.ctx.tes.toNat
      (match s.ctx.tiq with | t :: _ => t.seq | [] => s.ctx.nextseq) s.ctx.pc
    match c.launch with | some l => s.endFatal l | none => s
  else s

/-- Firmware unloads a code object by force: the contexts on cores whose code lies in it are pre-empted with their groups,
and stop as they resume (R284). -/
def State.unload (s : State) (handle : BitVec 32) : State :=
  match s.objects.find? fun o => o.handle == handle with
  | none => s
  | some o =>
    let s : State := { s with objects := s.objects.filter (fun x => x.handle != handle), gone := (o.base, o.size) :: s.gone }
    (s.units.filter fun u => u.2.run == .running && s.codeGone u.2).foldl (fun s u =>
      match s.groups.find? fun g => g.has u.2 with
      | some g => s.preemptGroup g 1
      | none => s.preemptUnit u.1.cid.toNat 1) s

/-- A die on which a launch may run a group (R24, R25, R387). -/
def Launch.mayUse (l : Launch) (g : Group) (die : Nat) : Bool :=
  match g.inst, l.place with
  | some d, _ => die == d.toNat
  | none, 0 => true
  | none, 1 => die == 0
  | none, 2 => die == 1
  | none, _ => l.dies.getLsbD die

/-- CONTEXT_RESUME: the loaded context of core c becomes running, with every unit of its group, on a die that the launch
may use (R14, R278, R368). -/
def execContextResume (c : Nat) (s : State) : Out :=
  let no : Out := .refused (.notEnabled "CONTEXT_RESUME")
  match (s.unitAt c).1.staged with
  | none => no
  | some x =>
    if x.run != .stopped then no
    else
      match s.groups.find? fun g => g.has x with
      | none => if (s.unitAt c).2.run = .idle then .next (((s.takeSlots [c]).takeStaged c).stopGone c) else no
      | some g =>
        let us := s.units.filter fun u => u.1.staged.any g.has
        let cids := us.map fun u => u.1.cid.toNat
        let here := (c / 128, clusterOf c)
        if us.all (fun u => u.2.run == .idle && (u.1.reserved == none || u.1.reserved == some (g.launch, g.idx)))
            && (s.alive g).all (fun l => us.any fun u => u.1.staged.any fun k => k.lid.toNat == l)
            && cids.all (fun d => (d / 128, clusterOf d) == here)
            && (s.launchOf g.launch).all (fun l => l.mayUse g here.1)
            && (match g.place with | some p => p == here | none => decide (g.size ≤ s.padFree here.1 here.2)) then
          let s := (s.reread g).mapGroups (fun h => h.launch == g.launch && h.idx == g.idx && h.inst == g.inst) fun h =>
            { h with place := some here, begun := true }
          let s := s.takeSlots cids
          let diem := fun (k : Ctx) => match s.launchOf g.launch with | some l => l.diemOn here.1 | none => k.diem
          let s := s.mapUnits fun k x =>
            (if k.staged.any g.has then { k with staged := k.staged.map fun c => { c with diem := diem c } } else k, x)
          let s := cids.foldl State.takeStaged s
          .next (cids.foldl State.stopGone s)
        else no

/-- EXCHANGE_DELIVERY: the partner's data has arrived, and core c's txchg ends (R189). -/
def execExchangeDelivery (c : Nat) (s : State) : Out :=
  let x := (s.unitAt c).2
  let here := s.xchg.any fun p => some p.1 == x.launch && p.2.dst == x.uid.toNat && p.2.k == x.txcnt.toNat
  if x.run != .running || x.wait.kind != .txchg || !here then .refused (.notEnabled "EXCHANGE_DELIVERY")
  else
    .next (s.onCore c fun s => s.performHead.after s)

/-! ## Lost contexts (R385) -/

/-- The number of CTXLOST (Table 20-4). -/
def ctxLostCsr : Nat := 0x85B

/-- The units of a group that have executed end count no longer: they run again (R385). -/
def State.uncount (s : State) (g : Group) : State :=
  match s.launchOf g.launch with
  | none => s
  | some l =>
    let both := fun (i : Nat) => !l.dmr
      || s.groups.any fun h => h.launch == g.launch && h.idx == g.idx && h.inst != g.inst && h.ended.contains i
    let ids := g.ended.map fun i => (l.ctxid (g.idx * l.cgs + i)).toNat
    let sig := fun (d : BitVec 1) (x : BitVec 64) =>
      if g.inst == some d then g.ended.foldl (fun x i => x ^^^ crcBytes 0 (bytesOf 4 (g.idx * l.cgs + i))) x else x
    State.mapLaunch { s with ended := s.ended.filter fun r => !(ids.any fun h => r == (h, h + 1)) } l.id fun l =>
      { l with units := l.units - (g.ended.filter both).length, insts := l.insts - g.ended.length,
               sig0 := sig 0 l.sig0, sig1 := sig 1 l.sig1 }

/-- A group is withdrawn and starts afresh later: its units leave their cores, with their waits and messages; their tokens
stay (R385). -/
def State.withdrawLost (s : State) (g : Group) : State :=
  let s := s.uncount g
  let mine := fun (w : Waiter) => w.launch == some g.launch && w.inst == g.inst
    && ((s.units.any fun u => g.has u.2 && w.ctxid == u.2.ctxid) || s.saved.any fun c => g.has c && w.ctxid == c.ctxid)
  let evs := (s.waiters.filter mine).map Waiter.ev
  let s := evs.foldl State.syncWaits { s with waiters := s.waiters.filter fun w => !mine w }
  let s := (s.keepEntries g.has).mapUnits fun k x =>
    let k := if k.staged.any g.has then { k with staged := none } else k
    if g.has x then (({ k with fqwait := none, prereq := none, reserved := none } : Core).dropOwned, {}) else (k, x)
  let s : State := { s with
    saved := s.saved.filter fun c => !g.has c
    aside := s.aside.filter fun a => !g.has a.who
    groups := s.groups.filter fun h => h != g
    slices := s.slices.map fun x =>
      if x.launch == some g.launch && x.csp && x.k == g.idx then { x with st := .wait, strips := [], charge := 0 } else x }
  s.mapLaunch g.launch fun l => { l with again := g.idx :: l.again.filter fun i => i != g.idx }

/-- The entry that reports a lost context: VAV and ELV clear. -/
def State.lostEntry (s : State) (c : Ctx) (cid : Nat) : State :=
  let lseq := match c.launch.bind s.launchOf with | some l => BitVec.setWidth 16 l.seq | none => 0
  let r := ({ cause := .memUncorrectable } : Info).record c c.nextseq c.pc lseq
  s.fqPost { die := cid / 128, core := cid, record := r.image, asid := c.asid.toNat, src := 0 }

/-- A context is lost: its group starts afresh where none of its units has retired a visible side effect; else its holder
is lost and its launch ends. -/
def State.loseContext (s : State) (c : Ctx) (cid : Nat) : State :=
  let s := s.count (cid / 128) ctxLostCsr
  match s.groups.find? fun g => g.has c with
  | none => (s.loseHolder c.ctxid.toNat).lostEntry c cid
  | some g =>
    if !g.sidefx then s.withdrawLost g
    else
      let s := (s.loseHolder c.ctxid.toNat).lostEntry c cid
      match c.launch.bind s.launchOf with
      | some l => s.endLaunch l 1
      | none => s

/-- CONTEXT_LOST: the context on core c is lost. -/
def execContextLost (c : Nat) (s : State) : Out :=
  let x := (s.unitAt c).2
  if x.run = .idle then .refused (.notEnabled "CONTEXT_LOST")
  else
    let s := s.loseContext x c
    .next (if (s.unitAt c).2 = x then s.freeSlot c else s)

end Sys2Proof.Machine
end

