-- ==== Sys2Proof/Machine/Scope.lean ====
section
/-!
DEFINITION. Sys2Proof/Machine/Scope.lean: the parties of the consistency model, the instances of scopes (R100, Table 05-2)
and what synchronises under them (R101).
-/

namespace Sys2Proof.Machine

/-- A party that performs memory operations: a core's context or its service core, a copy channel that acts for it, a
queue sequencer, a die's staging and copy engines, the scheduler controller, a host, a peer device. -/
inductive Agent where
  | core (cid : Nat)
  | channel (cid ch : Nat)
  | sequencer (n : Nat)
  | staging (die : Nat)
  | copyEngine (die : Nat)
  | scheduler
  | host
  | peer (node : Nat)
  deriving DecidableEq, Repr

/-- The core a party acts on or for. -/
def Agent.cid : Agent → Option Nat
  | .core c => some c
  | .channel c _ => some c
  | _ => none

/-- The die a party runs on. -/
def Agent.die : Agent → Option Nat
  | .core c => some (c / 128)
  | .channel c _ => some (c / 128)
  | .sequencer n => some (n / 32)
  | .staging d => some d
  | .copyEngine d => some d
  | _ => none

/-- A party of this package. -/
def Agent.inPackage : Agent → Bool
  | .host => false
  | .peer _ => false
  | _ => true

/-- The work unit that a party is or acts for. -/
def State.unitOf (s : State) (p : Agent) : Option Ctx :=
  p.cid.bind fun c => if (s.unitAt c).2.launch.isSome then some (s.unitAt c).2 else none

/-- Two parties are of one cluster group. -/
def State.sameGroup (s : State) (p x : Agent) : Bool :=
  match s.unitOf p, s.unitOf x with
  | some a, some b => s.groups.any fun g => g.has a && g.has b
  | _, _ => false

/-- Party x lies in the instance of a scope for party p, as it stands now (Table 05-2). -/
def State.inInstance (s : State) (scope : BitVec 3) (p x : Agent) : Bool :=
  x == p ||
  match scope.toNat with
  | 0 => (s.unitOf p).isSome && p.cid.isSome && x.cid == p.cid
  | 1 => (s.unitOf p).isSome && (x.cid == p.cid || s.sameGroup p x)
  | 2 => p.die.isSome && x.die == p.die
  | 3 => p.inPackage && x.inPackage
  | 4 => (p.inPackage || p == .host) && (x.inPackage || x == .host)
  | 5 => match x with | .peer n => Config.podHas n | _ => true
  | 6 => match x with | .peer n => Config.fabricHas n | _ => true
  | _ => true

/-- A release by p at scope s1 that an acquire by q at scope s2 reads from synchronises with it (R101). The model performs
every operation for all parties in one sequence, so each such pair orders more than the rule asks
(notes/assumptions/57.md). -/
def State.synchronises (s : State) (p : Agent) (s1 : BitVec 3) (q : Agent) (s2 : BitVec 3) : Bool :=
  s.inInstance s1 p q && s.inInstance s2 q p

end Sys2Proof.Machine
end

