-- ==== Sys2Proof/Machine/System.lean ====
section
/-!
DEFINITION. Sys2Proof/Machine/System.lean: the system-mode instructions (R158, R159, Table 07-4) and the acknowledgement
of invalidations (R362).
-/

namespace Sys2Proof.Machine

/-- A trap of a system instruction at an address. -/
def sysTrap (c : Cause) (va : Addr) (wr : Bool) (s : State) : State :=
  s.trapCtl { cause := c, va := some va, wr := wr } s.ctx.pc

/-- The instruction has executed, with a status in G[d]. -/
def sysDone (d : BitVec 5) (status : Nat) (s : State) : State :=
  s.mapCtx fun c => (c.setG d (BitVec.ofNat 64 status)).advance 1

/-- eret: the PC and the mode that EPC, EPCH and ESTAT hold. -/
def execEret (s : State) : Out :=
  ctlStep s [] (s.mapCtx fun c =>
    { c.jump (s.core.epch ++ s.core.epc) with system := s.core.estat == 1 })

/-! ## Invalidations (R362) -/

/-- A translation that an invalidation drops. -/
def Stale.hits (x : Stale) (e : TlbE) : Bool :=
  match x with
  | .page asid va => e.asid == asid && e.va == va / 2 ^ e.size
  | .space asid => e.asid == asid
  | .all => true
  | .code _ _ => false

/-- A token-cache entry that an invalidation drops. -/
def Stale.hitsTok (x : Stale) (t : Tok) : Bool :=
  match x with
  | .page asid va => t.asid == asid.toNat && t.covers va
  | .space asid => t.asid == asid.toNat
  | .all => true
  | .code _ _ => false

/-- A run of code bytes that an invalidation drops: it overlaps the range. -/
def Stale.hitsCode (x : Stale) (pa n : Nat) : Bool :=
  match x with
  | .code lo hi => decide (pa < hi) && decide (lo < pa + n)
  | _ => false

/-- What a core drops for an invalidation: translations, or instruction-cache and lane-block-cache lines. -/
def Core.drop (k : Core) (x : Stale) : Core :=
  { k with tlb := k.tlb.filter fun e => !x.hits e
           icache := k.icache.filter fun l => !x.hitsCode l.1 16
           lcache := k.lcache.filter fun r => !r.words.any fun w => x.hitsCode w.1 8 }

/-- Agents drop what an invalidation names: the cores selected by CID, their token caches, and the TLBs of their
clusters. -/
def State.dropAt (sel : Nat → Bool) (s : State) (x : Stale) : State :=
  let hasCl := fun (k : Nat) => (upto 8).any fun i => sel (8 * k + i)
  State.mapUnits
    { s with clTlb := s.clTlb.filter fun e => !(hasCl e.1 && x.hits e.2)
             tokc := s.tokc.filter fun e => !(sel e.1 && x.hitsTok (s.tok e.2)) }
    fun k c => (if sel k.cid.toNat then k.drop x else k, c)

/-- Cores in the scope of a system instruction of the focused core (R100). -/
def State.inScope (s : State) (scope : BitVec 3) (cid : Nat) : Bool :=
  s.inInstance scope (.core s.core.cid.toNat) (.core cid)

/-- An invalidation as the service core performs it: at once on an eager machine; else its own core drops, the other
agents are asked, and the instruction completes when all of them have acknowledged. -/
def State.invalidate (s : State) (scope : BitVec 3) (xs : List Stale) : State :=
  let fin := fun (s : State) => State.mapCtx { s with core := { s.core with inval := false } } fun c => c.advance 1
  if s.eager then fin (xs.foldl (State.dropAt (s.inScope scope)) s)
  else if s.core.inval then (if s.shoot.isEmpty then fin s else s)
  else
    let others := (s.others.filter fun u => s.inScope scope u.1.cid.toNat).map fun u => u.1.cid.toNat
    let s := xs.foldl (State.dropAt fun c => c == s.core.cid.toNat) s
    { s with core := { s.core with inval := true }, shoot := s.shoot ++ others.flatMap fun c => xs.map fun x => (c, x) }

/-- What a tlbi drops. -/
def tlbiStale (k : BitVec 2) (va : Addr) (asid : BitVec 16) : Stale :=
  match k.toNat with
  | 0 => .page asid va.toNat
  | 1 => .space asid
  | _ => .all

/-- The registers that a tlbi of a kind reads: kind 1 leaves ga reserved, kind 2 both. -/
def tlbiUses (a b : BitVec 5) (k : BitVec 2) : List Dst :=
  match k.toNat with
  | 0 => [.a (aIdx a), .g b]
  | 1 => [.g b]
  | _ => []

/-- tlbi -/
def execTlbi (a b : BitVec 5) (k : BitVec 2) (sc : BitVec 3) (s : State) : Out :=
  ctlStep s (tlbiUses a b k) (s.invalidate sc [tlbiStale k (s.ar (aIdx a)) ((s.gr b).setWidth 16)])

/-- The pages of a range, at most 4,096 of them. -/
def rangePages (va : Addr) (len : Nat) : List (Addr × Nat) :=
  (pageElems 4097 va len 0).map fun x => (x.va, x.n)

/-- The code lines of a range of addresses under the service core's translation; every line for a range of more than
4,096 pages or with a page that does not translate (R159 lets a line be replaced at any time). -/
def State.codeStale (s : State) (va : Addr) (len : Nat) : List Stale × State :=
  if len = 0 then ([], s)
  else if 4096 * 65536 < len then ([.code 0 (2 ^ 56)], s)
  else
    (rangePages va len).foldl (fun (st : List Stale × State) p =>
      match st.2.translate s.ctx.asid p.1 with
      | (some (l, _, size), s) => (.code (leafPa l size p.1) (leafPa l size p.1 + p.2) :: st.1, s)
      | (none, s) => (.code 0 (2 ^ 56) :: st.1, s)) ([], s)

/-- icinv -/
def execIcinv (a b : BitVec 5) (sc : BitVec 3) (s : State) : Out :=
  ctlStep s [.a (aIdx a), .g b] (
    let r := s.codeStale (s.ar (aIdx a)) (s.gr b).toNat
    r.2.invalidate sc r.1)

/-- The write of a cpatch, at home, whatever the page's class (R159); its page's D is set (DESIGN CHOICE,
notes/assumptions/54.md). -/
def State.patch (s : State) (va : Addr) (pa n v : Nat) : State :=
  ((s.wr pa n v).clearPoison [(pa, n)]).commitDirty s.ctx.asid false va

/-- cpatch -/
def execCpatch (a b : BitVec 5) (sc : BitVec 3) (w : BitVec 1) (s : State) : Out :=
  let n := if w = 1 then 16 else 8
  let va := s.ar (aIdx a)
  let v := (s.gr b).toNat + (if w = 1 then (s.gr (b + 1)).toNat <<< 64 else 0)
  ctlStep s ([.a (aIdx a), .g b] ++ if w = 1 then [.g (b + 1)] else []) (
    if va.toNat % n != 0 then sysTrap .misaligned va true s
    else if s.core.inval then s.invalidate sc []
    else
      match s.translate s.ctx.asid va with
      | (none, s) => sysTrap .pageNotPresent va true s
      | (some (l, _, size), s) =>
        let pa := leafPa l size va
        if !s.inHbm pa then sysTrap .classMismatch va true s
        else if s.unreachable pa then sysTrap .linkLost va true s
        else (s.patch va pa n v).invalidate sc [.code pa (pa + n)])

/-- SHOOTDOWN_ACK: an agent drops what it was asked to, and acknowledges (R362). -/
def execShootdownAck (agent : Nat) (s : State) : Out :=
  let mine := (s.shoot.filter fun x => x.1 == agent).map Prod.snd
  if mine.isEmpty then .refused (.notEnabled "SHOOTDOWN_ACK")
  else
    .next (mine.foldl (State.dropAt fun c => c == agent) { s with shoot := s.shoot.filter fun x => x.1 != agent })

/-! ## ctxsave and ctxload -/

/-- The accesses of a frame, as the service core makes them (notes/assumptions/21.md). -/
def State.frameParty (s : State) (write : Bool) : Party :=
  { asid := s.ctx.asid, ids := s.ctx.ids, acc := { write := write, watched := false } }

/-- The accesses of a frame that the dispatch unit places, under the address space it was handed with (R368). -/
def handParty (asid : BitVec 16) : Party := { asid := asid, ids := [rootId], acc := { watched := false, agent := true } }

/-- The physical address of a frame, which names it to the scheduler controller. -/
def State.framePa (s : State) (p : Party) (va : Addr) : Nat :=
  match (s.translateFor p.acc.agent p.asid va).1 with | some (l, _, size) => leafPa l size va | none => 0

/-- A cause and an address from a check of a frame's bytes. -/
def frameTrap (c : Cause) (x : MElem) (wr : Bool) (s : State) : State := sysTrap c x.va wr s

/-- What the scheduler controller keeps of a saved context (R390). -/
def Ctx.aside (c : Ctx) (pa : Nat) : Aside :=
  { pa := pa, who := { c.parked with crc := c.crc, chans := c.chans, copies := c.copies } }

/-- A saved context has left its core: its group leaves the part with the last of its units. -/
def State.vacate (s : State) (cid : Nat) : State :=
  let c := (s.unitAt cid).2
  let s := s.keepEntries fun x => x == c && x.run == .stopped
  let u := s.unitAt cid
  let s := (s.setUnit cid ({ u.1 with fqwait := none }, u.2)).freeSlot cid
  match s.groups.find? fun g => g.has c with
  | none => s
  | some g => (s.settleGroup g).unplace g

/-- The stopped context that a core's running slot holds: faulted, or pre-empted or descheduled and kept with the
scheduler until another unit takes the slot (R158, R272). -/
def State.stoppedAt (s : State) (cid : Nat) : Option Ctx :=
  let c := (s.unitAt cid).2
  if c.run = .stopped then some c
  else if c.run = .idle then s.saved.find? fun c => c.held == some cid
  else none

/-- The frame of a stopped context is written: the slot is free. -/
def State.frameSaved (s : State) (cid : Nat) (c : Ctx) : State :=
  if c.held.isSome then { s with saved := s.saved.filter fun k => k.held != c.held } else s.vacate cid

/-- ctxsave: status 2, 1 or 0 (R158, R274). -/
def execCtxsave (d a b : BitVec 5) (s : State) : Out :=
  let va := s.ar (aIdx a)
  let cid := (s.gr b).toNat
  ctlStep s [.g d, .a (aIdx a), .g b] (
    if va.toNat % 256 != 0 then sysTrap .misaligned va true s
    else if !s.inService cid || decide (256 ≤ cid) then sysDone d 2 s
    else
      match s.stoppedAt cid with
      | none => sysDone d 1 s
      | some c =>
        let img := c.image
        let xs := pageElems framePages va img.2 img.1
        match storeChunk (s.frameParty true) 1 false xs s with
        | .done _ s =>
          let pa := s.framePa (s.frameParty true) va
          sysDone d 0 (State.frameSaved { s with aside := c.aside pa :: s.aside.filter fun k => k.pa != pa } cid c)
        | .fault cause _ x _ s => frameTrap cause x true s
        | .wait _ _ s => s
        | .stall _ s => s)

/-- What a frame that the scheduler controller does not know belongs to: the launch whose window holds its CTXID. -/
def State.asideOf (s : State) (pa : Nat) (ctxid : Nat) : Aside :=
  match s.aside.find? fun k => k.pa == pa with
  | some k => k
  | none =>
    match s.launches.find? fun l => decide (l.ctxbase ≤ ctxid) && decide (ctxid < l.ctxbase + l.ucnt) with
    | some l => { pa := pa, who := { launch := some l.id, entry := l.entry, ctxid := BitVec.ofNat 24 ctxid } }
    | none => { pa := pa, who := { ctxid := BitVec.ofNat 24 ctxid } }

/-- Reads `n` bytes of a frame. -/
def State.frameRead (s : State) (p : Party) (va : Addr) (n : Nat) : Run Nat :=
  match checkVa p 1 (pageElems framePages va n 0) [] [] s with
  | .done ws s =>
    let ps := ws.1.flatMap fun w => w.2.1
    match ws.1.find? fun w => (s.dataFault true w.2.1).isSome with
    | some w => .fault ((s.dataFault true w.2.1).getD .memUncorrectable) none w.1 0 s
    | none => .done (s.rdPieces ps) s
  | .fault c src x _ s => .fault c src x 0 s
  | .wait v _ s => .wait v 0 s
  | .stall _ s => .stall 0 s

/-- What the loading of a frame comes to: a status, with the context of a frame that is accepted; a fault of its bytes, with
the header where that was read; or a wait. -/
inductive FrameRes where
  | loaded (c : Ctx) (s : State)
  | status (n : Nat) (s : State)
  | fault (c : Cause) (x : MElem) (h : Nat) (s : State)
  | wait (s : State)

/-- A run over a frame's bytes, and what follows it. -/
def frameThen (h : Nat) (body : Nat → State → FrameRes) : Run Nat → FrameRes
  | .done v s => body v s
  | .fault c _ x _ s => .fault c x h s
  | .wait _ _ s => .wait s
  | .stall _ s => .wait s

/-- The loading of a frame for core cid: status 2, 1 or 3, or the context that it holds (R158, R274). -/
def State.readFrame (s : State) (p : Party) (va : Addr) (cid : Nat) : FrameRes :=
  if !s.inService cid || decide (256 ≤ cid) then .status 2 s
  else if (s.unitAt cid).1.staged.isSome then .status 1 s
  else
    frameThen 0 (fun h s =>
      if frameBad h then .status 3 s
      else
        frameThen h (fun f s => .loaded (ctxOfFrame f (s.asideOf (s.framePa p va) (fieldAt f 0x018 4))) s)
          (s.frameRead p va (min (fieldAt h 0x008 8) maxFrame))) (s.frameRead p va fixBytes)

/-- A loaded context stands in its core's staged slot. -/
def State.putFrame (s : State) (p : Party) (va : Addr) (cid : Nat) (c : Ctx) : State :=
  let pa := s.framePa p va
  let u := s.unitAt cid
  State.setUnit { s with aside := s.aside.filter fun k => k.pa != pa } cid ({ u.1 with staged := some c }, u.2)

/-- A frame that cannot be read: its context is lost (R385). -/
def State.frameGone (s : State) (p : Party) (va : Addr) (h cid : Nat) : State :=
  let k := s.asideOf (s.framePa p va) (fieldAt h 0x018 4)
  State.loseContext { s with aside := s.aside.filter fun a => a.pa != k.pa } k.who cid

/-- ctxload: status 2, 1, 3 or 0 (R158, R274); of a frame that cannot be read, a value that no rule gives
(notes/assumptions/21.md). -/
def execCtxload (d a b : BitVec 5) (s : State) : Out :=
  let va := s.ar (aIdx a)
  let cid := (s.gr b).toNat
  let p := s.frameParty false
  ctlStep s [.g d, .a (aIdx a), .g b] (
    if va.toNat % 256 != 0 then sysTrap .misaligned va false s
    else
      match s.readFrame p va cid with
      | .status n s => sysDone d n s
      | .wait s => s
      | .fault c x h s =>
        if c = .memUncorrectable then
          let r := (s.frameGone p va h s.core.cid.toNat).free
          r.2.mapCtx fun c => (c.setG d r.1).advance 1
        else frameTrap c x false s
      | .loaded c s => sysDone d 0 (s.putFrame p va cid c))

/-- A die on which a context may run: one that its launch may use, or that its DIEM grants. -/
def State.grants (s : State) (c : Ctx) (die : Nat) : Bool :=
  match s.groups.find? fun g => g.has c with
  | some g => (s.launchOf g.launch).all fun l => l.mayUse g die
  | none => c.diem.getLsbD die

/-- The dispatch unit places a frame that firmware has handed back, in the staged slot of core cid, on a die that the
launch may use or that DIEM grants (R368). -/
def handOffTurn (cid : Nat) (asid : BitVec 16) (va : Addr) (s : State) : Out :=
  let no : Out := .refused (.notEnabled "turn")
  let p := handParty asid
  if va.toNat % 256 != 0 then no
  else
    match s.readFrame p va cid with
    | .loaded c s =>
      if s.grants c (cid / 128) then .next (s.putFrame p va cid c) else no
    | .fault c _ h s => if c = .memUncorrectable then .next (s.frameGone p va h cid) else no
    | _ => no

/-! ## tkadm -/

/-- tkadm -/
def execTkadm (d a b : BitVec 5) (o : BitVec 3) (s : State) : Out :=
  ctlStep s [.g d, .a (aIdx a), .g b] (
    if o = 3 && badHolder (s.gr b) then csrTrap s 0
    else
      let r := s.tkadm (s.ar (aIdx a)).toNat o.toNat ((s.gr b).toNat % 2 ^ 24)
      sysDone d r.1 r.2)

end Sys2Proof.Machine
end

