-- ==== Sys2Proof/Machine/Boot.lean ====
section
/-!
DEFINITION. Sys2Proof/Machine/Boot.lean: bring-up, resets and function resets (R8, R410, R415), the mailbox and its commands
(R411, R412), image authentication (R413, R414), attestation (R416, R417), and power (R418 to R420).
-/

namespace Sys2Proof.Machine

/-! ## The mailbox (Table 22-2) -/

def State.mbRd (s : State) (off n : Nat) : Nat := s.rd (s.local_ off) n
def State.mbWr (s : State) (off n v : Nat) : State := s.wr (s.local_ off) n v

/-- The register at 0x000 follows STATE, ERR and the fuses. -/
def State.syncBoot (s : State) : State :=
  s.mbWr 0x000 8 (s.boot.st.toNat + s.boot.err.toNat <<< 8 + s.boot.svn.toNat <<< 32)

def State.setBoot (s : State) (f : Boot → Boot) : State := State.syncBoot { s with boot := f s.boot }

/-- The response: STATUS, and the SEQ of the command finished. -/
def State.respond (s : State) (seq status : Nat) : State := s.mbWr 0x010 8 (status + (seq % 2 ^ 16) <<< 16)

/-- Bytes written at an offset of the mailbox. -/
def State.mbBytes (s : State) (off : Nat) (bs : List Byte) : State := s.mbWr off bs.length (ofBytes bs)

/-! ## BOOT (R413, R414) -/

/-- Where the image stands in die 0's HBM. -/
def imageBase : Nat := 0x100000

/-- The header's fields, and the number of the first check of Table 22-5 that fails, or 0. -/
def State.bootCheck (s : State) (len : Nat) : Nat :=
  let h := fun off n => s.mbRd (imageBase + off) n
  let list := fun off n => bytesOf n (h off n)
  let body := h 16 8
  let key := h 9 1
  let fused := s.boot.keys.toList.getD key 0
  let m := bytesOf 32 (Config.sha3 (list 0 64)).toNat
  if len != 4096 + body || body == 0 || decide (2 ^ 27 < body) || decide (0x0FF00000 < len) || h 0 4 != 0x4D464B59
      || h 4 2 != 1 || h 10 6 != 0 || h 24 8 != 0 || h 3796 300 != 0 then 1
  else if decide (4 ≤ key) || s.boot.revoked.getLsbD key || Config.sha3 (list 64 1312) != fused then 2
  else if !Config.verify (list 64 1312) m (list 1376 2420) then 3
  else if Config.sha3 (list 4096 body) != BitVec.ofNat 256 (h 32 32) then 4
  else if h 6 2 < s.boot.svn.toNat then 5
  else 0

/-- BOOT: the checks, and FW_INIT or FAILED: STATUS. -/
def State.doBoot (s : State) (len : Nat) : Nat × State :=
  let e := s.bootCheck len
  let s := s.setBoot fun b => { b with boots := b.boots + 1, err := BitVec.ofNat 8 e }
  if e != 0 then (4, s.setBoot fun b => { b with st := 5 })
  else
    let h := fun off n => s.mbRd (imageBase + off) n
    (0, s.setBoot fun b => { b with
      st := 3, key := BitVec.ofNat 8 (h 9 1), imgSvn := BitVec.ofNat 16 (h 6 2), adv := (h 8 1).testBit 0
      m := Config.sha3 (bytesOf 64 (h 0 64)) })

/-! ## ATTEST and GETCERT -/

/-- VARIANT of a report. -/
def variantCode (v : Variant) : Nat := match v with | .l9 => 9 | .l7 => 7 | .l5 => 5

/-- The report of Table 22-6 over a nonce. -/
def State.report (s : State) (nonce : Nat) : List Byte :=
  let cfg := (bytesOf 8 s.cap0 ++ bytesOf 8 s.cap1 ++ bytesOf 8 s.cap2 ++ bytesOf 8 s.cap3 ++ bytesOf 8 s.nodeId)
  let body := bytesOf 4 0x52414B59 ++ bytesOf 2 1 ++ bytesOf 1 (variantCode s.variant) ++ bytesOf 1 s.stepping.toNat
    ++ bytesOf 1 s.gen.toNat ++ bytesOf 1 s.boot.key.toNat ++ bytesOf 2 s.boot.imgSvn.toNat ++ bytesOf 2 s.boot.svn.toNat
    ++ bytesOf 2 0 ++ bytesOf 32 nonce ++ bytesOf 32 (Config.sha3 Config.rom).toNat ++ bytesOf 32 s.boot.m.toNat
    ++ bytesOf 32 (Config.sha3 cfg).toNat ++ bytesOf 8 s.boot.boots.toNat ++ bytesOf 8 0
    ++ bytesOf 1312 (ofBytes Config.idPub)
  body ++ bytesOf 2420 (ofBytes (Config.sign (bytesOf 32 (Config.sha3 body).toNat)))

/-! ## Commands (Table 22-3) -/

/-- The states that accept a command; none for an OP that no row names. -/
def opStates (op : Nat) : Option (List Nat) :=
  match op with
  | 0x01 => some [1, 5]
  | 0x02 | 0x03 | 0x04 | 0x10 | 0x11 | 0x12 => some [4]
  | _ => none

/-- CSRR and CSRW act on the service core of die 0. -/
def State.hostCsrr (s : State) (n : Nat) : Option Nat := if n < 0x800 then none else (s.focus 0).sysCsr 0 n
def State.hostCsrw (s : State) (n : Nat) (v : BitVec 64) : Option State :=
  if decide (n < 0x800) || csrRo n || (s.hostCsrr n).isNone then none
  else ((s.focus 0).writeSys 0 n v).map fun t => t.focus s.core.cid.toNat

/-- The effect of a command in a state that accepts it: STATUS, and the state. -/
def State.runOp (s : State) (op arg0 arg1 : Nat) : Nat × State :=
  match op with
  | 0x01 => s.doBoot arg0
  | 0x02 => (0, s.mbBytes 0x1000 (s.report (s.mbRd 0x100 32)))
  | 0x03 => (0, (s.mbBytes 0x1000 Config.certificate).mbWr 0x018 8 Config.certificate.length)
  | 0x04 =>
    match s.writeSys 0 0x870 (BitVec.ofNat 64 arg0) with
    | some s => (0, s)
    | none => (3, s)
  | 0x10 =>
    match s.hostCsrr arg0 with
    | some v => (0, s.mbWr 0x020 8 v)
    | none => (3, s)
  | 0x11 =>
    match s.hostCsrw arg0 (BitVec.ofNat 64 arg1) with
    | some s => (0, s)
    | none => (3, s)
  | _ =>
    let o := arg1 % 8
    let h := arg1 / 2 ^ 24 % 2 ^ 24
    if 4 ≤ o ∨ (o = 3 ∧ 6 ≤ holderKind h) then (3, s)
    else
      let r := s.tkadm arg0 o h
      (0, r.2.mbWr 0x020 1 r.1)

/-- The command whose OP and SEQ the host has written. Between BOOT and READY or FAILED the write is discarded (R411). -/
def State.command (s : State) (op seq : Nat) : State :=
  if s.boot.st = 2 ∨ s.boot.st = 3 then s
  else
    let s := s.mbWr 0x008 8 (op + (seq % 2 ^ 16) <<< 16)
    match opStates op with
    | none => s.respond seq 2
    | some sts =>
      if !sts.contains s.boot.st.toNat then s.respond seq 1
      else
        let r := s.runOp op (s.mbRd 0x018 8) (s.mbRd 0x020 8)
        r.2.respond seq r.1

/-- The arguments, then OP and SEQ. -/
def mailboxExec (op : Nat) (c : MailboxCmd) (s : State) : Out :=
  .next (if s.boot.st = 2 ∨ s.boot.st = 3 then s
    else ((s.mbWr 0x018 8 c.arg0.toNat).mbWr 0x020 8 c.arg1.toNat).command op c.seq.toNat)

def execBoot (c : MailboxCmd) (s : State) : Out := mailboxExec 0x01 c s
def execAttest (c : MailboxCmd) (s : State) : Out := mailboxExec 0x02 c s
def execGetcert (c : MailboxCmd) (s : State) : Out := mailboxExec 0x03 c s
def execSetcap (c : MailboxCmd) (s : State) : Out := mailboxExec 0x04 c s
def execMailboxCsrr (c : MailboxCmd) (s : State) : Out := mailboxExec 0x10 c s
def execMailboxCsrw (c : MailboxCmd) (s : State) : Out := mailboxExec 0x11 c s
def execMailboxTkadm (c : MailboxCmd) (s : State) : Out := mailboxExec 0x12 c s

/-! ## Resets -/

/-- What a reset leaves of a machine: the fuses, the part's variant, and the model's own fields; a count of BOOT commands
since power-on unless power was lost. -/
def State.restarted (s : State) (boots : BitVec 64) : State :=
  { variant := s.variant, stepping := s.stepping, gen := s.gen, turns := s.turns, eager := s.eager, freeCtr := s.freeCtr
    cycCtr := s.cycCtr
    boot := { svn := s.boot.svn, revoked := s.boot.revoked, keys := s.boot.keys, boots := boots } }

/-- RESET: bring-up begins again at ROM_INIT, with all state lost. -/
def execReset (k : ResetKind) (s : State) : Out :=
  match k with
  | .powerOn => .next (s.restarted 0).syncBoot
  | _ => if s.powered then .next (s.restarted s.boot.boots).syncBoot else .refused (.notEnabled "RESET")

/-- POWER_LOSS: every piece of device state is lost (R8). -/
def execPowerLoss (s : State) : Out := .next { s.restarted 0 with powered := false }

/-- ROM_INIT is done: die 0's HBM and the PCIe link are trained, and the part waits for an image. Training has read the
root port's AtomicOp capabilities, which are the host's (R375). -/
def execRomInit (s : State) : Out :=
  if s.boot.st != 0 || !s.powered then .refused (.notEnabled "ROM_INIT")
  else
    let r := s.free
    .next ((r.2.setSys 0 0x840 ((r.1 &&& 7) ||| 8)).setBoot fun b => { b with st := 1 })

/-- An address with two nodes exchanged. -/
def renodePa (a b pa : Nat) : Nat :=
  if pa / 2 ^ 48 = a then b * 2 ^ 48 + pa % 2 ^ 48 else if pa / 2 ^ 48 = b then a * 2 ^ 48 + pa % 2 ^ 48 else pa

/-- Memory with the bytes of two nodes exchanged: NODEID moves the part's memory to its own node's addresses. -/
def renode (a b : Nat) (m : List Host.Cell) : List Host.Cell :=
  m.foldl (fun m c => Memory.write m (renodePa a b c.1) c.2) []

/-- Firmware writes NODEID once; the value is the fleet's (notes/assumptions/23.md). -/
def State.setNode (s : State) : State :=
  let r := s.free
  let n := r.1.toNat % 255
  let s := r.2
  { s with mem := renode s.nodeId n s.mem, poison := s.poison.map (renodePa s.nodeId n)
           sys := insert s.sys 0x808 (BitVec.ofNat 64 n) }

/-- Firmware places a die's fault queue and sets EN and IE; base and size are its choice. -/
def State.setFaultQueue (s : State) (die : Nat) : State :=
  let r := s.free
  let q := r.2.free
  let frame := r.1.toNat % (s.hbmPerDie / 65536 - 128)
  ((q.2.setSys die 0x820 (BitVec.ofNat 64 (s.local_ (die * 2 ^ 39 + frame * 65536)))).writeFqctl die
    (BitVec.ofNat 64 (6 + q.1.toNat % 11 + 0x300))).getD q.2

/-- FW_INIT is done: die 1 and the Shuttle modules are trained, or, where `ok` is false, die 1 is left out of service; the
part is READY, and firmware raises the fused version (R415). -/
def execFwInit (ok : Bool) (s : State) : Out :=
  if s.boot.st != 3 then .refused (.notEnabled "FW_INIT")
  else
    let two := ok && s.die1Up
    let s : State := { s with die1 := s.die1 && ok, mods := s.mods.map fun m => { m with up := two } }
    let s := s.setNode
    let s := s.setFaultQueue 0
    let s := if two then s.setFaultQueue 1 else s
    .next (s.setBoot fun b => { b with
      st := 4, svn := if b.adv && decide (b.svn.toNat < b.imgSvn.toNat) then BitVec.ofNat 6 (min 63 b.imgSvn.toNat) else b.svn })

/-! ## Function-level resets -/

/-- VF_FLR: CANCEL on each queue of the function; a function that exists has been enabled by the host. -/
def execVfFlr (vf : Nat) (s : State) : Out :=
  if vf = 0 ∨ 31 < vf then .refused (.notEnabled "VF_FLR")
  else
    let s : State := { s with vfEnable := true }
    .next ((s.queues.filter fun x => s.qVf x.q == vf).foldl (fun s x => s.cancel x.q) s)

/-- PF_FLR: CANCEL on every queue, EN cleared in every descriptor, VF Enable and every AtomicOp Requester Enable cleared. -/
def execPfFlr (s : State) : Out :=
  let s := s.queues.foldl (fun s x => s.cancel x.q) s
  let s := (upto 32768).foldl (fun s q => if s.qEn q then s.qdWr q 34 1 (s.qd q 34 1 &&& 0xFE) else s) s
  .next { s with queues := [], seqs := [], vfEnable := false, atomFns := [] }

/-! ## Power (R418, R419) -/

def capW (s : State) : Nat := (s.getSys 0 0x870).toNat
def fmhz (s : State) : Nat := (s.getSys 0 0x872).toNat % 4096
/-- EMRG: the clock is held down by an emergency. -/
def emrg (s : State) : Bool := (s.getSys 0 0x872).getLsbD 18

/-- CLKSTAT takes a clock and its three reasons; THRCNT counts a step down. -/
def State.setClock (s : State) (mhz : Nat) (capt thrt em : Bool) : State :=
  let down := decide (mhz < fmhz s)
  let n := (s.getSys 0 0x874).toNat
  let s := s.setSys 0 0x872 (BitVec.ofNat 64 (mhz + bit capt <<< 16 + bit thrt <<< 17 + bit em <<< 18))
  if down then s.setSys 0 0x874 (BitVec.ofNat 64 ((n + 1) % 2 ^ 40)) else s

/-- The clock that a tick gives, and whether an emergency holds it: 600 MHz from 105 °C until it is below 90 °C. -/
def nextClock (mhz cap avg tj : Nat) (em : Bool) : Nat × Bool :=
  if 105 ≤ tj then (600, true)
  else if em ∧ mhz = 600 ∧ 90 ≤ tj then (600, true)
  else if cap < avg ∨ 95 ≤ tj then (max 600 (mhz - 50), em)
  else if 100 * avg < 95 * cap ∧ tj < 90 then (min 1800 (mhz + 50), false)
  else (mhz, em)

/-- POWER_CONTROL_TICK. -/
def execPowerControlTick (d : PowerSample) (s : State) : Out :=
  let avg := min d.watts 4095
  let tj := min d.temp 255
  let hbm := min d.hbmTemp 255
  let s := (s.setSys 0 0x871 (BitVec.ofNat 64 avg)).setSys 0 0x873 (BitVec.ofNat 64 (tj + hbm * 256))
  let r := nextClock (fmhz s) (capW s) avg tj (emrg s)
  let below := decide (r.1 < 1800)
  let s := s.setClock r.1 (below && decide (95 * capW s ≤ 100 * avg)) (below && decide (90 ≤ tj)) r.2
  .next { s with trip := s.trip || decide (115 ≤ tj) || decide (105 ≤ hbm) }

/-- SUPPLY_OVERDRAW: a draw above 2,800 W sets 900 MHz, unless an emergency of temperature holds 600. -/
def execSupplyOverdraw (watts : Nat) (s : State) : Out :=
  if watts ≤ 2800 then .refused (.notEnabled "SUPPLY_OVERDRAW")
  else
    let c := s.getSys 0 0x872
    .next (s.setClock (if emrg s ∧ fmhz s = 600 then 600 else 900) (c.getLsbD 16) (c.getLsbD 17) true)

end Sys2Proof.Machine
end

