-- ==== Sys2Proof/Machine/Caravan.lean ====
section
/-!
DEFINITION. Sys2Proof/Machine/Caravan.lean: the staging of working sets (R344 to R349, R433, Table 17-11).
-/

namespace Sys2Proof.Machine

/-! ## Sources (R110, R433) -/

/-- What Caravan meets on the page of a source address: bytes it may read, a cause for which it cannot, or an OWNED region
that the root does not hold. -/
inductive SrcPage where
  | ok (pa : Nat)
  | unread (c : Cause)
  | wait
  deriving DecidableEq, Repr

/-- The page of a source address. -/
def State.srcPage (s : State) (asid : BitVec 16) (va : Addr) : SrcPage × State :=
  match s.walkLeaf false asid va with
  | (none, s) => (.unread .pageNotPresent, s)
  | (some (l, _, size), s) =>
    let pa := leafPa l size va
    if l.cls = 3 then (.unread .classMismatch, s)
    else if l.cls = 2 ∧ s.target pa = .host ∧ !s.hatomOk asid then (.unread .classMismatch, s)
    else if s.unreachable pa then (.unread .linkLost, s)
    else if l.cls = 0 then
      match s.governing asid l.tri va.toNat with
      | none => (.wait, s)
      | some i =>
        let t := s.tok i
        (if t.holder = rootId ∧ (t.state = tokHeld ∨ t.state = tokShared) then .ok pa else .wait, s)
    else (.ok pa, s)

/-- Pieces of a source range, none across a page: offset in the range, address, bytes. -/
def srcPieces (src : Addr) (lo n : Nat) : List (Nat × Addr × Nat) :=
  (pieces (src + BitVec.ofNat 72 lo) n).foldl (fun (st : List (Nat × Addr × Nat) × Nat) p =>
    (st.1 ++ [(st.2, p.1, p.2)], st.2 + p.2)) ([], lo) |>.1

/-- Strips of a slice. -/
def Slice.nstrips (x : Slice) : Nat := ceilDiv x.len 4096
/-- Bytes of a strip. -/
def Slice.stripLen (x : Slice) (i : Nat) : Nat := min 4096 (x.len - 4096 * i)
/-- The pieces of a strip. -/
def Slice.stripPieces (x : Slice) (i : Nat) : List (Nat × Addr × Nat) := srcPieces x.src (4096 * i) (x.stripLen i)

/-- The source of a strip is allowed under R110. -/
def State.stripAllowed (s : State) (x : Slice) (i : Nat) : Bool :=
  (x.stripPieces i).all fun p => (s.srcPage x.asid p.2.1).1 != .wait

/-- The source of a slice is host memory: nothing of it is placed in L2 (R347). -/
def State.hostSource (s : State) (x : Slice) : Bool :=
  match (s.srcPage x.asid x.src).1 with | .ok pa => s.target pa == .host | _ => false

/-! ## Admission (R345, R347) -/

/-- The die with fewer staged bytes outstanding; ties go to die 0. -/
def State.lighter (s : State) : Nat := if s.dieUp 1 && decide (s.dieLoad 1 < s.dieLoad 0) then 1 else 0

/-- The die of a qstage slice: the lighter one, or the one whose budget it does not exceed. -/
def State.stageDie (s : State) (x : Slice) : Nat :=
  if s.neverStaged x [s.lighter] && s.dieUp 1 then 1 - s.lighter else s.lighter

/-- The die a slice is bound to at its admission. -/
def State.admitDie (s : State) (x : Slice) : Nat :=
  match x.launch.bind s.launchOf with
  | none => s.stageDie x
  | some l =>
    if x.shared then x.die
    else
      match l.place with
      | 1 => 0
      | 2 => 1
      | 3 => if l.dies = 3 then x.k / l.cgs % 2 else 0
      | _ =>
        let g := x.k / l.cgs
        match (s.groups.find? fun h => h.launch == l.id && h.idx == g && h.place.isSome).bind Group.place with
        | some p => p.1
        | none =>
          match s.slices.find? fun y => y.launch == x.launch && !y.shared && !y.csp && y.st != .wait && y.k / l.cgs == g with
          | some y => y.die
          | none => s.lighter

/-- Charges on a die, and of a queue. -/
def State.dieCharge (s : State) (die : Nat) : Nat := (s.slices.filter fun x => x.die == die).foldl (fun n x => n + x.charge) 0
def State.queueCharge (s : State) (q : Nat) : Nat := (s.slices.filter fun x => x.q == q).foldl (fun n x => n + x.charge) 0
def State.dieBudget (s : State) (die : Nat) : Nat := (s.getSys 0 (0x833 + die)).toNat * 2 ^ 20

/-- An L2 slice may be admitted: no slice of its launch with a lower k waits, and both budgets have room. -/
def State.admits (s : State) (x : Slice) (die : Nat) : Bool :=
  !s.neverStaged x [die] && !s.stagingOff x.q
  && !s.slices.any (fun y => y.st == .wait && !y.csp && y.launch.isSome && y.launch == x.launch && decide (y.k < x.k)
        && !s.neverStaged y [s.admitDie y])
  && decide (s.dieCharge die + x.need ≤ s.dieBudget die) && decide (s.queueCharge x.q + x.need ≤ s.qBud x.q)

/-- The state with slice k changed. -/
def State.setSlice (s : State) (k : Nat) (x : Slice) : State := { s with slices := modifyAt (fun _ => x) s.slices k }

/-- The group of a cluster-space slice. -/
def Slice.isOfGroup (x : Slice) (g : Group) : Bool := x.launch == some g.launch && x.csp && x.k == g.idx

/-- A slice has all its bytes: READY, or, for a qstage, HELD with its command done (R348). -/
def State.readySlice (s : State) (k : Nat) (x : Slice) : State :=
  match x.stage with
  | none => s.setSlice k { x with st := .ready }
  | some e => (s.setSlice k { x with st := .held }).endStage x.q e.1 e.2

/-- An admitted L2 slice binds its group, and with it its launch, to its die (R345, R347). -/
def State.bindSlice (s : State) (x : Slice) (die : Nat) : State :=
  match x.launch.bind s.launchOf with
  | some l => if x.shared then s else s.bindDie l (x.k / l.cgs) die
  | none => s

/-- SLICE_ADMIT: slice k of the list leaves WAIT. -/
def execSliceAdmit (k : Nat) (s : State) : Out :=
  let no : Out := .refused (.notEnabled "SLICE_ADMIT")
  match s.slices[k]? with
  | none => no
  | some x =>
    if x.st != .wait then no
    else if x.csp then
      (if s.groups.any fun g => x.isOfGroup g && g.place.isSome then .next (s.setSlice k { x with st := .admitted }) else no)
    else
      let die := s.admitDie x
      if s.admits x die then
        let x := { x with die := die, charge := x.need, st := .admitted }
        let s := (s.setSlice k x).bindSlice x die
        .next (if s.hostSource x then s.readySlice k x else s)
      else no

/-- qstage slices of which nothing will be placed are done as soon as that is known (R348). -/
def State.dropStages (s : State) : State :=
  (s.slices.filter fun x => x.stage.isSome && (x.st == .wait || (x.st == .admitted && x.strips.isEmpty))).foldl (fun s x =>
    let r := s.stageNothing x
    match r.1, x.stage with
    | true, some e => State.endStage { r.2 with slices := r.2.slices.filter fun y => y != x } x.q e.1 e.2
    | _, _ => s) s

/-- SLICE_FILL: the source of an admitted slice is allowed, and its strips start. -/
def execSliceFill (k : Nat) (s : State) : Out :=
  let no : Out := .refused (.notEnabled "SLICE_FILL")
  match s.slices[k]? with
  | none => no
  | some x =>
    if x.st == .admitted && (upto x.nstrips).all (s.stripAllowed x)
        && (!x.csp || s.groups.any fun g => x.isOfGroup g && g.place.isSome) then
      .next (s.setSlice k { x with st := .fill })
    else no

/-! ## Strips (R346, R381, R433) -/

/-- The parts of [lo, hi) that a reservation still waits for. -/
def Group.awaited (g : Group) (lo hi : Nat) : List (Nat × Nat) :=
  (g.pending.map fun r => (max lo r.1, min hi r.2)).filter fun r => decide (r.1 < r.2)

/-- The poisoned granules in `n` bytes at a source address, as marks of the reservation from offset `lo` on. -/
def State.poisonMarks (s : State) (pa lo n : Nat) : List Unread :=
  (s.poison.filter fun g => decide (g < pa + n) && decide (pa < g + 64)).map fun g =>
    { lo := lo + (max g pa - pa), hi := lo + (min (g + 64) (pa + n) - pa), cause := .memUncorrectable, va := 0 }

/-- Source bytes as they are placed: as they stood at the qlaunch, or, where they are read again, as they stand (R110,
R433). -/
def State.srcBytes (s : State) (snap : List Host.Cell) (g : Group) (r : Nat × Nat) (pa : Nat) : Nat :=
  if g.again.any fun a => rangesMeet a r then s.rd pa (r.2 - r.1) else State.rd { s with mem := snap } pa (r.2 - r.1)

/-- One part [lo, hi) of a piece in a group: its bytes, or the mark of bytes that could not be read; `va` and the page are
those of its source. -/
def State.placePart (s : State) (snap : List Host.Cell) (va : Nat) (q : SrcPage) (g : Group) (lo : Nat)
    (r : Nat × Nat) : Group :=
  match q with
  | .ok pa =>
    { g with bytes := putBits g.bytes (8 * r.1) (8 * (r.2 - r.1)) (s.srcBytes snap g r (pa + (r.1 - lo)))
             unreadable := g.unreadable ++ s.poisonMarks (pa + (r.1 - lo)) r.1 (r.2 - r.1) }
  | .unread c => { g with unreadable := g.unreadable ++ [{ lo := r.1, hi := r.2, cause := c, va := va + (r.1 - lo) }] }
  | .wait => g

/-- One piece of a cluster-space strip in one group. -/
def State.placePiece (s : State) (x : Slice) (snap : List Host.Cell) (q : SrcPage) (p : Nat × Addr × Nat) (g : Group) :
    Group :=
  let lo := x.dst + p.1
  let hi := lo + p.2.2
  let g := (g.awaited lo hi).foldl (fun g r => s.placePart snap p.2.1.toNat q g lo r) g
  { g with pending := cutRange (lo, hi) g.pending, again := cutRange (lo, hi) g.again }

/-- The lines of a range of local HBM stand in their home slices (R79, R345). -/
def State.pinLines (s : State) (pa n : Nat) : State :=
  (upto (ceilDiv (pa % 256 + n) 256)).foldl (fun s i => s.fillL2 (pa + 256 * i)) s

/-- A piece of a strip is placed. -/
def State.placeOne (x : Slice) (snap : List Host.Cell) (s : State) (p : Nat × Addr × Nat) : State :=
  let q := s.srcPage x.asid p.2.1
  if x.csp then q.2.mapGroups x.isOfGroup (q.2.placePiece x snap q.1 p)
  else match q.1 with | .ok pa => q.2.pinLines pa p.2.2 | _ => q.2

/-- A strip of a slice is placed; with the last one the slice has all its bytes. -/
def State.placeStrip (s : State) (k : Nat) (x : Slice) (i : Nat) : State :=
  let snap := match x.launch.bind s.launchOf with | some l => l.snap | none => s.mem
  let s := (x.stripPieces i).foldl (State.placeOne x snap) s
  let x' := { x with strips := i :: x.strips }
  if x.st == .fill && (upto x.nstrips).all fun j => x'.strips.contains j then s.readySlice k x' else s.setSlice k x'

/-- STAGING_STRIP: a strip of slice k is placed whole. A held cluster-space slice places strips that are read again. -/
def execStagingStrip (k strip : Nat) (s : State) : Out :=
  let no : Out := .refused (.notEnabled "STAGING_STRIP")
  match s.slices[k]? with
  | none => no
  | some x =>
    let on := x.st == .fill || (x.csp && (x.st == .held || x.st == .ready))
    if on && decide (strip < x.nstrips) && !x.strips.contains strip && s.stripAllowed x strip
        && (x.csp || s.getSys 0 0x835 != 0) then .next (s.placeStrip k x strip)
    else no

end Sys2Proof.Machine
end

