-- ==== Sys2Proof/Machine/LaneRows.lean ====
section
/-!
DEFINITION. Sys2Proof/Machine/LaneRows.lean: the lane rows over the lane group in progress (R207): an instruction acts on
every enabled lane.
-/

namespace Sys2Proof.Machine

/-- An instruction of a lane function over the lane group in progress. -/
def laneExec (f : Lane → Lane) (s : State) : Out := .next { s with lanes := s.lanes.map f }

def execLfadd (f : LaneFields) (s : State) : Out := laneExec (laneLfadd f) s
def execLfsub (f : LaneFields) (s : State) : Out := laneExec (laneLfsub f) s
def execLfmul (f : LaneFields) (s : State) : Out := laneExec (laneLfmul f) s
def execLffma (f : LaneFields) (s : State) : Out := laneExec (laneLffma f) s
def execLfmin (f : LaneFields) (s : State) : Out := laneExec (laneLfmin f) s
def execLfmax (f : LaneFields) (s : State) : Out := laneExec (laneLfmax f) s
def execLfabs (f : LaneFields) (s : State) : Out := laneExec (laneLfabs f) s
def execLfneg (f : LaneFields) (s : State) : Out := laneExec (laneLfneg f) s
def execLfcmp (f : LaneFields) (s : State) : Out := laneExec (laneLfcmp f) s
def execLrcp (f : LaneFields) (s : State) : Out := laneExec (laneLrcp f) s
def execLrsqrt (f : LaneFields) (s : State) : Out := laneExec (laneLrsqrt f) s
def execLsqrt (f : LaneFields) (s : State) : Out := laneExec (laneLsqrt f) s
def execLexp2 (f : LaneFields) (s : State) : Out := laneExec (laneLexp2 f) s
def execLlog2 (f : LaneFields) (s : State) : Out := laneExec (laneLlog2 f) s
def execLtanh (f : LaneFields) (s : State) : Out := laneExec (laneLtanh f) s
def execLiadd (f : LaneFields) (s : State) : Out := laneExec (laneLiadd f) s
def execLisub (f : LaneFields) (s : State) : Out := laneExec (laneLisub f) s
def execLimul (f : LaneFields) (s : State) : Out := laneExec (laneLimul f) s
def execLimulh (f : LaneFields) (s : State) : Out := laneExec (laneLimulh f) s
def execLmin (f : LaneFields) (s : State) : Out := laneExec (laneLmin f) s
def execLmax (f : LaneFields) (s : State) : Out := laneExec (laneLmax f) s
def execLminn (f : LaneFields) (s : State) : Out := laneExec (laneLminn f) s
def execLmaxn (f : LaneFields) (s : State) : Out := laneExec (laneLmaxn f) s
def execLband (f : LaneFields) (s : State) : Out := laneExec (laneLband f) s
def execLbor (f : LaneFields) (s : State) : Out := laneExec (laneLbor f) s
def execLbxor (f : LaneFields) (s : State) : Out := laneExec (laneLbxor f) s
def execLsll (f : LaneFields) (s : State) : Out := laneExec (laneLsll f) s
def execLsrl (f : LaneFields) (s : State) : Out := laneExec (laneLsrl f) s
def execLsra (f : LaneFields) (s : State) : Out := laneExec (laneLsra f) s
def execLicmp (f : LaneFields) (s : State) : Out := laneExec (laneLicmp f) s
def execLcvt (f : LaneFields) (s : State) : Out := laneExec (laneLcvt f) s
def execLmov (f : LaneFields) (s : State) : Out := laneExec (laneLmov f) s
def execLmovi (f : LaneFields) (s : State) : Out := laneExec (laneLmovi f) s
def execLsel (f : LaneFields) (s : State) : Out := laneExec (laneLsel f) s
def execLkop (f : LaneFields) (s : State) : Out := laneExec (laneLkop f) s
def execLdadd (f : LaneFields) (s : State) : Out := laneExec (laneLdadd f) s
def execLdsub (f : LaneFields) (s : State) : Out := laneExec (laneLdsub f) s
def execLdmul (f : LaneFields) (s : State) : Out := laneExec (laneLdmul f) s
def execLdfma (f : LaneFields) (s : State) : Out := laneExec (laneLdfma f) s
def execLdcmp (f : LaneFields) (s : State) : Out := laneExec (laneLdcmp f) s
def execLrd (f : LaneFields) (s : State) : Out := laneExec (laneLrd s.call f) s
def execLwr (f : LaneFields) (s : State) : Out := laneExec (laneLwr s.call f) s
def execLidx (f : LaneFields) (s : State) : Out := laneExec (laneLidx s.call f) s
def execLacc (f : LaneFields) (s : State) : Out := laneExec (laneLacc s.call f) s
def execLnext (f : LaneFields) (s : State) : Out := laneExec (laneLnext s.call f) s
def execLstop (f : LaneFields) (s : State) : Out := laneExec (laneLstop f) s

end Sys2Proof.Machine
end

