-- ==== Sys2Proof/Machine/Requests.lean ====
section
/-!
DEFINITION. Sys2Proof/Machine/Requests.lean: requests that arrive at home slices from the host (R394, R395, R408, R411) and
from peer devices (R405).
-/

namespace Sys2Proof.Machine

/-! ## What maps a location -/

/-- The entry at a table's address is the leaf of a location, or points to the table below; `n` levels remain. -/
def State.leavesAt (s : State) (pa : Nat) : Nat → Nat → Nat → Nat → List (Leaf × Nat)
  | 0, _, _, _ => []
  | n + 1, l, base, va =>
    if !s.inHbm base then []
    else
      (upto (if l = 0 then 4096 else 2048)).flatMap fun i =>
        let e : Leaf := BitVec.ofNat 64 (s.rd (base + 8 * i) 8)
        let va := va + i * 2 ^ levelShift l
        if !e.v || e.getLsbD 7 then []
        else if e.leaf then
          (if 2 ≤ l ∧ e.pfn * 65536 ≤ pa ∧ pa < e.pfn * 65536 + 2 ^ levelShift l then
            [(e, va + (pa - e.pfn * 65536))] else [])
        else s.leavesAt pa n (l + 1) (e.pfn * 65536) va

/-- The leaves that map a location, with the ASID and the virtual address. -/
def State.leavesOf (s : State) (pa : Nat) : List (BitVec 16 × Leaf × Nat) :=
  (upto (s.getSys 0 0x811).toNat).flatMap fun a =>
    let asid := BitVec.ofNat 16 a
    match s.root asid with
    | some base => (s.leavesAt pa 5 0 base 0).map fun x => (asid, x.1, x.2)
    | none => []

/-- The location lies in a HOME page. -/
def State.isHome (s : State) (pa : Nat) : Bool := (s.leavesOf pa).any fun x => x.2.1.cls == 2

/-- The location lies in a region that no host holder holds (R408). -/
def State.deviceHeld (s : State) (pa : Nat) : Bool :=
  (s.leavesOf pa).any fun x => x.2.1.cls == 0
    && match s.governing x.1 x.2.1.tri x.2.2 with
       | some i => holderKind (s.tok i).holder != 2
       | none => false

/-! ## Accesses at home -/

/-- The completion of a request. -/
def State.answer (s : State) (v : Nat) (abort : Bool) : State := { s with hostOut := BitVec.ofNat 512 v, hostAbort := abort }

/-- A value of up to 64 bytes that the spec leaves unspecified. -/
def State.freeBytes (s : State) : Nat × State :=
  (upto 8).foldl (fun st i => let r := st.2.free; (st.1 + r.1.toNat <<< (64 * i), r.2)) (0, s)

/-- Bytes of a request: a longer one is several of at most a granule (R380). -/
def reqBytes (r : HostReq) : Nat := min r.width 64

/-- A plain access of HBM by offset: `open_` is false where its value or its bytes are unspecified. -/
def State.homeAccess (s : State) (r : HostReq) (open_ : Bool) : State :=
  let pa := s.local_ r.off
  let n := reqBytes r
  if r.write then
    (if open_ then ((s.wr pa n r.data.toNat).clearPoison [(pa, n)]).answer 0 false
     else let f := s.freeBytes; (f.2.wr pa n f.1).answer 0 false)
  else if open_ && !s.isPoisoned pa n then s.answer (s.rd pa n) false
  else let f := s.freeBytes; f.2.answer (f.1 % 2 ^ (8 * n)) false

/-- An atomic on HBM: the old value is the answer. -/
def State.homeAtomic (s : State) (r : HostReq) (op : Nat) (open_ : Bool) : State :=
  let pa := s.local_ r.off
  let n := reqBytes r
  let w := 8 * n
  if open_ && !s.isPoisoned pa n then
    let old := s.rd pa n
    let s := match atomNew op w old (r.data.toNat % 2 ^ w) (r.cmp.toNat % 2 ^ w) with
      | some v => s.wr pa n v
      | none => s
    s.answer old false
  else
    let f := s.freeBytes
    let g := f.2.freeBytes
    (g.2.wr pa n g.1).answer (f.1 % 2 ^ w) false

/-- The bytes lie in this part's HBM. -/
def State.hbmReq (s : State) (r : HostReq) : Bool :=
  decide (r.off + reqBytes r ≤ 2 ^ 40) && s.inHbm (s.local_ r.off) && s.inHbm (s.local_ (r.off + reqBytes r - 1))
    && reqBytes r != 0

/-! ## The host (R408, R411) -/

/-- The boot window, and the mailbox in it. -/
def bootWindow : Nat := 0x10000000
def mailboxBytes : Nat := 0x10000

/-- An access to the mailbox by 8 bytes. -/
def State.mailboxAccess (s : State) (r : HostReq) : State :=
  let o := r.off
  if r.write then
    let v := r.data.toNat % 2 ^ 64
    let t := if o = 0x008 then s.command (v % 256) (v / 2 ^ 16 % 2 ^ 16)
      else if o = 0x018 ∨ o = 0x020 ∨ 0x100 ≤ o then s.mbWr o 8 v
      else s
    t.answer 0 false
  else s.answer (s.mbRd o 8) false

/-- An access to a notice page by a function: another function's page, and any access but an aligned one of 8 bytes, reads 0
and writes nothing (R394, R395). -/
def State.noticeAccess (s : State) (r : HostReq) : State :=
  let q := (r.off - 0xF00000000000) / 4096
  if r.width != 8 || r.off % 8 != 0 || s.qVf q != r.fn then s.answer 0 false
  else if r.write then (s.winWrite r.off (r.data.setWidth 64)).answer 0 false
  else s.answer (s.winRead r.off).toNat false

/-- A host access: BAR0 by any function, BAR4 by the physical function. -/
def State.hostAccess (s : State) (r : HostReq) : State :=
  if 0xF00000000000 ≤ r.off ∧ r.off < 0xF00008000000 then s.noticeAccess r
  else if r.fn != 0 || !s.hbmReq r then s.answer 0 true
  else if r.off < bootWindow ∧ (s.boot.st = 2 ∨ s.boot.st = 3) then s.answer 0 false
  else if r.off < mailboxBytes then
    (if r.width = 8 ∧ r.off % 8 = 0 ∧ s.boot.st != 0 then s.mailboxAccess r
     else let f := s.freeBytes; f.2.answer (if r.write then 0 else f.1 % 2 ^ (8 * reqBytes r)) false)
  else if s.boot.st = 4 then s.homeAccess r !s.deviceHeld (s.local_ r.off)
  else if r.off < bootWindow ∧ s.boot.st != 0 then s.homeAccess r true
  else let f := s.freeBytes; f.2.answer (if r.write then 0 else f.1 % 2 ^ (8 * reqBytes r)) false

/-- A request of a virtual function shows that the host has set VF Enable. -/
def State.fromFn (s : State) (fn : Nat) : State := if fn = 0 then s else { s with vfEnable := true }

/-- HOST_ACCESS: a host read or write. -/
def execHostAccess (r : HostReq) (s : State) : Out := .next ((s.fromFn r.fn).hostAccess r)

/-- HOST_ATOMIC: FetchAdd, Swap or CAS of 32 or 64 bits, performed as atom; any other AtomicOp is aborted. -/
def execHostAtomic (r : HostReq) (s : State) : Out :=
  let op := match r.op with | some o => o.toNat | none => 15
  .next (
    if r.fn != 0 || !s.hbmReq r || !(r.width == 4 || r.width == 8) || r.off % r.width != 0
        || !(op == 0 || op == 8 || op == 9) || s.boot.st != 4 || decide (r.off < mailboxBytes) then s.answer 0 true
    else s.homeAtomic r op !s.deviceHeld (s.local_ r.off))

/-- HOST_CAS128: 16 aligned bytes of a HOME page, compared and written as one; else Completer Abort. -/
def execHostCas128 (r : HostReq) (s : State) : Out :=
  let pa := s.local_ r.off
  .next (
    if r.fn != 0 || decide (2 ^ 40 < r.off + 16) || !s.inHbm pa || r.off % 16 != 0 || s.boot.st != 4 || !s.isHome pa then
      s.answer 0 true
    else if s.isPoisoned pa 16 then
      let f := s.freeBytes
      let g := f.2.freeBytes
      (g.2.wr pa 16 g.1).answer (f.1 % 2 ^ 128) false
    else
      let old := s.rd pa 16
      (if old = r.cmp.toNat then s.wr pa 16 (r.data.toNat % 2 ^ 128) else s).answer old false)

/-! ## Peers (R405) -/

/-- PEER_REQUEST: a read, a write or an atomic of a peer device, performed at this part's home slice; the peer has made the
checks. Any other location answers nothing. -/
def execPeerRequest (r : HostReq) (s : State) : Out :=
  .next (
    if !s.hbmReq r then s.answer 0 true
    else
      match r.op with
      | none => s.homeAccess r true
      | some o =>
        if (r.width == 4 || r.width == 8) && r.off % r.width == 0 && decide (o.toNat < 10) then s.homeAtomic r o.toNat true
        else s.answer 0 true)

end Sys2Proof.Machine
end

