-- ==== Sys2Proof/Machine/ScalarFloat.lean ====
section
/-!
DEFINITION. Sys2Proof/Machine/ScalarFloat.lean: the scalar floating point of the control unit (R146, R147).
-/

namespace Sys2Proof.Machine

/-- The format code of FMT: f32 or f64. -/
def sfmt (f : BitVec 1) : Nat := if f = 1 then 0x00 else 0x01

/-- A register as a value of a format: f32 ignores bits [63:32]. -/
def State.fr (s : State) (f : BitVec 1) (r : BitVec 5) : Val := decodeFp (fpOf (sfmt f)) (s.gr r).toNat

/-- An instruction that puts a result and its flags in G[d] and FCSR. -/
def floatStep (d : BitVec 5) (srcs : List (BitVec 5)) (r : Res) (s : State) : Out :=
  ctlStep s ((d :: srcs).map Dst.g) (s.mapCtx fun c => ((c.setG d (BitVec.ofNat 64 r.1)).raise r.2).advance 1)

/-- An exact value rounded to a format, with the flags of its making. -/
def roundTo (c : Nat) (rm : BitVec 3) (v : Val × FlagSet) : Res :=
  let r := deliver c rm.toNat false v.1
  (r.1, r.2 ||| v.2)

def execFadd (d a b : BitVec 5) (f : BitVec 1) (r : BitVec 3) (s : State) : Out :=
  floatStep d [a, b] (roundTo (sfmt f) r (sumV r.toNat [s.fr f a, s.fr f b])) s
def execFsub (d a b : BitVec 5) (f : BitVec 1) (r : BitVec 3) (s : State) : Out :=
  floatStep d [a, b] (roundTo (sfmt f) r (sumV r.toNat [s.fr f a, (s.fr f b).negate])) s
def execFmul (d a b : BitVec 5) (f : BitVec 1) (r : BitVec 3) (s : State) : Out :=
  floatStep d [a, b] (roundTo (sfmt f) r (mulV (s.fr f a) (s.fr f b))) s
def execFfma (d a b : BitVec 5) (f : BitVec 1) (r : BitVec 3) (s : State) : Out :=
  floatStep d [a, b] (roundTo (sfmt f) r (fmaV r.toNat (s.fr f a) (s.fr f b) (s.fr f d))) s
def execFdiv (d a b : BitVec 5) (f : BitVec 1) (r : BitVec 3) (s : State) : Out :=
  floatStep d [a, b] (roundTo (sfmt f) r (divV (s.fr f a) (s.fr f b))) s
def execFsqrt (d a : BitVec 5) (f : BitVec 1) (r : BitVec 3) (s : State) : Out :=
  floatStep d [a] (roundTo (sfmt f) r (sqrtV (s.fr f a))) s
def execFmin (d a b : BitVec 5) (f : BitVec 1) (s : State) : Out :=
  floatStep d [a, b] (roundTo (sfmt f) 0 (minMaxV false (s.fr f a) (s.fr f b))) s
def execFmax (d a b : BitVec 5) (f : BitVec 1) (s : State) : Out :=
  floatStep d [a, b] (roundTo (sfmt f) 0 (minMaxV true (s.fr f a) (s.fr f b))) s
/-- fcvt.f32.f64 -/
def execFcvtF32F64 (d a : BitVec 5) (r : BitVec 3) (s : State) : Out :=
  floatStep d [a] (convertFp 0x01 r.toNat false (s.fr 1 a)) s
/-- fcvt.f64.f32: exact. -/
def execFcvtF64F32 (d a : BitVec 5) (s : State) : Out := floatStep d [a] (convertFp 0x00 0 false (s.fr 0 a)) s
def execFcvtS64 (d a : BitVec 5) (f : BitVec 1) (r : BitVec 3) (s : State) : Out :=
  floatStep d [a] (convertInt 64 true r.toNat false (.flt (s.fr f a))) s
def execFcvtN64 (d a : BitVec 5) (f : BitVec 1) (r : BitVec 3) (s : State) : Out :=
  floatStep d [a] (convertInt 64 false r.toNat false (.flt (s.fr f a))) s
def execFcvtFmtS64 (d a : BitVec 5) (f : BitVec 1) (r : BitVec 3) (s : State) : Out :=
  floatStep d [a] (convertFp (sfmt f) r.toNat false (Src.int (s.gr a).toInt).val) s
def execFcvtFmtN64 (d a : BitVec 5) (f : BitVec 1) (r : BitVec 3) (s : State) : Out :=
  floatStep d [a] (convertFp (sfmt f) r.toNat false (Src.int (s.gr a).toNat).val) s

/-- fcmp (R147, R72). -/
def execFcmp (d a b : BitVec 5) (r : BitVec 3) (f : BitVec 1) (s : State) : Out :=
  let p := fcmpV r.toNat (s.fr f a) (s.fr f b)
  ctlStep s [.g a, .g b] (s.mapCtx fun c => ((c.setP (pIdx d) p.1).raise p.2).advance 1)

end Sys2Proof.Machine
end

