-- ==== Sys2Proof/Machine/Steps.lean ====
section
/-!
DEFINITION. Sys2Proof/Machine/Steps.lean: the steps of copy channels (R246, R247, R319), merge entries (R243, R244), token
acceptance (R370) and the patrol scrub (R381).
-/

namespace Sys2Proof.Machine

/-! ## Copy strips -/

/-- The cause that a strip's outcome names. -/
def stripCause (o : StripOutcome) : Option Cause :=
  match o with
  | .done => none
  | .uncorrectable => some .memUncorrectable
  | .linkLost => some .linkLost
  | .targetFull => some .targetFull

/-- The strip may move: it is not done, and lies within 255 strips of the lowest unfinished one (R271). -/
def stripMoves (d : Desc) (done : List Nat) (k : Nat) : Bool :=
  let low := ((upto d.strips).find? fun i => !done.contains i).getD 0
  decide (k < d.strips) && !done.contains k && decide (k ≤ low + 255)

/-- The destination of a strip is a peer device: the one target that answers FULL (R409). -/
def State.toPeer (s : State) (asid : BitVec 16) (d : Desc) (k : Nat) : Bool :=
  !d.dcs && (stripElems d k).any fun j =>
    match (s.walkLeaf false asid (BitVec.ofInt 72 (d.dstAt j))).1 with
    | some (l, _, size) =>
      (match s.target (leafPa l size (BitVec.ofInt 72 (d.dstAt j))) with | .peer _ => true | _ => false)
    | none => false

/-- Strips of a copy that no channel has taken or written. -/
def Copy.unstarted (x : Copy) : List Nat :=
  (upto (Desc.strips x.desc)).filter fun i => !x.done.contains i && !x.stolen.any fun t => t.1 == i

/-- The strip is the next of the copy's own channel, which takes them in ascending j, or one that another channel has
taken (R319). -/
def Copy.inFlight (x : Copy) (k : Nat) : Bool := x.unstarted.head? == some k || x.stolen.any fun t => t.1 == k

/-- COPY_STRIP: strip `strip` of copy k of core c, or, for c from 256 on, of queue c - 256 (R331). -/
def execCopyStrip (c k strip : Nat) (o : StripOutcome) (s : State) : Out :=
  let no : Out := .refused (.notEnabled "COPY_STRIP")
  if c < 256 then
    let x := (s.unitAt c).2
    match x.copies[k]? with
    | none => no
    | some y =>
      if x.run == .running && y.stop.isNone && stripMoves y.desc y.done strip && y.inFlight strip
          && (o != .targetFull || s.toPeer x.asid y.desc strip)
          && !(s.focus c).stripStalls y.desc strip then
        .next (s.onCore c fun s => s.copyStrip k strip (stripCause o))
      else no
  else
    match (s.queue (c - 256)).bind fun x => x.copies[k]? with
    | none => no
    | some y =>
      if k == 0 && !y.stopped && stripMoves y.desc y.done strip && (o != .targetFull || s.toPeer (s.qAsid (c - 256)) y.desc strip) then
        .next (s.queueStrip (c - 256) strip (stripCause o))
      else no

/-- Channel ch of core t is idle: its unit has no copy on it that goes on, and it carries no strip of another's. -/
def State.channelIdle (s : State) (t ch : Nat) : Bool :=
  !((s.unitAt t).2.copies.any fun z => z.ch.toNat == ch && z.stop.isNone)
  && !(s.units.any fun u => u.2.copies.any fun z => z.stolen.any fun p => p.2 == (t, ch))

/-- STRIP_STEAL: channel `thief` mod 4 of core `thief` div 4 takes a strip of copy k of core c (R319). -/
def execStripSteal (c k strip thief : Nat) (s : State) : Out :=
  let no : Out := .refused (.notEnabled "STRIP_STEAL")
  let x := (s.unitAt c).2
  let t := thief / 4
  match x.copies[k]? with
  | none => no
  | some y =>
    let low := ((upto (Desc.strips y.desc)).find? fun i => !y.done.contains i).getD 0
    let ok := y.unstarted.filter fun i => decide (i ≤ low + 255)
    if x.run == .running && y.stop.isNone && decide (2 ≤ y.unstarted.length) && ok.getLast? == some strip
        && s.channelIdle t (thief % 4) && t / 128 == c / 128 && clusterOf t == clusterOf c && decide (t % 128 < 96) then
      .next (s.onCore c fun s => s.mapCopy k fun y => { y with stolen := (strip, t, thief % 4) :: y.stolen })
    else no

/-! ## Merged loads -/

/-- MERGE_REQUEST: the tldm at the head of core c opens a merge entry or joins one, and receives its beats. -/
def execMergeRequest (c : Nat) (s : State) : Out :=
  let x := (s.unitAt c).2
  let head := match x.tiq with | t :: _ => (match t.i with | .tldm _ => true | _ => false) | [] => false
  if x.run != .running || !head then .refused (.notEnabled "MERGE_REQUEST")
  else
    .next (s.onCore c fun s => s.performHead.after s)

/-- MERGE_WINDOW_EXPIRY: entry m closes to joining; no replay of it is outstanding between steps. -/
def execMergeWindowExpiry (m : Nat) (s : State) : Out :=
  if m < s.merges.length then .next { s with merges := removeAt s.merges m }
  else .refused (.notEnabled "MERGE_WINDOW_EXPIRY")

/-! ## Tokens -/

/-- TOKEN_ACCEPT: the token of region t arrives: it is the receiver's, goes on past one that has ended, or fails. -/
def execTokenAccept (t : Nat) (s : State) : Out :=
  if decide (t < s.tokN) && (s.tok t).v && (s.tok t).state == tokTransit then .next (s.accept t)
  else .refused (.notEnabled "TOKEN_ACCEPT")

/-! ## Errors (Table 20-1, R381) -/

/-- The token-table entry in a granule, if the table holds one. -/
def State.tokIn (s : State) (g : Nat) : Option Nat :=
  let base := s.tokAddr 0
  if base ≤ g ∧ g < base + 64 * s.tokN then some ((g - base) / 64) else none

/-- A granule is poisoned; a token-table entry in it makes its region POISONED, with one entry of SRC 1 (R381). -/
def State.poisonGranule (s : State) (g : Nat) : State :=
  let s : State := { s with poison := if s.poison.contains g then s.poison else g :: s.poison }
  match s.tokIn g with
  | none => s
  | some i =>
    let t := s.tok i
    if t.v && (t.state == tokHeld || t.state == tokShared || t.state == tokOrphaned) then
      (s.setTok i (t.setState tokPoisoned)).reportPoison i
    else s

/-- The numbers of the counters of Table 20-4 that errors add to. -/
def ceHbm : Nat := 0x850
def ueHbm : Nat := 0x851
def ceL2 : Nat := 0x852
def ueL2 : Nat := 0x853
def ceSram : Nat := 0x854
def ueSram : Nat := 0x855
def parityCsr : Nat := 0x856
def lgRep : Nat := 0x859

/-- PATROL_SCRUB: the granule that holds an address is read, and what the ECC found is corrected or poisoned. -/
def execPatrolScrub (pa : Nat) (e : EccOutcome) (s : State) : Out :=
  match s.target pa with
  | .hbm die =>
    .next (match e with
      | .clean => s
      | .correctable => s.count die ceHbm
      | .uncorrectable => (s.count die ueHbm).poisonGranule (pa / 64 * 64))
  | _ => .refused (.notEnabled "PATROL_SCRUB")

/-- An entry of a structure of a core under parity is dropped; its next use fetches it again. -/
def Core.dropEntry (k : Core) (kind : ParityKind) (n : Nat) : Core :=
  match kind with
  | .code => { k with icache := removeAt k.icache n }
  | .laneBlock => { k with lcache := removeAt k.lcache n }
  | .data => { k with dcache := removeAt k.dcache n }
  | .tlb => { k with tlb := removeAt k.tlb n }
  | .clusterTlb | .token | .sorting => k

/-- The same of a structure that the machine holds beside the cores. -/
def State.dropShared (s : State) (c : Nat) (kind : ParityKind) (n : Nat) : State :=
  match kind with
  | .clusterTlb =>
    let x := (s.clTlb.filter fun x => x.1 == c / 8)[n]?
    { s with clTlb := s.clTlb.filter fun y => some y != x }
  | .token => { s with tokc := s.tokc.filter fun x => x != (c, n) }
  | _ => s

/-- A line of a data cache is clean. -/
def Core.cleanLine (k : Core) (n : Nat) : Bool := (k.dcache[n]?).all fun l => !l.dirty

/-- The poison of a granule of a reservation (R381). -/
def Group.poison (g : Group) (off : Nat) : Group :=
  { g with unreadable := { lo := off, hi := off + 64, cause := .memUncorrectable, va := 0 } :: g.unreadable }

/-- A core exists and its die is in service. -/
def State.coreUp (s : State) (c : Nat) : Bool := decide (c % 128 < 96) && s.dieUp (c / 128)

/-- The entry at the head of a core's queue reads a tile slot or an accumulator. -/
def State.readsSlots (s : State) (c : Nat) : Bool :=
  let s := s.focus c
  s.ctx.run == .running && match s.ctx.tiq with
    | t :: _ => !(s.tileReads t.i).isEmpty || resourceOf t.i == some .matrix
    | [] => false

/-- An entry of a core's queue runs on its lane array. -/
def State.usesLanes (s : State) (c : Nat) : Bool :=
  (s.unitAt c).2.run == .running && (s.unitAt c).2.tiq.any fun t => resourceOf t.i == some .lane

/-- An error is found in a structure of Table 20-1: corrected, or, where `bad`, with the outcome of its row. An instruction
that reads a bad slot traps, and the loss of its context is all that its trap leaves (R385). A lane group replays a pass with
the same results; the third error of one pass is ISSUE's (R384). -/
def eccTurn (site : EccSite) (bad : Bool) (s : State) : Out :=
  let no : Out := .refused (.notEnabled "turn")
  match site with
  | .registers c =>
    if !s.coreUp c then no else if bad then execContextLost c s else .next (s.count (c / 128) ceSram)
  | .operands c =>
    if !s.coreUp c || !s.usesLanes c then no else .next (s.count (c / 128) (if bad then lgRep else ceSram))
  | .slots c =>
    if !s.coreUp c || !s.readsSlots c then no
    else if bad then execContextLost c s else .next (s.count (c / 128) ceSram)
  | .parity c kind n =>
    if !s.coreUp c || (kind == .data && !(s.unitAt c).1.cleanLine n) then no
    else
      let u := s.unitAt c
      .next (((s.count (c / 128) parityCsr).dropShared c kind n).setUnit c (u.1.dropEntry kind n, u.2))
  | .dirty c n =>
    let u := s.unitAt c
    match u.1.dcache[n]? with
    | none => no
    | some l =>
      if !l.dirty then no
      else if !bad then .next (s.count (c / 128) ceSram)
      else
        .next ((upto 4).foldl (fun s i => s.poisonGranule (256 * l.pa + 64 * i))
          ((s.count (c / 128) ueSram).setUnit c (u.1.dropEntry .data n, u.2)))
  | .pad die cl launch group off =>
    let hit := fun (g : Group) =>
      g.launch == launch && g.idx == group && g.place == some (die, cl) && decide (off + 64 ≤ g.size)
    if off % 64 != 0 || !s.groups.any hit then no
    else if bad then .next ((s.count die ueSram).mapGroups hit fun g => g.poison off) else .next (s.count die ceSram)
  | .l2 pa =>
    match s.target pa with
    | .hbm die =>
      if !s.l2.contains (pa / 256) then no
      else .next (if bad then (s.count die ueL2).poisonGranule (pa / 64 * 64) else s.count die ceL2)
    | _ => no

/-- A PCIe completion for host memory arrives marked poisoned: its granule is (R381). -/
def hostPoisonTurn (pa : Nat) (s : State) : Out :=
  if s.target pa = .host then .next (s.poisonGranule (pa / 64 * 64)) else .refused (.notEnabled "turn")

/-! ## What follows every step -/

/-- Staged groups that may start do (R23, R346), qstage commands of which nothing will be placed are done (R348), IDLE
queues stop for a failed lend (R343), and blocked queues whose waits are satisfied are READY (R340). -/
def State.follow (s : State) : State := s.startStaged.dropStages.stopIdle.wakeQueues

end Sys2Proof.Machine
end

