-- ==== Sys2Proof/Machine/TileRows.lean ====
section
/-!
DEFINITION. Sys2Proof/Machine/TileRows.lean: the scalar memory rows and the tile rows as the control unit executes them
(R17, R137): each is pushed to the tile instruction queue; what the entry does stands in Effects.lean.
-/

namespace Sys2Proof.Machine

/-! ## Scalar memory (Table 06-7; R144 to R147, R151) -/

def execLd (g : BitVec 5) (a : BitVec 4) (z : BitVec 2) (o : BitVec 13) (x : Pfx) (s : State) : Out :=
  cmExec (.ld g a z o x) x s
def execLdS (g : BitVec 5) (a : BitVec 4) (z : BitVec 2) (o : BitVec 13) (x : Pfx) (s : State) : Out :=
  cmExec (.ldS g a z o x) x s
def execSt (g : BitVec 5) (a : BitVec 4) (z : BitVec 2) (o : BitVec 13) (x : Pfx) (s : State) : Out :=
  cmExec (.st g a z o x) x s
def execLda (g : BitVec 5) (a : BitVec 4) (o : BitVec 13) (x : Pfx) (s : State) : Out := cmExec (.lda g a o x) x s
def execSta (g : BitVec 5) (a : BitVec 4) (o : BitVec 13) (x : Pfx) (s : State) : Out := cmExec (.sta g a o x) x s
def execPref (h : BitVec 5) (a : BitVec 4) (z : BitVec 2) (o : BitVec 13) (x : Pfx) (s : State) : Out :=
  cmExec (.pref h a z o x) x s

/-! ## Tile instructions (Tables 06-11, 06-12, 08-1, 10-1, 11-1) -/

def execTshape (f : TileFields) (s : State) : Out := tileExec (.tshape f) f s
def execTshapeKeep (f : TileFields) (s : State) : Out := tileExec (.tshapeKeep f) f s
def execTview (f : TileFields) (s : State) : Out := tileExec (.tview f) f s
def execTfree (f : TileFields) (s : State) : Out := tileExec (.tfree f) f s
def execSetx (f : TileFields) (s : State) : Out := tileExec (.setx f) f s
def execTseq (f : TileFields) (s : State) : Out := tileExec (.tseq f) f s
def execTfill (f : TileFields) (s : State) : Out := tileExec (.tfill f) f s
def execTmov (f : TileFields) (s : State) : Out := tileExec (.tmov f) f s
def execTtr (f : TileFields) (s : State) : Out := tileExec (.ttr f) f s
def execTadd (f : TileFields) (s : State) : Out := tileExec (.tadd f) f s
def execTsub (f : TileFields) (s : State) : Out := tileExec (.tsub f) f s
def execTmul (f : TileFields) (s : State) : Out := tileExec (.tmul f) f s
def execTdiv (f : TileFields) (s : State) : Out := tileExec (.tdiv f) f s
def execTmin (f : TileFields) (s : State) : Out := tileExec (.tmin f) f s
def execTmax (f : TileFields) (s : State) : Out := tileExec (.tmax f) f s
def execTabs (f : TileFields) (s : State) : Out := tileExec (.tabs f) f s
def execTneg (f : TileFields) (s : State) : Out := tileExec (.tneg f) f s
def execTfma (f : TileFields) (s : State) : Out := tileExec (.tfma f) f s
def execTrcp (f : TileFields) (s : State) : Out := tileExec (.trcp f) f s
def execTrsqrt (f : TileFields) (s : State) : Out := tileExec (.trsqrt f) f s
def execTsqrt (f : TileFields) (s : State) : Out := tileExec (.tsqrt f) f s
def execTexp2 (f : TileFields) (s : State) : Out := tileExec (.texp2 f) f s
def execTlog2 (f : TileFields) (s : State) : Out := tileExec (.tlog2 f) f s
def execTtanh (f : TileFields) (s : State) : Out := tileExec (.ttanh f) f s
def execTrem (f : TileFields) (s : State) : Out := tileExec (.trem f) f s
def execTand (f : TileFields) (s : State) : Out := tileExec (.tand f) f s
def execTor (f : TileFields) (s : State) : Out := tileExec (.tor f) f s
def execTxor (f : TileFields) (s : State) : Out := tileExec (.txor f) f s
def execTandn (f : TileFields) (s : State) : Out := tileExec (.tandn f) f s
def execTsll (f : TileFields) (s : State) : Out := tileExec (.tsll f) f s
def execTsrl (f : TileFields) (s : State) : Out := tileExec (.tsrl f) f s
def execTsra (f : TileFields) (s : State) : Out := tileExec (.tsra f) f s
def execTmulh (f : TileFields) (s : State) : Out := tileExec (.tmulh f) f s
def execTcmp (f : TileFields) (s : State) : Out := tileExec (.tcmp f) f s
def execTsel (f : TileFields) (s : State) : Out := tileExec (.tsel f) f s
def execTcvt (f : TileFields) (s : State) : Out := tileExec (.tcvt f) f s
def execTquant (f : TileFields) (s : State) : Out := tileExec (.tquant f) f s
def execTdequant (f : TileFields) (s : State) : Out := tileExec (.tdequant f) f s
def execTred (f : TileFields) (s : State) : Out := tileExec (.tred f) f s
def execTscan (f : TileFields) (s : State) : Out := tileExec (.tscan f) f s
def execTperm (f : TileFields) (s : State) : Out := tileExec (.tperm f) f s
def execTslide (f : TileFields) (s : State) : Out := tileExec (.tslide f) f s
def execTbcast (f : TileFields) (s : State) : Out := tileExec (.tbcast f) f s
def execTxchg (f : TileFields) (s : State) : Out := tileExec (.txchg f) f s
def execMap (f : TileFields) (s : State) : Out := tileExec (.map f) f s
def execMapred (f : TileFields) (s : State) : Out := tileExec (.mapred f) f s
def execMomu (f : TileFields) (s : State) : Out := tileExec (.momu f) f s
def execMma (f : TileFields) (s : State) : Out := tileExec (.mma f) f s
def execMmas (f : TileFields) (s : State) : Out := tileExec (.mmas f) f s
def execMmsp (f : TileFields) (s : State) : Out := tileExec (.mmsp f) f s
def execMmb (f : TileFields) (s : State) : Out := tileExec (.mmb f) f s
def execMzero (f : TileFields) (s : State) : Out := tileExec (.mzero f) f s
def execMfill (f : TileFields) (s : State) : Out := tileExec (.mfill f) f s
def execMdrain (f : TileFields) (s : State) : Out := tileExec (.mdrain f) f s
def execMrow (f : TileFields) (s : State) : Out := tileExec (.mrow f) f s
def execMcol (f : TileFields) (s : State) : Out := tileExec (.mcol f) f s
def execTld (f : TileFields) (s : State) : Out := tileExec (.tld f) f s
def execTst (f : TileFields) (s : State) : Out := tileExec (.tst f) f s
def execTstNfz (f : TileFields) (s : State) : Out := tileExec (.tstNfz f) f s
def execTldg (f : TileFields) (s : State) : Out := tileExec (.tldg f) f s
def execTstg (f : TileFields) (s : State) : Out := tileExec (.tstg f) f s
def execTldm (f : TileFields) (s : State) : Out := tileExec (.tldm f) f s
def execCsld (f : TileFields) (s : State) : Out := tileExec (.csld f) f s
def execCsst (f : TileFields) (s : State) : Out := tileExec (.csst f) f s
def execCpy (f : TileFields) (s : State) : Out := tileExec (.cpy f) f s
def execCpyw (f : TileFields) (s : State) : Out := tileExec (.cpyw f) f s
def execCpyc (f : TileFields) (s : State) : Out := tileExec (.cpyc f) f s
def execCpyq (f : TileFields) (s : State) : Out := tileExec (.cpyq f) f s
def execSend (f : TileFields) (s : State) : Out := tileExec (.send f) f s
def execRecv (f : TileFields) (s : State) : Out := tileExec (.recv f) f s
def execTatom (f : TileFields) (s : State) : Out := tileExec (.tatom f) f s
def execCbar (f : TileFields) (s : State) : Out := tileExec (.cbar f) f s
def execFence (f : TileFields) (s : State) : Out := tileExec (.fence f) f s
def execAtom (f : TileFields) (s : State) : Out := tileExec (.atom f) f s
def execEvsig (f : TileFields) (s : State) : Out := tileExec (.evsig f) f s
def execEvwait (f : TileFields) (s : State) : Out := tileExec (.evwait f) f s
def execEvquery (f : TileFields) (s : State) : Out := tileExec (.evquery f) f s
def execFutrd (f : TileFields) (s : State) : Out := tileExec (.futrd f) f s
def execFutwr (f : TileFields) (s : State) : Out := tileExec (.futwr f) f s
def execTklend (f : TileFields) (s : State) : Out := tileExec (.tklend f) f s
def execTkret (f : TileFields) (s : State) : Out := tileExec (.tkret f) f s
def execTksplit (f : TileFields) (s : State) : Out := tileExec (.tksplit f) f s
def execTkjoin (f : TileFields) (s : State) : Out := tileExec (.tkjoin f) f s
def execTkshare (f : TileFields) (s : State) : Out := tileExec (.tkshare f) f s
def execTkunshare (f : TileFields) (s : State) : Out := tileExec (.tkunshare f) f s
def execTkquery (f : TileFields) (s : State) : Out := tileExec (.tkquery f) f s

end Sys2Proof.Machine
end

