-- ==== Sys2Proof/Machine/Unit.lean ====
section
/-!
DEFINITION. Sys2Proof/Machine/Unit.lean: the next unit of the focused context: its breakpoint check (R280, R281), its fetch,
the landing check (R150) and the decode checks (R126, R127, Table 06-14).
-/

namespace Sys2Proof.Machine

/-- A comparator matches a unit at an address (R280). -/
def bpMatches (b : BitVec 64) (pc : Addr) : Bool := b.getLsbD 0 && b.extractLsb' 2 62 == pc.extractLsb' 2 62

/-- The unit at the PC meets a breakpoint; SKIPBP passes the first unit after a resume. -/
def Ctx.atBreakpoint (c : Ctx) : Bool := !c.skipbp && c.bpa.toList.any fun b => bpMatches b c.pc

/-- A trap of a decode step. -/
def stepTrap (c : Cause) (n : Nat) : Info := { cause := c, dstep := n }

/-- The cause of a decode trap. -/
def decodeInfo (e : DecodeErr) : Info :=
  { cause := match e.cause with
      | .illegalOp => .illegalOp
      | .illegalField => .illegalField
      | .lifetime => .lifetime
    dstep := e.dstep }

/-- The fetch fault of step 1: its VA is the address of the word whose fetch failed (R114, R115, R119). -/
def fetchTrap (c : Cause) (va : Addr) : Info := { stepTrap c 1 with va := some va }

/-- The words of a unit: its prefix's payload, its word, and a tile unit's second word; or the fetch fault of step 1. -/
def State.fetchUnit (s : State) : (Info ⊕ (Pfx × Word × Word)) × State :=
  let pc := s.ctx.pc
  if pc.toNat % 4 != 0 then (.inl (fetchTrap .misaligned pc), s)
  else
    match s.fetchWord pc with
    | (.inl c, s) => (.inl (fetchTrap c pc), s)
    | (.inr w, s) =>
      match w.kind with
      | 3 =>
        (match s.fetchWord (pc + 4) with
        | (.inl c, s) => (.inl (fetchTrap c (pc + 4)), s)
        | (.inr v, s) =>
          if v.kind = 1 then
            match s.fetchWord (pc + 8) with
            | (.inl c, s) => (.inl (fetchTrap c (pc + 8)), s)
            | (.inr u, s) => (.inr (some (w.extractLsb' 2 30), v, u), s)
          else (.inr (some (w.extractLsb' 2 30), v, 0), s))
      | 1 =>
        (match s.fetchWord (pc + 4) with
        | (.inl c, s) => (.inl (fetchTrap c (pc + 4)), s)
        | (.inr u, s) => (.inr (none, w, u), s))
      | _ => (.inr (none, w, 0), s)

/-- A unit is a land: one word of land's opcode, without a prefix. -/
def isLand (x : Pfx) (w : Word) : Bool :=
  match decodeUnit false x w 0 with | .ok .land => true | _ => false

/-- The next unit: an instruction, or the trap that it meets. -/
def State.nextUnit (s : State) : (Info ⊕ Instr) × State :=
  if s.ctx.atBreakpoint then (.inl (stepTrap .breakpoint 0), s)
  else
    match s.fetchUnit with
    | (.inl i, s) => (.inl i, s)
    | (.inr (x, w0, w1), s) =>
      if s.ctx.landp && !isLand x w0 then (.inl (stepTrap .illegalOp 0), s)
      else
        match decodeUnit s.ctx.system x w0 w1 with
        | .err e => (.inl (decodeInfo e), s)
        | .ok i => (.inr i, s)

/-- DECODE_TRAP: the next unit meets a trap, and every older entry has retired. -/
def execDecodeTrap (s : State) : Out :=
  if s.ctx.run != .running || !s.ctx.tiq.isEmpty then .refused (.notEnabled "DECODE_TRAP")
  else
    match s.nextUnit with
    | (.inl i, s) => .next (s.trapCtl i s.ctx.pc)
    | (.inr _, _) => .refused (.notEnabled "DECODE_TRAP")

end Sys2Proof.Machine
end

