-- ==== Sys2Proof/Machine/Dispatch.lean ====
section
/-!
DEFINITION. Sys2Proof/Machine/Dispatch.lean: one arm per row of the opcode table.
-/

namespace Sys2Proof.Machine

/-- The effect of a row: an instruction of the focused context, of the lane group or of the queue in turn, or a step of
another agent. -/
def exec (i : Instr) (s : State) : Host.Outcome State Fault Refusal :=
  match i with
  | .add d a b => Sys2Proof.Machine.execAdd d a b s
  | .sub d a b => Sys2Proof.Machine.execSub d a b s
  | .mul d a b => Sys2Proof.Machine.execMul d a b s
  | .mulh d a b => Sys2Proof.Machine.execMulh d a b s
  | .mulhn d a b => Sys2Proof.Machine.execMulhn d a b s
  | .div d a b => Sys2Proof.Machine.execDiv d a b s
  | .divn d a b => Sys2Proof.Machine.execDivn d a b s
  | .rem d a b => Sys2Proof.Machine.execRem d a b s
  | .remn d a b => Sys2Proof.Machine.execRemn d a b s
  | .and d a b => Sys2Proof.Machine.execAnd d a b s
  | .or d a b => Sys2Proof.Machine.execOr d a b s
  | .xor d a b => Sys2Proof.Machine.execXor d a b s
  | .andn d a b => Sys2Proof.Machine.execAndn d a b s
  | .sll d a b => Sys2Proof.Machine.execSll d a b s
  | .srl d a b => Sys2Proof.Machine.execSrl d a b s
  | .sra d a b => Sys2Proof.Machine.execSra d a b s
  | .min d a b => Sys2Proof.Machine.execMin d a b s
  | .max d a b => Sys2Proof.Machine.execMax d a b s
  | .minn d a b => Sys2Proof.Machine.execMinn d a b s
  | .maxn d a b => Sys2Proof.Machine.execMaxn d a b s
  | .clz d a => Sys2Proof.Machine.execClz d a s
  | .ctz d a => Sys2Proof.Machine.execCtz d a s
  | .popc d a => Sys2Proof.Machine.execPopc d a s
  | .sext8 d a => Sys2Proof.Machine.execSext8 d a s
  | .sext16 d a => Sys2Proof.Machine.execSext16 d a s
  | .sext32 d a => Sys2Proof.Machine.execSext32 d a s
  | .cmp d a b r => Sys2Proof.Machine.execCmp d a b r s
  | .sel d a b n v => Sys2Proof.Machine.execSel d a b n v s
  | .fadd d a b f r => Sys2Proof.Machine.execFadd d a b f r s
  | .fsub d a b f r => Sys2Proof.Machine.execFsub d a b f r s
  | .fmul d a b f r => Sys2Proof.Machine.execFmul d a b f r s
  | .ffma d a b f r => Sys2Proof.Machine.execFfma d a b f r s
  | .fdiv d a b f r => Sys2Proof.Machine.execFdiv d a b f r s
  | .fsqrt d a f r => Sys2Proof.Machine.execFsqrt d a f r s
  | .fmin d a b f => Sys2Proof.Machine.execFmin d a b f s
  | .fmax d a b f => Sys2Proof.Machine.execFmax d a b f s
  | .fcvtF32F64 d a r => Sys2Proof.Machine.execFcvtF32F64 d a r s
  | .fcvtF64F32 d a => Sys2Proof.Machine.execFcvtF64F32 d a s
  | .fcvtS64 d a f r => Sys2Proof.Machine.execFcvtS64 d a f r s
  | .fcvtN64 d a f r => Sys2Proof.Machine.execFcvtN64 d a f r s
  | .fcvtFmtS64 d a f r => Sys2Proof.Machine.execFcvtFmtS64 d a f r s
  | .fcvtFmtN64 d a f r => Sys2Proof.Machine.execFcvtFmtN64 d a f r s
  | .fcmp d a b r f => Sys2Proof.Machine.execFcmp d a b r f s
  | .addi d a v x => Sys2Proof.Machine.execAddi d a v x s
  | .andi d a v x => Sys2Proof.Machine.execAndi d a v x s
  | .ori d a v x => Sys2Proof.Machine.execOri d a v x s
  | .xori d a v x => Sys2Proof.Machine.execXori d a v x s
  | .slli d a v x => Sys2Proof.Machine.execSlli d a v x s
  | .srli d a v x => Sys2Proof.Machine.execSrli d a v x s
  | .srai d a v x => Sys2Proof.Machine.execSrai d a v x s
  | .cmpiEq d a v x => Sys2Proof.Machine.execCmpiEq d a v x s
  | .cmpiNe d a v x => Sys2Proof.Machine.execCmpiNe d a v x s
  | .cmpiLt d a v x => Sys2Proof.Machine.execCmpiLt d a v x s
  | .cmpiLe d a v x => Sys2Proof.Machine.execCmpiLe d a v x s
  | .cmpiGt d a v x => Sys2Proof.Machine.execCmpiGt d a v x s
  | .cmpiGe d a v x => Sys2Proof.Machine.execCmpiGe d a v x s
  | .cmpiLtn d a v x => Sys2Proof.Machine.execCmpiLtn d a v x s
  | .cmpiGen d a v x => Sys2Proof.Machine.execCmpiGen d a v x s
  | .lui d v x => Sys2Proof.Machine.execLui d v x s
  | .li d v x => Sys2Proof.Machine.execLi d v x s
  | .aadd d a g z => Sys2Proof.Machine.execAadd d a g z s
  | .asub d a g z => Sys2Proof.Machine.execAsub d a g z s
  | .amovg d g => Sys2Proof.Machine.execAmovg d g s
  | .amovh a g => Sys2Proof.Machine.execAmovh a g s
  | .gmova a g => Sys2Proof.Machine.execGmova a g s
  | .ahi d a g => Sys2Proof.Machine.execAhi d a g s
  | .acmp d a b r => Sys2Proof.Machine.execAcmp d a b r s
  | .aaddi d a v x => Sys2Proof.Machine.execAaddi d a v x s
  | .br d x => Sys2Proof.Machine.execBr d x s
  | .brp p n d x => Sys2Proof.Machine.execBrp p n d x s
  | .loop g v x => Sys2Proof.Machine.execLoop g v x s
  | .call d x => Sys2Proof.Machine.execCall d x s
  | .calli a => Sys2Proof.Machine.execCalli a s
  | .jmpi a => Sys2Proof.Machine.execJmpi a s
  | .ret => Sys2Proof.Machine.execRet s
  | .land => Sys2Proof.Machine.execLand s
  | .ld g a z o x => Sys2Proof.Machine.execLd g a z o x s
  | .ldS g a z o x => Sys2Proof.Machine.execLdS g a z o x s
  | .st g a z o x => Sys2Proof.Machine.execSt g a z o x s
  | .lda g a o x => Sys2Proof.Machine.execLda g a o x s
  | .sta g a o x => Sys2Proof.Machine.execSta g a o x s
  | .pref h a z o x => Sys2Proof.Machine.execPref h a z o x s
  | .csrr g c => Sys2Proof.Machine.execCsrr g c s
  | .csrw g c => Sys2Proof.Machine.execCsrw g c s
  | .csrs g c => Sys2Proof.Machine.execCsrs g c s
  | .csrc g c => Sys2Proof.Machine.execCsrc g c s
  | .trap v x => Sys2Proof.Machine.execTrap v x s
  | .brk v x => Sys2Proof.Machine.execBrk v x s
  | .nop => Sys2Proof.Machine.execNop s
  | .endUnit => Sys2Proof.Machine.execEndUnit s
  | .eret => Sys2Proof.Machine.execEret s
  | .tlbi a b k z => Sys2Proof.Machine.execTlbi a b k z s
  | .icinv a b z => Sys2Proof.Machine.execIcinv a b z s
  | .cpatch a b z w => Sys2Proof.Machine.execCpatch a b z w s
  | .ctxsave d a b => Sys2Proof.Machine.execCtxsave d a b s
  | .ctxload d a b => Sys2Proof.Machine.execCtxload d a b s
  | .tkadm d a b o => Sys2Proof.Machine.execTkadm d a b o s
  | .tshape f => Sys2Proof.Machine.execTshape f s
  | .tshapeKeep f => Sys2Proof.Machine.execTshapeKeep f s
  | .tview f => Sys2Proof.Machine.execTview f s
  | .tfree f => Sys2Proof.Machine.execTfree f s
  | .setx f => Sys2Proof.Machine.execSetx f s
  | .tseq f => Sys2Proof.Machine.execTseq f s
  | .tfill f => Sys2Proof.Machine.execTfill f s
  | .tmov f => Sys2Proof.Machine.execTmov f s
  | .ttr f => Sys2Proof.Machine.execTtr f s
  | .tadd f => Sys2Proof.Machine.execTadd f s
  | .tsub f => Sys2Proof.Machine.execTsub f s
  | .tmul f => Sys2Proof.Machine.execTmul f s
  | .tdiv f => Sys2Proof.Machine.execTdiv f s
  | .tmin f => Sys2Proof.Machine.execTmin f s
  | .tmax f => Sys2Proof.Machine.execTmax f s
  | .tabs f => Sys2Proof.Machine.execTabs f s
  | .tneg f => Sys2Proof.Machine.execTneg f s
  | .tfma f => Sys2Proof.Machine.execTfma f s
  | .trcp f => Sys2Proof.Machine.execTrcp f s
  | .trsqrt f => Sys2Proof.Machine.execTrsqrt f s
  | .tsqrt f => Sys2Proof.Machine.execTsqrt f s
  | .texp2 f => Sys2Proof.Machine.execTexp2 f s
  | .tlog2 f => Sys2Proof.Machine.execTlog2 f s
  | .ttanh f => Sys2Proof.Machine.execTtanh f s
  | .trem f => Sys2Proof.Machine.execTrem f s
  | .tand f => Sys2Proof.Machine.execTand f s
  | .tor f => Sys2Proof.Machine.execTor f s
  | .txor f => Sys2Proof.Machine.execTxor f s
  | .tandn f => Sys2Proof.Machine.execTandn f s
  | .tsll f => Sys2Proof.Machine.execTsll f s
  | .tsrl f => Sys2Proof.Machine.execTsrl f s
  | .tsra f => Sys2Proof.Machine.execTsra f s
  | .tmulh f => Sys2Proof.Machine.execTmulh f s
  | .tcmp f => Sys2Proof.Machine.execTcmp f s
  | .tsel f => Sys2Proof.Machine.execTsel f s
  | .tcvt f => Sys2Proof.Machine.execTcvt f s
  | .tquant f => Sys2Proof.Machine.execTquant f s
  | .tdequant f => Sys2Proof.Machine.execTdequant f s
  | .tred f => Sys2Proof.Machine.execTred f s
  | .tscan f => Sys2Proof.Machine.execTscan f s
  | .tperm f => Sys2Proof.Machine.execTperm f s
  | .tslide f => Sys2Proof.Machine.execTslide f s
  | .tbcast f => Sys2Proof.Machine.execTbcast f s
  | .txchg f => Sys2Proof.Machine.execTxchg f s
  | .map f => Sys2Proof.Machine.execMap f s
  | .mapred f => Sys2Proof.Machine.execMapred f s
  | .momu f => Sys2Proof.Machine.execMomu f s
  | .mma f => Sys2Proof.Machine.execMma f s
  | .mmas f => Sys2Proof.Machine.execMmas f s
  | .mmsp f => Sys2Proof.Machine.execMmsp f s
  | .mmb f => Sys2Proof.Machine.execMmb f s
  | .mzero f => Sys2Proof.Machine.execMzero f s
  | .mfill f => Sys2Proof.Machine.execMfill f s
  | .mdrain f => Sys2Proof.Machine.execMdrain f s
  | .mrow f => Sys2Proof.Machine.execMrow f s
  | .mcol f => Sys2Proof.Machine.execMcol f s
  | .tld f => Sys2Proof.Machine.execTld f s
  | .tst f => Sys2Proof.Machine.execTst f s
  | .tstNfz f => Sys2Proof.Machine.execTstNfz f s
  | .tldg f => Sys2Proof.Machine.execTldg f s
  | .tstg f => Sys2Proof.Machine.execTstg f s
  | .tldm f => Sys2Proof.Machine.execTldm f s
  | .csld f => Sys2Proof.Machine.execCsld f s
  | .csst f => Sys2Proof.Machine.execCsst f s
  | .cpy f => Sys2Proof.Machine.execCpy f s
  | .cpyw f => Sys2Proof.Machine.execCpyw f s
  | .cpyc f => Sys2Proof.Machine.execCpyc f s
  | .cpyq f => Sys2Proof.Machine.execCpyq f s
  | .send f => Sys2Proof.Machine.execSend f s
  | .recv f => Sys2Proof.Machine.execRecv f s
  | .tatom f => Sys2Proof.Machine.execTatom f s
  | .cbar f => Sys2Proof.Machine.execCbar f s
  | .fence f => Sys2Proof.Machine.execFence f s
  | .atom f => Sys2Proof.Machine.execAtom f s
  | .evsig f => Sys2Proof.Machine.execEvsig f s
  | .evwait f => Sys2Proof.Machine.execEvwait f s
  | .evquery f => Sys2Proof.Machine.execEvquery f s
  | .futrd f => Sys2Proof.Machine.execFutrd f s
  | .futwr f => Sys2Proof.Machine.execFutwr f s
  | .tklend f => Sys2Proof.Machine.execTklend f s
  | .tkret f => Sys2Proof.Machine.execTkret f s
  | .tksplit f => Sys2Proof.Machine.execTksplit f s
  | .tkjoin f => Sys2Proof.Machine.execTkjoin f s
  | .tkshare f => Sys2Proof.Machine.execTkshare f s
  | .tkunshare f => Sys2Proof.Machine.execTkunshare f s
  | .tkquery f => Sys2Proof.Machine.execTkquery f s
  | .lfadd f => Sys2Proof.Machine.execLfadd f s
  | .lfsub f => Sys2Proof.Machine.execLfsub f s
  | .lfmul f => Sys2Proof.Machine.execLfmul f s
  | .lffma f => Sys2Proof.Machine.execLffma f s
  | .lfmin f => Sys2Proof.Machine.execLfmin f s
  | .lfmax f => Sys2Proof.Machine.execLfmax f s
  | .lfabs f => Sys2Proof.Machine.execLfabs f s
  | .lfneg f => Sys2Proof.Machine.execLfneg f s
  | .lfcmp f => Sys2Proof.Machine.execLfcmp f s
  | .lrcp f => Sys2Proof.Machine.execLrcp f s
  | .lrsqrt f => Sys2Proof.Machine.execLrsqrt f s
  | .lsqrt f => Sys2Proof.Machine.execLsqrt f s
  | .lexp2 f => Sys2Proof.Machine.execLexp2 f s
  | .llog2 f => Sys2Proof.Machine.execLlog2 f s
  | .ltanh f => Sys2Proof.Machine.execLtanh f s
  | .liadd f => Sys2Proof.Machine.execLiadd f s
  | .lisub f => Sys2Proof.Machine.execLisub f s
  | .limul f => Sys2Proof.Machine.execLimul f s
  | .limulh f => Sys2Proof.Machine.execLimulh f s
  | .lmin f => Sys2Proof.Machine.execLmin f s
  | .lmax f => Sys2Proof.Machine.execLmax f s
  | .lminn f => Sys2Proof.Machine.execLminn f s
  | .lmaxn f => Sys2Proof.Machine.execLmaxn f s
  | .lband f => Sys2Proof.Machine.execLband f s
  | .lbor f => Sys2Proof.Machine.execLbor f s
  | .lbxor f => Sys2Proof.Machine.execLbxor f s
  | .lsll f => Sys2Proof.Machine.execLsll f s
  | .lsrl f => Sys2Proof.Machine.execLsrl f s
  | .lsra f => Sys2Proof.Machine.execLsra f s
  | .licmp f => Sys2Proof.Machine.execLicmp f s
  | .lcvt f => Sys2Proof.Machine.execLcvt f s
  | .lmov f => Sys2Proof.Machine.execLmov f s
  | .lmovi f => Sys2Proof.Machine.execLmovi f s
  | .lsel f => Sys2Proof.Machine.execLsel f s
  | .lkop f => Sys2Proof.Machine.execLkop f s
  | .ldadd f => Sys2Proof.Machine.execLdadd f s
  | .ldsub f => Sys2Proof.Machine.execLdsub f s
  | .ldmul f => Sys2Proof.Machine.execLdmul f s
  | .ldfma f => Sys2Proof.Machine.execLdfma f s
  | .ldcmp f => Sys2Proof.Machine.execLdcmp f s
  | .lrd f => Sys2Proof.Machine.execLrd f s
  | .lwr f => Sys2Proof.Machine.execLwr f s
  | .lidx f => Sys2Proof.Machine.execLidx f s
  | .lacc f => Sys2Proof.Machine.execLacc f s
  | .lnext f => Sys2Proof.Machine.execLnext f s
  | .lstop f => Sys2Proof.Machine.execLstop f s
  | .qlaunch c => Sys2Proof.Machine.execQlaunch c s
  | .qcopy c => Sys2Proof.Machine.execQcopy c s
  | .qwait c => Sys2Proof.Machine.execQwait c s
  | .qsig c => Sys2Proof.Machine.execQsig c s
  | .qintr c => Sys2Proof.Machine.execQintr c s
  | .qfence c => Sys2Proof.Machine.execQfence c s
  | .qbr c => Sys2Proof.Machine.execQbr c s
  | .qjump c => Sys2Proof.Machine.execQjump c s
  | .qstage c => Sys2Proof.Machine.execQstage c s
  | .qlend c => Sys2Proof.Machine.execQlend c s
  | .qlendRet c => Sys2Proof.Machine.execQlendRet c s
  | .qmark c => Sys2Proof.Machine.execQmark c s
  | .qnop c => Sys2Proof.Machine.execQnop c s
  | .qend c => Sys2Proof.Machine.execQend c s
  | .tail q v => Sys2Proof.Machine.execTail q v s
  | .stop q v => Sys2Proof.Machine.execStop q v s
  | .resume q v => Sys2Proof.Machine.execResume q v s
  | .skip q v => Sys2Proof.Machine.execSkip q v s
  | .cancel q v => Sys2Proof.Machine.execCancel q v s
  | .hostSignal q evn inc => Sys2Proof.Machine.execHostSignal q evn inc s
  | .queueEnable q => Sys2Proof.Machine.execQueueEnable q s
  | .boot c => Sys2Proof.Machine.execBoot c s
  | .attest c => Sys2Proof.Machine.execAttest c s
  | .getcert c => Sys2Proof.Machine.execGetcert c s
  | .setcap c => Sys2Proof.Machine.execSetcap c s
  | .mailboxCsrr c => Sys2Proof.Machine.execMailboxCsrr c s
  | .mailboxCsrw c => Sys2Proof.Machine.execMailboxCsrw c s
  | .mailboxTkadm c => Sys2Proof.Machine.execMailboxTkadm c s
  | .trate m v => Sys2Proof.Machine.execTrate m v s
  | .moduleOff m => Sys2Proof.Machine.execModuleOff m s
  | .moduleOffReturn m => Sys2Proof.Machine.execModuleOffReturn m s
  | .tscWrite v => Sys2Proof.Machine.execTscWrite v s
  | .fqctl d v => Sys2Proof.Machine.execFqctl d v s
  | .fqhead d v => Sys2Proof.Machine.execFqhead d v s
  | .registerWrite pa v => Sys2Proof.Machine.execRegisterWrite pa v s
  | .hostAtomic r => Sys2Proof.Machine.execHostAtomic r s
  | .hostCas128 r => Sys2Proof.Machine.execHostCas128 r s
  | .hostAccess r => Sys2Proof.Machine.execHostAccess r s
  | .issue n replays => Sys2Proof.Machine.execIssue n replays s
  | .scalarReturn n => Sys2Proof.Machine.execScalarReturn n s
  | .accessComplete n => Sys2Proof.Machine.execAccessComplete n s
  | .retire reed => Sys2Proof.Machine.execRetire reed s
  | .decodeTrap => Sys2Proof.Machine.execDecodeTrap s
  | .contextStop => Sys2Proof.Machine.execContextStop s
  | .preemptionRequest c => Sys2Proof.Machine.execPreemptionRequest c s
  | .preemptionStop => Sys2Proof.Machine.execPreemptionStop s
  | .deschedule l g => Sys2Proof.Machine.execDeschedule l g s
  | .priorityPreemption l g => Sys2Proof.Machine.execPriorityPreemption l g s
  | .dispatch l g => Sys2Proof.Machine.execDispatch l g s
  | .contextResume c => Sys2Proof.Machine.execContextResume c s
  | .exchangeDelivery c => Sys2Proof.Machine.execExchangeDelivery c s
  | .copyStrip c k strip outcome => Sys2Proof.Machine.execCopyStrip c k strip outcome s
  | .stripSteal c k strip thief => Sys2Proof.Machine.execStripSteal c k strip thief s
  | .mergeRequest c => Sys2Proof.Machine.execMergeRequest c s
  | .mergeWindowExpiry m => Sys2Proof.Machine.execMergeWindowExpiry m s
  | .tokenAccept t => Sys2Proof.Machine.execTokenAccept t s
  | .shootdownAck agent => Sys2Proof.Machine.execShootdownAck agent s
  | .contextLost c => Sys2Proof.Machine.execContextLost c s
  | .sliceAdmit k => Sys2Proof.Machine.execSliceAdmit k s
  | .sliceFill k => Sys2Proof.Machine.execSliceFill k s
  | .stagingStrip k strip => Sys2Proof.Machine.execStagingStrip k strip s
  | .stageDeadline l g => Sys2Proof.Machine.execStageDeadline l g s
  | .sequencerSwitch n q => Sys2Proof.Machine.execSequencerSwitch n q s
  | .flitDelivery m d => Sys2Proof.Machine.execFlitDelivery m d s
  | .flitCrcError m d => Sys2Proof.Machine.execFlitCrcError m d s
  | .replayWindowClose m d => Sys2Proof.Machine.execReplayWindowClose m d s
  | .steeringDrain h => Sys2Proof.Machine.execSteeringDrain h s
  | .trainingComplete m ok => Sys2Proof.Machine.execTrainingComplete m ok s
  | .laneRetirement m d lane => Sys2Proof.Machine.execLaneRetirement m d lane s
  | .mainbandLoss m => Sys2Proof.Machine.execMainbandLoss m s
  | .loomLaneLoss p width => Sys2Proof.Machine.execLoomLaneLoss p width s
  | .pcieLinkEvent detail => Sys2Proof.Machine.execPcieLinkEvent detail s
  | .patrolScrub pa e => Sys2Proof.Machine.execPatrolScrub pa e s
  | .powerControlTick d => Sys2Proof.Machine.execPowerControlTick d s
  | .supplyOverdraw watts => Sys2Proof.Machine.execSupplyOverdraw watts s
  | .powerLoss => Sys2Proof.Machine.execPowerLoss s
  | .reset k => Sys2Proof.Machine.execReset k s
  | .romInit => Sys2Proof.Machine.execRomInit s
  | .fwInit ok => Sys2Proof.Machine.execFwInit ok s
  | .vfFlr vf => Sys2Proof.Machine.execVfFlr vf s
  | .pfFlr => Sys2Proof.Machine.execPfFlr s
  | .peerRequest r => Sys2Proof.Machine.execPeerRequest r s
  | .loomPortTrained p peer => Sys2Proof.Machine.execLoomPortTrained p peer s

end Sys2Proof.Machine
end

