-- ==== Sys2Proof/Machine/Step.lean ====
section
/-!
DEFINITION. Sys2Proof/Machine/Step.lean: one step of the machine (notes/assumptions/1.md, 2.md): a turn of another agent or of
a queue sequencer, or a unit of the focused core; and the placing of an instruction where the next step fetches it.
-/

namespace Sys2Proof.Machine

/-- What follows every step. -/
def finish (o : Out) : Out :=
  match o with
  | .next s => .next s.follow
  | r => r

/-- A row that is a step of another agent: it has no encoding. -/
def isAgentRow (i : Instr) : Bool := (encode i).isEmpty

/-- The context has passed a unit: RETD counts it, it went to the TIQ, its predicate discarded it, or it was a trap, which
leaves the next unit's address (R267). -/
def Ctx.passed (b c : Ctx) : Bool :=
  c.retd != b.retd || c.nextseq != b.nextseq || ((c.run == .running || c.run == .stopped) && c.pc != b.pc)

/-- A unit has executed: SKIPBP, which passed it, is clear (R281). -/
def clearSkip (before : Ctx) (o : Out) : Out :=
  match o with
  | .next s =>
    if before.skipbp && before.passed s.ctx then
      .next (s.mapCtx fun c => { c with skipbp := false })
    else .next s
  | r => r

/-- The next unit of the focused context: its trap, or its instruction's effect. -/
def unitStep (s : State) : Out :=
  match s.nextUnit with
  | (.inl t, s) => .next (s.trapCtl t s.ctx.pc)
  | (.inr i, s) => clearSkip s.ctx (exec i s)

/-- Cycles of the focused core pass: a number of its own for every step of every core (R7). -/
def State.tick (s : State) : State :=
  { s with core := { s.core with cyc := s.core.cyc + Config.cycleStep s.cycCtr }, cycCtr := s.cycCtr + 1 }

/-- The focused core: its pending pre-emption, the entries that can go on, and its next unit. -/
def coreTurn (s : State) : Out :=
  if s.ctx.run != .running then .next s
  else if s.core.prereq.isSome then (if s.eager then execPreemptionStop s else .next s)
  else if s.settle.ctx.run != .running then .next s.settle
  else unitStep s.settle

/-- Sequencer n: the next command of the queue it runs, or the queue it takes, idle or after 64 commands (R340). -/
def seqTurn (n : Nat) (s : State) : Out :=
  if !s.seqUp n then .next s
  else
    match (s.seqs.find? fun p => p.1 == n).bind fun p => s.queue p.2 with
    | some x =>
      if s.switchDue x then .next (s.switchQueue n x.q)
      else
        match ({ s with curq := x.q } : State).fetchCmd x with
        | (.inl i, s) => exec i s
        | (.inr _, s) => .next s
    | none =>
      match s.pickQueue n with
      | some x => .next (s.takeQueue n x.q)
      | none => .next s

/-- The machine with no turn to take: bring-up, then the focused core. -/
def idleTurn (s : State) : Out :=
  if !s.powered then .next s
  else if s.boot.st = 0 then execRomInit s
  else if s.boot.st = 3 then execFwInit true s
  else coreTurn s.tick

/-- A turn that is taken where a condition holds. -/
def turnIf (b : Bool) (s : State) : Out := if b then .next s else .refused (.notEnabled "turn")

/-- A turn of the schedule. -/
def turnStep (t : Turn) (s : State) : Out :=
  match t with
  | .event i => if isAgentRow i then exec i s else .refused (.notEnabled "turn")
  | .sequencer n => seqTurn n s
  | .focus c => .next (s.focus c)
  | .unit => idleTurn s
  | .rowGroup n => turnIf (s.ctx.run == .running) (s.rowGroup n)
  | .ecc site bad => eccTurn site bad s
  | .hostPoison pa => hostPoisonTurn pa s
  | .fatal l => turnIf (s.launchOf l).isSome (s.endFatal l)
  | .handOff c asid va => handOffTurn c asid va s
  | .unload h => turnIf (s.objects.any fun o => o.handle == h) (s.unload h)
  | .requester fn on =>
    let rest := s.atomFns.filter fun f => f != fn
    turnIf (decide (fn < 32)) { s with atomFns := if on then fn :: rest else rest }

/-- One step. -/
def step (s : State) : Host.Outcome State Fault Refusal :=
  finish (match s.turns with
    | t :: ts => turnStep t { s with turns := ts }
    | [] => idleTurn s)

/-! ## Placing an instruction -/

/-- Offsets in die 0's HBM at which withFetchWord puts an address-space table, three page tables and the code. -/
def placeTables : Nat := 0x1000000
def placeCode : Nat := 0x2000000

/-- The bits are those of a system-mode row. -/
def wordIsSystem (nbits w : Nat) : Bool := match decodeTableWord nbits w with | some i => i.isSystem | none => false

/-- The machine with an instruction where the next step fetches it (notes/assumptions/4.md): bring-up is over, no turn is
pending, address space 0 maps the part's memory by one SHARED leaf with X, and the focused core runs a context whose PC is
the instruction's address. -/
def State.withFetchWord (s : State) (nbits w : Nat) : State :=
  let t := s.local_ placeTables
  let s := s.wr t 8 (t + 0x10000 + 1)
  let s := s.wr (t + 0x10000) 8 ((t + 0x20000) / 256 + 1)
  let s := s.wr (t + 0x20000) 8 ((t + 0x30000) / 256 + 1)
  let s := s.wr (t + 0x30000) 8 (s.local_ 0 / 256 + 0x2F)
  let s := s.wr (s.local_ placeCode) 12 (w % 2 ^ nbits)
  let s := (s.setSys 0 0x810 (BitVec.ofNat 64 t)).setSys 0 0x811 1
  { s with
    turns := [], powered := true, shLost := false, boot := { s.boot with st := 4 }
    poison := s.poison.filter fun g => decide (g < t) || decide (s.local_ placeCode + 64 ≤ g)
    core := { s.core with tlb := [], icache := [], prereq := none }
    clTlb := []
    ctx := { s.ctx with run := .running, pc := BitVec.ofNat 72 placeCode, asid := 0, landp := false, skipbp := true
                        tiq := [], copies := [], wait := {}, system := wordIsSystem nbits w } }

end Sys2Proof.Machine
end

