-- ==== Sys2Proof/Safety.lean ====
section
/-!
DEFINITION. Sys2Proof/Safety.lean: what counts as a safe state and a safe step, and the shapes in which the statements
say what an instruction leaves.
-/

namespace Sys2Proof.Safety

open Sys2Proof.Machine

/-- Memory is in its canonical form. -/
def MemOk (s : State) : Prop := Memory.wf s.mem = true

/-- The step gives a next state. -/
def Runs (o : Out) : Prop := ∃ t, o = .next t

/-- Two states hold the same byte at a physical address. -/
def SameByte (s t : State) (a : Nat) : Prop := Memory.read t.mem a = Memory.read s.mem a

/-- Every byte of memory is as it was. -/
def SameMem (s t : State) : Prop := ∀ a, SameByte s t a

/-! ## The control unit (R136) -/

/-- No register of the list has a pending scalar return, so an instruction that names them does not wait (R16). -/
def NoReturn (s : State) (ds : List Dst) : Prop := ∀ d ∈ ds, d ∉ s.ctx.pending

/-- The focused context passes `words` words of its control stream, and one more unit has retired; `c` is the context
with its destination written. -/
def State.after (s : State) (words : Nat) (c : Ctx) : State :=
  { s with ctx := { c with pc := s.ctx.pc + BitVec.ofNat 72 (4 * words), retd := s.ctx.retd + 1 } }

/-- Register G[d] holds `v`, G0 reads 0, every other register of the machine is as it was, every byte of memory too;
the PC passes `words` words. -/
def PutsG (o : Out) (s : State) (d : BitVec 5) (v : GWord) (words : Nat) : Prop :=
  ∃ t, o = .next t ∧ (∀ r, t.ctx.getG r = if r = 0 then 0 else if r = d then v else s.ctx.getG r)
    ∧ t = State.after s words { s.ctx with g := t.ctx.g } ∧ SameMem s t

/-- The same for P[d]; P0 reads 1. -/
def PutsP (o : Out) (s : State) (d : BitVec 3) (v : Bool) (words : Nat) : Prop :=
  ∃ t, o = .next t ∧ (∀ r, t.ctx.getP r = if r = 0 then true else if r = d then v else s.ctx.getP r)
    ∧ t = State.after s words { s.ctx with p := t.ctx.p } ∧ SameMem s t

/-- The same for A[d]. -/
def PutsA (o : Out) (s : State) (d : BitVec 4) (v : Addr) (words : Nat) : Prop :=
  ∃ t, o = .next t ∧ (∀ r, t.ctx.getA r = if r = d then v else s.ctx.getA r)
    ∧ t = State.after s words { s.ctx with a := t.ctx.a } ∧ SameMem s t

/-- G[d] holds the result of `r`, and the flags of `r` are ORed into FCSR. -/
def PutsF (o : Out) (s : State) (d : BitVec 5) (r : Res) (words : Nat) : Prop :=
  ∃ t, o = .next t
    ∧ (∀ k, t.ctx.getG k = if k = 0 then 0 else if k = d then BitVec.ofNat 64 r.1 else s.ctx.getG k)
    ∧ t = State.after s words { s.ctx with g := t.ctx.g, fcsr := s.ctx.fcsr ||| r.2 } ∧ SameMem s t

/-- Control goes to an address; the transfer counts as retired, and `c` is the context with what else it writes. -/
def State.goes (s : State) (to_ : Addr) (c : Ctx) : State :=
  { s with ctx := { c with pc := to_, retd := s.ctx.retd + 1 } }

/-- The context has stopped at a fault of the control unit: its registers, tiles and accumulators are as they were, `pc`
is the PC its frame keeps, and the record holds the cause, the unit's address and the TIQ sequence number of the next
entry (R264, R266, R267). Its copies and their channels change only where strips that other channels have started complete
first (R271). -/
def Traps (o : Out) (s : State) (cause : Cause) (pc : Addr) (r : FaultRec) : Prop :=
  ∃ t, o = .next t ∧ r.cause = cause ∧ r.pc = s.ctx.pc ∧ r.tiqseq = s.ctx.nextseq ∧ r.ctxid = s.ctx.ctxid
    ∧ r.uid = s.ctx.uid
    ∧ t.ctx = { s.ctx with pc := pc, run := .stopped, reason := 0, cause := cause.code, tes := 0, tiq := [], ilock := []
                           olds := [], frec := some r, copies := t.ctx.copies, chans := t.ctx.chans }
    ∧ ((∀ c ∈ s.ctx.copies, c.stolen = []) → t.ctx.copies = s.ctx.copies ∧ t.ctx.chans = s.ctx.chans)

/-- An address that A15 may take: not below the stack limit (R138). -/
def StackOk (s : State) (d : BitVec 4) (v : Addr) : Prop :=
  d = 15 → s.ctx.splim ≠ 0 → s.ctx.splim.toNat / 256 * 65536 ≤ v.toNat

/-- The relations of cmp by code (R142). -/
def relation (rel : Nat) (x y : GWord) : Bool :=
  match rel with
  | 0 => x == y
  | 1 => x != y
  | 2 => x.slt y
  | 3 => x.sle y
  | 4 => y.slt x
  | 5 => y.sle x
  | 6 => x.ult y
  | 7 => x.ule y
  | 8 => y.ult x
  | _ => y.ule x

/-- The relations of acmp by code, unsigned (R144). -/
def addrRelation (rel : Nat) (x y : Addr) : Bool :=
  match rel with
  | 0 => x == y
  | 1 => x != y
  | 2 => x.ult y
  | 3 => x.ule y
  | 4 => y.ult x
  | _ => y.ule x

/-- A displacement in words, sign-extended, with the payload of a prefix above it, as bytes (R118, R120, R148). -/
def disp {w : Nat} (d : BitVec w) (x : Pfx) : Addr :=
  match x with
  | none => d.signExtend 72 * 4
  | some p => (p ++ d).signExtend 72 * 4

/-- The value of a register in the format FMT of R146. -/
def fval (s : State) (f : BitVec 1) (r : BitVec 5) : Val :=
  decodeFp (fpOf (if f = 0 then 0x01 else 0x00)) (s.ctx.getG r).toNat

/-- CSRs that wait until every older entry has retired (R48). -/
def drains (n : Nat) : Bool := n ≤ 5 || n == 0x021

/-- A translation that a tlbi drops (Table 07-4). -/
def tlbiHits (k : BitVec 2) (asid : BitVec 16) (va : Addr) (e : TlbE) : Bool :=
  match k.toNat with
  | 0 => e.asid == asid && e.va == va.toNat / 2 ^ e.size
  | 1 => e.asid == asid
  | _ => true

/-- A token-cache entry that a tlbi drops. -/
def tlbiHitsTok (k : BitVec 2) (asid : BitVec 16) (va : Addr) (e : Tok) : Bool :=
  match k.toNat with
  | 0 => e.asid == asid.toNat && e.covers va.toNat
  | 1 => e.asid == asid.toNat
  | _ => true

/-! ## The TIQ (R15, R17, R21) -/

/-- A running context with nothing in flight, on a machine that performs an entry at its push
(notes/assumptions/3.md). -/
structure Alone (s : State) : Prop where
  eager : s.eager = true
  run : s.ctx.run = .running
  tiq : s.ctx.tiq = []
  copies : s.ctx.copies = []
  ilock : s.ctx.ilock = []
  olds : s.ctx.olds = []

/-- `s` after one TIQ entry has been pushed, performed and retired: `c` is the context with what the entry itself writes;
the PC has passed the unit, RETD and the TIQ sequence number count it, and the restart state is clear (R21, R50). -/
def State.ran (s : State) (i : Instr) (words : Nat) (c : Ctx) : State :=
  { s with
    ctx := { c with pc := s.ctx.pc + BitVec.ofNat 72 (4 * words), retd := s.ctx.retd + 1
                    nextseq := s.ctx.nextseq + 1, tiq := [], performed := 0, partialDst := none, tes := 0
                    skipwp := false, wait := {} }
    core := { s.core with reedmis := false
                          lfsr := if reedChecks i then Config.lfsrNext s.core.lfsr else s.core.lfsr } }

/-- `s` with an entry of the TIQ pushed and its words passed: the state in which the entry is performed (R15, R137). -/
def State.pushed (s : State) (i : Instr) (words : Nat) : State := (s.push i).mapCtx fun c => c.skip words

/-- A tile row is not skipped, and the part has the unit it needs (R17, R3). -/
def Issues (s : State) (i : Instr) (f : TileFields) : Prop := s.ctx.getP f.p ≠ f.negp ∧ s.lacks i = false

/-- Words of a tile row. -/
def TileFields.words (f : TileFields) : Nat := if f.pfx.isSome then 3 else 2

/-- A tile name that the configuration has (R161, check 1). -/
def Named (s : State) (r : BitVec 5) : Prop := s.ctx.tsc = 3 → r.toNat < 16

/-- A tile name that an instruction over row-major or column-major tiles of format `c` accepts (R161). -/
structure TileOk (s : State) (r : BitVec 5) (c : Nat) : Prop where
  named : Named s r
  al : (s.ctx.tile r).sr.al = true
  ill : (s.ctx.tile r).sr.ill = false
  fmt : (s.ctx.tile r).sr.fmt = c
  layout : (s.ctx.tile r).sr.layout < 2
  plain : (s.ctx.tile r).sr.sblk = 0

/-- A tile name that a copy accepts: row-major, column-major or bit-plane (R161, R172). -/
structure MovOk (s : State) (r : BitVec 5) : Prop where
  named : Named s r
  al : (s.ctx.tile r).sr.al = true
  ill : (s.ctx.tile r).sr.ill = false
  layout : (s.ctx.tile r).sr.layout ≤ 2
  plain : (s.ctx.tile r).sr.sblk = 0

/-- Rows and columns of the effective extent over names: XR, XC, and the shape of each (R46). -/
def rowsOf (s : State) (rs : List (BitVec 5)) : Nat := rs.foldl (fun n r => min n (s.ctx.tile r).sr.rows) s.ctx.xr.toNat
def colsOf (s : State) (rs : List (BitVec 5)) : Nat := rs.foldl (fun n r => min n (s.ctx.tile r).sr.cols) s.ctx.xc.toNat

/-- The bits of an element: a bit-plane tile's planes, or the format's width (R58). -/
def elemBits (t : Tile) : Nat := if t.sr.layout = 2 then t.sr.planes else t.sr.w

/-- `u` is the tile `t` with the elements of the extent replaced by `f`, cut to the element width; its other elements are as
they were, and so is its record, but that its footprint is written now (R44). -/
def Filled (t u : Tile) (er ec : Nat) (f : Nat → Nat → Nat) : Prop :=
  u.sr = t.sr.written ∧ ∀ r c, r < t.sr.rows → c < t.sr.cols →
    u.get r c = if r < er ∧ c < ec then f r c % 2 ^ elemBits t else t.get r c

/-- The union of the flags over an extent. -/
def flagsOf (er ec : Nat) (f : Nat → Nat → FlagSet) : FlagSet := (extent er ec).foldl (fun u p => u ||| f p.1 p.2) 0

/-- A tile name of format `c` in one of the layouts of a list, as far as R161 checks it before its scales. -/
structure OpndOk (s : State) (r : BitVec 5) (c : Nat) (layouts : List Nat) : Prop where
  named : Named s r
  al : (s.ctx.tile r).sr.al = true
  ill : (s.ctx.tile r).sr.ill = false
  fmt : (s.ctx.tile r).sr.fmt = c
  layout : (s.ctx.tile r).sr.layout ∈ layouts

/-- A tile bears block scales, and its scale tile, an operand of its own (R161), suits it (R60); or it bears none. -/
def Scaled (s : State) (r : BitVec 5) : Prop :=
  (s.ctx.tile r).sr.sblk ≠ 0 ∧ Named s (s.ctx.tile r).sr.stile
    ∧ Tile.scaleOk (s.ctx.tile r) (s.ctx.tile (s.ctx.tile r).sr.stile) = true
def Unscaled (s : State) (r : BitVec 5) : Prop := (s.ctx.tile r).sr.sblk = 0

/-- An .ef chain over the values of an extent in ascending e: the pattern, the flags and the carry after each (R65). -/
def efChain (c : Nat) (sat : Bool) (carry : Nat) : List Val → List (Nat × FlagSet × Nat)
  | [] => []
  | x :: xs => efStep c sat carry x :: efChain c sat (efStep c sat carry x).2.2 xs

/-- The context after a product: its accumulator, its drain tile where it has one, its flags (R217, R219). -/
def afterProduct (s : State) (f : TileFields) (m : Nat) (u : Tile) (fl : FlagSet) : Ctx :=
  { (if f.drain then (s.ctx.setAcc f.td m).setTile f.tc u else s.ctx.setAcc f.td m) with fcsr := s.ctx.fcsr ||| fl }

/-- A product of an M x K operand `a` and a K x N operand `b` runs: over the output extent, each accumulator element is
the product element of R217 and R218 on its old value, and the drain tile takes its conversion; every other element of the
accumulator is as it was. -/
def Multiplies (s : State) (i : Instr) (f : TileFields) (int : Bool) (m n k : Nat) (a b : Nat → Nat → Term) : Prop :=
  ∃ acc u fl, exec i s = .next (State.ran s i (TileFields.words f) (afterProduct s f acc u fl))
    ∧ (∀ r c, r < 128 → c < 128 → accGet acc r c =
        if r < min s.ctx.xr.toNat m ∧ c < min s.ctx.xc.toNat n then
          (prodElem int f.sat f.acc.toNat ((s.ctx.getG f.gs).toNat % 2 ^ 32) (accGet (s.ctx.getAcc f.td) r c) k (a r)
            fun x => b x c).1 % 2 ^ 32
        else accGet (s.ctx.getAcc f.td) r c)
    ∧ (f.drain = true → Filled (s.ctx.tile f.tc) u (min s.ctx.xr.toNat m) (min s.ctx.xc.toNat n) fun r c =>
        (drainConv (s.ctx.tile f.tc).sr.fmt f.drm.toNat f.sat int
          (prodElem int f.sat f.acc.toNat ((s.ctx.getG f.gs).toNat % 2 ^ 32) (accGet (s.ctx.getAcc f.td) r c) k (a r)
            fun x => b x c).1).1)

/-! ## The lanes (R197, R198) -/

/-- The lane is enabled and has not trapped (R198). -/
def Live (l : Lane) : Prop := l.on = true ∧ l.trap = none

/-- An instruction acts in a lane: it is enabled, and K[k[2:0]] xor k[3] holds, K0 reading true (R198). -/
def Acts (f : LaneFields) (l : Lane) : Prop := Live l ∧ l.getK (f.k.extractLsb' 0 3) ≠ f.k.getLsbD 3

/-- The step gives a next state in which lane n is related to lane n before by `r`, and nothing else has changed. -/
def LanesDo (o : Out) (s : State) (r : Lane → Lane → Prop) : Prop :=
  ∃ t, o = .next t ∧ t = { s with lanes := t.lanes } ∧ t.lanes.length = s.lanes.length
    ∧ ∀ (n : Nat) (l u : Lane), s.lanes[n]? = some l → t.lanes[n]? = some u → r l u

/-- `v` stands in register d, or its two halves in the pair that begins at d, and `fl` is ORed into the lane's flags; the
lane is otherwise as it was. -/
def PutsL (w : Nat) (l u : Lane) (d : BitVec 6) (v : Nat) (fl : FlagSet) : Prop :=
  u = { l with l := u.l, flags := l.flags ||| fl }
    ∧ ∀ r, u.get r = if r = d then v % 2 ^ 32 else if w = 64 ∧ r = d ||| 1 then v / 2 ^ 32 % 2 ^ 32 else l.get r

/-- `v` stands in predicate d, unless that is K0, which reads true; `fl` as above. -/
def PutsK (l u : Lane) (d : BitVec 3) (v : Bool) (fl : FlagSet) : Prop :=
  u = { l with k := u.k, flags := l.flags ||| fl }
    ∧ ∀ r, u.getK r = if r = 0 then true else if r = d then v else l.getK r

/-- A value of 32 or 64 bits: a register, or an even-odd pair with the low half in the even one (R197). -/
def lword (w : Nat) (l : Lane) (r : BitVec 6) : Nat := if w = 64 then l.get r + l.get (r ||| 1) * 2 ^ 32 else l.get r

/-- Its value in a format: f32 of a register, f64 of a pair. -/
def lval (c : Nat) (l : Lane) (r : BitVec 6) : Val := decodeFp (fpOf c) (lword (fmtWidth c) l r)

/-! ## Accesses to memory (R86, R151, R268) -/

/-- A scalar access of `n` bytes at `va` is permitted in `s`: aligned, matched by no watch range, its page's checks passed,
its data readable. `pa` and `cls` are where it lands; `u` is the state after its checks. -/
structure Reaches (s : State) (a : Acc) (va : Addr) (n pa cls : Nat) (u : State) : Prop where
  aligned : va.toNat % n = 0
  watch : s.watchMeets a false va.toNat n = false
  check : s.check s.ctx.asid s.ctx.ids a va n = (.ok pa cls, u)
  data : u.dataFault (!a.write) [(pa, n)] = none

/-- The context has stopped at a fault of its one entry, which has had no effect: the record holds the cause, the failing
address, the entry's PC and sequence number (R151, R264, R266). -/
def Stops (o : Out) (s : State) (i : Instr) (cause : Cause) (va : Option Addr) : Prop :=
  ∃ t r, o = .next t ∧ r.cause = cause ∧ (∀ a, va = some a → r.va = a ∧ r.flags.getLsbD 0 = true) ∧ r.pc = s.ctx.pc
    ∧ r.tiqseq = s.ctx.nextseq ∧ r.ctxid = s.ctx.ctxid ∧ r.uid = s.ctx.uid
    ∧ t.ctx = { s.ctx with pc := t.ctx.pc, run := .stopped, reason := 0, cause := cause.code, tes := 0
                           tiq := [(s.ctx.entryOf i).rested], nextseq := s.ctx.nextseq + 1, ilock := [], olds := []
                           skipwp := false, frec := some r }

/-- A tile name that every memory instruction accepts: the configuration has it, and its record is allocated and well
formed (R161). -/
structure ShapeOk (s : State) (r : BitVec 5) : Prop where
  named : Named s r
  al : (s.ctx.tile r).sr.al = true
  ill : (s.ctx.tile r).sr.ill = false

/-- The context's copies have no strip that can move, once the entry is pushed (R246, notes/assumptions/3.md). -/
structure Quiet (s : State) (i : Instr) (words : Nat) : Prop where
  eager : s.eager = true
  run : s.ctx.run = .running
  tiq : s.ctx.tiq = []
  still : (State.pushed s i words).runAll = State.pushed s i words

/-- `w`, with the one entry of the TIQ retired and the strips that can then move made (R21, R246). -/
def State.retired (w s : State) (i : Instr) : State := (w.retireHead (s.ctx.entryOf i)).runAll

/-! ## Token instructions (R259) -/

/-- The region that a token instruction names: its page is OWNED, and entry `k` of the token table governs it; the entry is
not in TRANSIT to the issuer (R259). -/
structure Region (s : State) (i : Instr) (f : TileFields) (k : Nat) (u : State) : Prop where
  page : ∃ l pte size, (State.pushed s i (TileFields.words f)).translate s.ctx.asid (s.ctx.getA f.as) = (some (l, pte, size), u)
    ∧ l.cls = 0 ∧ u.governing s.ctx.asid l.tri (s.ctx.getA f.as).toNat = some k
  mem : MemOk u
  still : ¬ ((u.tok k).state = tokTransit ∧ s.ctx.ids.contains (u.tok k).holder = true)

/-- A token instruction gives status `v` in G[td]; the context is otherwise as any TIQ row leaves it, with a visible side
effect where the status is 0; `t` is the state after. -/
def TokDone (s : State) (i : Instr) (f : TileFields) (v : Nat) (t : State) : Prop :=
  exec i s = .next t ∧ ∃ g, t.ctx = { (State.ran s i (TileFields.words f) { s.ctx with g := g }).ctx with
      sidefx := s.ctx.sidefx || v == 0 }
    ∧ ∀ r, ({ s.ctx with g := g } : Ctx).getG r = if r = 0 then 0 else if r = f.td then BitVec.ofNat 64 v else s.ctx.getG r

/-! ## Queue commands (R325 to R333) -/

/-- The queue in its sequencer's turn. -/
def InTurn (s : State) (x : Queue) : Prop := s.queue s.curq = some x ∧ x.q = s.curq

/-- The command has executed on `w`, and its effect goes on as `p` says (R325, R326). -/
def Executes (o : Out) (w : State) (x : Queue) (len : Nat) (c : QueueCmd) (p : Pending) : Prop :=
  o = .next (w.executed x len c.seq p)

/-- The queue waits at the command: it is BLOCKED, its sequencer is free, its status is written (R327, R340). -/
def Blocks (o : Out) (w : State) (x : Queue) (c : QueueCmd) : Prop :=
  o = .next ((State.release ((w.begin_ x c.seq).mapQueue x.q fun y => { y with st := .blocked, begun := true }) x.q).putStatus x.q)

/-- The queue stops at the command, which has no effect (R327). -/
def QStops (o : Out) (w : State) (x : Queue) (c : QueueCmd) (err detail : Nat) : Prop :=
  o = .next (w.stopQueue x.q err detail (x.seqOf c.seq))

/-- The strips of a queue's copies that an eager machine makes at once (notes/assumptions/3.md). -/
def State.moved (t : State) (q : Nat) : State := if t.eager then t.runQueueCopies (t.queueStrips q) q else t

/-- A stopped queue goes on: its error is clear, its stopped copy begins again at its lowest strip not yet made, and it is
READY, or DONE where it has executed its qend (R327). -/
def State.resumed (s : State) (q : Nat) : State :=
  let s := s.mapQueue q fun y => { y with
    err := 0, why := 0, detail := 0, lendStop := false, stopReq := false
    copies := y.copies.map fun c => if c.stopped then { c with
      stopped := false
      checked := ((List.range (Desc.strips c.desc)).find? fun k => !c.done.contains k).getD 0 * Desc.perStrip c.desc } else c }
  State.putStatus
    (if (s.queue q).any Queue.finished then s.mapQueue q fun y => { y with st := .done } else s.makeReady q) q

/-! ## The mailbox (R411, R412) -/

/-- The mailbox with a command's arguments, OP and SEQ written (R411, Table 22-2). -/
def State.posted (s : State) (op : Nat) (c : MailboxCmd) : State :=
  ((s.mbWr 0x018 8 c.arg0.toNat).mbWr 0x020 8 c.arg1.toNat).mbWr 0x008 8 (op + c.seq.toNat % 2 ^ 16 * 2 ^ 16)

/-- A mailbox command ends with STATUS and its SEQ in the response register (R411). -/
def Responds (o : Out) (c : MailboxCmd) (status : Nat) (t : State) : Prop :=
  o = .next t ∧ t.mbRd 0x010 8 = status + c.seq.toNat % 2 ^ 16 * 2 ^ 16

/-! ## Scheduling (R33) -/

/-- Group g of launch l is blocked and its cores are wanted (R33): each of its units on a core is parked or waits, TIQ
entry and all, on an event, a future or an exchange that has not come about; one of them runs; and a unit of its class or
a higher one waits for a core on its die. -/
def Blocked (s : State) (l g : Nat) (h : Group) : Prop :=
  h.launch = l ∧ h.idx = g ∧ (∃ u ∈ s.units, u.2.run = .running ∧ h.has u.2 = true)
    ∧ (∀ u ∈ s.units, u.2.run ≠ .idle → h.has u.2 = true → u.2.run = .parked ∨
        (u.2.run = .running ∧ u.2.tiq ≠ [] ∧ s.waitOver u.2 = false
          ∧ ((u.2.wait.sent = false ∧ (u.2.wait.kind = .evwait ∨ u.2.wait.kind = .futrd)) ∨ u.2.wait.kind = .txchg)))
    ∧ ∃ p L, h.place = some p ∧ s.launchOf l = some L ∧ s.someWaits L.cls p.1 = true

/-! ## Requests from outside (R405, R408) -/

/-- The request ends with a completion of these bytes; everything but the completion is as in `w`. -/
def Answers (o : Out) (w : State) (v : Nat) (abort : Bool) : Prop :=
  o = .next { w with hostOut := BitVec.ofNat 512 v, hostAbort := abort }

/-- A request of the physical function on bytes of this part's HBM in one naturally aligned access. -/
structure HbmReq (s : State) (r : HostReq) (pa n : Nat) : Prop where
  fn : r.fn = 0
  at_ : pa = s.nodeId * 2 ^ 48 + r.off
  width : n = r.width ∧ r.width ∈ [1, 2, 4, 8, 16, 32, 64]
  off : r.off + n ≤ 2 ^ 40 ∧ 0x10000 ≤ r.off
  lo : s.inHbm pa = true
  hi : s.inHbm (pa + n - 1) = true

/-! ## Encodings -/

/-- A row of the lane array's text, and a row of a queue program. -/
def LaneRow (i : Instr) : Prop := ∃ op f, laneRow op f = some i
def QueueRow (i : Instr) : Prop := ∃ op c, queueRow op c = some i
/-- The 64-bit words of an encoding; 0 beyond its end. -/
def words64 (ws : List Word) (k : Nat) : BitVec 64 := ws.getD (2 * k + 1) 0 ++ ws.getD (2 * k) 0

end Sys2Proof.Safety
end

