-- ==== Sys2Proof/Certificates/Slice0/Obligations.lean ====
section
/-!
DEFINITION. Sys2Proof/Certificates/Slice0/Obligations.lean: the statements for the provers. Each says what the rules of
spec/ it names give; where it rests on a choice of the model, its text names the entry of notes/assumptions/.
-/

open Sys2Proof Sys2Proof.Machine Sys2Proof.Safety

/-- Integer arithmetic of opcode 0x01. R139 with R71, and the frame of R136. -/
def Obligations.IntegerOperations : Prop :=
  (∀ (s : State) (d a b : BitVec 5) (x y : GWord), NoReturn s [.g d, .g a, .g b] → s.ctx.getG a = x → s.ctx.getG b = y →
      PutsG (exec (.add d a b) s) s d (BitVec.ofNat 64 (x.toNat + y.toNat)) 1
      ∧ PutsG (exec (.sub d a b) s) s d (BitVec.ofInt 64 (x.toInt - y.toInt)) 1
      ∧ PutsG (exec (.mul d a b) s) s d (BitVec.ofNat 64 (x.toNat * y.toNat)) 1
      ∧ (∃ v, PutsG (exec (.mulh d a b) s) s d v 1 ∧ v.toInt = x.toInt * y.toInt / 2 ^ 64)
      ∧ (∃ v, PutsG (exec (.mulhn d a b) s) s d v 1 ∧ v.toNat = x.toNat * y.toNat / 2 ^ 64)
      ∧ PutsG (exec (.div d a b) s) s d (if y = 0 then -1 else BitVec.ofInt 64 (x.toInt.tdiv y.toInt)) 1
      ∧ PutsG (exec (.divn d a b) s) s d (if y = 0 then -1 else x / y) 1
      ∧ PutsG (exec (.rem d a b) s) s d (if y = 0 then x else BitVec.ofInt 64 (x.toInt.tmod y.toInt)) 1
      ∧ PutsG (exec (.remn d a b) s) s d (if y = 0 then x else x % y) 1
      ∧ PutsG (exec (.and d a b) s) s d (x &&& y) 1
      ∧ PutsG (exec (.or d a b) s) s d (x ||| y) 1
      ∧ PutsG (exec (.xor d a b) s) s d (x ^^^ y) 1
      ∧ PutsG (exec (.andn d a b) s) s d (x &&& ~~~y) 1
      ∧ PutsG (exec (.sll d a b) s) s d (x <<< (y.toNat % 64)) 1
      ∧ PutsG (exec (.srl d a b) s) s d (x >>> (y.toNat % 64)) 1
      ∧ PutsG (exec (.sra d a b) s) s d (BitVec.ofInt 64 (x.toInt / 2 ^ (y.toNat % 64))) 1
      ∧ PutsG (exec (.min d a b) s) s d (if x.slt y then x else y) 1
      ∧ PutsG (exec (.max d a b) s) s d (if x.slt y then y else x) 1
      ∧ PutsG (exec (.minn d a b) s) s d (if x.ult y then x else y) 1
      ∧ PutsG (exec (.maxn d a b) s) s d (if x.ult y then y else x) 1)
  ∧ (∀ (s : State) (d a : BitVec 5) (x : GWord), NoReturn s [.g d, .g a] → s.ctx.getG a = x →
      (∃ n ≤ 64, PutsG (exec (.clz d a) s) s d (BitVec.ofNat 64 n) 1
        ∧ (∀ i < n, x.getLsbD (63 - i) = false) ∧ (n < 64 → x.getLsbD (63 - n) = true))
      ∧ (∃ n ≤ 64, PutsG (exec (.ctz d a) s) s d (BitVec.ofNat 64 n) 1
        ∧ (∀ i < n, x.getLsbD i = false) ∧ (n < 64 → x.getLsbD n = true))
      ∧ PutsG (exec (.popc d a) s) s d (BitVec.ofNat 64 ((List.range 64).countP x.getLsbD)) 1
      ∧ PutsG (exec (.sext8 d a) s) s d ((x.setWidth 8).signExtend 64) 1
      ∧ PutsG (exec (.sext16 d a) s) s d ((x.setWidth 16).signExtend 64) 1
      ∧ PutsG (exec (.sext32 d a) s) s d ((x.setWidth 32).signExtend 64) 1)
  ∧ (∀ (sys : Bool) (w0 w1 : Word), w0.getLsbD 0 = false → w0.opcode = 0x01 → 26 ≤ (w0.extractLsb' 23 9).toNat →
      decodeUnit sys none w0 w1 = .err ⟨.illegalOp, 3⟩)

/-- Immediate forms, li and lui. R140 for the immediates that do not trap, R141 whole, R120. -/
def Obligations.ImmediateOperations : Prop :=
  (∀ (s : State) (d a : BitVec 5) (i : BitVec 14) (p : Pfx) (x m : GWord) (n : Nat), NoReturn s [.g d, .g a] →
      s.ctx.getG a = x → n = (if p.isSome then 2 else 1) →
      m = (match p with | none => i.signExtend 64 | some q => (q ++ i).signExtend 64) →
      PutsG (exec (.addi d a i p) s) s d (x + m) n
      ∧ PutsG (exec (.andi d a i p) s) s d (x &&& m) n
      ∧ PutsG (exec (.ori d a i p) s) s d (x ||| m) n
      ∧ PutsG (exec (.xori d a i p) s) s d (x ^^^ m) n
      ∧ (m.toNat < 64 →
        PutsG (exec (.slli d a i p) s) s d (x <<< m.toNat) n
        ∧ PutsG (exec (.srli d a i p) s) s d (x >>> m.toNat) n
        ∧ PutsG (exec (.srai d a i p) s) s d (BitVec.ofInt 64 (x.toInt / 2 ^ m.toNat)) n))
  ∧ (∀ (s : State) (d : BitVec 5) (i : BitVec 19) (q : BitVec 30), NoReturn s [.g d] →
      PutsG (exec (.li d i none) s) s d (i.signExtend 64) 1
      ∧ PutsG (exec (.li d i (some q)) s) s d ((q ++ i).signExtend 64) 2
      ∧ PutsG (exec (.lui d i none) s) s d ((i.setWidth 64 <<< 45) ||| (s.ctx.getG d &&& (2 ^ 45 - 1))) 1
      ∧ PutsG (exec (.lui d i (some q)) s) s d (((q ++ i).setWidth 64 <<< 15) ||| (s.ctx.getG d &&& (2 ^ 15 - 1))) 2)
  ∧ (∀ (s : State) (d : BitVec 5) (i : BitVec 19) (x : Pfx), Dst.g d ∈ s.ctx.pending → exec (.lui d i x) s = .next s)

/-- cmp, cmpi and sel. R142, R143, for operand values that decode. -/
def Obligations.CompareAndSelect : Prop :=
  ∀ (s : State) (d a b : BitVec 5) (r : BitVec 9) (i : BitVec 14) (p : Pfx) (m : GWord) (w : Nat),
    NoReturn s [.g a, .g b] → d.toNat < 8 → r.toNat < 10 → w = (if p.isSome then 2 else 1) →
    m = (match p with | none => i.signExtend 64 | some q => (q ++ i).signExtend 64) →
    PutsP (exec (.cmp d a b r) s) s (d.setWidth 3) (Safety.relation r.toNat (s.ctx.getG a) (s.ctx.getG b)) 1
    ∧ PutsP (exec (.cmpiEq d a i p) s) s (d.setWidth 3) (Safety.relation 0 (s.ctx.getG a) m) w
    ∧ PutsP (exec (.cmpiNe d a i p) s) s (d.setWidth 3) (Safety.relation 1 (s.ctx.getG a) m) w
    ∧ PutsP (exec (.cmpiLt d a i p) s) s (d.setWidth 3) (Safety.relation 2 (s.ctx.getG a) m) w
    ∧ PutsP (exec (.cmpiLe d a i p) s) s (d.setWidth 3) (Safety.relation 3 (s.ctx.getG a) m) w
    ∧ PutsP (exec (.cmpiGt d a i p) s) s (d.setWidth 3) (Safety.relation 4 (s.ctx.getG a) m) w
    ∧ PutsP (exec (.cmpiGe d a i p) s) s (d.setWidth 3) (Safety.relation 5 (s.ctx.getG a) m) w
    ∧ PutsP (exec (.cmpiLtn d a i p) s) s (d.setWidth 3) (Safety.relation 6 (s.ctx.getG a) m) w
    ∧ PutsP (exec (.cmpiGen d a i p) s) s (d.setWidth 3) (Safety.relation 9 (s.ctx.getG a) m) w
    ∧ ∀ (n : BitVec 3) (v : BitVec 1), NoReturn s [.g d] →
      PutsG (exec (.sel d a b n v) s) s d (if (s.ctx.getP n ^^ v == 1) = true then s.ctx.getG a else s.ctx.getG b) 1

/-- Scalar floating point. R146, R147: the exact result by sumV, mulV, fmaV, divV and sqrtV, rounded by roundTo,
converted by convertInt and convertFp, which the numeric rules R54 and R61 to R73 describe. -/
def Obligations.ScalarFloat : Prop :=
  ∀ (s : State) (d a b : BitVec 5) (f : BitVec 1) (r : BitVec 3) (x y z : Val) (c : Nat),
    NoReturn s [.g d, .g a, .g b] → x = Safety.fval s f a → y = Safety.fval s f b → z = Safety.fval s f d →
    c = (if f = 0 then 0x01 else 0x00) → r.toNat ≤ 4 →
    PutsF (exec (.fadd d a b f r) s) s d (roundTo c r (sumV r.toNat [x, y])) 1
    ∧ PutsF (exec (.fsub d a b f r) s) s d (roundTo c r (sumV r.toNat [x, y.negate])) 1
    ∧ PutsF (exec (.fmul d a b f r) s) s d (roundTo c r (mulV x y)) 1
    ∧ PutsF (exec (.ffma d a b f r) s) s d (roundTo c r (fmaV r.toNat x y z)) 1
    ∧ PutsF (exec (.fdiv d a b f r) s) s d (roundTo c r (divV x y)) 1
    ∧ PutsF (exec (.fsqrt d a f r) s) s d (roundTo c r (sqrtV x)) 1
    ∧ PutsF (exec (.fmin d a b f) s) s d (roundTo c 0 (minMaxV false x y)) 1
    ∧ PutsF (exec (.fmax d a b f) s) s d (roundTo c 0 (minMaxV true x y)) 1
    ∧ PutsF (exec (.fcvtS64 d a f r) s) s d (convertInt 64 true r.toNat false (.flt x)) 1
    ∧ PutsF (exec (.fcvtN64 d a f r) s) s d (convertInt 64 false r.toNat false (.flt x)) 1
    ∧ PutsF (exec (.fcvtFmtS64 d a f r) s) s d
        (convertFp c r.toNat false (.fin ((s.ctx.getG a).msb) (s.ctx.getG a).toInt.natAbs 0 false)) 1
    ∧ PutsF (exec (.fcvtFmtN64 d a f r) s) s d
        (convertFp c r.toNat false (.fin false (s.ctx.getG a).toNat 0 false)) 1
    ∧ PutsF (exec (.fcvtF32F64 d a r) s) s d (convertFp 0x01 r.toNat false (Safety.fval s 1 a)) 1
    ∧ PutsF (exec (.fcvtF64F32 d a) s) s d (convertFp 0x00 0 false (Safety.fval s 0 a)) 1
    ∧ (d.toNat < 8 → r.toNat < 6 → ∃ t, exec (.fcmp d a b r f) s = .next t
        ∧ (∀ k, t.ctx.getP k = if k = 0 then true else if k = d.setWidth 3 then (fcmpV r.toNat x y).1 else s.ctx.getP k)
        ∧ t = State.after s 1 { s.ctx with p := t.ctx.p, fcsr := s.ctx.fcsr ||| (fcmpV r.toNat x y).2 })

/-- Address arithmetic and the stack limit. R144, R145, R138. -/
def Obligations.AddressOperations : Prop :=
  (∀ (s : State) (d a : BitVec 4) (b d5 a5 : BitVec 5) (sh r : BitVec 3) (i : BitVec 14) (p : Pfx) (x v m : Addr) (g : GWord),
      NoReturn s [.a d, .a a, .g b, .a (b.setWidth 4)] → x = s.ctx.getA a → g = s.ctx.getG b →
      d5 = d.setWidth 5 → a5 = a.setWidth 5 →
      m = (match p with | none => i.signExtend 72 | some q => (q ++ i).signExtend 72) →
      (v = x + BitVec.ofInt 72 (g.toInt * 2 ^ sh.toNat) → StackOk s d v → PutsA (exec (.aadd d a b sh) s) s d v 1)
      ∧ (v = x - BitVec.ofInt 72 (g.toInt * 2 ^ sh.toNat) → StackOk s d v → PutsA (exec (.asub d a b sh) s) s d v 1)
      ∧ (v = BitVec.ofNat 72 g.toNat → StackOk s d v → PutsA (exec (.amovg d b) s) s d v 1)
      ∧ (v = BitVec.ofNat 72 (g.toNat % 256 * 2 ^ 64 + x.toNat % 2 ^ 64) → StackOk s d v →
          PutsA (exec (.ahi d a b) s) s d v 1)
      ∧ (v = x + m → StackOk s d v → PutsA (exec (.aaddi d5 a5 i p) s) s d v (if p.isSome then 2 else 1))
      ∧ PutsG (exec (.amovh a b) s) s b (BitVec.ofNat 64 (x.toNat / 2 ^ 64)) 1
      ∧ PutsG (exec (.gmova a b) s) s b (BitVec.ofNat 64 x.toNat) 1
      ∧ (d.toNat < 8 → r.toNat < 6 → b.toNat < 16 →
          PutsP (exec (.acmp d a b r) s) s (d.setWidth 3)
            (Safety.addrRelation r.toNat x (s.ctx.getA (b.setWidth 4))) 1))
  ∧ (∀ (s : State) (a : BitVec 4) (b a5 : BitVec 5) (sh : BitVec 3) (i : BitVec 14) (p : Pfx) (x v m : Addr) (g : GWord),
      s.ctx.tiq = [] → x = s.ctx.getA a → g = s.ctx.getG b → a5 = a.setWidth 5 →
      m = (match p with | none => i.signExtend 72 | some q => (q ++ i).signExtend 72) →
      s.ctx.splim ≠ 0 → v.toNat < s.ctx.splim.toNat / 256 * 65536 →
      (v = x + BitVec.ofInt 72 (g.toInt * 2 ^ sh.toNat) → ∃ r, Traps (exec (.aadd 15 a b sh) s) s .stackLimit s.ctx.pc r)
      ∧ (v = x - BitVec.ofInt 72 (g.toInt * 2 ^ sh.toNat) → ∃ r, Traps (exec (.asub 15 a b sh) s) s .stackLimit s.ctx.pc r)
      ∧ (v = BitVec.ofNat 72 g.toNat → ∃ r, Traps (exec (.amovg 15 b) s) s .stackLimit s.ctx.pc r)
      ∧ (v = BitVec.ofNat 72 (g.toNat % 256 * 2 ^ 64 + x.toNat % 2 ^ 64) →
          ∃ r, Traps (exec (.ahi 15 a b) s) s .stackLimit s.ctx.pc r)
      ∧ (v = x + m → ∃ r, Traps (exec (.aaddi 15 a5 i p) s) s .stackLimit s.ctx.pc r))

/-- Transfers of control, land and nop. R148, R149, R150, R156. -/
def Obligations.Transfers : Prop :=
  (∀ (s : State) (x : Pfx) (d24 : BitVec 24) (d20 : BitVec 20) (d19 : BitVec 19) (p : BitVec 3) (n : BitVec 1)
      (g : BitVec 5) (w : Addr) (k : Nat),
      k = (if x.isSome then 2 else 1) → w = s.ctx.pc + BitVec.ofNat 72 (4 * (k - 1)) →
      exec (.br d24 x) s = .next (State.goes s (w + Safety.disp d24 x) s.ctx)
      ∧ exec (.brp p n d20 x) s = .next (if s.ctx.getP p ^^ n == 1 then State.goes s (w + Safety.disp d20 x) s.ctx
          else State.after s k s.ctx)
      ∧ (NoReturn s [.g g] → ∃ t v, exec (.loop g d19 x) s = .next t ∧ v = s.ctx.getG g - 1
          ∧ (∀ r, t.ctx.getG r = if r = 0 then 0 else if r = g then v else s.ctx.getG r)
          ∧ t = (if v = 0 then State.after s k { s.ctx with g := t.ctx.g }
              else State.goes s (w + Safety.disp d19 x) { s.ctx with g := t.ctx.g }))
      ∧ (NoReturn s [.a 13] → exec (.call d24 x) s =
          .next (State.goes s (w + Safety.disp d24 x) (s.ctx.setA 13 (w + 4)))))
  ∧ (∀ (s : State) (a : BitVec 4), NoReturn s [.a a, .a 13] →
      exec (.calli (a.setWidth 5)) s =
        .next (State.goes s (s.ctx.getA a) { s.ctx.setA 13 (s.ctx.pc + 4) with landp := true })
      ∧ exec (.jmpi (a.setWidth 5)) s = .next (State.goes s (s.ctx.getA a) { s.ctx with landp := true })
      ∧ exec .ret s = .next (State.goes s (s.ctx.getA 13) s.ctx)
      ∧ exec .land s = .next (State.after s 1 { s.ctx with landp := false })
      ∧ exec .nop s = .next (State.after s 1 s.ctx))
  ∧ (∀ (sys : Bool) (x : Pfx) (w0 w1 : Word), decodeUnit sys x w0 w1 = .ok .nop ↔ w0 = 0xC6 ∧ x = none)

/-- trap and brk stop the context. R155, R264, R266, R267. -/
def Obligations.TrapAndBrk : Prop :=
  ∀ (s : State) (i : BitVec 19) (x : Pfx), s.ctx.tiq = [] →
    (∃ r, Traps (exec (.trap i x) s) s .trapInstr (s.ctx.pc + if x.isSome then 8 else 4) r
      ∧ r.va = (match x with | none => i.setWidth 72 | some q => (q ++ i).setWidth 72))
    ∧ (∃ r, Traps (exec (.brk i x) s) s .breakpoint s.ctx.pc r
      ∧ r.va = (match x with | none => i.setWidth 72 | some q => (q ++ i).setWidth 72))

/-- csrr reads a CSR. R154, R48, Table 02-6. -/
def Obligations.CsrRead : Prop :=
  ∀ (s : State) (g : BitVec 5) (c : BitVec 12), NoReturn s [.g g] → (Safety.drains c.toNat = true → s.ctx.tiq = []) →
    (∀ v, (c, v) ∈ [(0x000#12, s.ctx.fcsr.toNat), (0x001, s.ctx.efc.toNat), (0x002, s.ctx.xr.toNat),
        (0x003, s.ctx.xc.toNat), (0x004, s.ctx.tsc.toNat), (0x005, s.ctx.tes.toNat), (0x010, s.ctx.uid.toNat),
        (0x011, s.ctx.ucnt.toNat), (0x012, s.ctx.cgr.toNat), (0x013, s.ctx.lid.toNat), (0x014, s.ctx.diem.toNat),
        (0x015, s.core.cid.toNat), (0x021, s.ctx.retd.toNat), (0x050, s.ctx.splim.toNat), (0x800, s.core.epc.toNat),
        (0x801, s.core.epch.toNat), (0x802, s.core.estat.toNat), (0x808, (s.getSys s.die 0x808).toNat),
        (0x822, (s.getSys s.die 0x822).toNat), (0x006, s.ctx.tiq.length + s.ctx.nextseq.toNat * 2 ^ 32)] →
      PutsG (exec (.csrr g c) s) s g (BitVec.ofNat 64 v) 1)
    ∧ (∀ k : Fin 16, c.toNat = 0x040 + k → PutsG (exec (.csrr g c) s) s g s.ctx.bpa[k] 1)
    ∧ (∀ v, s.csr c.toNat = some v → PutsG (exec (.csrr g c) s) s g (BitVec.ofNat 64 v) 1)
    ∧ (s.csr c.toNat = none → s.ctx.tiq = [] → ∃ r, Traps (exec (.csrr g c) s) s .illegalField s.ctx.pc r)

/-- csrw, csrs and csrc write a CSR. R154, Table 02-6, R38; the ranges are those of the CSR table. -/
def Obligations.CsrWrite : Prop :=
  (∀ (s : State) (g : BitVec 5) (c : BitVec 12) (i : Instr) (old : Nat) (v : GWord), NoReturn s [.g g] →
      (Safety.drains c.toNat = true → s.ctx.tiq = []) → s.csr c.toNat = some old →
      (i, v) ∈ [(Instr.csrw g c, s.ctx.getG g), (.csrs g c, BitVec.ofNat 64 old ||| s.ctx.getG g),
        (.csrc g c, BitVec.ofNat 64 old &&& ~~~ s.ctx.getG g)] →
      (csrRo c.toNat = true → s.ctx.tiq = [] → ∃ r, Traps (exec i s) s .illegalField s.ctx.pc r)
      ∧ (csrRo c.toNat = false →
        (∀ t, s.writeCsr c.toNat v = some t → exec i s = .next (t.mapCtx fun x => x.advance 1))
        ∧ (s.writeCsr c.toNat v = none → s.ctx.tiq = [] → ∃ r, Traps (exec i s) s .illegalField s.ctx.pc r)))
  ∧ (∀ (s : State) (v : GWord),
      s.writeCsr 0x000 v = (if v.toNat < 64 then some { s with ctx := { s.ctx with fcsr := v.setWidth 6 } } else none)
      ∧ s.writeCsr 0x001 v =
          (if v.toNat < 2 ^ 32 then some { s with ctx := { s.ctx with efc := v.setWidth 32 } } else none)
      ∧ s.writeCsr 0x002 v =
          (if 1 ≤ v.toNat ∧ v.toNat ≤ 256 then some { s with ctx := { s.ctx with xr := v.setWidth 9 } } else none)
      ∧ s.writeCsr 0x003 v =
          (if 1 ≤ v.toNat ∧ v.toNat ≤ 1024 then some { s with ctx := { s.ctx with xc := v.setWidth 11 } } else none)
      ∧ s.writeCsr 0x004 v = (if v.toNat < 4 then some { s with ctx := { s.ctx with
            tsc := v.setWidth 2, tiles := Vector.replicate 32 {}, olds := [] } } else none)
      ∧ s.writeCsr 0x050 v = (if v.toNat % 256 = 0 then some { s with ctx := { s.ctx with splim := v } } else none)
      ∧ (∀ k : Fin 16, s.writeCsr (0x040 + k) v =
          (if v.getLsbD 1 = true then none else some { s with ctx := { s.ctx with bpa := s.ctx.bpa.set k v } }))
      ∧ s.writeCsr 0x800 v = some { s with core := { s.core with epc := v } }
      ∧ s.writeCsr 0x801 v =
          (if v.toNat < 256 then some { s with core := { s.core with epch := v.setWidth 8 } } else none)
      ∧ s.writeCsr 0x802 v =
          (if v.toNat < 2 then some { s with core := { s.core with estat := v.setWidth 1 } } else none))

/-- end of a unit. R157, R14, R49. -/
def Obligations.EndOfUnit : Prop :=
  (∀ (s : State) (l : Launch) (g : Group), s.ctx.tiq = [] → s.ctx.copies = [] → s.core.staged = none →
      s.ctx.launch = some l.id → s.launchOf l.id = some l → s.group = some g → s.ctx.inst = none → l.dmr = false →
      l.lendFail = false → l.units + 1 ≠ l.ucnt →
      ∃ t, exec .endUnit s = .next t ∧ t.ctx = {}
        ∧ t.launches = s.launches.map fun x => if x.id = l.id
            then { x with units := x.units + 1, insts := x.insts + 1, flags := x.flags ||| s.ctx.fcsr } else x)
  ∧ (∀ s : State, (s.ctx.tiq ≠ [] → exec .endUnit s = .next s)
      ∧ (s.ctx.tiq = [] → s.ctx.copies ≠ [] → (∀ c ∈ s.ctx.copies, c.stop = none) → exec .endUnit s = .next s)
      ∧ (∀ c cs f, s.ctx.tiq = [] → s.ctx.copies = c :: cs → c.stop = some f →
          ∃ t r, exec .endUnit s = .next t ∧ t.ctx.run = .stopped ∧ t.ctx.pc = s.ctx.pc ∧ t.ctx.frec = some r
            ∧ r.cause = f.cause ∧ r.pc = c.pc ∧ r.flags.getLsbD 6 = true
            ∧ (f.cause.fields.1 = true → r.va = f.va ∧ r.flags.getLsbD 0 = true ∧ r.flags.getLsbD 1 = f.cs)))

/-- eret, tlbi, icinv and cpatch. R158, R159, R362, on a machine that acknowledges an invalidation within the step
(notes/assumptions/3.md, 40.md: the model's choice). -/
def Obligations.SystemInstructions : Prop :=
  ((∀ s : State,
      exec .eret s = .next (State.goes s (s.core.epch ++ s.core.epc) { s.ctx with system := s.core.estat == 1 }))
    ∧ ∀ (s : State) (a : BitVec 4) (b : BitVec 5) (k : BitVec 2) (sc : BitVec 3),
      s.eager = true → s.core.inval = false → sc.toNat < 4 → k.toNat < 3 →
      ((k = 0 → NoReturn s [.a a]) → (k.toNat < 2 → NoReturn s [.g b]) → ∀ (f : Core → Core) (va : Addr) (asid : BitVec 16),
          va = s.ctx.getA a → asid = (s.ctx.getG b).setWidth 16 →
          f = (fun c => if s.inScope sc c.cid.toNat
            then { c with tlb := c.tlb.filter fun e => !Safety.tlbiHits k asid va e } else c) →
          exec (.tlbi (a.setWidth 5) b k sc) s = .next (State.after { s with
            core := f s.core
            others := s.others.map fun u => (f u.1, u.2)
            clTlb := s.clTlb.filter fun e =>
              !((List.range 8).any (fun i => s.inScope sc (8 * e.1 + i)) && Safety.tlbiHits k asid va e.2)
            tokc := s.tokc.filter fun e => !(s.inScope sc e.1 && Safety.tlbiHitsTok k asid va (s.tok e.2)) } 1 s.ctx))
      ∧ (NoReturn s [.a a, .g b] → ∀ r, r = s.codeStale (s.ctx.getA a) (s.ctx.getG b).toNat →
          ∃ t, exec (.icinv (a.setWidth 5) b sc) s = .next t ∧ t.mem = r.2.mem ∧ t.ctx.pc = s.ctx.pc + 4
            ∧ ∀ u ∈ t.units, r.2.inScope sc u.1.cid.toNat = true → ∀ lo hi, Stale.code lo hi ∈ r.1 →
                (∀ l ∈ u.1.icache, hi ≤ l.1 ∨ l.1 + 16 ≤ lo)
                ∧ ∀ fn ∈ u.1.lcache, ∀ w ∈ fn.words, hi ≤ w.1 ∨ w.1 + 8 ≤ lo)
      ∧ (NoReturn s [.a a, .g b] → (s.ctx.getG b).toNat = 0 →
          exec (.icinv (a.setWidth 5) b sc) s = .next (State.after s 1 s.ctx)))
  ∧ (∀ (s s' : State) (a : BitVec 4) (b : BitVec 5) (w : BitVec 1) (sc : BitVec 3) (n v pa pte size : Nat) (l : Leaf),
      NoReturn s [.a a, .g b] → (w = 1 → NoReturn s [.g (b + 1)]) → s.eager = true → s.core.inval = false →
      sc.toNat < 4 → (w = 1 → b.getLsbD 0 = false) → n = (if w = 1 then 16 else 8) →
      v = (if w = 1 then (s.ctx.getG b).toNat + (s.ctx.getG (b + 1)).toNat * 2 ^ 64 else (s.ctx.getG b).toNat) →
      (s.ctx.getA a).toNat % n = 0 → s.translate s.ctx.asid (s.ctx.getA a) = (some (l, pte, size), s') →
      pa = leafPa l size (s.ctx.getA a) → s'.inHbm pa = true → s'.unreachable pa = false →
      (pte + 8 ≤ pa ∨ pa + n ≤ pte) → MemOk s' →
      ∃ t, exec (.cpatch (a.setWidth 5) b sc w) s = .next t ∧ t.ctx.pc = s.ctx.pc + 4 ∧ t.rd pa n = v
        ∧ (∀ x, (x < pa ∨ pa + n ≤ x) → x ≠ pte → SameByte s' t x)
        ∧ ∀ u ∈ t.units, s'.inScope sc u.1.cid.toNat = true →
            (∀ c ∈ u.1.icache, pa + n ≤ c.1 ∨ c.1 + 16 ≤ pa)
            ∧ ∀ fn ∈ u.1.lcache, ∀ w ∈ fn.words, pa + n ≤ w.1 ∨ w.1 + 8 ≤ pa)

/-- Elementwise and transcendental tile operations. R174 to R176 over elemAdd and the other element functions, R46; a
transcendental result that the enclosure does not decide is free (notes/assumptions/10.md). -/
def Obligations.ElementwiseOperations : Prop :=
  (∀ (i : TileFields → Instr) (op : ElemOp) (n : Nat),
      (i, op, n) ∈ [(Instr.tadd, elemAdd, 2), (.tsub, elemSub, 2), (.tmul, elemMul, 2), (.tdiv, elemDiv, 2),
        (.tmin, elemMinMax false, 2), (.tmax, elemMinMax true, 2), (.tabs, elemAbs, 1), (.tneg, elemNeg, 1),
        (.tfma, elemFma, 3), (.trem, elemRem, 2), (.tand, elemAnd, 2), (.tor, elemOr, 2), (.txor, elemXor, 2),
        (.tandn, elemAndn, 2), (.tsll, elemSll, 2), (.tsrl, elemSrl, 2), (.tsra, elemSra, 2), (.tmulh, elemMulh, 2)] →
      ∀ (s : State) (f : TileFields) (c er ec : Nat) (rs : List (BitVec 5)) (b : Nat → Nat → Nat) (v : Nat → Nat → Res),
        Alone s → Issues s (i f) f → c = f.fmt1.toNat →
        rs = (if n = 1 then [f.td, f.ta] else if n = 2 then (if f.sBit then [f.td, f.ta] else [f.td, f.ta, f.tb])
          else if f.sBit then [f.td, f.ta, f.tc] else [f.td, f.ta, f.tb, f.tc]) →
        (∀ r ∈ rs, TileOk s r c) → er = rowsOf s rs → ec = colsOf s rs →
        b = (fun r k => if f.sBit then (s.ctx.getG f.gs).toNat % 2 ^ fmtWidth c else (s.ctx.tile f.tb).get r k) →
        v = (fun r k => op c f.rm.toNat f.sat ((s.ctx.tile f.ta).get r k) (b r k)
          (if n = 3 then (s.ctx.tile f.tc).get r k else 0)) →
        ∃ u, exec (i f) s = .next (State.ran s (i f) (TileFields.words f)
            { s.ctx.setTile f.td u with fcsr := s.ctx.fcsr ||| flagsOf er ec fun r k => (v r k).2 })
          ∧ Filled (s.ctx.tile f.td) u er ec fun r k => (v r k).1)
  ∧ (∀ (i : TileFields → Instr) (fn : Nat),
      (i, fn) ∈ [(Instr.trcp, 0), (.trsqrt, 1), (.tsqrt, 2), (.texp2, 3), (.tlog2, 4), (.ttanh, 5)] →
      ∀ (s : State) (f : TileFields) (er ec : Nat) (v : Nat → Nat → Res),
        Alone s → Issues s (i f) f → (∀ r ∈ [f.td, f.ta], TileOk s r f.fmt1.toNat) →
        er = rowsOf s [f.td, f.ta] → ec = colsOf s [f.td, f.ta] →
        v = (fun r k => transc fn f.fmt1.toNat f.rm.toNat ((s.ctx.tile f.ta).get r k)) →
        ∃ u, exec (i f) s = .next (State.ran s (i f) (TileFields.words f)
            { s.ctx.setTile f.td u with fcsr := s.ctx.fcsr ||| flagsOf er ec fun r k => (v r k).2 })
          ∧ Filled (s.ctx.tile f.td) u er ec fun r k => (v r k).1)

/-- tcmp and tsel. R177, R178. -/
def Obligations.TileCompareAndSelect : Prop :=
  ∀ (s : State) (f : TileFields) (c : Nat) (rs : List (BitVec 5)) (b : Nat → Nat → Nat),
    Alone s → c = f.fmt1.toNat →
    rs = (if f.sBit then [f.ta] else [f.ta, f.tb]) → (∀ r ∈ rs, TileOk s r c) →
    b = (fun r k => if f.sBit then (s.ctx.getG f.gs).toNat % 2 ^ fmtWidth c else (s.ctx.tile f.tb).get r k) →
    (Issues s (.tcmp f) f → TileOk s f.td 0x13 → ∀ v : Nat → Nat → Bool × FlagSet,
      v = (fun r k => elemRel c f.rel.toNat ((s.ctx.tile f.ta).get r k) (b r k)) →
      ∃ u, exec (.tcmp f) s = .next (State.ran s (.tcmp f) (TileFields.words f) { s.ctx.setTile f.td u with
            fcsr := s.ctx.fcsr ||| flagsOf (rowsOf s (f.td :: rs)) (colsOf s (f.td :: rs)) fun r k => (v r k).2 })
        ∧ Filled (s.ctx.tile f.td) u (rowsOf s (f.td :: rs)) (colsOf s (f.td :: rs))
          fun r k => if (v r k).1 then 1 else 0)
    ∧ (Issues s (.tsel f) f → TileOk s f.td c → TileOk s f.tc 0x13 →
      ∃ u, exec (.tsel f) s = .next (State.ran s (.tsel f) (TileFields.words f) (s.ctx.setTile f.td u))
        ∧ Filled (s.ctx.tile f.td) u (rowsOf s (f.td :: (rs ++ [f.tc]))) (colsOf s (f.td :: (rs ++ [f.tc])))
          fun r k => if (s.ctx.tile f.tc).get r k = 1 then (s.ctx.tile f.ta).get r k else b r k)

/-- Integer elements. R71, R174, Table 08-3. -/
def Obligations.IntegerElements : Prop :=
  ∀ (c m a b d w : Nat), c ∈ [0x09, 0x0A, 0x0B, 0x0C, 0x0D, 0x0E, 0x0F, 0x14, 0x15] → w = fmtWidth c → a < 2 ^ w → b < 2 ^ w → d < 2 ^ w →
    elemAdd c m false a b d = ((a + b) % 2 ^ w, 0) ∧ elemSub c m false a b d = ((a + 2 ^ w - b) % 2 ^ w, 0)
    ∧ elemMul c m false a b d = (a * b % 2 ^ w, 0) ∧ elemFma c m false a b d = ((a * b + d) % 2 ^ w, 0)
    ∧ elemNeg c m false a b d = ((2 ^ w - a) % 2 ^ w, 0)
    ∧ (fmtSigned c = false →
      elemAdd c m true a b d = (min (a + b) (2 ^ w - 1), if a + b < 2 ^ w then 0 else FlagSet.sat)
      ∧ elemSub c m true a b d = (a - b, if b ≤ a then 0 else FlagSet.sat)
      ∧ elemMinMax true c m false a b d = (max a b, 0) ∧ elemMinMax false c m false a b d = (min a b, 0)
      ∧ elemDiv c m false a b d = (if b = 0 then 2 ^ w - 1 else a / b, 0)
      ∧ elemRem c m false a b d = (if b = 0 then a else a % b, 0))
    ∧ elemAnd c m false a b d = (a &&& b, 0) ∧ elemAndn c m false a b d = (a &&& (2 ^ w - 1 - b), 0)
    ∧ elemSll c m false a b d = (a * 2 ^ (b % w) % 2 ^ w, 0) ∧ elemSrl c m false a b d = (a / 2 ^ (b % w), 0)

/-- tshape, tview, tfree and setx. R166 to R169, R41 to R45. -/
def Obligations.TileShapes : Prop :=
  (∀ (s : State) (f : TileFields) (w : BitVec 64) (o : Tile), Alone s → s.ctx.getP f.p ≠ f.negp → Safety.Named s f.td →
      o = s.ctx.tile f.td →
      w = (if f.md.getLsbD 1 then f.shapeImm.setWidth 64 else s.ctx.getG f.gs) →
      (∀ (zf : Bool) (r : Sr), r = Sr.ofWord w s.ctx.tsc zf → r.al = true ∧ r.zf = zf
          ∧ r.extractLsb' 0 39 = w.extractLsb' 0 39
          ∧ r.ill = (Sr.isIll (w &&& 0x7FFFFFFFFF#64) s.ctx.tsc || w.extractLsb' 39 25 != 0))
      ∧ exec (.tshape f) s = .next (State.ran s (.tshape f) (TileFields.words f)
          (s.ctx.setTile f.td { sr := Sr.ofWord w s.ctx.tsc true, slot := 0 }))
      ∧ exec (.tshapeKeep f) s = .next (State.ran s (.tshapeKeep f) (TileFields.words f)
          (s.ctx.setTile f.td { sr := Sr.ofWord w s.ctx.tsc (!o.sr.al || o.sr.zf), slot := if o.sr.al then o.slot else 0 }))
      ∧ (Safety.Named s f.ta → (s.ctx.tile f.ta).sr.al = true → (s.ctx.tile f.ta).sr.ill = false →
        exec (.tview f) s = .next (State.ran s (.tview f) (TileFields.words f)
          (s.ctx.setTile f.td { sr := Sr.ofWord w s.ctx.tsc (s.ctx.tile f.ta).sr.zf, slot := (s.ctx.tile f.ta).slot })))
      ∧ exec (.tfree f) s = .next (State.ran s (.tfree f) (TileFields.words f) (s.ctx.setTile f.td {})))
  ∧ (∀ (s : State) (f : TileFields) (r k : Nat), Alone s → s.ctx.getP f.p ≠ f.negp → Safety.Named s f.ta →
      (s.ctx.tile f.ta).sr.al = true → (s.ctx.tile f.ta).sr.ill = false →
      r = (if (s.ctx.getG f.tb).toInt < 1 then 1 else min (s.ctx.getG f.tb).toNat (s.ctx.tile f.ta).sr.rows) →
      k = (if (s.ctx.getG f.tc).toInt < 1 then 1 else min (s.ctx.getG f.tc).toNat (s.ctx.tile f.ta).sr.cols) →
      ∃ g, exec (.setx f) s = .next (State.ran s (.setx f) (TileFields.words f)
          { s.ctx with g := g, xr := BitVec.ofNat 9 r, xc := BitVec.ofNat 11 k })
        ∧ ∀ x, ({ s.ctx with g := g } : Ctx).getG x
            = if x = 0 then 0 else if x = f.td then BitVec.ofNat 64 (k * 65536 + r) else s.ctx.getG x)

/-- tseq and tfill. R170 for its values and flags, R171 whole. -/
def Obligations.TileFills : Prop :=
  (∀ (s : State) (f : TileFields) (er ec : Nat) (v : Nat → Nat → Res), Alone s → s.ctx.getP f.p ≠ f.negp →
      TileOk s f.td f.fmt1.toNat → er = rowsOf s [f.td] → ec = colsOf s [f.td] →
      v = (fun r k =>
        let e := r * s.ctx.xc.toNat + k
        if fmtIsInt f.fmt1.toNat || f.fmt1.toNat == 0x13 then
          convert f.fmt1.toNat f.rm.toNat f.sat (.int ((s.ctx.getG f.gs).toInt + e * (s.ctx.getG f.tb).toInt))
        else
          let p := mulV (.fin false e 0 false) (decodeFp (fpOf 0) (s.ctx.getG f.tb).toNat)
          let q := sumV f.rm.toNat [decodeFp (fpOf 0) (s.ctx.getG f.gs).toNat, p.1]
          let d := convert f.fmt1.toNat f.rm.toNat f.sat (.flt q.1)
          (d.1, d.2 ||| p.2 ||| q.2)) →
      ∃ u, exec (.tseq f) s = .next (State.ran s (.tseq f) (TileFields.words f)
            { s.ctx.setTile f.td u with fcsr := s.ctx.fcsr ||| flagsOf er ec fun r k => (v r k).2 })
          ∧ Filled (s.ctx.tile f.td) u er ec fun r k => (v r k).1)
  ∧ (∀ (s : State) (f : TileFields), Alone s → s.ctx.getP f.p ≠ f.negp → TileOk s f.td f.fmt1.toNat →
      ∃ u, exec (.tfill f) s = .next (State.ran s (.tfill f) (TileFields.words f) (s.ctx.setTile f.td u))
          ∧ Filled (s.ctx.tile f.td) u (rowsOf s [f.td]) (colsOf s [f.td]) fun _ _ => (s.ctx.getG f.gs).toNat)

/-- tmov, ttr, tperm, tslide and tbcast. R172, R185 to R187 for operands that they accept; R173 whole. -/
def Obligations.TileMoves : Prop :=
  (∀ (s : State) (f : TileFields) (a d : Tile) (er ec : Nat), Alone s → s.ctx.getP f.p ≠ f.negp →
      a = s.ctx.tile f.ta → d = s.ctx.tile f.td → er = rowsOf s [f.td, f.ta] → ec = colsOf s [f.td, f.ta] →
      (Safety.MovOk s f.ta → Safety.MovOk s f.td → a.sr.fmt = d.sr.fmt → a.sr.planesM1 = d.sr.planesM1 →
        (a.sr.layout = 2 ↔ d.sr.layout = 2) →
        ∃ u, exec (.tmov f) s = .next (State.ran s (.tmov f) (TileFields.words f) (s.ctx.setTile f.td u))
          ∧ u.sr = d.sr.written ∧ ∀ r c, r < d.sr.rows → c < d.sr.cols →
            u.get r c = if r < er ∧ c < ec then a.get r c else d.get r c)
      ∧ (TileOk s f.ta a.sr.fmt → TileOk s f.td a.sr.fmt →
        ∃ u, exec (.ttr f) s = .next (State.ran s (.ttr f) (TileFields.words f) (s.ctx.setTile f.td u))
          ∧ Filled d u (min s.ctx.xc.toNat (min a.sr.cols d.sr.rows)) (min s.ctx.xr.toNat (min a.sr.rows d.sr.cols))
            fun c r => a.get r c))
  ∧ (∀ (s : State) (f : TileFields) (a x d : Tile) (er ec : Nat) (k : Int), Alone s → s.ctx.getP f.p ≠ f.negp →
      a = s.ctx.tile f.ta → x = s.ctx.tile f.tb → d = s.ctx.tile f.td → TileOk s f.ta a.sr.fmt → TileOk s f.td a.sr.fmt →
      er = rowsOf s [f.td, f.ta] → ec = colsOf s [f.td, f.ta] →
      k = (if f.md.getLsbD 0 then (s.ctx.getG f.gs).toInt else f.imm.toInt) →
      (TileOk s f.tb x.sr.fmt → (x.sr.fmt = 0x14 ∨ x.sr.fmt = 0x15) →
        ∃ u, exec (.tperm f) s = .next (State.ran s (.tperm f) (TileFields.words f) (s.ctx.setTile f.td u))
          ∧ Filled d u (rowsOf s [f.td, f.tb]) (colsOf s [f.td, f.tb]) fun r c =>
              if f.imm.getLsbD 10 then (if r < a.sr.rows ∧ x.get r c < a.sr.cols then a.get r (x.get r c) else 0)
              else if x.get r c < a.sr.rows * a.sr.cols
                then a.get (x.get r c / a.sr.cols) (x.get r c % a.sr.cols) else 0)
      ∧ (∃ u, exec (.tslide f) s = .next (State.ran s (.tslide f) (TileFields.words f) (s.ctx.setTile f.td u))
          ∧ Filled d u er ec fun r c =>
              if f.md.getLsbD 2 then
                (if f.md.getLsbD 1 then a.get ((r - k) % er).toNat c else a.get r ((c - k) % ec).toNat)
              else if f.md.getLsbD 1 then (if 0 ≤ r - k ∧ r - k < er then a.get (r - k).toNat c else 0)
              else if 0 ≤ c - k ∧ c - k < ec then a.get r (c - k).toNat else 0)
      ∧ ((f.md.extractLsb' 0 2).toNat ≤ 2 → ∀ n, n = (s.ctx.getG f.gs).toNat →
        ∃ u, exec (.tbcast f) s = .next (State.ran s (.tbcast f) (TileFields.words f) (s.ctx.setTile f.td u))
          ∧ Filled d u er ec fun r c =>
              if (f.md.extractLsb' 0 2).toNat = 0 then (if n < a.sr.rows then a.get n c else 0)
              else if (f.md.extractLsb' 0 2).toNat = 1 then (if n < a.sr.cols then a.get r n else 0)
              else if n < a.sr.rows * a.sr.cols then a.get (n / a.sr.cols) (n % a.sr.cols) else 0))

/-- tred and tscan. R183, R184. -/
def Obligations.TileReductions : Prop :=
  (∀ (s : State) (f : TileFields) (o : RedOp) (a d : Tile), Alone s →
      a = s.ctx.tile f.ta → d = s.ctx.tile f.td → TileOk s f.ta f.fmt2.toNat → TileOk s f.td f.fmt1.toNat →
      f.dir.toNat ≤ 2 →
      o = { op := f.redOp.toNat, sf := f.fmt2.toNat, df := f.fmt1.toNat, mode := f.rm.toNat, sat := f.sat } →
      (∀ er ec, Issues s (.tred f) f → er = rowsOf s [f.ta] → ec = colsOf s [f.ta] →
        (f.dir.toNat = 0 → er ≤ d.sr.rows) → (f.dir.toNat = 1 → ec ≤ d.sr.cols) →
        ∃ u fl, exec (.tred f) s = .next (State.ran s (.tred f) (TileFields.words f)
            { s.ctx.setTile f.td u with fcsr := s.ctx.fcsr ||| fl })
          ∧ fl = (redLines f.dir.toNat er ec).foldl (fun x l => x ||| (o.reduce (l.map fun q => a.get q.1 q.2)).2) 0
          ∧ (f.dir.toNat = 0 → Filled d u er 1 fun r _ => (o.reduce ((List.range ec).map fun c => a.get r c)).1)
          ∧ (f.dir.toNat = 1 → Filled d u 1 ec fun _ c => (o.reduce ((List.range er).map fun r => a.get r c)).1)
          ∧ (f.dir.toNat = 2 → Filled d u 1 1 fun _ _ => (o.reduce ((extent er ec).map fun q => a.get q.1 q.2)).1))
      ∧ (∀ er ec, Issues s (.tscan f) f → er = rowsOf s [f.td, f.ta] → ec = colsOf s [f.td, f.ta] →
        ∃ u fl, exec (.tscan f) s = .next (State.ran s (.tscan f) (TileFields.words f)
            { s.ctx.setTile f.td u with fcsr := s.ctx.fcsr ||| fl })
          ∧ fl = (redLines f.dir.toNat er ec).foldl (fun x l =>
              ((o.outputs (f.imm.getLsbD 15) (l.map fun q => a.get q.1 q.2)).foldl (fun y r => y ||| r.2) x)) 0
          ∧ Filled d u er ec fun r c =>
              if f.dir.toNat = 0 then
                ((o.outputs (f.imm.getLsbD 15) ((List.range ec).map fun c => a.get r c)).getD c (0, 0)).1
              else if f.dir.toNat = 1 then
                ((o.outputs (f.imm.getLsbD 15) ((List.range er).map fun r => a.get r c)).getD r (0, 0)).1
              else ((o.outputs (f.imm.getLsbD 15) ((extent er ec).map fun q => a.get q.1 q.2)).getD (r * ec + c) (0, 0)).1))
  ∧ (∀ (o : RedOp) (xs : List Nat), o.op = 0 → fmtIsInt o.df = true → o.sat = false →
      o.reduce xs = (((xs.map o.ival).sum % 2 ^ fmtWidth o.df).toNat, 0))

/-- tcvt, tquant and tdequant. R179 to R182, R65, R66, over convertTo, sparseRecord and quantBlock. -/
def Obligations.TileConversions : Prop :=
  (∀ (s : State) (f : TileFields) (a d : Tile) (er ec : Nat) (x : Nat → Nat → Src),
      Alone s → s.ctx.getP f.p ≠ f.negp → a = s.ctx.tile f.ta → d = s.ctx.tile f.td →
      OpndOk s f.ta f.fmt2.toNat [0, 1, 2, 3] → Unscaled s f.ta → Unscaled s f.td →
      er = rowsOf s [f.td, f.ta] → ec = colsOf s [f.td, f.ta] → x = cvtSrc a f.sBit →
      (OpndOk s f.td f.fmt1.toNat [0, 1, 2] → f.rm.toNat ≠ 5 →
        ∃ u, exec (.tcvt f) s = .next (State.ran s (.tcvt f) (TileFields.words f) { s.ctx.setTile f.td u with
              fcsr := s.ctx.fcsr ||| flagsOf er ec fun r k => (convertTo d.sr f.sBit f.rm.toNat f.sat (x r k)).2 })
          ∧ Filled d u er ec fun r k => (convertTo d.sr f.sBit f.rm.toNat f.sat (x r k)).1)
      ∧ (OpndOk s f.td f.fmt1.toNat [0, 1] → f.rm.toNat = 5 → ∀ ch,
        ch = efChain f.fmt1.toNat f.sat (efStart s.ctx.efc)
          ((extent er ec).map fun p => (cvtSrc a false p.1 p.2).val) →
        ∃ u, exec (.tcvt f) s = .next (State.ran s (.tcvt f) (TileFields.words f) { s.ctx.setTile f.td u with
              efc := BitVec.ofNat 32 ((ch.getLast?.map fun q => q.2.2).getD (efStart s.ctx.efc))
              fcsr := s.ctx.fcsr ||| ch.foldl (fun fl q => fl ||| q.2.1) 0 })
          ∧ Filled d u er ec fun r k => (ch.getD (r * ec + k) (0, 0, 0)).1)
      ∧ (OpndOk s f.td f.fmt1.toNat [3] → f.rm.toNat ≠ 5 → ec % 12 = 0 → ∃ u fl,
        exec (.tcvt f) s = .next (State.ran s (.tcvt f) (TileFields.words f)
            { s.ctx.setTile f.td u with fcsr := s.ctx.fcsr ||| fl })
          ∧ u.sr = d.sr.written
          ∧ fl = flagsOf er (ec / 12) (fun r g => (sparseRecord f a d.sr r g).2)
          ∧ ∀ r g, r < d.sr.rows → g < d.sr.cols / 12 →
              getBits u.slot (8 * ((r * (d.sr.cols / 12) + g) * (d.sr.sparseV + 2))) (8 * (d.sr.sparseV + 2))
                = if r < er ∧ g < ec / 12 then (sparseRecord f a d.sr r g).1 % 2 ^ (8 * (d.sr.sparseV + 2))
                  else getBits d.slot (8 * ((r * (d.sr.cols / 12) + g) * (d.sr.sparseV + 2))) (8 * (d.sr.sparseV + 2))))
  ∧ (∀ (s : State) (f : TileFields) (a d : Tile) (er ec : Nat), Alone s → s.ctx.getP f.p ≠ f.negp →
      a = s.ctx.tile f.ta → d = s.ctx.tile f.td → er = rowsOf s [f.td, f.ta] → ec = colsOf s [f.td, f.ta] →
      (TileOk s f.ta f.fmt2.toNat → OpndOk s f.td f.fmt1.toNat [0, 1] → Scaled s f.td → d.sr.stile ≠ f.td →
        ∀ (sc : Tile) (q : Nat → Nat → Nat × List Nat × FlagSet) (ni nj : Nat), sc = s.ctx.tile d.sr.stile →
        q = (fun i j => quantBlock f.fmt1.toNat sc.sr.fmt f.rm.toNat
          ((blockPositions d.sr er ec i j).map fun x => a.val x.1 x.2)) →
        ni = (if d.sr.layout = 1 then ceilDiv er d.sr.blk else er) →
        nj = (if d.sr.layout = 1 then ec else ceilDiv ec d.sr.blk) →
        ∃ u v, exec (.tquant f) s = .next (State.ran s (.tquant f) (TileFields.words f)
            { (s.ctx.setTile f.td u).setTile d.sr.stile v with
              fcsr := s.ctx.fcsr ||| flagsOf ni nj fun i j => (q i j).2.2 })
          ∧ Filled sc v ni nj (fun i j => (q i j).1)
          ∧ Filled d u er ec fun r k =>
              if d.sr.layout = 1 then ((q (r / d.sr.blk) k).2.1).getD (r % d.sr.blk) 0
              else ((q r (k / d.sr.blk)).2.1).getD (k % d.sr.blk) 0)
      ∧ (OpndOk s f.ta f.fmt2.toNat [0, 1, 3] → Scaled s f.ta → TileOk s f.td f.fmt1.toNat →
        ∀ (v : Nat → Nat → Res),
        v = (fun r k =>
          let p := mulV (cvtSrc a false r k).val (a.scaleOf (s.ctx.tile a.sr.stile) r k)
          let q := convert f.fmt1.toNat f.rm.toNat f.sat (.flt p.1)
          (q.1, q.2 ||| p.2)) →
        ∃ u, exec (.tdequant f) s = .next (State.ran s (.tdequant f) (TileFields.words f)
            { s.ctx.setTile f.td u with fcsr := s.ctx.fcsr ||| flagsOf er ec fun r k => (v r k).2 })
          ∧ Filled d u er ec fun r k => (v r k).1))

/-- mma, mmas, mmsp and mmb. R217 to R223 over prodElem, with dense, block-scaled, sparse-12 and bit-plane terms. -/
def Obligations.MatrixProducts : Prop :=
  ∀ (s : State) (f : TileFields) (a b : Tile) (sa sb : Tile) (ta tb : Bool) (m n k kb : Nat), Alone s →
    a = s.ctx.tile f.ta → b = s.ctx.tile f.tb → sa = s.ctx.tile a.sr.stile → sb = s.ctx.tile b.sr.stile →
    ta = f.imm.getLsbD 10 → tb = f.imm.getLsbD 11 → n = (if tb then b.sr.rows else b.sr.cols) →
    kb = (if tb then b.sr.cols else b.sr.rows) → n ≤ 128 →
    (f.drain = true → TileOk s f.tc (s.ctx.tile f.tc).sr.fmt) →
    ((ta = true → m = a.sr.cols ∧ k = a.sr.rows) → (ta = false → m = a.sr.rows ∧ k = a.sr.cols) → m ≤ 128 → k = kb →
      (Issues s (.mma f) f → TileOk s f.ta f.fmt1.toNat → TileOk s f.tb f.fmt2.toNat →
        Multiplies s (.mma f) f (TileFields.mmaInt f.fmt1) m n k
          (fun i x => if ta then denseTerm a false x i else denseTerm a false i x)
          (fun x j => if tb then denseTerm b false j x else denseTerm b false x j))
      ∧ (Issues s (.mmas f) f → OpndOk s f.ta f.fmt1.toNat [if ta then 1 else 0] →
        OpndOk s f.tb f.fmt2.toNat [if tb then 0 else 1] → Scaled s f.ta → Scaled s f.tb →
        Multiplies s (.mmas f) f false m n k
          (fun i x => if ta then scaledTerm a sa x i else scaledTerm a sa i x)
          (fun x j => if tb then scaledTerm b sb j x else scaledTerm b sb x j))
      ∧ (Issues s (.mmb f) f → OpndOk s f.ta 0x12 [2] → OpndOk s f.tb 0x12 [2] → Unscaled s f.ta → Unscaled s f.tb →
        Multiplies s (.mmb f) f true m n k
          (fun i x => if ta then denseTerm a (f.imm.getLsbD 0) x i else denseTerm a (f.imm.getLsbD 0) i x)
          (fun x j => if tb then denseTerm b (f.imm.getLsbD 1) j x else denseTerm b (f.imm.getLsbD 1) x j)))
    ∧ (m = a.sr.rows → k = a.sr.cols → m ≤ 128 → k = kb → Issues s (.mmsp f) f → OpndOk s f.ta f.fmt1.toNat [3] →
      (Unscaled s f.ta → TileOk s f.tb f.fmt2.toNat →
        Multiplies s (.mmsp f) f (TileFields.mmaInt f.fmt1) m n k (sparseTerm a sa ta)
          (fun x j => if tb then scaledTerm b sb j x else scaledTerm b sb x j))
      ∧ (Scaled s f.ta → OpndOk s f.tb f.fmt2.toNat [if tb then 0 else 1] → Scaled s f.tb →
        Multiplies s (.mmsp f) f false m n k (sparseTerm a sa ta)
          (fun x j => if tb then scaledTerm b sb j x else scaledTerm b sb x j)))

/-- mzero, mfill, mdrain, mrow and mcol. R225 and R226 for operands that they accept, R224 and R227 whole. -/
def Obligations.AccumulatorMoves : Prop :=
  (∀ (s : State) (f : TileFields) (old : Nat), Alone s → s.ctx.getP f.p ≠ f.negp → old = s.ctx.getAcc f.td →
      exec (.mzero f) s = .next (State.ran s (.mzero f) (TileFields.words f) (s.ctx.setAcc f.td 0))
      ∧ (f.sBit = true → ∃ m,
        exec (.mfill f) s = .next (State.ran s (.mfill f) (TileFields.words f) (s.ctx.setAcc f.td m))
        ∧ ∀ r c, r < 128 → c < 128 → accGet m r c =
            if r < s.ctx.xr.toNat ∧ c < s.ctx.xc.toNat then (s.ctx.getG f.gs).toNat % 2 ^ 32 else accGet old r c)
      ∧ (∀ c, f.sBit = false → c ∈ [0x01, 0x0A, 0x14] → TileOk s f.ta c → ∃ m,
        exec (.mfill f) s = .next (State.ran s (.mfill f) (TileFields.words f) (s.ctx.setAcc f.td m))
        ∧ ∀ r c, r < 128 → c < 128 → accGet m r c =
            if r < rowsOf s [f.ta] ∧ c < colsOf s [f.ta] then (s.ctx.tile f.ta).get r c % 2 ^ 32 else accGet old r c)
      ∧ (TileOk s f.td f.fmt1.toNat → ∀ (e : Nat → Nat → Res) (g : Nat),
        g = (s.ctx.getG f.gs).toNat →
        e = (fun r c => if 128 ≤ r ∨ 128 ≤ c then (0, 0)
          else if f.imm.getLsbD 11 then (accGet (s.ctx.getAcc f.ta) r c, 0)
          else drainConv f.fmt1.toNat f.rm.toNat f.sat (f.imm.getLsbD 10) (accGet (s.ctx.getAcc f.ta) r c)) →
        (∃ u, exec (.mdrain f) s = .next (State.ran s (.mdrain f) (TileFields.words f) { s.ctx.setTile f.td u with
              fcsr := s.ctx.fcsr ||| flagsOf (min (rowsOf s [f.td]) 128) (min (colsOf s [f.td]) 128) fun r c => (e r c).2 })
          ∧ Filled (s.ctx.tile f.td) u (min (rowsOf s [f.td]) 128) (min (colsOf s [f.td]) 128) fun r c => (e r c).1)
        ∧ (∃ u, exec (.mrow f) s = .next (State.ran s (.mrow f) (TileFields.words f) { s.ctx.setTile f.td u with
              fcsr := s.ctx.fcsr ||| flagsOf (rowsOf s [f.td]) (min (colsOf s [f.td]) 128) fun r c => (e (g + r) c).2 })
          ∧ Filled (s.ctx.tile f.td) u (rowsOf s [f.td]) (min (colsOf s [f.td]) 128) fun r c => (e (g + r) c).1)
        ∧ (∃ u, exec (.mcol f) s = .next (State.ran s (.mcol f) (TileFields.words f) { s.ctx.setTile f.td u with
              fcsr := s.ctx.fcsr ||| flagsOf (rowsOf s [f.td]) (min (colsOf s [f.td]) 128) fun r c => (e c (g + r)).2 })
          ∧ Filled (s.ctx.tile f.td) u (rowsOf s [f.td]) (min (colsOf s [f.td]) 128) fun r c => (e c (g + r)).1)))
  ∧ (∀ (s t : State) (f g : TileFields) (c : Nat), Alone s → s.ctx.getP f.p ≠ f.negp → s.ctx.getP g.p ≠ g.negp →
      c ∈ [0x01, 0x0A, 0x14] → f.fmt1.toNat = c → TileOk s f.td c → (s.ctx.tile f.td).sr.rows = 128 →
      128 ≤ (s.ctx.tile f.td).sr.cols → 128 ≤ s.ctx.xr.toNat → 128 ≤ s.ctx.xc.toNat → f.imm.getLsbD 11 = true →
      g.sBit = false → g.ta = f.td → exec (.mdrain f) s = .next t →
      ∃ u, exec (.mfill g) t = .next u
        ∧ ∀ i j, i < 128 → j < 128 → accGet (u.ctx.getAcc g.td) i j = accGet (s.ctx.getAcc f.ta) i j)

/-- Floating-point lane instructions. R197 to R203, Table 09-3, on the lane group in progress
(notes/assumptions/15.md). -/
def Obligations.LaneFloat : Prop :=
  (∀ (s : State) (f : LaneFields) (c : Nat), f.rm.toNat < 5 →
      (c = 0x00 → f.ld.getLsbD 0 = false ∧ f.la.getLsbD 0 = false ∧ f.lb.getLsbD 0 = false) →
      (∀ (i : LaneFields → Instr) (op : Val → Val → Val × FlagSet),
        (c, i, op) ∈ [(0x01, Instr.lfadd, fun x y => sumV f.rm.toNat [x, y]),
          (0x01, .lfsub, fun x y => sumV f.rm.toNat [x, y.negate]), (0x01, .lfmul, mulV),
          (0x01, .lfmin, minMaxV false), (0x01, .lfmax, minMaxV true),
          (0x00, .ldadd, fun x y => sumV f.rm.toNat [x, y]), (0x00, .ldsub, fun x y => sumV f.rm.toNat [x, y.negate]),
          (0x00, .ldmul, mulV)] →
        LanesDo (exec (i f) s) s fun l u =>
          let p := op (lval c l f.la) (lval c l f.lb)
          let r := deliver c f.rm.toNat false p.1
          (Acts f l → PutsL (fmtWidth c) l u f.ld r.1 (r.2 ||| p.2)) ∧ (¬ Acts f l → u = l))
      ∧ (∀ i : LaneFields → Instr, (c, i) ∈ [(0x01, Instr.lffma), (0x00, .ldfma)] →
        (c = 0x00 → f.k.getLsbD 0 = false) →
        LanesDo (exec (i f) s) s fun l u =>
          let p := fmaV f.rm.toNat (lval c l f.la) (lval c l f.lb) (lval c l f.k)
          let r := deliver c f.rm.toNat false p.1
          (Live l → PutsL (fmtWidth c) l u f.ld r.1 (r.2 ||| p.2)) ∧ (¬ Live l → u = l)))
  ∧ (∀ (s : State) (f : LaneFields) (i : LaneFields → Instr) (fn : Nat),
      (i, fn) ∈ [(Instr.lrcp, 0), (.lrsqrt, 1), (.lsqrt, 2), (.lexp2, 3), (.llog2, 4), (.ltanh, 5)] →
      LanesDo (exec (i f) s) s fun l u => (Acts f l → ∀ r, r = transc fn 0x01 f.rm.toNat (l.get f.la) →
        PutsL 32 l u f.ld r.1 r.2) ∧ (¬ Acts f l → u = l))
  ∧ (∀ (s : State) (f : LaneFields) (c d : Nat), c = f.lcvtS.toNat → d = f.lcvtD.toNat → fmtWidth c ≤ 64 → fmtWidth d ≤ 64 →
      (fmtWidth d = 64 → f.ld.getLsbD 0 = false) → (fmtWidth c = 64 → f.la.getLsbD 0 = false) →
      LanesDo (exec (.lcvt f) s) s fun l u => (Acts f l → ∀ r,
        r = convert d f.rm.toNat (f.imm.getLsbD 13) (decodeElem c (lword (fmtWidth c) l f.la % 2 ^ fmtWidth c)) →
        PutsL (fmtWidth d) l u f.ld r.1 r.2) ∧ (¬ Acts f l → u = l))

/-- Integer, comparison and predicate lane instructions. R198 to R204. -/
def Obligations.LaneIntegers : Prop :=
  (∀ (s : State) (f : LaneFields) (i : LaneFields → Instr) (op : BitVec 32 → BitVec 32 → BitVec 32),
      (i, op) ∈ [(Instr.lfabs, fun x _ => x &&& 0x7FFFFFFF), (.lfneg, fun x _ => x ^^^ 0x80000000),
        (.liadd, fun x y => x + y), (.lisub, fun x y => x - y), (.limul, fun x y => x * y),
        (.limulh, fun x y => if f.imm.getLsbD 0 then BitVec.ofNat 32 (x.toNat * y.toNat / 2 ^ 32)
          else BitVec.ofInt 32 (x.toInt * y.toInt / 2 ^ 32)),
        (.lmin, fun x y => if y.slt x then y else x), (.lmax, fun x y => if x.slt y then y else x),
        (.lminn, fun x y => if y.ult x then y else x), (.lmaxn, fun x y => if x.ult y then y else x),
        (.lband, fun x y => x &&& y), (.lbor, fun x y => x ||| y), (.lbxor, fun x y => x ^^^ y),
        (.lsll, fun x y => x <<< (y.toNat % 32)), (.lsrl, fun x y => x >>> (y.toNat % 32)),
        (.lsra, fun x y => x.sshiftRight (y.toNat % 32)), (.lmov, fun x _ => x),
        (.lmovi, fun _ _ => f.imm.setWidth 32)] →
      LanesDo (exec (i f) s) s fun l u =>
        (Acts f l → PutsL 32 l u f.ld (op (BitVec.ofNat 32 (l.get f.la)) (BitVec.ofNat 32 (l.get f.lb))).toNat 0)
        ∧ (¬ Acts f l → u = l))
  ∧ (∀ (s : State) (f : LaneFields) (c : Nat), f.ld.toNat < 8 →
      (c = 0x00 → f.la.getLsbD 0 = false ∧ f.lb.getLsbD 0 = false) →
      (∀ i : LaneFields → Instr, f.rm.toNat < 6 → (c, i) ∈ [(0x01, Instr.lfcmp), (0x00, .ldcmp)] →
        LanesDo (exec (i f) s) s fun l u =>
          let p := fcmpV f.rm.toNat (lval c l f.la) (lval c l f.lb)
          (Acts f l → PutsK l u (f.ld.setWidth 3) p.1 p.2) ∧ (¬ Acts f l → u = l))
      ∧ (∀ n, n = (f.imm.setWidth 4).toNat → n < 10 → LanesDo (exec (.licmp f) s) s fun l u =>
          (Acts f l → PutsK l u (f.ld.setWidth 3)
            (Safety.relation n (BitVec.ofInt 64 (BitVec.ofNat 32 (l.get f.la)).toInt)
              (BitVec.ofInt 64 (BitVec.ofNat 32 (l.get f.lb)).toInt)) 0) ∧ (¬ Acts f l → u = l))
      ∧ (f.rm.toNat < 6 → f.la.toNat < 8 ∨ f.rm.toNat = 5 → f.lb.toNat < 8 → LanesDo (exec (.lkop f) s) s fun l u =>
          (Acts f l → ∀ a b, a = l.getK (f.la.setWidth 3) → b = l.getK (f.lb.setWidth 3) →
            PutsK l u (f.ld.setWidth 3) (if f.rm.toNat = 0 then a && b else if f.rm.toNat = 1 then a || b
              else if f.rm.toNat = 2 then a != b else if f.rm.toNat = 3 then a && !b else if f.rm.toNat = 4 then !a
              else l.get f.la != 0) 0) ∧ (¬ Acts f l → u = l)))

/-- Lane selection, elements and terminators. R198, R203, R205 to R208, R210. -/
def Obligations.LaneData : Prop :=
  (∀ (s : State) (f : LaneFields),
      LanesDo (exec (.lsel f) s) s (fun l u =>
        (Acts f l → PutsL 32 l u f.ld (if l.getK f.rm != f.imm.getLsbD 3 then l.get f.la else l.get f.lb) 0)
        ∧ (¬ Acts f l → u = l))
      ∧ (f.rm.toNat < 7 → LanesDo (exec (.lidx f) s) s fun l u =>
        (Acts f l → PutsL 32 l u f.ld ([l.row, l.col, l.e, (s.call.arg.setWidth 32).toNat, (s.call.arg >>> 32).toNat,
          l.lane, l.group].getD f.rm.toNat 0) 0) ∧ (¬ Acts f l → u = l)))
  ∧ (∀ (s : State) (f : LaneFields),
      (∀ (i : LaneFields → Instr) (k c : Nat) (fmts : List Nat) (elem : Lane → Nat) (raw ok : Bool),
        (i, k, fmts, elem, raw, ok) ∈ [(Instr.lrd, (f.imm.setWidth 2).toNat, s.call.inFmts,
            fun l => l.ins.getD (f.imm.setWidth 2).toNat 0, f.imm.getLsbD 2, true),
          (.lacc, (f.imm.setWidth 1).toNat, s.call.outFmts, fun l => l.olds.getD (f.imm.setWidth 1).toNat 0,
            f.imm.getLsbD 1, !s.call.isRed || f.imm.getLsbD 0)] → c = fmts.getD k 0 →
        LanesDo (exec (i f) s) s fun l u =>
          (Acts f l → k < fmts.length → ok = true → (fmtWidth c = 64 → f.ld.getLsbD 0 = false) → ∀ r,
            r = (if raw = true then (elem l, 0) else laneWiden c (elem l)) → PutsL (fmtWidth c) l u f.ld r.1 r.2)
          ∧ (Acts f l → (fmts.length ≤ k ∨ ok = false ∨ fmtWidth c = 64 ∧ f.ld.getLsbD 0 = true) →
            u = { l with trap := some .illegalField })
          ∧ (¬ Acts f l → u = l))
      ∧ (∀ (o c : Nat), o = (f.imm.setWidth 1).toNat → c = s.call.outFmts.getD o 0 → LanesDo (exec (.lwr f) s) s fun l u =>
          (Acts f l → o < s.call.outFmts.length → (fmtWidth c = 64 → f.la.getLsbD 0 = false) → ∀ x r,
            x = lword (fmtWidth c) l f.la →
            r = (if s.call.isRed = true ∧ o = 0 then (x % 2 ^ fmtWidth c, 0)
              else laneOut c (f.imm.extractLsb' 1 3).toNat (f.imm.getLsbD 4) (f.imm.getLsbD 5) x) →
            u = { l with flags := l.flags ||| r.2, outs := u.outs }
              ∧ ∀ k, u.outs[k]? = if k = o ∧ k < l.outs.length then some (some r.1) else l.outs[k]?)
          ∧ (Acts f l → (s.call.outFmts.length ≤ o ∨ fmtWidth c = 64 ∧ f.la.getLsbD 0 = true) →
            u = { l with trap := some .illegalField })
          ∧ (¬ Acts f l → u = l)))
  ∧ (∀ (s : State) (f : LaneFields),
      LanesDo (exec (.lnext f) s) s (fun l u =>
        (Live l → f.imm.getLsbD 8 = true → (BitVec.ofNat 4 (l.get f.la)).toNat < s.call.nblocks →
          u = { l with succ := some (BitVec.ofNat 4 (l.get f.la)).toNat })
        ∧ (Live l → f.imm.getLsbD 8 = true → s.call.nblocks ≤ (BitVec.ofNat 4 (l.get f.la)).toNat →
          u = { l with trap := some .illegalLaneBlock })
        ∧ (Acts f l → f.imm.getLsbD 8 = false → u = { l with succ := some (f.imm.setWidth 4).toNat })
        ∧ (Live l → ¬ Acts f l → f.imm.getLsbD 8 = false → u = { l with succ := some (f.imm.extractLsb' 4 4).toNat })
        ∧ (¬ Live l → u = l))
      ∧ LanesDo (exec (.lstop f) s) s fun l u => (Acts f l → u = { l with succ := none }) ∧ (¬ Acts f l → u = l))

/-- Scalar loads, stores and prefetch. R151 to R153, R268, R86; the entry is performed at its push on an eager machine
(notes/assumptions/3.md: the model's choice). -/
def Obligations.ScalarLoadsAndStores : Prop :=
  (∀ (s u p : State) (i : Instr) (g : BitVec 5) (a : BitVec 4) (z : BitVec 2) (o : BitVec 13) (x : Pfx) (off va : Addr)
      (n pa cls w : Nat) (v : Nat),
      Alone s → off = (match x with | none => o.signExtend 72 | some q => (q.setWidth 24 ++ o).signExtend 72) →
      w = (if x.isSome then 2 else 1) → va = s.ctx.getA a + off * BitVec.ofNat 72 n → p = State.pushed s i w →
      Reaches p { scalar := true, qual := Pfx.order x != 0 } va n pa cls u →
      v = (if cls = 3 ∧ u.target pa = .window then (u.winLoad pa n).toNat else u.rd pa n) →
      (i = .ld g a z o x → n = 2 ^ z.toNat → ∃ c, exec i s = .next (State.ran { u.fillData va n [(pa, n)] cls false with ctx := s.ctx } i w { s.ctx with g := c })
        ∧ ∀ r, ({ s.ctx with g := c } : Ctx).getG r = if r = 0 then 0 else if r = g then BitVec.ofNat 64 v else s.ctx.getG r)
      ∧ (i = .ldS g a z o x → z.toNat < 3 → n = 2 ^ z.toNat →
        ∃ c, exec i s = .next (State.ran { u.fillData va n [(pa, n)] cls false with ctx := s.ctx } i w { s.ctx with g := c })
        ∧ ∀ r, ({ s.ctx with g := c } : Ctx).getG r = if r = 0 then 0
            else if r = g then (BitVec.ofNat (8 * n) v).signExtend 64 else s.ctx.getG r)
      ∧ (i = .lda g a o x → n = 16 → g.toNat < 16 →
        (s.ctx.stackBad (g.setWidth 4) (BitVec.ofNat 72 v) = false →
          ∃ c, exec i s = .next (State.ran { u.fillData va n [(pa, n)] cls false with ctx := s.ctx } i w { s.ctx with a := c })
            ∧ ∀ r, ({ s.ctx with a := c } : Ctx).getA r = if r = g.setWidth 4 then BitVec.ofNat 72 v else s.ctx.getA r)
        ∧ (s.ctx.stackBad (g.setWidth 4) (BitVec.ofNat 72 v) = true → Stops (exec i s) s i .stackLimit none)))
  ∧ (∀ (s : State) (h : BitVec 5) (a : BitVec 4) (z : BitVec 2) (o : BitVec 13) (x : Pfx) (off : Addr) (w : Nat) (i : Instr),
      Alone s → i = .pref h a z o x →
      off = (match x with | none => o.signExtend 72 | some q => (q.setWidth 24 ++ o).signExtend 72) →
      w = (if x.isSome then 2 else 1) → ∀ (p u : State) (va : Addr), p = State.pushed s i w →
      va = s.ctx.getA a + off * BitVec.ofNat 72 (2 ^ z.toNat) →
      (p.translate s.ctx.asid va = (none, u) → exec i s = .next (State.ran s i w s.ctx))
      ∧ ∀ (l : Leaf) (pte size pa : Nat) (idle : Prop), p.translate s.ctx.asid va = (some (l, pte, size), u) →
        pa = leafPa l size va →
        idle = (2 ≤ l.cls
          ∨ l.cls = 0 ∧ (¬ ∃ k, p.governing s.ctx.asid l.tri va.toNat = some k ∧ s.ctx.ids.contains (p.tok k).holder = true
              ∧ ((p.tok k).state = tokHeld ∨ (p.tok k).state = tokShared))
          ∨ h = 1 ∧ p.target pa = .host ∨ p.isPoisoned (pa / 256 * 256) 256 = true) →
        (idle → exec i s = .next (State.ran s i w s.ctx))
        ∧ (¬ idle → exec i s = .next (State.ran { (if h = 1 then u.fillL2 pa
            else (u.fillL2 pa).fillData va 1 [(pa, 1)] l.cls false) with ctx := s.ctx } i w s.ctx)))
  ∧ (∀ (s u p : State) (i : Instr) (g : BitVec 5) (a : BitVec 4) (z : BitVec 2) (o : BitVec 13) (x : Pfx) (off va : Addr)
      (n pa cls w : Nat) (v : Nat),
      Alone s → off = (match x with | none => o.signExtend 72 | some q => (q.setWidth 24 ++ o).signExtend 72) →
      w = (if x.isSome then 2 else 1) → va = s.ctx.getA a + off * BitVec.ofNat 72 n → p = State.pushed s i w →
      Reaches p { write := true, scalar := true, qual := Pfx.order x != 0 } va n pa cls u →
      (i = .st g a z o x ∧ n = 2 ^ z.toNat ∧ v = (s.ctx.getG g).toNat % 2 ^ (8 * n)
        ∨ i = .sta g a o x ∧ n = 16 ∧ g.toNat < 16 ∧ v = (s.ctx.getA (g.setWidth 4)).toNat) →
      (∀ c, cls = 3 → u.target pa = .window → c = u.winStore pa n (BitVec.ofNat 64 v) → c.ctx = u.ctx →
        exec i s = .next (State.ran { c with ctx := s.ctx } i w s.ctx))
      ∧ (cls ≠ 3 ∨ u.target pa ≠ .window → ∃ t c, exec i s = .next t
        ∧ c = ((u.wr pa n v).clearPoison [(pa, n)]).commitDirty s.ctx.asid false (BitVec.ofNat 72 (va.toNat / 65536 * 65536))
        ∧ t.ctx = { s.ctx with pc := s.ctx.pc + BitVec.ofNat 72 (4 * w), retd := s.ctx.retd + 1
                               nextseq := s.ctx.nextseq + 1, tiq := [], performed := 0, partialDst := none, tes := 0
                               skipwp := false, wait := {}, sidefx := s.ctx.sidefx || cls != 3
                               crc := if s.ctx.inst.isSome then
                                   crcBytes (crcBytes s.ctx.crc (bytesOf 9 va.toNat)) (bytesOf n v)
                                 else s.ctx.crc }
        ∧ t.mem = c.mem ∧ (MemOk u → ∀ l pte size k,
          ((u.wr pa n v).clearPoison [(pa, n)]).translate s.ctx.asid (BitVec.ofNat 72 (va.toNat / 65536 * 65536))
            = (some (l, pte, size), k) → (pte + 8 ≤ pa ∨ pa + n ≤ pte) → t.rd pa n = v
          ∧ ∀ b, (b < pa ∨ pa + n ≤ b) → (b < pte ∨ pte + 8 ≤ b) → SameByte u t b)))

/-- A scalar access that fails its check stops the context. R151, R264, R266, R268, R358. -/
def Obligations.ScalarAccessFaults : Prop :=
  (∀ (s u p : State) (i : Instr) (g : BitVec 5) (a : BitVec 4) (z : BitVec 2) (o : BitVec 13) (x : Pfx) (off va : Addr)
      (n w : Nat) (acc : Acc) (c : Cause),
      Alone s → off = (match x with | none => o.signExtend 72 | some q => (q.setWidth 24 ++ o).signExtend 72) →
      w = (if x.isSome then 2 else 1) → va = s.ctx.getA a + off * BitVec.ofNat 72 n → p = State.pushed s i w →
      ((i = .ld g a z o x ∨ i = .ldS g a z o x) ∧ n = 2 ^ z.toNat ∧ acc.write = false
        ∨ i = .lda g a o x ∧ n = 16 ∧ acc.write = false
        ∨ i = .st g a z o x ∧ n = 2 ^ z.toNat ∧ acc.write = true ∨ i = .sta g a o x ∧ n = 16 ∧ acc.write = true) →
      acc = { acc with scalar := true, home := false, qual := Pfx.order x != 0, ord := false, watched := true, copy := false, agent := false } →
      va.toNat % n = 0 → p.watchMeets acc false va.toNat n = false →
      p.check s.ctx.asid s.ctx.ids acc va n = (.fault c, u) → Stops (exec i s) s i c (some va))
  ∧ (∀ (s t : State) (asid : BitVec 16) (ids : List Nat) (a : Acc) (va : Addr) (n pa cls : Nat), MemOk s → a.write = false →
      s.check asid ids a va n = (.ok pa cls, t) →
      ∃ pte, ∀ b, SameByte s t b ∨ b = pte ∧ Memory.read t.mem b = Memory.read s.mem b ||| 8)

/-- Tile loads. R232 to R244, R249, R268, over vaElems, gatherElems, csElems and loadVa. -/
def Obligations.TileLoads : Prop :=
  (∀ (s p : State) (i : Instr) (f : TileFields) (t u : Tile) (v : State) (base : Addr) (pitch : Int) (xs : List MElem),
      Alone s → Issues s i f → p = State.pushed s i (TileFields.words f) → ShapeOk s f.td → t = p.loadBase f.td →
      pitch = (if f.tb = 0 then (t.sr.densePitch : Int) else (s.ctx.getG f.tb).toInt) →
      (i = .tld f → base = s.ctx.getA f.as + ((s.ctx.getG f.gs).setWidth 72 <<< (f.md.extractLsb' 0 2).toNat)
          + BitVec.ofInt 72 f.offset →
        baseOff t.sr base pitch = false → xs = s.vaElems f.td t base pitch →
        loadVa (s.party (memAcc f false)) 1 putElem (s.fromTes xs) [] t p = .done u v →
        exec i s = .next (State.ran { v with ctx := s.ctx } i (TileFields.words f) (s.ctx.putTile f.td u)))
      ∧ (i = .tldm f → base = s.ctx.getA f.as + BitVec.ofInt 72 f.offset → (s.ctx.getG f.gs).extractLsb' 28 36 = 0 →
        baseOff t.sr base pitch = false → xs = s.vaElems f.td t base pitch →
        ((s.ctx.getG f.gs).getLsbD s.pairBit = false ∨ s.getSys s.die 0x838 = 0) →
        loadVa (s.party (memAcc f false)) 1 putElem (s.fromTes xs) [] t p = .done u v →
        exec i s = .next (State.ran { v with ctx := s.ctx } i (TileFields.words f) (s.ctx.putTile f.td u)))
      ∧ (∀ names, i = .tldg f → names = [f.td, f.tb] ++ (if f.md.getLsbD 3 then [f.tc] else []) →
        (∀ r ∈ names, TileOk s r (s.ctx.tile r).sr.fmt) → (f.md.getLsbD 3 = true → (s.ctx.tile f.tc).sr.fmt = 0x13) →
        gatherFmt (s.ctx.tile f.td).sr = true → (s.ctx.tile f.tb).sr.fmt ∈ [0x09, 0x0A, 0x14, 0x15] →
        xs = s.gatherElems (s.ctx.tile f.td) (s.ctx.tile f.tb) (if f.md.getLsbD 3 then some (s.ctx.tile f.tc) else none)
          (s.ctx.getA f.as + BitVec.ofInt 72 f.offset) (f.md.extractLsb' 0 3).toNat names →
        loadVa (s.party (memAcc f false)) (t.sr.w / 8) putElem (s.fromTes xs) [] t p = .done u v →
        exec i s = .next (State.ran { v with ctx := s.ctx } i (TileFields.words f) (s.ctx.putTile f.td u)))
      ∧ (i = .csld f → xs = s.csElems f (s.ctx.entryOf i) f.td →
        loadCs t.sr.memAlign (s.fromTes xs) t p = .done u v →
        exec i s = .next (State.ran s i (TileFields.words f) (s.ctx.putTile f.td u))))
  ∧ (∀ (s p v : State) (i : Instr) (f : TileFields) (t : Tile) (base : Addr) (pitch : Int) (xs : List MElem)
      (ws : List (MElem × List (Nat × Nat) × Nat)) (m : Pages) (k : Merge),
      Alone s → Issues s i f → i = .tldm f → p = State.pushed s i (TileFields.words f) → ShapeOk s f.td →
      t = p.loadBase f.td → s.ctx.tes = 0 →
      pitch = (if f.tb = 0 then (t.sr.densePitch : Int) else (s.ctx.getG f.tb).toInt) →
      base = s.ctx.getA f.as + BitVec.ofInt 72 f.offset → (s.ctx.getG f.gs).extractLsb' 28 36 = 0 →
      baseOff t.sr base pitch = false → xs = s.vaElems f.td t base pitch →
      checkVa (s.party {}) 1 xs [] [] p = .done (ws, m) v → v.onDie ws = true →
      (s.ctx.getG f.gs).getLsbD s.pairBit = true → s.getSys s.die 0x838 ≠ 0 →
      k = { die := s.die, slice := homeSlice (((ws.head?.bind fun w => w.2.1.head?).map Prod.fst).getD 0)
            asid := s.ctx.asid, pa := ((ws.head?.bind fun w => w.2.1.head?).map Prod.fst).getD 0
            mtag := (s.ctx.getG f.gs).extractLsb' 16 12, cmask := (s.ctx.getG f.gs).extractLsb' 0 16
            pair := s.pairNo, base := base.toNat, pitch := (pitch % (2 ^ 64 : Int)).toNat, rows := t.sr.rows
            cols := t.sr.cols, fmt := t.sr.fmt, layout := t.sr.layout, er := s.er [f.td], ec := s.ec [f.td] } →
      ((∀ w ∈ ws, v.dataFault true w.2.1 = none) →
        (∀ e ∈ s.merges, ¬ (e.mtag = k.mtag ∧ e.die = k.die ∧ e.slice = k.slice ∧ e.pair = k.pair)) →
        ∃ t' e u, exec (.tldm f) s = .next t'
          ∧ e = { k with joined := [s.pairBit], data := ws.map fun w => (v.rdPieces w.2.1 >>> w.1.sh) % 2 ^ w.1.w }
          ∧ t'.merges = (if e.full then [] else [e]) ++ s.merges
          ∧ u = (ws.zip e.data).foldl (fun t x => putElem t x.1.1 x.2) t ∧ t'.ctx = (s.ctx.putTile f.td u |>
              State.ran s (.tldm f) (TileFields.words f)).ctx)
      ∧ (∀ e, s.merges = [e] → e.sameKey k = true → e.die = k.die → e.slice = k.slice → e.pair = k.pair → e.bad = none →
        ∃ t' e' u, exec (.tldm f) s = .next t' ∧ e' = { e with joined := s.pairBit :: e.joined }
          ∧ t'.merges = (if e'.full then [] else [e'])
          ∧ u = (ws.zip e.data).foldl (fun t x => putElem t x.1.1 x.2) t ∧ t'.ctx = (s.ctx.putTile f.td u |>
              State.ran s (.tldm f) (TileFields.words f)).ctx))
  ∧ (∀ (p : Party) (align : Nat) (xs : List MElem) (ws : List (MElem × List (Nat × Nat) × Nat)) (s : State) (t : Tile),
      t.sr.flat = true → (∀ x ∈ xs, x.row < t.sr.rows ∧ x.col < t.sr.cols) →
      xs.Pairwise (fun x y => x.row ≠ y.row ∨ x.col ≠ y.col) → ws.map Prod.fst = xs →
      (∀ n, n ≤ xs.length → ∃ m, checkVa p align (xs.take n) [] [] s = .done (ws.take n, m) s) →
      (∀ w ∈ ws, s.dataFault true w.2.1 = none) →
      ∃ u, loadVa p align putElem xs [] t s = .done u s ∧ u.sr = t.sr
        ∧ (∀ w ∈ ws, u.get w.1.row w.1.col = (s.rdPieces w.2.1 >>> w.1.sh) % 2 ^ w.1.w % 2 ^ t.sr.w)
        ∧ ∀ r c, r < t.sr.rows → c < t.sr.cols → (∀ x ∈ xs, x.row ≠ r ∨ x.col ≠ c) → u.get r c = t.get r c)

/-- Tile stores. R232 to R241, R249, R268, over vaElems, gatherElems, csElems, storeChunks and writeVa. -/
def Obligations.TileStores : Prop :=
  (∀ (s p : State) (i : Instr) (f : TileFields) (t : Tile) (n : Nat) (v : State) (base : Addr) (pitch : Int)
      (xs : List MElem),
      Alone s → Issues s i f → p = State.pushed s i (TileFields.words f) → ShapeOk s f.ta → t = s.ctx.tile f.ta →
      pitch = (if f.tb = 0 then (t.sr.densePitch : Int) else (s.ctx.getG f.tb).toInt) →
      base = s.ctx.getA f.as + ((s.ctx.getG f.gs).setWidth 72 <<< (f.md.extractLsb' 0 2).toNat)
          + BitVec.ofInt 72 f.offset →
      (i = .tst f → baseOff t.sr base pitch = false → xs = s.vaElems f.ta t base pitch →
        storeChunks (s.party (memAcc f true)) 1 (linesOverlap t.sr pitch) (chunks (s.fromTes xs)) p = .done n v →
        exec i s = .next (State.ran { v.sideEffect with ctx := s.ctx } i (TileFields.words f)
          { s.ctx with sidefx := true, crc := v.ctx.crc }))
      ∧ (∀ u ps cls q w, i = .tstNfz f → p.cellCheck (s.ctx.getA (f.tc.setWidth 4)) = (.ok ps cls, u) →
        u.dataFault true ps = none → q = scrub t (s.er [f.ta]) (s.ec [f.ta]) → baseOff q.1.sr base pitch = false →
        xs = s.vaElems f.ta q.1 base pitch →
        storeChunks (s.party (memAcc f true)) 1 (linesOverlap t.sr pitch) (chunks (s.fromTes xs)) u = .done n v →
        w = (if q.2 = 0 then v else v.addCell (s.ctx.getA (f.tc.setWidth 4)) ps q.2).sideEffect →
        exec i s = .next (State.ran { w with ctx := s.ctx } i (TileFields.words f)
          { s.ctx with sidefx := true, crc := w.ctx.crc }))
      ∧ (∀ names, i = .tstg f → names = [f.ta, f.tb] ++ (if f.md.getLsbD 3 then [f.tc] else []) →
        (∀ r ∈ names, TileOk s r (s.ctx.tile r).sr.fmt) → (f.md.getLsbD 3 = true → (s.ctx.tile f.tc).sr.fmt = 0x13) →
        gatherFmt t.sr = true → (s.ctx.tile f.tb).sr.fmt ∈ [0x09, 0x0A, 0x14, 0x15] →
        xs = s.gatherElems t (s.ctx.tile f.tb) (if f.md.getLsbD 3 then some (s.ctx.tile f.tc) else none)
          (s.ctx.getA f.as + BitVec.ofInt 72 f.offset) (f.md.extractLsb' 0 3).toNat names →
        storeChunks (s.party (memAcc f true)) (t.sr.w / 8) (elemsOverlap xs) (chunks (s.fromTes xs)) p = .done n v →
        exec i s = .next (State.ran { v.sideEffect with ctx := s.ctx } i (TileFields.words f)
          { s.ctx with sidefx := true, crc := v.ctx.crc }))
      ∧ (i = .csst f → xs = s.csElems f (s.ctx.entryOf i) f.ta →
        storeCs t.sr.memAlign (linesOverlap t.sr pitch) (s.fromTes xs) p = .done n v →
        exec i s = .next (State.ran { v.sideEffect with ctx := s.ctx } i (TileFields.words f)
          { s.ctx with sidefx := true })))
  ∧ (∀ (s : State) (name : BitVec 5) (t : Tile) (base : Addr) (pitch : Int) (x : MElem), t.sr.flat = true →
      (x ∈ s.vaElems name t base pitch ↔ ∃ r c l k b, r < s.er [name] ∧ c < s.ec [name]
        ∧ (l, k) = (if t.sr.layout = 1 then (c, r) else (r, c)) ∧ b = k * t.sr.w
        ∧ x = { row := r, col := c, e := r * s.ctx.xc.toNat + c, va := base + BitVec.ofInt 72 (l * pitch + (b / 8 : Nat))
                n := (b % 8 + t.sr.w + 7) / 8, sh := b % 8, w := t.sr.w, line := l, v := storeBytes t r c }))
  ∧ (∀ (ws : List (MElem × List (Nat × Nat) × Nat)) (s : State), MemOk s → s.ctx.inst = none →
      (∀ w ∈ ws, s.dataFault false w.2.1 = none ∧ s.ctx.performed.testBit w.1.e = false) →
      (ws.map fun w => w.1.e).Nodup → (ws.flatMap fun w => bytesIn w.2.1).Nodup →
      ∃ t, writeVa false false ws [] s = .done [] t ∧ MemOk t
        ∧ t = { s with mem := t.mem, ctx := { s.ctx with performed := t.ctx.performed } }
        ∧ (∀ w ∈ ws, t.rdPieces w.2.1 = w.1.v % 256 ^ (bytesIn w.2.1).length)
        ∧ (∀ e, t.ctx.performed.testBit e = (s.ctx.performed.testBit e || (ws.any fun w => w.1.e == e)))
        ∧ ∀ b, (∀ w ∈ ws, b ∉ bytesIn w.2.1) → SameByte s t b)

/-- Events and futures. R28 to R30, R256 to R258, R350 to R352. -/
def Obligations.EventsAndFutures : Prop :=
  (∀ (s p : State) (i : Instr) (f : TileFields) (ev : BitVec 16), Alone s → Issues s i f →
      p = State.pushed s i (TileFields.words f) → MemOk s →
      ev = (if f.dyn then (s.ctx.getG f.tb).setWidth 16 else f.imm) →
      (s.evOn ev s.ctx.asid = true →
        (i = .evsig f → s.ctx.inst = none → ∃ t, exec i s = .next t
          ∧ t.evCount ev = (s.evCount ev + (s.ctx.getG f.gs).toNat) % 2 ^ 64
          ∧ t.ctx = { (State.ran s i (TileFields.words f) s.ctx).ctx with sidefx := true }
          ∧ ∀ a, (a < s.evtAddr ev ∨ s.evtAddr ev + 16 ≤ a) → SameByte s t a)
        ∧ (i = .evwait f → s.waits .evwait = false → s.ctx.wait.sent = false →
          ((s.ctx.getG f.gs).toNat ≤ s.evCount ev → exec i s = .next (State.ran s i (TileFields.words f) s.ctx))
          ∧ (s.evCount ev < (s.ctx.getG f.gs).toNat → s.waiters = [] →
            ∃ t, exec i s = .next t ∧ t.ctx = { p.ctx with wait := { kind := .evwait, ev := ev, thr := s.ctx.getG f.gs } }
              ∧ t.waiters = [{ idx := some 0, ev := ev, thr := s.ctx.getG f.gs, kind := .evwait, ctxid := s.ctx.ctxid
                               inst := s.ctx.inst, launch := s.ctx.launch }]))
        ∧ (i = .evquery f → ∃ g, exec i s = .next (State.ran s i (TileFields.words f) { s.ctx with g := g })
          ∧ ∀ r, ({ s.ctx with g := g } : Ctx).getG r
              = if r = 0 then 0 else if r = f.td then BitVec.ofNat 64 (s.evCount ev) else s.ctx.getG r))
      ∧ (s.evOn ev s.ctx.asid = false → (i = .evsig f ∨ i = .evwait f ∨ i = .evquery f) →
        Stops (exec i s) s i .pageProtection (some (ev.setWidth 72))))
  ∧ (∀ (s u p : State) (i : Instr) (f : TileFields) (pa cls cell : Nat) (va : Addr) (ev : BitVec 16), Alone s → Issues s i f →
      p = State.pushed s i (TileFields.words f) → va = s.ctx.getA f.as → cell = u.rd pa 16 → s.ctx.inst = none → MemOk u →
      ev = BitVec.ofNat 16 (cell / 2 ^ 64) → u.dataFault true [(pa, 16)] = none →
      (i = .futrd f → Reaches p { home := true } va 16 pa cls u → u.waits .futrd = false →
        (cell / 2 ^ 80 % 256 ≠ 0 → ∃ g, exec i s = .next (State.ran { u with ctx := s.ctx } i (TileFields.words f) { s.ctx with g := g })
          ∧ ∀ r, ({ s.ctx with g := g } : Ctx).getG r
              = if r = 0 then 0 else if r = f.td then BitVec.ofNat 64 cell else s.ctx.getG r)
        ∧ (cell / 2 ^ 80 % 256 = 0 → u.evOn ev s.ctx.asid = true → s.ctx.sidefx = true → u.waiters = [] →
          ∃ t, exec i s = .next t ∧ t.ctx = { p.ctx with wait := { kind := .futrd, ev := ev, addr := va } })
        ∧ (cell / 2 ^ 80 % 256 = 0 → u.evOn ev s.ctx.asid = false → Stops (exec i s) s i .pageProtection (some (ev.setWidth 72))))
      ∧ (i = .futwr f → Reaches p { home := true, write := true } va 16 pa cls u →
        (cell / 2 ^ 80 % 256 ≠ 0 → ∃ g, exec i s = .next (State.ran { u with ctx := s.ctx } i (TileFields.words f) { s.ctx with g := g })
          ∧ ∀ r, ({ s.ctx with g := g } : Ctx).getG r = if r = 0 then 0 else if r = f.td then 1 else s.ctx.getG r)
        ∧ (cell / 2 ^ 80 % 256 = 0 → u.evOn ev s.ctx.asid = true → u.waiters = [] →
          ∃ t g, exec i s = .next t
            ∧ t.ctx = { (State.ran s i (TileFields.words f) { s.ctx with g := g }).ctx with sidefx := true }
            ∧ (∀ r, ({ s.ctx with g := g } : Ctx).getG r = if r = 0 then 0 else if r = f.td then 0 else s.ctx.getG r)
            ∧ ∀ l pte size k, (u.wr pa 16 (putBits (putBits (putBits cell 0 64 (s.ctx.getG f.gs).toNat) 80 8 1) 96 32 0)).translate
                  s.ctx.asid (BitVec.ofNat 72 (va.toNat / 65536 * 65536)) = (some (l, pte, size), k) →
              (pte + 8 ≤ pa ∨ pa + 16 ≤ pte) → (u.evtAddr ev + 16 ≤ pa ∨ pa + 16 ≤ u.evtAddr ev) →
              t.rd pa 8 = (s.ctx.getG f.gs).toNat ∧ t.rd (pa + 8) 2 = ev.toNat ∧ t.rd (pa + 10) 1 = 1 ∧ t.rd (pa + 12) 4 = 0)))

/-- Atomic operations. R254, R255. -/
def Obligations.Atomics : Prop :=
  (∀ (s u p : State) (i : Instr) (f : TileFields) (n pa cls w old d c new : Nat) (va : Addr), Alone s → Issues s i f →
      i = .atom f → p = State.pushed s i (TileFields.words f) → n = (if f.imm.getLsbD 4 then 8 else 4) → w = 8 * n →
      va = s.ctx.getA f.as → Reaches p { memAcc f true with home := true } va n pa cls u →
      u.dataFault true [(pa, n)] = none → s.ctx.inst = none → MemOk u →
      old = u.rd pa n → d = (s.ctx.getG f.gs).toNat % 2 ^ w → c = (s.ctx.getG f.tb).toNat % 2 ^ w → f.atomOp.toNat ≤ 9 →
      new = (match f.atomOp.toNat with
        | 0 => (old + d) % 2 ^ w
        | 1 => if toSigned w d < toSigned w old then d else old
        | 2 => if toSigned w old < toSigned w d then d else old
        | 3 => min old d
        | 4 => max old d
        | 5 => old &&& d
        | 6 => old ||| d
        | 7 => old ^^^ d
        | 8 => d
        | _ => if old = c then d else old) →
      ∃ t g, exec i s = .next t
        ∧ t.ctx = { (State.ran s i (TileFields.words f) { s.ctx with g := g }).ctx with sidefx := true }
        ∧ (∀ r, ({ s.ctx with g := g } : Ctx).getG r
            = if r = 0 then 0 else if r = f.td then BitVec.ofNat 64 old else s.ctx.getG r)
        ∧ (∀ l pte size k, (u.wr pa n new).translate s.ctx.asid (BitVec.ofNat 72 (va.toNat / 65536 * 65536))
            = (some (l, pte, size), k) → (pte + 8 ≤ pa ∨ pa + n ≤ pte) →
          t.rd pa n = new ∧ ∀ b, (b < pa ∨ pa + n ≤ b) → (b < pte ∨ pte + 8 ≤ b) → SameByte u t b)
        ∧ (f.atomOp.toNat = 9 → old ≠ c → t.mem = u.mem))
  ∧ (∀ (s p v : State) (i : Instr) (f : TileFields) (fmt e : Nat) (extra : List (BitVec 5)) (xs : List MElem) (td : Tile)
      (fl : FlagSet), Alone s → Issues s i f → i = .tatom f → p = State.pushed s i (TileFields.words f) →
      fmt = (s.ctx.tile f.ta).sr.fmt → fmt ∈ [0x00, 0x01, 0x09, 0x0A, 0x14] →
      (fmt ∈ [0x00, 0x01] → f.atomOp.toNat ∈ [0, 1, 2, 8, 9]) →
      (s.ctx.tile f.tb).sr.fmt ∈ [0x09, 0x0A, 0x14, 0x15] → TileOk s f.tb (s.ctx.tile f.tb).sr.fmt →
      extra = (if f.md.getLsbD 3 then [f.td] else []) ++ (if f.isCas then [f.tc] else []) →
      (∀ r ∈ f.ta :: extra, TileOk s r fmt) →
      xs = s.gatherElems (s.ctx.tile f.ta) (s.ctx.tile f.tb) none (s.ctx.getA f.as + BitVec.ofInt 72 f.offset12)
        (f.md.extractLsb' 0 3).toNat ([f.ta, f.tb] ++ extra) →
      atomChunks f fmt (s.ctx.tile f.ta) (s.ctx.tile f.tc) (s.party { memAcc f true with home := true })
        (chunks (s.fromTes xs)) (s.loadBase f.td) 0 p = .done (td, fl, e) v →
      exec i s = .next (State.ran { v.sideEffect with ctx := s.ctx } i (TileFields.words f)
        { (if f.md.getLsbD 3 then s.ctx.putTile f.td td else s.ctx) with
          fcsr := s.ctx.fcsr ||| fl, sidefx := true, crc := v.ctx.crc }))
  ∧ (∀ (fmt op w old d c : Nat), w = fmtWidth fmt → (fmt ∈ [0x09, 0x0A, 0x14] → tatomNew fmt op w old d c = (atomNew op w old d c, 0))
      ∧ (fmt ∈ [0x00, 0x01] → ∀ x y : Val, x = decodeFp (fpOf fmt) old → y = decodeFp (fpOf fmt) d →
        (∀ r, r = roundTo fmt 0 (sumV 0 [x, y]) → tatomNew fmt 0 w old d c = (some r.1, r.2))
        ∧ tatomNew fmt 8 w old d c = (some d, 0)
        ∧ tatomNew fmt 9 w old d c = ((if old = c then some d else none), 0)))

/-- Messages, exchanges, barriers and fences. R188, R189, R250 to R253. -/
def Obligations.MessagesAndBarriers : Prop :=
  (∀ (s p : State) (i : Instr) (f : TileFields) (g : Group) (q : Nat) (o : Parcel), Alone s → Issues s i f →
      p = State.pushed s i (TileFields.words f) → s.group = some g →
      (i = .send f → ShapeOk s f.ta → q = (s.ctx.getG f.gs).toNat → q < s.gsize → q < 8 → q ≠ s.ctx.lid.toNat →
        o = { src := s.ctx.lid.toNat, dst := q, k := (s.ctx.sendcnt.toList.getD q 0).toNat
              len := (s.ctx.tile f.ta).sr.footprint, bytes := (s.ctx.tile f.ta).bytes } →
        (g.recvs.contains (o.src, q, o.k) = true → ∃ t c, exec i s = .next t
          ∧ t.ctx = { (State.ran s i (TileFields.words f) { s.ctx with g := c }).ctx with
              sidefx := true, sendcnt := t.ctx.sendcnt }
          ∧ (∀ r, ({ s.ctx with g := c } : Ctx).getG r = if r = 0 then 0 else if r = f.td then 0 else s.ctx.getG r)
          ∧ (∀ n : Fin 8, t.ctx.sendcnt[n] = if n.val = q then s.ctx.sendcnt[n] + 1 else s.ctx.sendcnt[n])
          ∧ t.mem = s.mem ∧ ∃ h ∈ t.groups, o ∈ h.msgs ∧ (o.src, q, o.k) ∉ h.recvs)
        ∧ (g.recvs.contains (o.src, q, o.k) = false → g.ended.contains q = true → ∃ t, exec i s = .next t
          ∧ t.ctx.tiq = [] ∧ t.ctx.getG f.td = (if f.td = 0 then 0 else 1) ∧ t.mem = s.mem)
        ∧ (g.recvs.contains (o.src, q, o.k) = false → g.ended.contains q = false →
          exec i s = .next (p.mapCtx fun c => { c with wait := { kind := .send, lid := BitVec.ofNat 8 q } })))
      ∧ (i = .recv f → ShapeOk s f.td → q = (s.ctx.getG f.gs).toNat → q < s.gsize → q < 8 → q ≠ s.ctx.lid.toNat →
        (g.msgs.find? (fun m => m.src == q && m.dst == s.ctx.lid.toNat && m.k == (s.ctx.recvcnt.toList.getD q 0).toNat) = some o →
          ∃ t c, exec i s = .next t
          ∧ t.ctx = { (State.ran s i (TileFields.words f) { s.ctx with g := c }).ctx with
              tiles := (s.ctx.putTile f.td ((s.ctx.tile f.td).receive o.len o.bytes)).tiles, recvcnt := t.ctx.recvcnt }
          ∧ (∀ r, ({ s.ctx with g := c } : Ctx).getG r = if r = 0 then 0 else if r = f.tb then 0 else s.ctx.getG r)
          ∧ (∀ n : Fin 8, t.ctx.recvcnt[n] = if n.val = q then s.ctx.recvcnt[n] + 1 else s.ctx.recvcnt[n])
          ∧ t.mem = s.mem))
      ∧ (i = .txchg f → ShapeOk s f.td → ShapeOk s f.ta →
        (s.partner = none → ∃ c, exec i s = .next (State.ran s i (TileFields.words f)
            { s.ctx.putTile f.td ((s.ctx.tile f.td).receive (s.ctx.tile f.ta).sr.footprint (s.ctx.tile f.ta).bytes) with
              g := c, txcnt := s.ctx.txcnt + 1 })
          ∧ ∀ r, ({ s.ctx with g := c } : Ctx).getG r = if r = 0 then 0 else if r = f.gs then 1 else s.ctx.getG r)
        ∧ (∀ u, s.partner = some u → s.shLost = false →
          s.xchg = [(s.ctx.launch.getD 0,
            { src := u, dst := s.ctx.uid.toNat, k := s.ctx.txcnt.toNat, len := o.len, bytes := o.bytes })] →
          s.ctx.wait.sent = false → ∃ t c, exec i s = .next t
          ∧ t.ctx = (State.ran s i (TileFields.words f)
            { s.ctx.putTile f.td ((s.ctx.tile f.td).receive o.len o.bytes) with g := c, txcnt := s.ctx.txcnt + 1 }).ctx
          ∧ (∀ r, ({ s.ctx with g := c } : Ctx).getG r = if r = 0 then 0 else if r = f.gs then 0 else s.ctx.getG r)
          ∧ t.xchg = [(s.ctx.launch.getD 0,
            { src := s.ctx.uid.toNat, dst := u, k := s.ctx.txcnt.toNat, len := (s.ctx.tile f.ta).sr.footprint
              bytes := (s.ctx.tile f.ta).bytes })])))
  ∧ (∀ (s : State) (i : Instr) (f : TileFields), Alone s → Issues s i f →
      (i = .fence f → exec i s = .next (State.ran s i (TileFields.words f) s.ctx))
      ∧ (i = .cbar f → ∀ g n, s.group = some g → n = s.ctx.cbargen.toNat + 1 →
        ((∀ l < s.gsize, l = s.ctx.lid.toNat ∨ g.ended.contains l = true ∨ ∃ m, n ≤ m ∧ (l, m) ∈ g.arrived ∧ l ≠ s.ctx.lid.toNat) →
          ∃ t, exec i s = .next t
            ∧ t.ctx = { (State.ran s i (TileFields.words f) { s.ctx with cbargen := s.ctx.cbargen + 1 }).ctx with sidefx := true }
            ∧ t.mem = s.mem)
        ∧ (∀ l < s.gsize, l ≠ s.ctx.lid.toNat → g.ended.contains l = false → (∀ m, (l, m) ∈ g.arrived → m < n) →
          ∃ t, exec i s = .next t
            ∧ t.ctx = { (State.pushed s i (TileFields.words f)).ctx with wait := { kind := .cbar } } ∧ t.mem = s.mem)))

/-- Copies of a context. R245 to R248, R89 to R92, Table 11-4. -/
def Obligations.CopyChannels : Prop :=
  (∀ (s p : State) (i : Instr) (f : TileFields) (w : Nat), w = TileFields.words f → Issues s i f → Quiet s i w →
      p = State.pushed s i w →
      (i = .cpyw f → (∀ c ∈ s.ctx.copies, f.imm.getLsbD 2 = false ∧ c.ch ≠ f.imm.setWidth 2) → exec i s = .next (State.retired p s i))
      ∧ (i = .cpyw f → ∀ c cs, s.ctx.copies = c :: cs → (f.imm.getLsbD 2 = true ∨ c.ch = f.imm.setWidth 2) →
        (c.stop = none → exec i s = .next (p.mapCtx fun x => { x with wait := {} }))
        ∧ (∀ e, c.stop = some e → ∃ t r, exec i s = .next t ∧ t.ctx.run = .stopped ∧ t.ctx.frec = some r ∧ r.cause = e.cause
            ∧ r.pc = c.pc ∧ r.flags.getLsbD 6 = true
            ∧ (e.cause.fields.1 = true → r.va = e.va ∧ r.flags.getLsbD 0 = true ∧ r.flags.getLsbD 1 = e.cs)))
      ∧ (i = .cpyc f → exec i s = .next (State.retired (p.finishStolen.mapCtx fun x => { x with
          copies := x.copies.filter fun c => !(f.imm.getLsbD 2 || c.ch == f.imm.setWidth 2) }) s i)
        ∧ ((∀ c ∈ s.ctx.copies, c.stolen = []) → p.finishStolen = p))
      ∧ (i = .cpyq f → ∀ (ch : BitVec 2) (k : Chan) (cs : List Copy) (stop : Option Cause), ch = f.imm.setWidth 2 →
        k = s.ctx.chans[ch.toNat]'ch.isLt → cs = (s.ctx.copies.filter fun c => c.ch == ch) →
        stop = (cs.findSome? fun c => c.stop.map CopyStop.cause) →
        ∃ v, exec i s = .next (State.retired (p.mapCtx fun x => x.setG f.td v) s i)
          ∧ v.toNat = k.w % 2 ^ 23 + (if cs.all fun c => c.stop.isSome then 0 else 2 ^ 24)
            + (if stop.isSome then 2 ^ 25 else 0) + (if k.cs then 2 ^ 26 else 0)
            + ((stop.map fun c => c.code.toNat).getD 0) * 2 ^ 32 + (cs.length % 8) * 2 ^ 40))
  ∧ (∀ (s p u v : State) (i : Instr) (f : TileFields) (pa cls w : Nat) (va : Addr) (d : Desc), w = TileFields.words f →
      Alone s → Issues s i f → i = .cpy f → p = State.pushed s i w → va = s.ctx.getA f.as → va.toNat % 16 = 0 →
      s.ctx.inst = none →
      (∃ m, p.vaCheck (p.party {}) 16 [] { va := va, n := 128 } = (.ok [(pa, 128)] cls, m, u)) →
      u.dataFault true [(pa, 128)] = none → d = BitVec.ofNat 1024 (u.rd pa 128) →
      (d.bad = true → Stops (exec i s) s i .illegalField none)
      ∧ (d.bad = false → ∀ x, copyScan d (p.party {}) d.count 0 [] [] u = .stop x v → x.cause.fields.1 = true →
        Stops (exec i s) s i x.cause (some x.va))
      ∧ (d.bad = false → ∀ m c, copyScan d (p.party {}) d.count 0 [] [] u = .done m v →
        c = { desc := d, ch := f.imm.setWidth 2, pc := s.ctx.pc, no := s.ctx.chans[(f.imm.setWidth 2).toNat].no + 1
              checked := m } →
        exec i s = .next (State.retired (State.sideEffect (State.updateChan (v.mapCtx fun x => { x with
          copies := [c], chans := x.chans.set (f.imm.setWidth 2).toNat { no := c.no } (f.imm.setWidth 2).isLt }) c)) s i)))

/-- map, mapred and momu. R190 to R196, R207 to R211. -/
def Obligations.MappedFunctions : Prop :=
  (∀ (s p u : State) (i : Instr) (f : TileFields) (ins outs : List (BitVec 5)) (er ec : Nat)
      (blocks : List (List (Addr × Instr))) (call : LaneCall) (ls : List Lane) (red : Bool), Alone s → Issues s i f →
      p = State.pushed s i (TileFields.words f) → ins = [f.ta, f.tb, f.tc].take f.nin.toNat →
      outs = (if f.out2 then [f.td, f.xt] else [f.td]) → (∀ r ∈ outs ++ ins, TileOk s r (s.ctx.tile r).sr.fmt) →
      er = rowsOf s (outs ++ ins) → ec = colsOf s (outs ++ ins) → p.laneFn (s.ctx.getA f.as) = (.ok blocks, u) →
      u.ctx = p.ctx →
      call = { inFmts := ins.map fun r => (s.ctx.tile r).sr.fmt, outFmts := outs.map fun r => (s.ctx.tile r).sr.fmt
               arg := s.ctx.getG f.gs, isRed := red, nblocks := blocks.length } →
      runCall p call (blocks.map fun b => b.map Prod.snd) (ins.map s.ctx.tile) (outs.map s.ctx.tile) er ec = (ls, none) →
      (i = .map f → red = false → exec i s = .next (State.ran { u with ctx := s.ctx } i (TileFields.words f)
        { (if f.out2 then
            (s.ctx.putTile f.td (laneWrites (s.ctx.tile f.td) 0 ls)).putTile f.xt
              (laneWrites ((s.ctx.putTile f.td (laneWrites (s.ctx.tile f.td) 0 ls)).tile f.xt) 1 ls)
          else s.ctx.putTile f.td (laneWrites (s.ctx.tile f.td) 0 ls)) with
          fcsr := s.ctx.fcsr ||| ls.foldl (fun x l => x ||| l.flags) 0 }))
      ∧ (∀ o d q, i = .mapred f → red = true → d = (s.ctx.tile f.td) → mapredFmt f.mapOp.toNat d.sr.fmt = true →
        redTooSmall f.mapDir.toNat er ec d.sr = false →
        o = ({ op := f.mapOp.toNat, sf := d.sr.fmt, df := d.sr.fmt } : RedOp) →
        q = reduceInto o f.mapDir.toNat d er ec
          (fun r c => (ls.map fun l => (l.outs.getD 0 none).getD o.identity).getD (r * ec + c) 0) →
        exec i s = .next (State.ran { u with ctx := s.ctx } i (TileFields.words f)
          { (if f.out2 then (s.ctx.putTile f.td q.1).putTile f.xt (laneWrites ((s.ctx.putTile f.td q.1).tile f.xt) 1 ls)
              else s.ctx.putTile f.td q.1) with
            fcsr := s.ctx.fcsr ||| (ls.foldl (fun x l => x ||| l.flags) 0 ||| q.2) })))
  ∧ (∀ (s p u : State) (i : Instr) (f : TileFields) (ins outs : List (BitVec 5)), Alone s → Issues s i f →
      p = State.pushed s i (TileFields.words f) → ins = [f.ta, f.tb, f.tc].take f.nin.toNat →
      outs = (if f.out2 then [f.td, f.xt] else [f.td]) → (∀ r ∈ outs ++ ins, TileOk s r (s.ctx.tile r).sr.fmt) →
      i = .map f → u.ctx = p.ctx →
      (∀ c va, p.laneFn (s.ctx.getA f.as) = (.bad c va, u) → Stops (exec i s) s i c (some va))
      ∧ ∀ blocks l ls c, p.laneFn (s.ctx.getA f.as) = (.ok blocks, u) → l.trap = some c →
        runCall p { inFmts := ins.map fun r => (s.ctx.tile r).sr.fmt, outFmts := outs.map fun r => (s.ctx.tile r).sr.fmt
                    arg := s.ctx.getG f.gs, nblocks := blocks.length }
          (blocks.map fun b => b.map Prod.snd) (ins.map s.ctx.tile) (outs.map s.ctx.tile) (rowsOf s (outs ++ ins))
          (colsOf s (outs ++ ins)) = (ls, some l) → Stops (exec i s) s i c none)
  ∧ (∀ (s p u : State) (i : Instr) (f : TileFields) (k : Moments) (a b c d : Tile) (er ec : Nat)
      (x : Nat → Nat → (Nat × Nat × Nat) × Bool × FlagSet) (names : List (BitVec 5)), Alone s → Issues s i f → i = .momu f →
      p = State.pushed s i (TileFields.words f) → names = [f.td, f.ta, f.tb, f.tc] →
      TileOk s f.td f.fmt1.toNat → TileOk s f.ta f.fmt2.toNat → TileOk s f.tb 0x01 → TileOk s f.tc 0x01 →
      er = rowsOf s names → ec = colsOf s names → d = s.ctx.tile f.td → a = s.ctx.tile f.ta → b = s.ctx.tile f.tb →
      c = s.ctx.tile f.tc →
      k = (let v := fun n : Nat => decodeFp (fpOf 0x01) ((s.ctx.getG (f.gs + BitVec.ofNat 5 n)).toNat % 2 ^ 32)
        { b1 := v 0, b2 := v 1, lr := v 2, eps := v 3, wd := v 4, c1 := v 5, c2 := v 6 }) →
      x = (fun r q => k.elem f.fmt1.toNat (d.val r q) (a.val r q) (b.val r q) (c.val r q)) →
      ∃ td tb tc c', c' = ({ ((s.ctx.setTile f.td td).setTile f.tb tb).setTile f.tc tc with
          fcsr := s.ctx.fcsr ||| (k.om.1.2 ||| k.om.2.2 ||| flagsOf er ec fun r q => (x r q).2.2) } : Ctx)
        ∧ ((s.ctx.getG (f.gs + 7)).setWidth 32 = 0#32 → exec i s = .next (State.ran s i (TileFields.words f) c'))
        ∧ (∀ ps cls n, (s.ctx.getG (f.gs + 7)).setWidth 32 = 1#32 → s.ctx.inst = none →
          p.cellCheck (s.ctx.getA f.as) = (.ok ps cls, u) → u.dataFault true ps = none →
          n = ((extent er ec).filter fun q => (x q.1 q.2).2.1).length →
          ∃ t, exec i s = .next t ∧ t.mem = (if n = 0 then u else u.addCell (s.ctx.getA f.as) ps n).mem
            ∧ t.ctx = { (State.ran s i (TileFields.words f) c').ctx with sidefx := s.ctx.sidefx || n != 0 })
        ∧ Filled d td er ec (fun r q => if (x r q).2.1 then d.get r q else (x r q).1.1)
        ∧ Filled b tb er ec (fun r q => if (x r q).2.1 then b.get r q else (x r q).1.2.1)
        ∧ Filled c tc er ec (fun r q => if (x r q).2.1 then c.get r q else (x r q).1.2.2))

/-- tklend and tkret. R259, R260, R370, for regions whose holders can be reached. -/
def Obligations.TokenLendAndReturn : Prop :=
  ∀ (s u : State) (i : Instr) (f : TileFields) (k h : Nat) (e : Tok), Alone s → Issues s i f → Region s i f k u →
    e = u.tok k → e.base = (s.ctx.getA f.as).toNat → s.ctx.inst = none → e.state ≠ tokPoisoned →
    (i = .tklend f → h = (s.ctx.getG f.gs).toNat → h < 6 * 2 ^ 21 →
      (u.holds e = false → ∃ t, TokDone s i f 1 t ∧ t.mem = u.mem)
      ∧ (u.holds e = true → h = e.holder → ∃ g,
        exec i s = .next (State.ran { u with ctx := s.ctx } i (TileFields.words f) { s.ctx with g := g })
          ∧ ∀ r, ({ s.ctx with g := g } : Ctx).getG r = if r = 0 then 0 else if r = f.td then 0 else s.ctx.getG r)
      ∧ (u.holds e = true → h ≠ e.holder → e.shares ≠ 0 → ∃ t, TokDone s i f 2 t ∧ t.mem = u.mem)
      ∧ (u.holds e = true → h ≠ e.holder → e.shares = 0 → e.depth = 4 → ∃ t, TokDone s i f 3 t ∧ t.mem = u.mem)
      ∧ (u.holds e = true → h ≠ e.holder → e.shares = 0 → e.depth < 4 → u.cutOff e.holder h = false →
        ∃ t, TokDone s i f 0 t ∧ (t.tok k).state = tokTransit ∧ (t.tok k).holder = h ∧ (t.tok k).giver = e.holder
          ∧ (t.tok k).depth = e.depth + 1 ∧ (t.tok k).lender 0 = e.holder
          ∧ (∀ n < 3, (t.tok k).lender (n + 1) = e.lender n) ∧ (t.tok k).dirty = false
          ∧ ∀ a, (a < u.tokAddr k ∨ u.tokAddr k + 64 ≤ a) → SameByte u t a))
    ∧ (i = .tkret f → u.holds e = true →
      (e.shares ≠ 0 → ∃ t, TokDone s i f 2 t ∧ t.mem = u.mem)
      ∧ (e.shares = 0 → e.depth = 0 → ∃ t, TokDone s i f 4 t ∧ t.mem = u.mem)
      ∧ (e.shares = 0 → 0 < e.depth → u.cutOff e.holder (e.lender 0) = false →
        ∃ t, TokDone s i f 0 t ∧ (t.tok k).state = tokTransit ∧ (t.tok k).holder = e.lender 0
          ∧ (t.tok k).giver = e.holder ∧ (t.tok k).depth = e.depth - 1 ∧ (∀ n < 3, (t.tok k).lender n = e.lender (n + 1))
          ∧ (t.tok k).dirty = false ∧ ∀ a, (a < u.tokAddr k ∨ u.tokAddr k + 64 ≤ a) → SameByte u t a))

/-- tkshare, tkunshare, tkquery, tksplit and tkjoin. R259 to R263, R370. -/
def Obligations.TokenSharing : Prop :=
  (∀ (s u : State) (i : Instr) (f : TileFields) (k h : Nat) (e : Tok), Alone s → Issues s i f → Region s i f k u →
      e = u.tok k → e.base = (s.ctx.getA f.as).toNat →
      (s.ctx.inst = none → e.state ≠ tokPoisoned → i = .tkshare f → h = (s.ctx.getG f.gs).toNat → h < 6 * 2 ^ 21 → s.ctx.getG f.tb = 1 → u.holds e = true →
        e.shares < 4095 → (u.tokAddr k + 64 ≤ (u.getSys 0 0x81A).toNat ∨ (u.getSys 0 0x81A).toNat + 8 * u.shareN ≤ u.tokAddr k) →
        (∀ n, u.shareFind k h = none → u.shareFree = some n → k < 2 ^ 16 →
          ∃ t, TokDone s i f 0 t ∧ (t.tok k).shares = e.shares + 1 ∧ (t.tok k).state = tokShared
            ∧ t.rd (u.shareAddr n) 8 = k + h * 2 ^ 16 + 2 ^ 40))
      ∧ (s.ctx.inst = none → e.state ≠ tokPoisoned → i = .tkunshare f → u.sharer k = none → ∃ t, TokDone s i f 1 t ∧ t.mem = u.mem)
      ∧ (∀ n, s.ctx.inst = none → e.state ≠ tokPoisoned → i = .tkunshare f → u.sharer k = some h → u.shareFind k h = some n → u.hasEnded e.holder = false →
        (e.state = tokOrphaned → ∃ t, TokDone s i f 1 t ∧ t.mem = u.mem) ∧ (e.state ≠ tokOrphaned →
        (u.tokAddr k + 64 ≤ (u.getSys 0 0x81A).toNat ∨ (u.getSys 0 0x81A).toNat + 8 * u.shareN ≤ u.tokAddr k) →
        ∃ t, TokDone s i f 0 t ∧ (t.tok k).shares = e.shares - 1
          ∧ (t.tok k).state = (if e.state = tokShared ∧ e.shares ≤ 1 then tokHeld else e.state)))
      ∧ (i = .tkquery f → ∃ g v, exec i s = .next (State.ran { u with ctx := s.ctx } i (TileFields.words f) { s.ctx with g := g })
        ∧ (∀ r, ({ s.ctx with g := g } : Ctx).getG r = if r = 0 then 0 else if r = f.td then v else s.ctx.getG r)
        ∧ v.toNat % 2 ^ 24 = e.holder ∧ v.toNat / 2 ^ 24 % 64 = e.log2
        ∧ v.getLsbD 30 = (e.state == tokTransit) ∧ v.getLsbD 31 = (e.state == tokPoisoned) ∧ v.toNat / 2 ^ 32 % 2 ^ 12 = e.shares
        ∧ v.toNat / 2 ^ 44 % 8 = e.depth ∧ v.getLsbD 47 = e.part ∧ v.getLsbD 48 = s.ctx.ids.contains e.holder
        ∧ v.getLsbD 49 = (u.sharer k).isSome ∧ v.getLsbD 50 = (e.state == tokOrphaned)))
  ∧ (∀ (s u : State) (i : Instr) (f : TileFields) (k n : Nat) (e : Tok), Alone s → Issues s i f → Region s i f k u →
      e = u.tok k → e.base = (s.ctx.getA f.as).toNat → s.ctx.inst = none → e.state ≠ tokPoisoned →
      e.base + 2 ^ e.log2 ≤ 2 ^ 72 →
      (∀ c, i = .tksplit f → n = (s.ctx.getG f.gs).toNat → 16 ≤ n → n < e.log2 → e.log2 ≤ n + 8 → u.holds e = true →
        e.shares = 0 → u.freeRun (2 ^ (e.log2 - n)) = some c → (c + 2 ^ (e.log2 - n) ≤ k ∨ k < c) →
        ∃ t, TokDone s i f 0 t ∧ (t.tok k).state = tokSplit ∧ (t.tok k).ksplit = n ∧ (t.tok k).child = c % 2 ^ 16
          ∧ (∀ j < 2 ^ (e.log2 - n), (t.tok (c + j)).base = e.base + j * 2 ^ n ∧ (t.tok (c + j)).log2 = n
            ∧ (t.tok (c + j)).state = tokHeld ∧ (t.tok (c + j)).holder = e.holder ∧ (t.tok (c + j)).part = true
            ∧ (t.tok (c + j)).parent = k % 2 ^ 16 ∧ (t.tok (c + j)).v = e.v))
      ∧ (i = .tksplit f → n = (s.ctx.getG f.gs).toNat → n < 64 → u.holds e = true → e.shares = 0 →
        (n < 16 ∨ e.log2 ≤ n ∨ 8 < e.log2 - n) → ∃ t, TokDone s i f 5 t ∧ t.mem = u.mem)
      ∧ (∀ j r parts h, i = .tkjoin f → u.splitAt (s.ctx.getA f.as).toNat 40 (u.triOf (s.ctx.getA f.as)) = some j →
        r = u.tok j → parts = (List.range (2 ^ (r.log2 - r.ksplit))).map (fun n => r.child + n) → j ∉ parts →
        h = (u.tok r.child).holder → s.ctx.ids.contains h = true →
        (∀ q ∈ parts, (u.tok q).state = tokHeld ∧ (u.tok q).holder = h ∧ (u.tok q).shares = 0
          ∧ getBits (u.tok q) 128 99 = getBits r 128 99) →
        ∃ t, TokDone s i f 0 t ∧ (t.tok j).state = tokHeld ∧ (t.tok j).holder = h
          ∧ (t.tok j).dirty = parts.any (fun q => (u.tok q).dirty) ∧ ∀ q ∈ parts, (t.tok q).v = false))

/-- ctxsave, ctxload and tkadm; a frame gives back the registers it was written from. R158, R274 to R278, R370; identity
stands beside the frame (notes/assumptions/20.md). -/
def Obligations.ContextFrames : Prop :=
  (∀ (s : State) (d b : BitVec 5) (a : BitVec 4) (cid : Nat), NoReturn s [.g d, .a a, .g b] → cid = (s.ctx.getG b).toNat →
      ((s.ctx.getA a).toNat % 256 ≠ 0 → s.ctx.tiq = [] → (∃ r, Traps (exec (.ctxsave d (a.setWidth 5) b) s) s .misaligned s.ctx.pc r)
        ∧ ∃ r, Traps (exec (.ctxload d (a.setWidth 5) b) s) s .misaligned s.ctx.pc r)
      ∧ ((s.ctx.getA a).toNat % 256 = 0 → (s.inService cid = false ∨ 256 ≤ cid) →
        PutsG (exec (.ctxsave d (a.setWidth 5) b) s) s d 2 1 ∧ PutsG (exec (.ctxload d (a.setWidth 5) b) s) s d 2 1)
      ∧ ((s.ctx.getA a).toNat % 256 = 0 → s.inService cid = true → cid < 256 →
        ((s.unitAt cid).2.run ≠ .stopped → ((s.unitAt cid).2.run = .idle → ∀ k ∈ s.saved, k.held ≠ some cid) →
          PutsG (exec (.ctxsave d (a.setWidth 5) b) s) s d 1 1)
        ∧ ((s.unitAt cid).1.staged.isSome = true → PutsG (exec (.ctxload d (a.setWidth 5) b) s) s d 1 1)
        ∧ (∀ (p : Party) (va : Addr) h u, (s.unitAt cid).1.staged = none → p = s.frameParty false → va = s.ctx.getA a →
          s.frameRead p va fixBytes = .done h u →
          (frameBad h = true → PutsG (exec (.ctxload d (a.setWidth 5) b) s) { u with ctx := s.ctx } d 3 1)
          ∧ (∀ f v, frameBad h = false → u.frameRead p va (min (fieldAt h 0x008 8) maxFrame) = .done f v → v.ctx = s.ctx →
            ∃ t, exec (.ctxload d (a.setWidth 5) b) s = .next t ∧ t.mem = v.mem
              ∧ (t.unitAt cid).1.staged = some (ctxOfFrame f (v.asideOf (v.framePa p va) (fieldAt f 0x018 4)))))
        ∧ (∀ (c : Ctx) img (p : Party) (va : Addr) u, img = c.image → p = s.frameParty true → va = s.ctx.getA a →
          storeChunk p 1 false (pageElems framePages va img.2 img.1) s = .done () u →
          (c = (s.unitAt cid).2 → c.run = .stopped → c.held = none →
            exec (.ctxsave d (a.setWidth 5) b) s = .next (sysDone d 0 (State.vacate { u with
              aside := c.aside (u.framePa p va) :: u.aside.filter fun k => k.pa != u.framePa p va } cid)))
          ∧ ((s.unitAt cid).2.run = .idle → (s.saved.find? fun k => k.held == some cid) = some c →
            exec (.ctxsave d (a.setWidth 5) b) s = .next (sysDone d 0 { u with
              aside := c.aside (u.framePa p va) :: u.aside.filter fun k => k.pa != u.framePa p va
              saved := u.saved.filter fun k => k.held != some cid })))))
  ∧ (∀ (s : State) (d b : BitVec 5) (a : BitVec 4) (o : BitVec 3) (h : Nat), NoReturn s [.g d, .a a, .g b] → o.toNat < 4 →
      h = (s.ctx.getG b).toNat % 2 ^ 24 →
      ((o = 3 → badHolder (s.ctx.getG b) = false) →
        ∀ r, r = s.tkadm (s.ctx.getA a).toNat o.toNat h → exec (.tkadm d (a.setWidth 5) b o) s = .next (sysDone d r.1 r.2))
      ∧ (s.regionAt (s.ctx.getA a).toNat = none → o ≠ 3 → PutsG (exec (.tkadm d (a.setWidth 5) b o) s) s d 2 1)
      ∧ (∀ k, MemOk s → s.regionAt (s.ctx.getA a).toNat = some k → (s.tok k).state = tokHeld → o = 1 →
        ∃ t, exec (.tkadm d (a.setWidth 5) b o) s = .next t ∧ (t.tok k).state = tokPoisoned ∧ (t.tok k).holder = (s.tok k).holder
          ∧ t.ctx.getG d = 0 ∧ ∀ x, (x < s.tokAddr k ∨ s.tokAddr k + 64 ≤ x) → SameByte s t x))
  ∧ (∀ (c : Ctx) (pa : Nat), c = { (({} : Ctx)) with
        g := c.g, a := c.a, p := c.p, fcsr := c.fcsr, efc := c.efc, pc := c.pc, run := .stopped, uid := c.uid, ucnt := c.ucnt
        asid := c.asid, ctxid := c.ctxid, cgid := c.cgid, retd := c.retd, landp := c.landp } →
      ∃ d, d = ctxOfFrame c.image.1 (c.aside pa) ∧ (∀ r, d.getG r = c.getG r) ∧ d.a = c.a ∧ (∀ r, d.getP r = c.getP r) ∧ d.fcsr = c.fcsr ∧ d.efc = c.efc ∧ d.pc = c.pc
        ∧ d.retd = c.retd ∧ d.landp = c.landp ∧ d.run = .stopped)

/-- A queue command that waits for nothing completes: qnop, qsig, qwait, qbr, qintr, qfence, qjump, qend and qmark. R324 to
R333: how many words it takes, what it adds to the queue's outstanding commands, and what it does besides. -/
def Obligations.QueueCompletion : Prop :=
  (∀ (s : State) (x : Queue) (c : QueueCmd), s.queue s.curq = some x → x.q = s.curq →
      exec (.qnop c) s = .next (s.executed x 2 c.seq .none)
      ∧ (s.evOn c.ev (s.qAsid x.q) = true →
        exec (.qsig c) s = .next ((s.signal c.ev (c.opnd.setWidth 64)).executed x 2 c.seq .none))
      ∧ (s.evOn c.ev (s.qAsid x.q) = true → c.ev ≠ 0xFFFF → c.x0.toNat ≤ s.evCount c.ev →
        exec (.qwait c) s = .next (s.executed x 3 c.seq .none))
      ∧ (s.evOn c.ev (s.qAsid x.q) = true → c.ev ≠ 0xFFFF → (c.x0.toNat ≤ s.evCount c.ev ↔ c.flag = false) →
        exec (.qbr c) s = .next (State.executed { s with
          queues := s.queues.map fun y => if y.q = x.q then { y with skip := c.opnd.toNat % 256 } else y } x 3 c.seq .none))
      ∧ (s.evOn c.ev (s.qAsid x.q) = true → c.ev ≠ 0xFFFF → (c.x0.toNat ≤ s.evCount c.ev ↔ c.flag = true) →
        exec (.qbr c) s = .next (s.executed x 3 c.seq .none))
      ∧ (∃ t, exec (.qintr c) s = .next t ∧ t.msi.head? = some (s.qVf x.q, c.opnd.toNat % 2048)
        ∧ { t with msi := s.msi } = { (s.executed x 2 c.seq .none).putStatus x.q with msi := s.msi })
      ∧ ((∀ p ∈ x.out, p.2 = .none) → exec (.qfence c) s = .next (s.executed x 2 c.seq .none))
      ∧ (x.sub = none → (cmdAddr c).toNat % 8 = 0 → ∃ t, exec (.qjump c) s = .next t
        ∧ ∃ y, t.queue x.q = some y ∧ y.sub = some { addr := cmdAddr c, len := c.opnd.toNat, seq := c.seq })
      ∧ (x.sub = none → ∃ t y, exec (.qend c) s = .next t ∧ t.queue x.q = some y ∧ y.finished = true)
      ∧ (x.sub ≠ none → exec (.qend c) s = .next ((s.executed x 2 c.seq .none).endSub x.q))
      ∧ (∀ v w, (cmdAddr c).toNat % 8 = 0 → (∀ p ∈ x.out, p.2 = .none) →
        s.seqWrite x.q (cmdAddr c) 8 c.x2.toNat = .val v w → exec (.qmark c) s = .next (w.executed x 5 c.seq .none)))
  ∧ (∀ (s : State) (x : Queue) (len : Nat) (q : BitVec 64) (p : Pending), s.queue x.q = some x → x.sub = none →
      p ≠ .none → (∀ o, x.out.head? = some o → o.2 ≠ .none) → x.fresh < 63 → ∃ y, (s.executed x len q p).queue x.q = some y ∧ y.out = x.out ++ [(q, p)]
        ∧ y.consumed = q ∧ y.begun = false ∧ y.ran = x.ran + 1 ∧ (s.executed x len q p).ctx = s.ctx)

/-- qsig, qwait, qbr, qnop, qintr, qfence, qjump, qend and qmark. R324 to R333, R340. -/
def Obligations.QueueCommands : Prop :=
  (∀ (s : State) (x : Queue) (c : QueueCmd), InTurn s x →
      (s.evOn c.ev (s.qAsid x.q) = true →
        Executes (exec (.qsig c) s) (s.signal c.ev (c.opnd.setWidth 64)) x 2 c .none
        ∧ (c.ev ≠ 0xFFFF →
          (c.x0.toNat ≤ s.evCount c.ev → Executes (exec (.qwait c) s) s x 3 c .none)
          ∧ (s.evCount c.ev < c.x0.toNat → Blocks (exec (.qwait c) s) s x c)
          ∧ ((c.x0.toNat ≤ s.evCount c.ev ↔ c.flag = false) →
            Executes (exec (.qbr c) s) (s.mapQueue x.q fun y => { y with skip := c.opnd.toNat % 256 }) x 3 c .none)
          ∧ ((c.x0.toNat ≤ s.evCount c.ev ↔ c.flag = true) → Executes (exec (.qbr c) s) s x 3 c .none)))
      ∧ (s.evOn c.ev (s.qAsid x.q) = false → QStops (exec (.qsig c) s) s x c 0x08 0)
      ∧ ((s.evOn c.ev (s.qAsid x.q) = false ∨ c.ev = 0xFFFF) →
        QStops (exec (.qwait c) s) s x c 0x08 0 ∧ QStops (exec (.qbr c) s) s x c 0x08 0))
  ∧ (∀ (s : State) (x : Queue) (c : QueueCmd) (e : State), InTurn s x → e = s.executed x 2 c.seq .none →
      Executes (exec (.qnop c) s) s x 2 c .none
      ∧ exec (.qintr c) s = .next { e.putStatus x.q with
          msi := (s.qVf x.q, c.opnd.toNat % 2048) :: (e.putStatus x.q).msi }
      ∧ ((∀ p ∈ x.out, p.2 = .none ∨ (p.2 = .jump ∧ x.sub.any (fun b => b.seq == p.1) = true)) →
          Executes (exec (.qfence c) s) s x 2 c .none)
      ∧ ((∃ p ∈ x.out, p.2 ≠ .none ∧ p.2 ≠ .jump) → Blocks (exec (.qfence c) s) s x c)
      ∧ (x.sub = none → (cmdAddr c).toNat % 8 = 0 → exec (.qjump c) s = .next ((s.executed x 4 c.seq .jump).mapQueue x.q
          fun y => { y with sub := some { addr := cmdAddr c, len := c.opnd.toNat, seq := c.seq } }))
      ∧ (x.sub ≠ none → QStops (exec (.qjump c) s) s x c 0x07 0)
      ∧ (x.sub = none → (cmdAddr c).toNat % 8 ≠ 0 → QStops (exec (.qjump c) s) s x c 0x05 0)
      ∧ (x.sub ≠ none → exec (.qend c) s = .next (e.endSub x.q))
      ∧ (x.sub = none → exec (.qend c) s = .next
          ((State.release (e.mapQueue x.q fun y => { y with st := .done, finished := true }) x.q).putStatus x.q)))
  ∧ (∀ (s w : State) (x : Queue) (c : QueueCmd), InTurn s x →
      ((cmdAddr c).toNat % 8 ≠ 0 → QStops (exec (.qmark c) s) s x c 0x05 0)
      ∧ ((cmdAddr c).toNat % 8 = 0 →
        (s.seqWrite x.q (cmdAddr c) 8 c.x2.toNat = .fault w → QStops (exec (.qmark c) s) w x c 0x05 0)
        ∧ ∀ v, s.seqWrite x.q (cmdAddr c) 8 c.x2.toNat = .val v w →
          ((∀ p ∈ x.out, p.2 = .none) → Executes (exec (.qmark c) s) w x 5 c .none)
          ∧ ((∃ p ∈ x.out, p.2 ≠ .none ∧ p.2 ≠ .jump) → Blocks (exec (.qmark c) s) s x c)))
  ∧ (∀ (s t : State) (c : QueueCmd) (i : Instr), i ∈ [.qnop c, .qwait c, .qbr c, .qintr c, .qfence c, .qjump c, .qend c] →
      exec i s = .next t → t.ctx = s.ctx ∧ t.others = s.others ∧ t.groups = s.groups ∧ t.launches = s.launches)

/-- qlaunch, qcopy, qstage and qlend. R110, R329, R331, R334 to R337, R339, R348. -/
def Obligations.QueueWork : Prop :=
  (∀ (s w v : State) (x : Queue) (c : QueueCmd) (r : Nat) (l : Launch) (m : Option Nat), InTurn s x →
      (cmdAddr c).toNat % 256 = 0 → s.seqRead x.q (cmdAddr c) 768 = .val r w →
      l = { id := w.nextLaunch, q := x.q, seq := x.seqOf c.seq, asid := w.qAsid x.q, record := r, dies := l.dies
            prev := x.prev, unstaged := w.stagingOff x.q } →
      (l.place = 1 → l.dies = 1) → (l.place = 2 → l.dies = 2) → (l.place = 3 → l.dies = if w.die1Up && !w.shLost then 3 else 1) →
      (l.place = 0 ∨ 3 < l.place → l.dies = 3) → w.launchCheck l = (m, v) →
      (∀ n, m = some n → QStops (exec (.qlaunch c) s) v x c 0x03 n)
      ∧ (m = none → 16 ≤ (v.launches.filter fun m => m.q == x.q).length → Blocks (exec (.qlaunch c) s) v x c)
      ∧ (m = none → (v.launches.filter fun m => m.q == x.q).length < 16 → ∃ u k,
          k = { l with snap := k.snap } ∧ (l.decls.any Decl.csp = true → k.snap = v.mem)
          ∧ u.launches = v.launches ++ [k] ∧ u.nextLaunch = v.nextLaunch + 1 ∧ u.mem = v.mem ∧ u.ctx = v.ctx
          ∧ (l.ucnt ≠ 0 → Executes (exec (.qlaunch c) s) u x 4 c (.launch w.nextLaunch)
            ∧ u.slices = v.slices ++ v.launchSlices k)
          ∧ (l.ucnt = 0 → Executes (exec (.qlaunch c) s) (u.complete k 0) x 4 c .none ∧ u.slices = v.slices)))
  ∧ (∀ (s w : State) (x : Queue) (c : QueueCmd), InTurn s x → (c.flag = true → s.evOn c.ev (s.qAsid x.q) = true) →
      (∀ (d : Desc) b, (cmdAddr c).toNat % 16 = 0 → s.seqRead x.q (cmdAddr c) 128 = .val b w → d = (BitVec.ofNat 1024 b : Desc) →
        ((d.scs = true ∨ d.dcs = true ∨ d.bad = true) →
          exec (.qcopy c) s = .next (State.moved (w.stopQueue x.q 0x02 0 (x.seqOf c.seq)) x.q))
        ∧ (d.scs = false → d.dcs = false → d.bad = false → ∀ v,
          (∀ f, w.firstChunk x d = .stop f v →
            exec (.qcopy c) s = .next (State.moved (v.stopQueue x.q 0x05 0 (x.seqOf c.seq)) x.q))
          ∧ (∀ a, w.firstChunk x d = .wait a v → exec (.qcopy c) s = .next (State.moved v x.q))
          ∧ (∀ m, w.firstChunk x d = .done m v →
            exec (.qcopy c) s = .next (State.moved ((v.mapQueue x.q fun y => { y with copies := y.copies ++ [{
              seq := x.seqOf c.seq, sig := if c.flag then some (c.ev, c.opnd) else none, desc := d
              checked := m }] }).executed x 4 c.seq .copy) x.q))))
      ∧ (∀ b y v, (cmdAddr c).toNat % 8 = 0 → s.seqRead x.q (cmdAddr c) 32 = .val b w →
        (declOf b).csp = false → (declOf b).resv = false → 0 < (declOf b).len → (declOf b).len ≤ 2 ^ 31 →
        y = ({ launch := none, q := x.q, k := 0, csp := false, shared := false, asid := w.qAsid x.q, src := (declOf b).src
               len := (declOf b).len, dst := 0
               stage := some (x.seqOf c.seq, if c.flag then some (c.ev, c.opnd) else none) } : Slice) →
        (w.stageNothing y = (false, v) → Executes (exec (.qstage c) s) { v with slices := v.slices ++ [y] } x 4 c .stage)
        ∧ (w.stageNothing y = (true, v) → c.flag = false → Executes (exec (.qstage c) s) v x 4 c .none)
        ∧ (w.stageNothing y = (true, v) → c.flag = true →
          Executes (exec (.qstage c) s) (v.signal c.ev (c.opnd.setWidth 64)) x 4 c .none)))
  ∧ (∀ (s w : State) (x : Queue) (c : QueueCmd) (k h : Nat) (e : Tok), InTurn s x → s.qRegion x.q (cmdAddr c) = (.inl k, w) →
      e = w.tok k → h = c.opnd.toNat % 2 ^ 24 →
      (6 * 2 ^ 21 ≤ h → QStops (exec (.qlend c) s) s x c 0x02 0)
      ∧ (h < 6 * 2 ^ 21 →
        (e.state = tokHeld → e.holder = rootId → h ≠ rootId → w.cutOff rootId h = false →
          Executes (exec (.qlend c) s) (w.lend k h) x 4 c .none)
        ∧ (e.state = tokHeld → e.holder = rootId → h = rootId → Executes (exec (.qlend c) s) w x 4 c .none)
        ∧ (e.state = tokTransit → e.holder = rootId → Blocks (exec (.qlend c) s) w x c)
        ∧ (e.holder ≠ rootId → QStops (exec (.qlend c) s) w x c 0x06 0))
      ∧ (e.holder = rootId → (e.state = tokHeld ∨ e.state = tokShared) → Executes (exec (.qlendRet c) s) w x 4 c .none)
      ∧ (e.holder ≠ rootId → e.holder = w.qCcg x.q → e.state = tokHeld → e.shares = 0 → e.depth ≠ 0 → x.copies = [] →
        Blocks (exec (.qlendRet c) s) (w.giveBack k) x c)
      ∧ (e.holder ≠ rootId → e.holder ≠ w.qCcg x.q → Blocks (exec (.qlendRet c) s) w x c))
  ∧ (∀ (s w : State) (x : Queue) (c : QueueCmd) (n : Nat), InTurn s x → s.qRegion x.q (cmdAddr c) = (.inr n, w) →
      QStops (exec (.qlendRet c) s) w x c n 0 ∧ (c.opnd.toNat % 2 ^ 24 < 6 * 2 ^ 21 → QStops (exec (.qlend c) s) w x c n 0))

/-- Writes of a driver to a queue. R322, R323, R327, R354. -/
def Obligations.QueueDriverWrites : Prop :=
  (∀ (s : State) (q : Nat) (v : BitVec 64) (x : Queue), s.queue q = some x →
      (x.finished = true → exec (.tail q v) s = .next s)
      ∧ (x.finished = false → v ≠ x.tail →
        (x.tail.toNat ≤ v.toNat → v.toNat ≤ s.qHead q + s.qWords q →
          exec (.tail q v) s = .next (let t := s.mapQueue q fun y => { y with tail := v }
            if x.st = .idle then t.makeReady q else t))
        ∧ ((v.toNat < x.tail.toNat ∨ s.qHead q + s.qWords q < v.toNat) → x.st ≠ .stopped →
          exec (.tail q v) s = .next (s.stopQueue q 0x09 0 0)))
      ∧ (exec (.tail q x.tail) s = .next s)
      ∧ (x.st = .running ∨ x.st = .ready ∨ x.st = .blocked →
        exec (.stop q 1) s = .next (s.mapQueue q fun y => { y with stopReq := true }))
      ∧ (x.st = .idle → exec (.stop q 1) s = .next (s.stopQueue q 0 0 0))
      ∧ (x.st = .stopped ∨ x.st = .done → exec (.stop q 1) s = .next s)
      ∧ (x.st = .stopped → exec (.resume q 2) s = .next (State.moved (State.resumed s q) q))
      ∧ (x.st ≠ .stopped → exec (.resume q 2) s = .next (s.mapQueue q fun y => { y with stopReq := false }))
      ∧ (∀ n seq, x.st = .stopped → x.copies = [] → x.why ≠ 0 → x.why ≠ 9 → (x.why = 2 → x.sub = none) → x.lendStop = false →
        s.cmdLen x = some (n, seq) → exec (.skip q 6) s = .next (State.moved (State.resumed (s.skipPast x n seq) q) q))
      ∧ (∀ c cs, x.st = .stopped → x.copies = c :: cs → c.stopped = true → x.why ≠ 0 → x.why ≠ 9 → x.lendStop = false →
        exec (.skip q 6) s = .next (State.moved (State.resumed (s.endCopy q { c with sig := none }) q) q))
      ∧ (exec (.cancel q 8) s = .next (s.cancel q))
      ∧ (exec (.stop q (v &&& ~~~ 1)) s = .refused (.notEnabled "STOP"))
      ∧ (exec (.resume q (v &&& ~~~ 2)) s = .refused (.notEnabled "RESUME"))
      ∧ (exec (.skip q (v &&& ~~~ 4)) s = .refused (.notEnabled "SKIP"))
      ∧ (exec (.cancel q (v &&& ~~~ 8)) s = .refused (.notEnabled "CANCEL"))
      ∧ ∀ (ev : BitVec 16) (inc : BitVec 64),
        (s.evOn ev (s.qAsid q) = true → s.evHost ev = true → exec (.hostSignal q ev inc) s = .next (s.signal ev inc))
        ∧ ((s.evOn ev (s.qAsid q) && s.evHost ev) = false →
          exec (.hostSignal q ev inc) s = .next (State.putStatus (s.mapQueue q fun y => { y with err := 0x08 }) q)))
  ∧ (∀ (s : State) (q : Nat) (x : Queue), s.queue q = some x → x.st ≠ .done → x.finished = false →
      ∃ t y, exec (.cancel q 8) s = .next t ∧ (∀ l ∈ t.launches, l.q ≠ q) ∧ t.queue q = some y ∧ y.st = .stopped
        ∧ y.copies = [])
  ∧ (∀ (s : State) (q : Nat),
      ((s.queue q).any (fun x => x.st != .done && s.qEn q) = true →
        exec (.queueEnable q) s = .refused (.notEnabled "QUEUE_ENABLE"))
      ∧ ∀ pa u die, ((s.queue q).all (fun x => x.st == .done) = true ∨ s.qEn q = false) → q < 32768 → MemOk s →
        s.statusPa q = (some pa, u) → (s.target pa = .hbm die ∨ s.target pa = .host) →
        ∃ t x, exec (.queueEnable q) s = .next t ∧ t.queue q = some x ∧ x.tail = BitVec.ofNat 64 (s.qHead q)
          ∧ x.consumed = BitVec.ofNat 64 (s.qLast q) ∧ x.completed = x.consumed ∧ x.out = [] ∧ x.copies = [])

/-- Mailbox commands and secure boot. R411 to R417; hashes and signatures are opaque (notes/assumptions/11.md). -/
def Obligations.MailboxCommands : Prop :=
  (∀ (s : State) (c : MailboxCmd), MemOk s → s.boot.st = 4 →
      (∃ t, Responds (exec (.attest c) s) c 0 t ∧ t.boot = s.boot
        ∧ bytesOf 4 (t.mbRd 0x1000 4) = bytesOf 4 0x52414B59 ∧ t.mbRd (0x1000 + 6) 1 = variantCode s.variant
        ∧ t.mbRd (0x1000 + 16) 32 = s.mbRd 0x100 32 ∧ t.mbRd (0x1000 + 80) 32 = s.boot.m.toNat)
      ∧ (∃ t, Responds (exec (.getcert c) s) c 0 t ∧ t.boot = s.boot)
      ∧ (1200 ≤ c.arg0.toNat → c.arg0.toNat ≤ 2800 →
          ∃ t, Responds (exec (.setcap c) s) c 0 t ∧ t.getSys 0 0x870 = c.arg0)
      ∧ ((c.arg0.toNat < 1200 ∨ 2800 < c.arg0.toNat) →
          ∃ t, Responds (exec (.setcap c) s) c 3 t ∧ t.getSys 0 0x870 = s.getSys 0 0x870)
      ∧ (∀ v, s.core.cid = 0 → 0x800 ≤ c.arg0.toNat → s.sysCsr 0 c.arg0.toNat = some v →
          ∃ t, Responds (exec (.mailboxCsrr c) s) c 0 t ∧ t.mbRd 0x020 8 = v)
      ∧ ((c.arg0.toNat < 0x800 ∨ 0x900 ≤ c.arg0.toNat) → (∃ t, Responds (exec (.mailboxCsrr c) s) c 3 t)
          ∧ ∃ t, Responds (exec (.mailboxCsrw c) s) c 3 t)
      ∧ (c.arg0 = 0x836 → c.arg1.toNat < 2 ^ 56 → c.arg1.toNat % 64 = 0 →
          ∃ t, Responds (exec (.mailboxCsrw c) s) c 0 t ∧ t.getSys 0 0x836 = c.arg1)
      ∧ (c.arg0 = 0x823 → ∃ t, Responds (exec (.mailboxCsrw c) s) c 3 t ∧ t.getSys 0 0x823 = s.getSys 0 0x823)
      ∧ (4 ≤ c.arg1.toNat % 8 → ∃ t, Responds (exec (.mailboxTkadm c) s) c 3 t)
      ∧ (∀ r, c.arg1.toNat % 8 < 3 → r = (State.posted s 0x12 c).tkadm c.arg0.toNat (c.arg1.toNat % 8) (c.arg1.toNat / 2 ^ 24 % 2 ^ 24) →
          exec (.mailboxTkadm c) s = .next ((r.2.mbWr 0x020 1 r.1).respond c.seq.toNat 0)))
  ∧ (∀ (s : State) (c : MailboxCmd) (i : Instr), MemOk s →
      i ∈ [.boot c, .attest c, .getcert c, .setcap c, .mailboxCsrr c, .mailboxCsrw c, .mailboxTkadm c] →
      (s.boot.st = 2 ∨ s.boot.st = 3 → exec i s = .next s)
      ∧ (s.boot.st ∉ [2, 3, 4] → i ≠ .boot c → ∃ t, Responds (exec i s) c 1 t ∧ t.boot = s.boot ∧ t.sys = s.sys)
      ∧ (s.boot.st = 4 ∨ s.boot.st = 0 → i = .boot c → ∃ t, Responds (exec i s) c 1 t ∧ t.boot = s.boot))
  ∧ (∀ (s p : State) (c : MailboxCmd) (e : Nat), MemOk s → s.boot.st = 1 ∨ s.boot.st = 5 → p = State.posted s 0x01 c →
      e = p.bootCheck c.arg0.toNat →
      (e ≠ 0 → ∃ t, Responds (exec (.boot c) s) c 4 t
        ∧ t.boot = { s.boot with st := 5, err := BitVec.ofNat 8 e, boots := s.boot.boots + 1 })
      ∧ (e = 0 → ∃ t, Responds (exec (.boot c) s) c 0 t ∧ t.boot.st = 3 ∧ t.boot.err = 0 ∧ t.boot.boots = s.boot.boots + 1
        ∧ t.boot.svn = s.boot.svn ∧ t.boot.revoked = s.boot.revoked ∧ t.boot.keys = s.boot.keys))
  ∧ (∀ (s : State) (len : Nat), s.bootCheck len = 0 →
      len = 4096 + s.mbRd (imageBase + 16) 8 ∧ s.mbRd imageBase 4 = 0x4D464B59 ∧ s.mbRd (imageBase + 9) 1 < 4
      ∧ s.boot.revoked.getLsbD (s.mbRd (imageBase + 9) 1) = false ∧ s.boot.svn.toNat ≤ s.mbRd (imageBase + 6) 2
      ∧ Config.verify (bytesOf 1312 (s.mbRd (imageBase + 64) 1312))
          (bytesOf 32 (Config.sha3 (bytesOf 64 (s.mbRd (imageBase + 0) 64))).toNat)
          (bytesOf 2420 (s.mbRd (imageBase + 1376) 2420)) = true)

/-- Bring-up, resets and loss of power. R406, R410, R411, R414, for a function with at most one queue. -/
def Obligations.BringUpAndReset : Prop :=
  (∀ s : State,
      (s.boot.st = 0 → s.powered = true → ∃ t, exec .romInit s = .next t ∧ t.boot = { s.boot with st := 1 }
        ∧ t.ctx = s.ctx ∧ t.others = s.others)
      ∧ (s.boot.st ≠ 0 → exec .romInit s = .refused (.notEnabled "ROM_INIT"))
      ∧ (∀ ok, s.boot.st = 3 → ∃ t, exec (.fwInit ok) s = .next t ∧ t.boot.st = 4
        ∧ t.boot.svn = (if s.boot.adv = true ∧ s.boot.svn.toNat < s.boot.imgSvn.toNat
            then BitVec.ofNat 6 (min 63 s.boot.imgSvn.toNat) else s.boot.svn)
        ∧ t.die1 = (s.die1 && ok) ∧ t.nodeId < 255 ∧ t.ctx = s.ctx
        ∧ ∀ m ∈ t.mods.toList, m.up = (ok && s.die1Up))
      ∧ (∀ ok, s.boot.st ≠ 3 → exec (.fwInit ok) s = .refused (.notEnabled "FW_INIT")))
  ∧ (∀ (s : State) (k : ResetKind),
      (s.powered = true ∨ k = .powerOn → ∃ t, exec (.reset k) s = .next t ∧ t.boot.st = 0 ∧ t.boot.err = 0
        ∧ t.boot.svn = s.boot.svn ∧ t.boot.revoked = s.boot.revoked ∧ t.boot.keys = s.boot.keys
        ∧ t.boot.boots = (if k = .powerOn then 0 else s.boot.boots) ∧ t.powered = true ∧ t.ctx = {} ∧ t.core = {}
        ∧ t.others = [] ∧ t.sys = [] ∧ t.queues = [] ∧ t.launches = [] ∧ t.variant = s.variant
        ∧ ∀ a, 8 ≤ a → Memory.read t.mem a = Memory.read [] a)
      ∧ (∃ t, exec .powerLoss s = .next t ∧ t.powered = false ∧ t.mem = [] ∧ t.sys = [] ∧ t.ctx = {} ∧ t.others = []
        ∧ t.boot.svn = s.boot.svn ∧ t.boot.keys = s.boot.keys)
      ∧ (s.powered = false → k ≠ .powerOn → exec (.reset k) s = .refused (.notEnabled "RESET")))
  ∧ ((∀ (s : State) (vf : Nat), 1 ≤ vf → vf ≤ 31 → (s.queues.filter fun x => s.qVf x.q == vf) = [] →
      exec (.vfFlr vf) s = .next { s with vfEnable := true })
    ∧ (∀ (s : State) (vf : Nat) (x : Queue), 1 ≤ vf → vf ≤ 31 → (s.queues.filter fun x => s.qVf x.q == vf) = [x] →
      exec (.vfFlr vf) s = .next (State.cancel { s with vfEnable := true } x.q))
    ∧ (∀ (s : State), exec (.vfFlr 0) s = .refused (.notEnabled "VF_FLR"))
    ∧ ∀ s : State, ∃ t, exec .pfFlr s = .next t ∧ t.queues = [] ∧ t.seqs = [] ∧ t.vfEnable = false)

/-- Power and thermal control. R418 to R420; THRCNT and the emergency hold are read as in notes/assumptions/44.md. -/
def Obligations.PowerControl : Prop :=
  (∀ (s : State) (d : PowerSample) (f cap avg tj : Nat) (em : Bool), f = (s.getSys 0 0x872).toNat % 4096 →
      cap = (s.getSys 0 0x870).toNat → avg = min d.watts 4095 → tj = min d.temp 255 → em = (s.getSys 0 0x872).getLsbD 18 →
      600 ≤ f → f ≤ 1800 →
      ∃ t g, exec (.powerControlTick d) s = .next t ∧ (t.getSys 0 0x872).toNat % 4096 = g
        ∧ (t.getSys 0 0x871).toNat = avg ∧ (t.getSys 0 0x873).toNat = tj + min d.hbmTemp 255 * 256
        ∧ (105 ≤ tj → g = 600 ∧ (t.getSys 0 0x872).getLsbD 18 = true)
        ∧ (tj < 105 → (em = false ∨ f ≠ 600 ∨ tj < 90) →
          (cap < avg ∨ 95 ≤ tj → g = max 600 (f - 50))
          ∧ (avg ≤ cap → tj < 95 → 100 * avg < 95 * cap → tj < 90 → g = min 1800 (f + 50))
          ∧ (avg ≤ cap → tj < 95 → (95 * cap ≤ 100 * avg ∨ 90 ≤ tj) → g = f))
        ∧ (90 ≤ tj → tj < 105 → em = true → f = 600 → g = 600)
        ∧ t.trip = (s.trip || decide (115 ≤ tj) || decide (105 ≤ d.hbmTemp))
        ∧ (t.getSys 0 0x874).toNat = (if g < f then ((s.getSys 0 0x874).toNat + 1) % 2 ^ 40 else (s.getSys 0 0x874).toNat)
        ∧ t.ctx = s.ctx ∧ t.mem = s.mem)
  ∧ (∀ (s : State) (w : Nat), (s.getSys 0 0x872).getLsbD 18 = false →
      (2800 < w → ∃ t, exec (.supplyOverdraw w) s = .next t ∧ (t.getSys 0 0x872).toNat % 4096 = 900
        ∧ (t.getSys 0 0x872).getLsbD 18 = true ∧ t.mem = s.mem ∧ t.ctx = s.ctx)
      ∧ (w ≤ 2800 → exec (.supplyOverdraw w) s = .refused (.notEnabled "SUPPLY_OVERDRAW")))

/-- Shuttle modules. R397 to R404, Tables 21-3 to 21-5. -/
def Obligations.ShuttleModules : Prop :=
  (∀ (s : State) (m : Nat) (v : BitVec 64), s.hasMod m = true →
      ((32 ≤ v.toNat ∨ 5 ≤ v.toNat % 8 ∨ (v.toNat % 8 ≠ 0 ∧ s.oden = false)) → exec (.trate m v) s = .next s)
      ∧ (v.toNat < 32 → v.toNat % 8 < 5 → (v.toNat % 8 = 0 ∨ s.oden = true) → ∃ t, exec (.trate m v) s = .next t
        ∧ (t.mod m).trate = v.setWidth 3 ∧ (t.mod m).autosd = v.getLsbD 3 ∧ (t.mod m).off = v.getLsbD 4 ∧ t.ctx.g = s.ctx.g)
      ∧ ((s.mod m).off = false → (s.mod m).trate = 0 → ∃ t, exec (.moduleOff m) s = .next t ∧ (t.mod m).off = true
        ∧ (t.mod m).autosd = (s.mod m).autosd)
      ∧ ((s.mod m).off = true → (s.mod m).trate = 0 → ∃ t, exec (.moduleOffReturn m) s = .next t ∧ (t.mod m).off = false
        ∧ (t.mod m).width = 0)
      ∧ ((s.mod m).off = true → exec (.moduleOff m) s = .refused (.notEnabled "OFF"))
      ∧ ((s.mod m).off = false → exec (.moduleOffReturn m) s = .refused (.notEnabled "OFF_RETURN")))
  ∧ (∀ (s : State) (m : Nat) (d : Fin 2), s.linkUp m = true → m < 16 →
      ((s.mod m).winFlits[d] < 2 ^ 24 →
        exec (.flitDelivery m d) s = .next (s.mapMod m fun x => { x with winFlits := x.winFlits.set d (x.winFlits[d] + 1) }))
      ∧ ((s.mod m).winFlits[d] = 2 ^ 24 → exec (.replayWindowClose m d) s = .next (s.mapMod m fun x => { x with
          winFlits := x.winFlits.set d 0, winReplays := x.winReplays.set d 0, winReported := x.winReported.set d false }))
      ∧ ((s.mod m).winFlits[d] ≠ 2 ^ 24 → exec (.replayWindowClose m d) s = .refused (.notEnabled "REPLAY_WINDOW_CLOSE"))
      ∧ (((s.mod m).limit = 0 ∨ (s.mod m).winReplays[d] < (s.mod m).limit.toNat ∨ (s.mod m).winReported[d] = true) →
        exec (.flitCrcError m d) s = .next (s.mapMod m fun x => { x with
          crcerr := x.crcerr.set d (x.crcerr[d] + 1), replays := x.replays.set d (x.replays[d] + 1)
          winReplays := x.winReplays.set d (x.winReplays[d] + 1) }))
      ∧ ((s.mod m).limit ≠ 0 → (s.mod m).limit.toNat ≤ (s.mod m).winReplays[d] → (s.mod m).winReported[d] = false →
        (s.mod m).autosd = false → ∃ t, exec (.flitCrcError m d) s = .next t ∧ (t.mod m).deg = true
          ∧ (t.mod m).winReported[d] = true ∧ (t.mod m).replays[d] = (s.mod m).replays[d] + 1))
  ∧ (∀ (s : State) (m : Nat), s.hasMod m = true →
      (∀ h b, (upto 16).find? (fun k => (s.mod k).quiesce) = some m → s.drains.find? (fun p => p.1 == h) = some (h, b) → h < 64 →
        ∃ t, exec (.steeringDrain h) s = .next t
          ∧ ∀ k < 64, t.steer.toList.getD k 0 = if k = h then b else s.steer.toList.getD k 0)
      ∧ ((s.mod m).quiesce = true → (s.mod m).trained = false → (s.mod m).change = 1 → s.drains = [] →
          (s.mod m).pendingRet = [] → (s.mod m).widthOf = 64 →
        (∃ t, exec (.trainingComplete m true) s = .next t ∧ (t.mod m).rate = (s.mod m).target ∧ (t.mod m).width = 64
          ∧ (t.mod m).tfail = (s.mod m).tfail)
        ∧ (∃ t, exec (.trainingComplete m false) s = .next t ∧ (t.mod m).rate = (s.mod m).rate ∧ (t.mod m).tfail = true
          ∧ (t.mod m).deg = true))
      ∧ (∀ d lane, (∀ k < 16, (s.mod k).quiesce = false ∧ (s.mod k).change = 0) → (s.mod m).inService = true → d < 2 →
          (s.mod m).laneIn d lane = true → ∃ t, exec (.laneRetirement m d lane) s = .next t
            ∧ (t.mod m).pendingRet = (s.mod m).pendingRet ++ [(d, lane)] ∧ (t.mod m).quiesce = true)
      ∧ ((s.mod m).width ≠ 0 → ∃ t, exec (.mainbandLoss m) s = .next t ∧ (t.mod m).width = 0 ∧ (t.mod m).up = false
          ∧ (t.mod m).deg = true
          ∧ ∀ h < 64, s.steer.toList.getD h 0 = m → s.carriers m ≠ [] → t.steer.toList.getD h 0 ∈ s.carriers m)
      ∧ ((s.mod m).width = 0 → exec (.mainbandLoss m) s = .refused (.notEnabled "MAINBAND_LOSS")))

/-- Loom ports, PCIe link events, fault-queue entries and patrol scrubs. R365, R366, R380, R405, R406. -/
def Obligations.LoomPcieFaults : Prop :=
  (∀ (s : State) (p w : Nat) (peer : BitVec 8) (detail : BitVec 64), s.hasPort p = true →
      ((s.port p).en = true → (s.port p).up = false → ∃ t, exec (.loomPortTrained p peer) s = .next t
        ∧ (t.port p).lanes = 8 ∧ (t.port p).up = true ∧ (t.port p).peer = peer ∧ t.mem = s.mem ∧ t.ctx = s.ctx)
      ∧ ((s.port p).en = false → exec (.loomPortTrained p peer) s = .refused (.notEnabled "LOOM_PORT_TRAINED"))
      ∧ ((s.port p).up = true → (w = 0 ∨ w = 4) → w < (s.port p).lanes.toNat → ∃ t, exec (.loomLaneLoss p w) s = .next t
        ∧ (t.port p).lanes.toNat = w ∧ (t.port p).up = (w != 0) ∧ (t.port p).deg = true)
      ∧ ((s.port p).up = false → exec (.loomLaneLoss p w) s = .refused (.notEnabled "LOOM_LANE_LOSS"))
      ∧ ∃ r, exec (.pcieLinkEvent detail) s = .next (State.linkReport { s with freeCtr := s.freeCtr + 1 } 0 r)
        ∧ r % 2 ^ 16 = 0x31B ∧ r / 2 ^ 16 % 2 ^ 48 = detail.toNat % 2 ^ 48)
  ∧ (∀ (s : State) (e : FqEntry) (ctl head tail base : Nat), e.die < 2 → ctl = (s.getSys e.die 0x821).toNat →
      head = (s.getSys e.die 0x822).toNat → tail = (s.getSys e.die 0x823).toNat →
      base = s.nodeId * 2 ^ 48 + (s.getSys e.die 0x820).toNat % 2 ^ 48 → e.record < 2 ^ 512 → MemOk s →
      (ctl.testBit 8 = true → head ≤ tail → tail - head < 2 ^ (ctl % 32) → ctl % 32 ≤ 16 → tail + 1 < 2 ^ 64 →
        ∃ t, s.fqPost e = t ∧ t.rd (base + 128 * (tail % 2 ^ (ctl % 32))) 64 = e.record
          ∧ t.rd (base + 128 * (tail % 2 ^ (ctl % 32)) + 64) 1 = e.core % 256
          ∧ t.getSys e.die 0x823 = BitVec.ofNat 64 (tail + 1) ∧ t.fqPend = s.fqPend
          ∧ (ctl.testBit 9 = true → t.fqIrq.getLsbD e.die = true) ∧ (ctl.testBit 9 = false → t.fqIrq = s.fqIrq))
      ∧ (ctl.testBit 8 = true → head ≤ tail → 2 ^ (ctl % 32) ≤ tail - head →
        ∃ t, s.fqPost e = t ∧ t.fqPend = s.fqPend ++ [e] ∧ (t.getSys e.die 0x821).getLsbD 10 = true ∧ t.mem = s.mem))
  ∧ (∀ (s : State) (pa die : Nat), s.target pa = .hbm die →
      exec (.patrolScrub pa .clean) s = .next s
      ∧ exec (.patrolScrub pa .correctable) s = .next (s.count die 0x850)
      ∧ ∃ t, exec (.patrolScrub pa .uncorrectable) s = .next t ∧ pa / 64 * 64 ∈ t.poison ∧ t.ctx = s.ctx)

/-- Steps of the block sequencer. R18, R20 to R22, R127, R188, R264, R270, R282, R383. -/
def Obligations.SequencerSteps : Prop :=
  (∀ (s w : State) (n : Nat) (e : TiqEntry), s.ctx.tiq[n]? = some e → s.ctx.run = .running →
      (s.mayIssue n e = true → ∃ t, exec (.issue n 0) s = .next t ∧ t.mem = s.mem ∧ t.ctx.g = s.ctx.g
        ∧ t.ctx.tiles = s.ctx.tiles ∧ t.ctx.tiq.length = s.ctx.tiq.length ∧ (∃ u, t.ctx.tiq[n]? = some u ∧ u.issued = true ∧ u.i = e.i)
        ∧ ∀ k, k ≠ n → t.ctx.tiq[k]? = s.ctx.tiq[k]?)
      ∧ (e.issued = true → exec (.issue n 0) s = .refused (.notEnabled "ISSUE"))
      ∧ (∀ eff, s.returnOk n e = true → effectOf e.i = some eff →
        eff e (if n = 0 then s else { s with ctx := { s.ctx with skipwp := false } }) = .done w →
        exec (.scalarReturn n) s = .next { w with ctx := { w.ctx with
          tiq := modifyAt (fun t => { t with done := true, returned := true }) w.ctx.tiq n
          ilock := w.ctx.ilock.filter fun x => x.seq != e.seq
          skipwp := n != 0 && s.ctx.skipwp } })
      ∧ (n ≠ 0 ∨ e.done = true ∨ e.issued = false → exec (.accessComplete n) s = .refused (.notEnabled "ACCESS_COMPLETE"))
      ∧ (∀ eff, n = 0 → effectOf e.i = some eff → e.issued = true → e.returned = false →
        (e.done = false → s.headEff e eff = .done w → w.ctx.run = .running → w.ctx.tiq ≠ [] →
          exec (.accessComplete n) s = .next { w with ctx := { w.ctx with
            tiq := modifyAt (fun t => { t with done := true, returned := true }) w.ctx.tiq 0
            ilock := w.ctx.ilock.filter fun x => x.seq != e.seq
            skipwp := false, wait := {} } })
        ∧ (∀ b, e.done = false → s.headEff e eff = .block b w →
          exec (.accessComplete n) s = .next { w with ctx := { w.ctx with wait := b } })
        ∧ (e.done = true → s.headEff e eff = .done w → w.ctx.run = .running → w.ctx.tiq ≠ [] → s.core.reedmis = false →
          exec (.retire .clean) s = .next (w.retireHead e))
        ∧ (∀ b, e.done = true → s.headEff e eff = .block b w →
          exec (.retire .clean) s = .next { w with ctx := { w.ctx with wait := b } })
        ∧ (∀ i tes, s.headEff e eff = .trap i tes w →
          exec .contextStop s = .next (State.fault { w with ctx := { w.ctx with skipwp := false } } i tes e.seq e.pc)
          ∧ exec (.retire .mismatch) s = .refused (.notEnabled "RETIRE"))
        ∧ (s.headEff e eff = .done w → exec .contextStop s = .refused (.notEnabled "CONTEXT_STOP")))
      ∧ (n = 0 → e.issued = true → e.done = true → e.returned = true →
        (s.core.reedmis = false → exec (.retire .clean) s = .next (s.retireHead e))
        ∧ (reedChecks e.i = true → s.core.reedmis = false → exec (.retire .mismatch) s = .next { s with
            ctx := { s.ctx with tiq := s.ctx.tiq.map TiqEntry.rested, ilock := [], olds := [] }
            core := { s.core with reedmis := true } })
        ∧ (reedChecks e.i = true → s.core.reedmis = true → (∀ k ∈ s.ctx.copies, k.stolen = []) →
          ∃ t, exec (.retire .mismatch) s = .next t
          ∧ t.ctx.run = .stopped ∧ t.ctx.cause = 0x28 ∧ t.ctx.tiq = s.ctx.tiq.map TiqEntry.rested)))
  ∧ (∀ (s u : State) (i : Info), s.ctx.run = .running → s.nextUnit = (.inl i, u) →
      (s.ctx.tiq = [] → exec .decodeTrap s = .next (u.trapCtl i u.ctx.pc))
      ∧ (s.ctx.tiq ≠ [] → exec .decodeTrap s = .refused (.notEnabled "DECODE_TRAP")))
  ∧ (∀ (s w : State) (c : Nat) (e : TiqEntry) (es : List TiqEntry) (eff : TiqEntry → State → Eff), s.core.cid.toNat = c →
      s.ctx.tiq = e :: es → e.returned = false → s.ctx.run = .running → s.ctx.wait.kind = .txchg →
      (∃ p ∈ s.xchg, some p.1 = s.ctx.launch ∧ p.2.dst = s.ctx.uid.toNat ∧ p.2.k = s.ctx.txcnt.toNat) →
      effectOf e.i = some eff → s.headEff e eff = .done w → w.ctx.run = .running → w.ctx.tiq ≠ [] → w.core.cid = s.core.cid →
      exec (.exchangeDelivery c) s = .next (w.retireHead e))

/-- Pre-emption, descheduling, dispatch, the start of staged groups and resumption. R14, R23, R33, R247, R272, R278, R341 to
R343, R385; the order of dispatch, and the time of the lends, are the model's (notes/assumptions/39.md, 56.md). -/
def Obligations.Scheduling : Prop :=
  (∀ (s : State) (c : Nat) (r : BitVec 8),
      ((s.unitAt c).2.run = .running → ∃ t, exec (.preemptionRequest c) s = .next t ∧ (t.unitAt c).1.prereq = some 1
        ∧ t.ctx = s.ctx ∧ t.mem = s.mem ∧ t.units.map Prod.snd = s.units.map Prod.snd)
      ∧ ((s.unitAt c).2.run ≠ .running → exec (.preemptionRequest c) s = .refused (.notEnabled "PREEMPTION_REQUEST"))
      ∧ (s.ctx.run = .running → s.core.prereq = some r →
        (∀ g, s.group = some g → exec .preemptionStop s = .next (s.preemptGroup g r))
        ∧ (s.groups = [] → s.waiters = [] → (∀ k ∈ s.ctx.copies, k.stolen = []) → (∀ e ∈ s.ctx.tiq, e.returned = false) →
          ∃ t, exec .preemptionStop s = .next t ∧ t.ctx = {} ∧ t.core.prereq = none
          ∧ t.mem = s.mem ∧ t.saved = s.saved ++ [{ s.ctx with
              run := .stopped, reason := r, cause := 0x30, tiq := s.ctx.tiq.map TiqEntry.rested, ilock := [], olds := []
              held := some s.core.cid.toNat }]))
      ∧ (s.core.prereq = none → exec .preemptionStop s = .refused (.notEnabled "PREEMPTION_STOP")))
  ∧ (∀ (s : State) (l g : Nat) (h : Group), s.groups = [h] →
      (Blocked s l g h → exec (.deschedule l g) s = .next (s.preemptGroup h 2))
      ∧ (¬ Blocked s l g h → exec (.deschedule l g) s = .refused (.notEnabled "DESCHEDULE")))
  ∧ (∀ (s : State) (l g : Nat) (L : Launch) (p : List Spot), s.launchOf l = some L → s.mayDispatch L = true →
      (s.resumes L = [] → L.nextFresh = some g → s.freshPlan L g = some p → (∀ d ∈ planDies p, s.isTurn L d = true) →
          ∃ t, exec (.dispatch l g) s = .next t ∧ t.mem = s.mem
            ∧ ∀ x ∈ p, ∃ h ∈ t.groups, h.launch = L.id ∧ h.idx = x.req.idx ∧ h.inst = x.req.inst ∧ h.cgid = L.cgid x.req.idx
              ∧ h.place = some (x.req.die, x.cl) ∧ h.size = L.spad * 65536)
      ∧ (∀ h, s.resumes L = [(h, p)] → h.idx = g → (∀ d ∈ planDies p, s.isTurn L d = true) →
        exec (.dispatch l g) s = .next ((p.foldl (fun s x => s.placeSaved L x) s).served L p))
      ∧ (∀ h v, s.groups = [h] → h.launch ≠ l → s.resumes L = [] → L.nextFresh = some g → s.freshPlan L g = none →
        L.dmr = false → L.place = 1 → s.launchOf h.launch = some v → v.preemptible = true → v.cls < L.cls →
        (∃ k, h.place = some (0, k)) → s.dieUp 0 = true → s.runningOf h ≠ [] →
        exec (.priorityPreemption l g) s = .next (s.preemptGroup h 1)))
  ∧ (∀ (s : State) (h : Group) (L : Launch), s.groups = [h] → s.launchOf h.launch = some L → s.mayStart h = true →
      (h.begun = true → s.startStaged = s.startGroup h)
      ∧ (h.begun = false →
        (∀ u, s.lendAll L.asid (L.lendsOf h.idx) = .ok u → s.startStaged = u.startGroup h)
        ∧ (s.lendAll L.asid (L.lendsOf h.idx) = .wait → s.startStaged = s)
        ∧ (s.lendAll L.asid (L.lendsOf h.idx) = .fail → s.startStaged = s.failLend L)))
  ∧ (∀ (s : State) (c : Nat) (x : Ctx), (s.unitAt c).1.staged = some x → (s.unitAt c).1.cid.toNat = c → c < 256 → x.run = .stopped →
      s.groups = [] → s.gone = [] →
      ((s.unitAt c).2.run = .idle → ∃ t n, exec (.contextResume c) s = .next t ∧ t.mem = s.mem
        ∧ (t.unitAt c).2 = { x with run := .running, frec := none, nextseq := n
                                    copies := x.copies.map fun y =>
                                      if x.reported y then { y with stop := none, stolen := [], checked := y.lowJ }
                                      else { y with stolen := [] } }
        ∧ (x.tiq ≠ [] → ∀ e, x.tiq.getLast? = some e → n = e.seq + 1))
      ∧ ((s.unitAt c).2.run ≠ .idle → exec (.contextResume c) s = .refused (.notEnabled "CONTEXT_RESUME")))
  ∧ (∀ (s : State) (c : Nat), (s.unitAt c).2.run ≠ .idle → s.groups = [] →
      ∃ t, exec (.contextLost c) s = .next t ∧ (t.unitAt c).2 = {})

/-- Strips of copies and merge windows. R86, R243, R246, R247, R319, R331. -/
def Obligations.CopyAndMergeSteps : Prop :=
  (∀ (s w : State) (k n : Nat) (y : Copy), s.ctx.copies[k]? = some y → s.ctx.run = .running → y.stop = none →
      stripMoves y.desc y.done n = true → y.inFlight n = true → s.stripStalls y.desc n = false →
      (w.core.cid = s.core.cid →
        (∀ (z : Copy) m, z = { y with done := n :: y.done, checked := m, stolen := y.stolen.filter fun t => t.1 != n } →
          s.runStrip y.desc s.copyParty y.done y.checked n = .done m w →
          exec (.copyStrip s.core.cid.toNat k n .done) s = .next (State.mapCtx (w.updateChan z) fun x =>
            { x with copies := if z.finished then removeAt x.copies k else modifyAt (fun _ => z) x.copies k }))
        ∧ (∀ f, s.runStrip y.desc s.copyParty y.done y.checked n = .stop f w →
          exec (.copyStrip s.core.cid.toNat k n .done) s = .next { w with ctx := { w.ctx with
            copies := modifyAt (fun c => { c with stop := some f, stolen := y.stolen.filter fun t => t.1 != n })
              w.ctx.copies k } })
        ∧ (∀ a, s.runStrip y.desc s.copyParty y.done y.checked n = .wait a w →
          exec (.copyStrip s.core.cid.toNat k n .done) s = .next w))
      ∧ (∃ f, f.cause = .linkLost ∧ f.wr = true ∧ exec (.copyStrip s.core.cid.toNat k n .linkLost) s = .next { s with
          ctx := { s.ctx with copies := modifyAt (fun c => { c with
            stop := some f, stolen := y.stolen.filter fun t => t.1 != n }) s.ctx.copies k } })
      ∧ (∀ t T, t < 8 → T = s.core.cid.toNat / 8 * 8 + t → (s.unitAt T).2.copies = [] →
        (∀ u ∈ s.units, ∀ z ∈ u.2.copies, ∀ p ∈ z.stolen, p.2.1 ≠ T) → s.core.cid.toNat % 128 < 96 →
        2 ≤ y.unstarted.length → (y.unstarted.filter fun i => decide (i ≤ (((List.range (Desc.strips y.desc)).find? fun i => !y.done.contains i).getD 0) + 255)).getLast?
          = some n →
        exec (.stripSteal s.core.cid.toNat k n (4 * T)) s = .next { s with ctx := { s.ctx with
          copies := modifyAt (fun c => { c with stolen := (n, T, 0) :: c.stolen }) s.ctx.copies k } }))
  ∧ (∀ (s w u v : State) (q n d : Nat) (x : Queue) (y : QCopy) (ys : List QCopy), s.queue q = some x → x.copies = y :: ys →
      y.stopped = false → stripMoves y.desc y.done n = true → s.dstDie q y.desc = (d, u) →
      v = { u with core := { u.core with cid := BitVec.ofNat 8 (128 * d) } } →
      (∀ m, v.runStrip y.desc (v.copyGroup q) y.done y.checked n = .done m w →
        (∃ k < Desc.strips y.desc, k ≠ n ∧ k ∉ y.done) →
        exec (.copyStrip (256 + q) 0 n .done) s = .next (State.mapQueue { w with core := { w.core with cid := s.core.cid } } q
          fun z => { z with copies := modifyAt (fun _ => { y with done := n :: y.done, checked := m }) z.copies 0 }))
      ∧ (∀ f, v.runStrip y.desc (v.copyGroup q) y.done y.checked n = .stop f w →
        exec (.copyStrip (256 + q) 0 n .done) s = .next (State.stopQueue (State.mapQueue
          { w with core := { w.core with cid := s.core.cid } } q fun z => { z with
            copies := modifyAt (fun c => { c with stopped := true }) z.copies 0 }) q 0x05 0 y.seq))
      ∧ (∀ a, v.runStrip y.desc (v.copyGroup q) y.done y.checked n = .wait a w →
        exec (.copyStrip (256 + q) 0 n .done) s = .next { w with core := { w.core with cid := s.core.cid } }))
  ∧ (∀ (s w : State) (f : TileFields) (e : TiqEntry) (es : List TiqEntry), s.ctx.run = .running →
      (∀ eff, s.ctx.tiq = e :: es → e.i = .tldm f → e.returned = false → effectOf e.i = some eff → s.headEff e eff = .done w →
        w.ctx.run = .running → w.ctx.tiq ≠ [] → w.core.cid = s.core.cid →
        exec (.mergeRequest s.core.cid.toNat) s = .next (w.retireHead e))
      ∧ (s.ctx.tiq = [] → exec (.mergeRequest s.core.cid.toNat) s = .refused (.notEnabled "MERGE_REQUEST"))
      ∧ (∀ m < s.merges.length, exec (.mergeWindowExpiry m) s = .next { s with merges := removeAt s.merges m })
      ∧ ∀ m, s.merges.length ≤ m → exec (.mergeWindowExpiry m) s = .refused (.notEnabled "MERGE_WINDOW_EXPIRY"))

/-- Caravan slices, sequencer switches, token arrivals and shootdowns. R340, R344 to R349, R361, R362, R370. -/
def Obligations.StagingSteps : Prop :=
  (∀ (s : State) (k : Nat) (x : Slice), s.slices[k]? = some x →
      (x.st = .wait → x.csp = true → (∃ g ∈ s.groups, x.launch = some g.launch ∧ x.k = g.idx ∧ g.place.isSome = true) →
        exec (.sliceAdmit k) s = .next (s.setSlice k { x with st := .admitted }))
      ∧ (∀ y u, x.st = .wait → x.csp = false → s.admits x (s.admitDie x) = true →
        y = { x with die := s.admitDie x, charge := (x.len + 255) / 256 * 256, st := .admitted } →
        u = (s.setSlice k y).bindSlice y (s.admitDie x) →
        (u.hostSource y = false → exec (.sliceAdmit k) s = .next u)
        ∧ (u.hostSource y = true → exec (.sliceAdmit k) s = .next (u.readySlice k y))
        ∧ (x.launch = none → u = s.setSlice k y))
      ∧ (x.st ≠ .wait → exec (.sliceAdmit k) s = .refused (.notEnabled "SLICE_ADMIT"))
      ∧ (x.st = .admitted → (∀ i < x.nstrips, s.stripAllowed x i = true) → x.csp = false →
        exec (.sliceFill k) s = .next (s.setSlice k { x with st := .fill }))
      ∧ (x.st ≠ .admitted → exec (.sliceFill k) s = .refused (.notEnabled "SLICE_FILL"))
      ∧ (∀ i, x.st = .fill → i < x.nstrips → i ∉ x.strips → s.stripAllowed x i = true → x.csp = false → x.stage = none →
        s.getSys 0 0x835 ≠ 0 →
        ∃ t, exec (.stagingStrip k i) s = .next t ∧ t.ctx = s.ctx ∧ t.groups = s.groups ∧ t.slices = modifyAt (fun _ => { x with
          strips := i :: x.strips
          st := if (List.range x.nstrips).all (fun j => j == i || x.strips.contains j) then .ready else .fill }) s.slices k)
      ∧ (∀ i, i ∈ x.strips → exec (.stagingStrip k i) s = .refused (.notEnabled "STAGING_STRIP")))
  ∧ (∀ (s : State) (l g : Nat) (h : Group) (L : Launch) (c : Ctx), s.groups = [h] → h.launch = l → h.idx = g →
      s.launchOf l = some L → s.others = [] → s.core.staged = some c → h.has c = true → c.run = .ready → s.ctx.run = .idle →
      s.core.reserved = none →
      ((∃ x ∈ s.groupSlices h, s.sliceOk x = false) →
        (∀ u, s.startLends h = .ok u → ∃ t, exec (.stageDeadline l g) s = .next t
          ∧ t.ctx = { c with run := .running } ∧ t.core.staged = none ∧ t.mem = u.mem
          ∧ ∀ M ∈ t.launches, M.id = l → M.late = true)
        ∧ (s.startLends h = .fail → exec (.stageDeadline l g) s = .next (s.failLend L))
        ∧ (s.startLends h = .wait → exec (.stageDeadline l g) s = .refused (.notEnabled "STAGE_DEADLINE")))
      ∧ ((∀ x ∈ s.groupSlices h, s.sliceOk x = true) → exec (.stageDeadline l g) s = .refused (.notEnabled "STAGE_DEADLINE")))
  ∧ (∀ (s t : State) (n q : Nat) (x y : Queue), s.seqs.find? (fun p => p.1 == n) = some (n, x.q) → s.queue x.q = some x →
      t = (s.makeReady x.q).release x.q → t.pickQueue n = some y →
      (y.q = q → 64 ≤ x.ran → (∃ z ∈ s.queues, z.st = .ready ∧ s.qPrio x.q ≤ s.qPrio z.q) →
        exec (.sequencerSwitch n q) s = .next (t.takeQueue n q))
      ∧ ((y.q ≠ q ∨ x.ran < 64 ∨ ∀ z ∈ s.queues, z.st = .ready → s.qPrio z.q < s.qPrio x.q) →
        exec (.sequencerSwitch n q) s = .refused (.notEnabled "SEQUENCER_SWITCH")))
  ∧ (∀ (s : State) (k : Nat), MemOk s → k < s.tokN → (s.tok k).v = true →
      ((s.tok k).state = tokTransit → s.cutOff (s.tok k).giver (s.tok k).holder = false → s.hasEnded (s.tok k).holder = false →
        ∃ t, exec (.tokenAccept k) s = .next t ∧ (t.tok k).state = tokHeld ∧ (t.tok k).holder = (s.tok k).holder
          ∧ (t.tok k).giver = 0 ∧ (t.tok k).depth = (s.tok k).depth ∧ t.ctx = s.ctx
          ∧ ∀ a, (a < s.tokAddr k ∨ s.tokAddr k + 64 ≤ a) → SameByte s t a)
      ∧ ((s.tok k).state ≠ tokTransit → exec (.tokenAccept k) s = .refused (.notEnabled "TOKEN_ACCEPT")))
  ∧ (∀ (s : State) (c : Nat),
      ((∃ x, (c, x) ∈ s.shoot) → ∃ t, exec (.shootdownAck c) s = .next t ∧ t.mem = s.mem ∧ t.ctx = s.ctx
        ∧ t.shoot = s.shoot.filter (fun x => x.1 != c)
        ∧ ∀ e, ((∃ u ∈ t.units, u.1.cid.toNat = c ∧ e ∈ u.1.tlb) ∨ (c / 8, e) ∈ t.clTlb) →
          (c, Stale.all) ∉ s.shoot ∧ (c, Stale.space e.asid) ∉ s.shoot
            ∧ ∀ va, e.va = va / 2 ^ e.size → (c, Stale.page e.asid va) ∉ s.shoot)
      ∧ ((∀ x, (c, x) ∉ s.shoot) → exec (.shootdownAck c) s = .refused (.notEnabled "SHOOTDOWN_ACK")))

/-- Requests of the host and register writes. R359, R365, R376, R394, R408, Tables 18-9, 21-3, 21-6; host data
answered for a held page is free (notes/assumptions/37.md). -/
def Obligations.HostAndRegisters : Prop :=
  (∀ (s : State) (r : HostReq) (pa n : Nat), HbmReq s r pa n → s.boot.st = 4 → MemOk s →
      (s.deviceHeld pa = false → (r.write = true → ∃ t, exec (.hostAccess r) s = .next t ∧ t.hostAbort = false
          ∧ t.rd pa n = r.data.toNat % 2 ^ (8 * n) ∧ t.ctx = s.ctx
          ∧ ∀ a, (a < pa ∨ pa + n ≤ a) → SameByte s t a)
        ∧ (r.write = false → s.isPoisoned pa n = false → Answers (exec (.hostAccess r) s) s (s.rd pa n) false)
        ∧ (∀ old d c new, r.write = true → (n = 4 ∨ n = 8) → r.off % n = 0 → s.isPoisoned pa n = false → old = s.rd pa n →
          d = r.data.toNat % 2 ^ (8 * n) → c = r.cmp.toNat % 2 ^ (8 * n) →
          (r.op, new) ∈ [(some 0#4, (old + d) % 2 ^ (8 * n)), (some 8, d), (some 9, if old = c then d else old)] →
          ∃ t, exec (.hostAtomic r) s = .next t ∧ t.hostOut.toNat = old ∧ t.hostAbort = false ∧ t.rd pa n = new ∧ t.ctx = s.ctx
            ∧ ∀ a, (a < pa ∨ pa + n ≤ a) → SameByte s t a))
      ∧ (s.deviceHeld pa = true → ∃ t, exec (.hostAccess r) s = .next t ∧ t.hostAbort = false ∧ t.ctx = s.ctx
          ∧ ∀ a, (a < pa ∨ pa + n ≤ a) → SameByte s t a)
      ∧ (r.op ∉ [some 0, some 8, some 9] → r.op ≠ none → Answers (exec (.hostAtomic r) s) s 0 true)
      ∧ (n = 16 → r.off % 16 = 0 → s.isHome pa = true → ∃ t, exec (.hostCas128 r) s = .next t ∧ t.hostOut.toNat = s.rd pa 16
          ∧ t.hostAbort = false ∧ t.rd pa 16 = (if s.rd pa 16 = r.cmp.toNat then r.data.toNat % 2 ^ 128 else s.rd pa 16)
          ∧ ∀ a, (a < pa ∨ pa + 16 ≤ a) → SameByte s t a)
      ∧ (s.isHome pa = false → Answers (exec (.hostCas128 r) s) s 0 true)
      ∧ (r.op = none → r.write = true → ∃ t, exec (.peerRequest r) s = .next t ∧ t.rd pa n = r.data.toNat % 2 ^ (8 * n)
          ∧ ∀ a, (a < pa ∨ pa + n ≤ a) → SameByte s t a)
      ∧ (r.op = none → r.write = false → s.isPoisoned pa n = false → Answers (exec (.peerRequest r) s) s (s.rd pa n) false))
  ∧ (∀ (s : State) (r : HostReq),
      (r.fn ≠ 0 → r.off < 0xF00000000000 → Answers (exec (.hostAccess r) s) { s with vfEnable := true } 0 true
        ∧ Answers (exec (.hostAtomic r) s) s 0 true ∧ Answers (exec (.hostCas128 r) s) s 0 true)
      ∧ (r.fn = 0 → 0xF00000000000 ≤ r.off → r.off < 0xF00008000000 → (r.width ≠ 8 ∨ r.off % 8 ≠ 0) →
        Answers (exec (.hostAccess r) s) s 0 false)
      ∧ (r.fn = 0 → s.hbmReq r = true → r.off < 0x10000000 → (s.boot.st = 2 ∨ s.boot.st = 3) → Answers (exec (.hostAccess r) s) s 0 false))
  ∧ (∀ (s : State) (d : Fin 2) (v : BitVec 64) (pa : Nat),
      (s.ctx.run = .running → s.ctx.tiq = [] → v.toNat < 4 → exec (.tscWrite v) s = .next { s with ctx := { s.ctx with
          tsc := v.setWidth 2, tiles := Vector.replicate 32 {}, olds := [] } })
      ∧ (s.ctx.tiq ≠ [] → exec (.tscWrite v) s = .refused (.notEnabled "TSC"))
      ∧ (s.writeFqctl d v = none → exec (.fqctl d v) s = .next s)
      ∧ (v.toNat % 32 < 6 ∨ 16 < v.toNat % 32 → exec (.fqctl d v) s = .next s)
      ∧ (fqEn (s.getSys d 0x821) = false → s.fqPend = [] → (∀ u ∈ s.units, u.1.fqwait = none) → 6 ≤ v.toNat % 32 → v.toNat % 32 ≤ 16 →
        v.toNat / 1024 = 0 → v.toNat / 32 % 8 = 0 → v.getLsbD 8 = true →
        ∃ t, exec (.fqctl d v) s = .next t ∧ (t.getSys d 0x821).toNat % 1024 = v.toNat ∧ t.getSys d 0x822 = 0
          ∧ t.getSys d 0x823 = 0 ∧ t.fqseq[d] = 0 ∧ t.mem = s.mem ∧ t.ctx = s.ctx)
      ∧ (s.fqPend = [] → (∀ u ∈ s.units, u.1.fqwait = none) → exec (.fqhead d v) s = .next
        (State.setSys { s with fqIrq := s.fqIrq &&& ~~~(1#2 <<< d.val) } d 0x822 v))
      ∧ (s.target pa = .nothing → exec (.registerWrite pa v) s = .fault (.unmapped pa))
      ∧ (s.target pa ≠ .nothing → pa % 8 ≠ 0 → exec (.registerWrite pa v) s = .next s)
      ∧ (∀ m < 16, s.variant ≠ .l5 → pa = s.nodeId * 2 ^ 48 + 0xF10000000010 + m * 4096 → v.toNat < 2 ^ 32 →
        ∃ t, exec (.registerWrite pa v) s = .next t ∧ (t.mod m).limit = v.setWidth 32 ∧ t.mem = s.mem ∧ t.ctx = s.ctx
          ∧ s.winRead (0xF10000000010 + m * 4096) = BitVec.ofNat 64 (s.mod m).limit.toNat)
      ∧ (∀ n < 255, pa = s.nodeId * 2 ^ 48 + 0xF20100000000 + n * 8 → v.toNat < 256 → (∀ p < 8, v.getLsbD p = true → s.hasPort p = true) →
        ∃ t, exec (.registerWrite pa v) s = .next t ∧ t.winRead (0xF20100000000 + n * 8) = v ∧ t.mem = s.mem))

/-- A step runs the decoded instruction. R126, R136, R325; turns are the model's schedule (notes/assumptions/1.md). -/
def Obligations.StepRunsDecodedInstruction : Prop :=
  (∀ (s r u : State) (x : Pfx) (w0 w1 : Word) (i : Instr), s.turns = [] → s.powered = true → s.boot.st ∉ [0, 3] →
    r = (State.tick s).settle → s.ctx.run = .running → s.core.prereq = none → r.ctx.run = .running →
    r.ctx.atBreakpoint = false → r.fetchUnit = (.inr (x, w0, w1), u) → decodeUnit u.ctx.system x w0 w1 = .ok i →
    (u.ctx.landp = false ∨ i = .land) →
    (u.ctx.skipbp = false → step s = finish (exec i u))
    ∧ (∀ t, u.ctx.skipbp = true → exec i u = .next t →
      (t.ctx.retd ≠ u.ctx.retd ∨ t.ctx.nextseq ≠ u.ctx.nextseq ∨ (t.ctx.run = .running ∨ t.ctx.run = .stopped) ∧ t.ctx.pc ≠ u.ctx.pc) →
      ∃ k, step s = .next k ∧ k = (t.mapCtx fun c => { c with skipbp := false }).follow))
  ∧ (∀ (s : State) (i : Instr) (ts : List Turn), s.turns = .event i :: ts → encode i = [] →
    step s = finish (exec i { s with turns := ts }))
  ∧ (∀ (s u : State) (n : Nat) (ts : List Turn) (x : Queue) (i : Instr), s.turns = .sequencer n :: ts → n < 32 →
    s.seqs.find? (fun p => p.1 == n) = some (n, x.q) → s.queue x.q = some x → x.ran < 64 →
    State.fetchCmd { s with turns := ts, curq := x.q } x = (.inl i, u) → step s = finish (exec i u))

/-- Fetch and the refusals of decode. R10, R121, R126, R128, Table 06-14. -/
def Obligations.FetchAndDecode : Prop :=
  (∀ (s u : State) (l : Leaf) (pte size pa : Nat) (w : Word), s.ctx.pc.toNat % 4 = 0 →
      s.translate s.ctx.asid s.ctx.pc = (some (l, pte, size), u) → l.cls = 1 → l.x = true → pa = leafPa l size s.ctx.pc →
      u.core.icache = [] → pa % 4 = 0 → u.dataFault true [(pa / 16 * 16, 16)] = none →
      w = BitVec.ofNat 32 (u.rd pa 4) → w.kind ≠ 1 → w.kind ≠ 3 →
      ∃ v, s.fetchUnit = (.inr (none, w, 0), v) ∧ v.ctx = s.ctx ∧ v.mem = u.mem)
  ∧ (∀ (x : Pfx) (w0 w1 : Word) (sys : Bool),
      (w0.getLsbD 0 = false → 0x78 ≤ w0.opcode → decodeUnit sys x w0 w1 = .err ⟨.lifetime, 4⟩)
      ∧ (w0.kind = 1 → 0x3E0 ≤ (w0.extractLsb' 2 10).toNat → decodeUnit sys x w0 w1 = .err ⟨.lifetime, 4⟩)
      ∧ (w0.kind = 3 → decodeUnit sys x w0 w1 = .err ⟨.illegalOp, 2⟩)
      ∧ (∀ r, w0.getLsbD 0 = false → 0x65 ≤ w0.opcode → w0.opcode ≤ 0x6B → decodeCtl w0 none = some r →
        r.i.illegal ≠ some .unassigned → decodeUnit false none w0 w1 = .err ⟨.illegalOp, 5⟩))

/-- Words of the spec decode to their instructions. Examples 06-1, 07-1, 07-2, 08-4, 09-1, 10-1, 10-2, 12-1 and 17-1.
-/
def Obligations.DecodeWords : Prop :=
  (∀ (rest : List Word), (∀ ws i, (ws, i) ∈ [
      ([0x00000013#32, 0x00004242], Instr.aaddi 2 2 0 (some 4)),
      ([0x00823041, 0x00010000], .tadd { td := 3, ta := 1, tb := 2, tc := 0, md := 0, gs := 0, as := 0, p := 0, imm := 1, pfx := none }),
      ([0x00800003, 0x00823041, 0x00014000], .tadd { td := 3, ta := 1, tb := 2, tc := 0, md := 0, gs := 0, as := 0, p := 2, imm := 1
                                                     pfx := some 0x200000 }),
      ([0x00000280], .br 2 none), ([0x000000C6], .nop), ([0x000000C8], .endUnit),
      ([0x0B3C4D5F, 0x9BDE0532], .li 5 0x4DEF0 (some 0x02CF1357)), ([0x12344530], .lui 5 0x91A2 none),
      ([0x001064A6], .lda 4 3 2 none), ([0x00008088], .calli 4), ([0x0000008E], .land), ([0x0000008C], .ret),
      ([0x18820501, 0x00210900], .momu { td := 0, ta := 1, tb := 2, tc := 3, md := 0, gs := 16, as := 4, p := 0, imm := 0x21, pfx := none }),
      ([0x000224C1, 0x00010A00], .map { td := 2, ta := 1, tb := 0, tc := 0, md := 0, gs := 0, as := 5, p := 0, imm := 1, pfx := none }),
      ([0x18821601, 0x00420076], .mma { td := 1, ta := 1, tb := 2, tc := 3, md := 6, gs := 7, as := 0, p := 0, imm := 0x42, pfx := none }),
      ([0x00820609, 0x00420000], .mmsp { td := 0, ta := 1, tb := 2, tc := 0, md := 0, gs := 0, as := 0, p := 0, imm := 0x42, pfx := none }),
      ([0x00001801, 0x00000400], .tld { td := 1, ta := 0, tb := 0, tc := 0, md := 0, gs := 0, as := 2, p := 0, imm := 0, pfx := none })] →
    decodeWords false (ws ++ rest) = some (.ok i, rest)))
  ∧ (∀ w i, (w, i) ∈ [(0x0000000000000150#64, Instr.lrd { ld := 1, la := 0, lb := 0, k := 0, imm := 0 }),
      (0x0000000200204109, .lfcmp { ld := 1, la := 1, lb := 2, k := 0, imm := 2 }),
      (0x0000002104000060, .lnext { ld := 0, la := 0, lb := 0, k := 1, imm := 0x21 }),
      (0x0000000000304403, .lfmul { ld := 4, la := 1, lb := 3, k := 0, imm := 0 }),
      (0x0000000000010051, .lwr { ld := 0, la := 4, lb := 0, k := 0, imm := 0 })] → decodeLane w = .ok i)
  ∧ ∀ a b c d e i, (a, b, c, d, e, i) ∈ [
      (0x0000000000500003#64, 0x100#64, 1#64, 0#64, 0#64, Instr.qwait { flags := 0, ev := 0x50, opnd := 0, seq := 0x100, x0 := 1, x1 := 0, x2 := 0 }),
      (1, 0x101, 0x7000000000, 0, 0, .qlaunch { flags := 0, ev := 0, opnd := 0, seq := 0x101, x0 := 0x7000000000, x1 := 0, x2 := 0 }),
      (0x0000000100510004, 0x102, 0, 0, 0, .qsig { flags := 0, ev := 0x51, opnd := 1, seq := 0x102, x0 := 0, x1 := 0, x2 := 0 }),
      (0x0000000300000005, 0x103, 0, 0, 0, .qintr { flags := 0, ev := 0, opnd := 3, seq := 0x103, x0 := 0, x1 := 0, x2 := 0 })] →
    decodeQueue a b c d e = .ok i

/-- Breakpoints and pending landings. R150, R280, R281, R267. -/
def Obligations.BreakpointsAndLandings : Prop :=
  (∀ (s r : State), s.turns = [] → s.powered = true → s.boot.st ∉ [0, 3] → r = (State.tick s).settle →
      s.ctx.run = .running → s.core.prereq = none → r.ctx.run = .running → r.ctx.tiq = [] →
      (∀ b ∈ r.ctx.bpa.toList, b.getLsbD 0 = true → b.extractLsb' 2 62 = r.ctx.pc.extractLsb' 2 62 → r.ctx.skipbp = false →
        ∃ o f, step s = finish o ∧ Traps o r .breakpoint r.ctx.pc f)
      ∧ (∀ (u : State) (x : Pfx) (w0 w1 : Word) (i : Instr), r.fetchUnit = (.inr (x, w0, w1), u) →
        decodeUnit u.ctx.system x w0 w1 = .ok i → (u.ctx.landp = false ∨ i = .land) →
        ((∀ b ∈ r.ctx.bpa.toList, b.getLsbD 0 = true → b.extractLsb' 2 62 ≠ r.ctx.pc.extractLsb' 2 62) → r.ctx.skipbp = false →
          step s = finish (exec i u))
        ∧ (r.ctx.skipbp = true →
          (∀ t, exec i u = .next t →
            (t.ctx.retd ≠ u.ctx.retd ∨ t.ctx.nextseq ≠ u.ctx.nextseq ∨ (t.ctx.run = .running ∨ t.ctx.run = .stopped) ∧ t.ctx.pc ≠ u.ctx.pc) →
            ∃ k, step s = .next k ∧ k = (t.mapCtx fun c => { c with skipbp := false }).follow)
          ∧ ∀ n p, i = .brk n p → ∃ f, Traps (exec i u) u .breakpoint u.ctx.pc f)))
  ∧ (∀ (s r u : State) (x : Pfx) (w0 w1 : Word), s.turns = [] → s.powered = true → s.boot.st ∉ [0, 3] →
      r = (State.tick s).settle → s.ctx.run = .running → s.core.prereq = none → r.ctx.run = .running → r.ctx.tiq = [] →
      r.ctx.atBreakpoint = false → r.fetchUnit = (.inr (x, w0, w1), u) → u.ctx.landp = true →
      (x ≠ none ∨ w0 ≠ 0x8E) → ∃ o f, step s = finish o ∧ Traps o u .illegalOp u.ctx.pc f)

/-- Decoding the encoding of a control-stream instruction gives it back. R114 to R125, Tables 06-2 to 06-16. -/
def Obligations.ControlStreamRoundTrip : Prop :=
  ∀ (i : Instr) (sys : Bool) (rest : List Word), i.WellFormed → encode i ≠ [] → ¬ LaneRow i → ¬ QueueRow i →
    (i.isSystem = true → sys = true) → decodeWords sys (encode i ++ rest) = some (.ok i, rest)

/-- Lane and queue encodings, and one encoding for each control instruction. R116, R119, R324, Tables 06-13, 06-17,
17-5. -/
def Obligations.OtherTextsRoundTrip : Prop :=
  ((∀ (op : Nat) (f : LaneFields) (i : Instr), laneRow op f = some i → i.WellFormed →
      (encode i).length = 2 ∧ decodeLane (words64 (encode i) 0) = .ok i)
    ∧ ∀ (op : Nat) (c : QueueCmd) (i : Instr) (w : Nat → BitVec 64), queueRow op c = some i → i.WellFormed → w = words64 (encode i) →
      (encode i).length = 2 * queueLen op ∧ decodeQueue (w 0) (w 1) (w 2) (w 3) (w 4) = .ok i)
  ∧ (∀ (sys : Bool) (x : Pfx) (w0 w1 : Word) (i : Instr), decodeUnit sys x w0 w1 = .ok i →
      encode i = (match x with | none => [] | some p => [p ++ 0b11#2]) ++ (if w0.kind = 1 then [w0, w1] else [w0]))

/-- Every step keeps memory in its canonical form. The form is the model's own of the memory that R78 and R359
describe. -/
def Obligations.StepKeepsMemoryCanonical : Prop :=
  ∀ (s t : State), MemOk s → step s = .next t → MemOk t

/-- The state after reset. The reset values of Tables 02-6, 18-9, 21-3, 21-4 and R411; that nothing runs before
ROM_INIT is the model's schedule (notes/assumptions/1.md, 4.md). -/
def Obligations.ResetState : Prop :=
  MemOk State.reset ∧ ∃ c k, State.reset.ctx = c ∧ State.reset.core = k ∧ c.xr = 256 ∧ c.xc = 1024 ∧ c.fcsr = 0 ∧ c.efc = 0 ∧ c.tsc = 0 ∧ c.run = .idle
    ∧ c.splim = 0 ∧ c.landp = false ∧ c.system = false ∧ c.tiq = [] ∧ State.reset.boot.st = 0 ∧ State.reset.powered = true
    ∧ State.reset.getSys 0 0x870 = 2800 ∧ State.reset.getSys 0 0x872 = 1800 ∧ State.reset.getSys 0 0x830 = 50
    ∧ State.reset.getSys 0 0x831 = 100 ∧ State.reset.getSys 0 0x832 = 200 ∧ State.reset.minmod = 1
    ∧ (∀ m < 16, (State.reset.mod m).width = 64 ∧ (State.reset.mod m).spares = 4 ∧ (State.reset.mod m).limit = 256
      ∧ (State.reset.mod m).autosd = true ∧ (State.reset.mod m).up = false)
    ∧ step State.reset = exec .romInit State.reset ∧ k.cid = 0

/-- A tile instruction is skipped, traps, waits or is queued. R3, R15 to R17, R126, R137. -/
def Obligations.PredicateOffSkips : Prop :=
  (∀ (s : State) (op : Nat) (f : TileFields) (i : Instr), tileRow op f = some i →
      (s.ctx.getP f.p = f.negp →
        exec i s = .next { s with ctx := { s.ctx with pc := s.ctx.pc + BitVec.ofNat 72 (4 * TileFields.words f) } })
      ∧ (s.ctx.getP f.p ≠ f.negp → s.lacks i = true → s.ctx.tiq = [] → ∃ r, Traps (exec i s) s .unitAbsent s.ctx.pc r)
      ∧ (s.ctx.getP f.p ≠ f.negp → s.lacks i = false → s.ctx.mustWait (tiqUses i) = true → exec i s = .next s)
      ∧ (s.ctx.getP f.p ≠ f.negp → s.lacks i = false → 64 ≤ s.ctx.tiq.length → exec i s = .next s)
      ∧ (s.ctx.getP f.p ≠ f.negp → s.lacks i = false → s.ctx.mustWait (tiqUses i) = false → s.ctx.tiq.length < 64 → s.eager = false →
        exec i s = .next { s with ctx := { s.ctx with
          tiq := s.ctx.tiq ++ [s.ctx.entryOf i], nextseq := s.ctx.nextseq + 1
          pc := s.ctx.pc + BitVec.ofNat 72 (4 * TileFields.words f) } }))
  ∧ (∀ (s : State) (d a b : BitVec 5) (x : Pfx) (j : BitVec 14) (c : BitVec 12) (i : Instr) (r : Dst),
      r ∈ s.ctx.pending →
      (i, r) ∈ [(Instr.add d a b, Dst.g d), (.add d a b, .g a), (.add d a b, .g b), (.sub d a b, .g a), (.mulh d a b, .g b),
        (.div d a b, .g a), (.sll d a b, .g b), (.addi d a j x, .g a), (.addi d a j x, .g d), (.clz d a, .g a),
        (.csrr d c, .g d), (.csrw d c, .g d), (.sel d a b 0 0, .g b)] →
      exec i s = .next s)

/-- A write is read back and changes nothing else. R10, R78. -/
def Obligations.MemoryReadsBack : Prop :=
  ∀ (s : State) (pa n v : Nat), MemOk s →
    (s.wr pa n v).rd pa n = v % 256 ^ n ∧ MemOk (s.wr pa n v) ∧ (∀ a, (a < pa ∨ pa + n ≤ a) → SameByte s (s.wr pa n v) a)
    ∧ (∀ k < n, Memory.read (s.wr pa n v).mem (pa + k) = BitVec.ofNat 8 (v / 256 ^ k))
    ∧ ((s.wr pa n (s.rd pa n)).mem = s.mem)
end

