-- ==== Sys2Proof/Laws/Control.lean ====
section
/-!
SUPPORT. Sys2Proof/Laws/Control.lean: what the shared operations of the control unit do, once each: an instruction that
puts a value in a register, its wait for a scalar return, and its frame.
-/

namespace Sys2Proof.Laws

open Sys2Proof.Machine Sys2Proof.Safety

/-! ## Register files -/

theorem getG_zero (c : Ctx) : c.getG 0 = 0 := by simp [Ctx.getG]

theorem getG_setG (c : Ctx) (d r : BitVec 5) (v : GWord) :
    (c.setG d v).getG r = if r = 0 then 0 else if r = d then v else c.getG r := by
  unfold Ctx.setG Ctx.getG
  by_cases hr : r = 0
  · rw [if_pos hr, if_pos hr]
  · by_cases h : r = d
    · subst h; simp only [if_neg hr, Vector.getElem_set_self, ite_true]
    · have : d.toNat ≠ r.toNat := fun e => h (BitVec.eq_of_toNat_eq e.symm)
      by_cases hd : d = 0
      · simp only [if_neg hr, if_pos hd, if_neg h]
      · simp only [if_neg hr, if_neg hd, if_neg h, Vector.getElem_set_ne _ _ this]

theorem getP_setP (c : Ctx) (d r : BitVec 3) (v : Bool) :
    (c.setP d v).getP r = if r = 0 then true else if r = d then v else c.getP r := by
  unfold Ctx.setP Ctx.getP
  by_cases hr : r = 0
  · subst hr; rfl
  · have hb : (r == 0) = false := by simpa using hr
    by_cases h : r = d
    · subst h; simp only [if_neg hr, hb, Bool.false_or, Vector.getElem_set_self, ite_true]
    · have : d.toNat ≠ r.toNat := fun e => h (BitVec.eq_of_toNat_eq e.symm)
      by_cases hd : d = 0
      · simp only [if_neg hr, if_pos hd, if_neg h]
      · simp only [if_neg hr, if_neg hd, if_neg h, Vector.getElem_set_ne _ _ this]

theorem getA_setA (c : Ctx) (d r : BitVec 4) (v : Addr) :
    (c.setA d v).getA r = if r = d then v else c.getA r := by
  unfold Ctx.setA Ctx.getA
  by_cases h : r = d
  · subst h; simp
  · have : d.toNat ≠ r.toNat := fun e => h (BitVec.eq_of_toNat_eq e.symm)
    simp [h, this]

/-! ## The wait for scalar returns (R16) -/

theorem mustWait_false {s : State} {ds : List Dst} : s.ctx.mustWait ds = false ↔ NoReturn s ds := by
  simp [Ctx.mustWait, NoReturn, List.any_eq_false]

/-- With no pending return among its registers a control instruction acts. -/
theorem ctlStep_acts {s : State} {ds : List Dst} (h : NoReturn s ds) (t : State) : ctlStep s ds t = .next t := by
  simp [ctlStep, mustWait_false.2 h]

/-- Otherwise nothing happens: the instruction is tried again at the next step. -/
theorem ctlStep_waits {s : State} {ds : List Dst} (h : ¬ NoReturn s ds) (t : State) : ctlStep s ds t = .next s := by
  have : s.ctx.mustWait ds = true := by
    cases h' : s.ctx.mustWait ds
    · exact absurd (mustWait_false.1 h') h
    · rfl
  simp [ctlStep, this]

/-! ## Instructions that write one register -/

theorem setG_eq (c : Ctx) (d : BitVec 5) (v : GWord) : c.setG d v = { c with g := (c.setG d v).g } := by
  unfold Ctx.setG; split <;> rfl

theorem setP_eq (c : Ctx) (d : BitVec 3) (v : Bool) : c.setP d v = { c with p := (c.setP d v).p } := by
  unfold Ctx.setP; split <;> rfl

theorem setG_retd (c : Ctx) (d : BitVec 5) (v : GWord) : (c.setG d v).retd = c.retd := by rw [setG_eq]
theorem setG_pc (c : Ctx) (d : BitVec 5) (v : GWord) : (c.setG d v).pc = c.pc := by rw [setG_eq]
theorem setG_fcsr (c : Ctx) (d : BitVec 5) (v : GWord) : (c.setG d v).fcsr = c.fcsr := by rw [setG_eq]
theorem setP_retd (c : Ctx) (d : BitVec 3) (v : Bool) : (c.setP d v).retd = c.retd := by rw [setP_eq]
theorem setP_pc (c : Ctx) (d : BitVec 3) (v : Bool) : (c.setP d v).pc = c.pc := by rw [setP_eq]
theorem setP_fcsr (c : Ctx) (d : BitVec 3) (v : Bool) : (c.setP d v).fcsr = c.fcsr := by rw [setP_eq]

theorem aluStep_puts {s : State} {d : BitVec 5} {srcs : List (BitVec 5)} (h : NoReturn s ((d :: srcs).map Dst.g))
    (words : Nat) (v : GWord) : PutsG (aluStep d srcs words v s) s d v words := by
  refine ⟨_, ctlStep_acts h _, ?_, ?_, fun _ => rfl⟩
  · intro r; exact getG_setG s.ctx d r v
  · show State.mapCtx s _ = _
    by_cases hd : d = 0
    · subst hd; rfl
    · simp only [State.mapCtx, Ctx.setG, if_neg hd]; rfl

theorem cmpStep_puts {s : State} {d : BitVec 5} {srcs : List (BitVec 5)} (h : NoReturn s (srcs.map Dst.g))
    (words : Nat) (v : Bool) : PutsP (cmpStep d srcs words v s) s (pIdx d) v words := by
  refine ⟨_, ctlStep_acts h _, ?_, ?_, fun _ => rfl⟩
  · intro r; exact getP_setP s.ctx (pIdx d) r v
  · show State.mapCtx s _ = _
    by_cases hd : pIdx d = 0
    · simp only [State.mapCtx, Ctx.setP, if_pos hd]; rfl
    · simp only [State.mapCtx, Ctx.setP, if_neg hd]; rfl

theorem floatStep_puts {s : State} {d : BitVec 5} {srcs : List (BitVec 5)} (h : NoReturn s ((d :: srcs).map Dst.g))
    (r : Res) : PutsF (floatStep d srcs r s) s d r 1 := by
  refine ⟨_, ctlStep_acts h _, ?_, ?_, fun _ => rfl⟩
  · intro k; exact getG_setG s.ctx d k (BitVec.ofNat 64 r.1)
  · show State.mapCtx s _ = _
    by_cases hd : d = 0
    · subst hd; rfl
    · simp only [State.mapCtx, Ctx.setG, if_neg hd]; rfl

theorem addrStep_puts {s : State} {d : BitVec 4} {regs : List Dst} (h : NoReturn s (.a d :: regs))
    (words : Nat) (v : Addr) (hb : s.ctx.stackBad d v = false) : PutsA (addrStep d regs words v s) s d v words := by
  refine ⟨s.mapCtx fun c => (c.setA d v).advance words, ?_, ?_, ?_, fun _ => rfl⟩
  · simp only [addrStep, hb]
    exact ctlStep_acts h _
  · intro r; exact getA_setA s.ctx d r v
  · rfl

/-- A trap of the control unit with nothing older in the TIQ. -/
theorem trapCtl_empty {s : State} (h : s.ctx.tiq = []) (i : Info) (pc : Addr) : s.trapCtl i pc = s.ctlTrap i pc := by
  simp [State.trapCtl, h]

theorem addrStep_stack {s : State} {d : BitVec 4} {regs : List Dst} (h : NoReturn s (.a d :: regs))
    (words : Nat) (v : Addr) (hb : s.ctx.stackBad d v = true) :
    addrStep d regs words v s = .next (s.trapCtl { cause := .stackLimit } s.ctx.pc) := by
  simp only [addrStep, hb]
  exact ctlStep_acts h _

end Sys2Proof.Laws
end

