-- ==== Sys2Proof/Laws/Cores.lean ====
section
/-!
SUPPORT. Sys2Proof/Laws/Cores.lean: what the checks of accesses and the strips of copies leave alone: the running context,
its core, and the other cores (R246, R268, R361).
-/

namespace Sys2Proof.Laws

open Sys2Proof.Machine Sys2Proof.Safety

/-- `t` has the running context of `s`, on the same core, and the same other cores. -/
structure SameCores (s t : State) : Prop where
  ctx : t.ctx = s.ctx
  cid : t.core.cid = s.core.cid
  others : t.others = s.others

namespace SameCores
theorem rfl_ {s : State} : SameCores s s := ⟨rfl, rfl, rfl⟩
theorem trans {s t u : State} (h : SameCores s t) (k : SameCores t u) : SameCores s u :=
  ⟨k.1.trans h.1, k.2.trans h.2, k.3.trans h.3⟩
theorem ite_ {s t u : State} {c : Prop} [Decidable c] (h : SameCores s t) (k : SameCores s u) :
    SameCores s (if c then t else u) := by split <;> assumption
theorem foldl {α : Type} (f : State → α → State) (h : ∀ s x, SameCores s (f s x)) (xs : List α) (s : State) :
    SameCores s (xs.foldl f s) := by
  induction xs generalizing s with
  | nil => exact rfl_
  | cons x xs ih => exact (h s x).trans (ih _)
end SameCores

/-! ## Memory, counters, fault queue -/

theorem wr_cores (s : State) (pa n v : Nat) : SameCores s (s.wr pa n v) := ⟨rfl, rfl, rfl⟩
theorem setSys_cores (s : State) (d n : Nat) (v : BitVec 64) : SameCores s (s.setSys d n v) := ⟨rfl, rfl, rfl⟩
theorem clearPoison_cores (s : State) (r : List (Nat × Nat)) : SameCores s (s.clearPoison r) := ⟨rfl, rfl, rfl⟩
theorem csClean_cores (s : State) (r : List (Nat × Nat)) : SameCores s (s.csClean r) := ⟨rfl, rfl, rfl⟩
theorem csWrite_cores (s : State) (lo n v : Nat) : SameCores s (s.csWrite lo n v) := ⟨rfl, rfl, rfl⟩
theorem fillTok_cores (s : State) (i : Nat) : SameCores s (s.fillTok i) := ⟨rfl, rfl, rfl⟩
theorem setTok_cores (s : State) (i : Nat) (t : Tok) : SameCores s (s.setTok i t) := by
  constructor <;> dsimp only [State.setTok, State.wr]
theorem poison_cores (s : State) (x : List Nat) : SameCores s { s with poison := x } := ⟨rfl, rfl, rfl⟩
theorem shadows_cores (s : State) (x : List Shadow) : SameCores s { s with shadows := x } := ⟨rfl, rfl, rfl⟩
theorem freeCtr_cores (s : State) (x : Nat) : SameCores s { s with freeCtr := x } := ⟨rfl, rfl, rfl⟩
theorem copyPage_cores (s : State) (f p : Nat) : SameCores s (s.copyPage f p) := by
  unfold State.copyPage
  exact (wr_cores s f 65536 _).trans (poison_cores _ _)

theorem fqWrite_cores {s t : State} {d r c a k : Nat} (h : s.fqWrite d r c a k = some t) : SameCores s t := by
  unfold State.fqWrite at h
  simp only [Option.ite_none_right_eq_some, Option.some.injEq] at h
  rw [← h.2]
  by_cases he : fqIe (s.getSys d 2081) = true
  · constructor <;> dsimp only <;> rw [if_pos he] <;> dsimp only [State.setSys, State.wr]
  · constructor <;> dsimp only <;> rw [if_neg he] <;> dsimp only [State.setSys, State.wr]

theorem fqPost_cores (s : State) (e : FqEntry) : SameCores s (s.fqPost e) := by
  unfold State.fqPost
  split
  · rename_i h; exact fqWrite_cores h
  · simp only; split <;> constructor <;> dsimp only [State.setSys]

theorem count_cores (s : State) (d n : Nat) : SameCores s (s.count d n) := by
  unfold State.count
  refine .ite_ (.trans ?_ (fqPost_cores _ _)) (setSys_cores _ _ _ _)
  constructor <;> dsimp only [State.setSys]

/-! ## Translation and checks -/

theorem walkLeaf_cores (s : State) (k : Bool) (asid : BitVec 16) (va : Addr) : SameCores s (s.walkLeaf k asid va).2 := by
  unfold State.walkLeaf
  split
  · exact .rfl_
  · split
    · exact .rfl_
    · exact count_cores _ _ _
    · simp only
      split <;> split <;> constructor <;> dsimp only [State.fillTlb, State.fillL1, State.wr]

theorem translate_cores (s : State) (asid : BitVec 16) (va : Addr) : SameCores s (s.translate asid va).2 := by
  unfold State.translate
  split
  · exact .rfl_
  · split
    · exact ⟨rfl, rfl, rfl⟩
    · exact walkLeaf_cores _ _ _ _

theorem translateFor_cores (s : State) (g : Bool) (asid : BitVec 16) (va : Addr) :
    SameCores s (s.translateFor g asid va).2 := by
  unfold State.translateFor
  split
  · exact walkLeaf_cores _ _ _ _
  · exact translate_cores _ _ _

theorem dmr_cores (s : State) (a : Acc) (cls pa pte size : Nat) : SameCores s (s.dmr a cls pa pte size).2 := by
  unfold State.dmr
  split
  · exact .rfl_
  · simp only
    split
    · exact .rfl_
    · split
      · exact .rfl_
      · split
        · split
          · exact .rfl_
          · exact (copyPage_cores _ _ _).trans (shadows_cores _ _)
        · exact .rfl_

theorem place_cores (s : State) (a : Acc) (cls pa pte size : Nat) : SameCores s (s.place a cls pa pte size).2 := by
  unfold State.place
  split
  · exact .rfl_
  · exact dmr_cores _ _ _ _ _ _

theorem markDirty_cores (s : State) (i : Nat) (ids : List Nat) : SameCores s (s.markDirty i ids) := by
  unfold State.markDirty
  exact .ite_ (setTok_cores _ _ _) .rfl_

theorem check_cores (s : State) (asid : BitVec 16) (ids : List Nat) (a : Acc) (va : Addr) (n : Nat) :
    SameCores s (s.check asid ids a va n).2 := by
  have h := translateFor_cores s a.agent asid va
  unfold State.check
  split
  · rename_i s' h'; rw [h'] at h; exact h
  · rename_i l pte size s' h'
    rw [h'] at h
    simp only
    split
    · exact h
    · split
      · exact h
      · split
        · split
          · exact h
          · split
            · refine (h.trans (.trans ?_ (.ite_ (markDirty_cores _ _ _) .rfl_))).trans (place_cores _ _ _ _ _ _)
              exact .ite_ .rfl_ (fillTok_cores _ _)
            · exact h
        · exact h.trans (place_cores _ _ _ _ _ _)

theorem pageCheck_cores (p : Party) (m : Pages) (va : Addr) (n : Nat) (s : State) :
    SameCores s (s.pageCheck p m va n).2.2 := by
  unfold State.pageCheck
  simp only
  split
  · exact .rfl_
  · have h := check_cores s p.asid p.ids p.acc va n
    split <;> (rename_i h'; rw [h'] at h; exact h)

theorem pieceCheck_cores (p : Party) (n : Nat) (m : Pages) (x : Addr × Nat) (s : State) :
    SameCores s (s.pieceCheck p n m x).2.2 := by
  have h := pageCheck_cores p m x.1 n s
  unfold State.pieceCheck
  split <;> (rename_i h'; rw [h'] at h; exact h)

theorem elemCheck_cores (p : Party) (al : Nat) (m : Pages) (va : Addr) (n : Nat) (s : State) :
    SameCores s (s.elemCheck p al m va n).2.2 := by
  unfold State.elemCheck
  simp only
  generalize pieces va n = qs
  suffices ∀ (st : Option ChkE × Pages × State), SameCores s st.2.2 →
      SameCores s (qs.foldl (fun (st : Option ChkE × Pages × State) x =>
        let q := State.pieceCheck p n st.2.1 x st.2.2
        (some (match st.1 with | some c => c.meet q.1 | none => q.1), q.2)) st).2.2 from this (none, m, s) .rfl_
  induction qs with
  | nil => intro st h; exact h
  | cons x xs ih => intro st h; exact ih _ (h.trans (pieceCheck_cores p n st.2.1 x st.2.2))

theorem vaCheck_cores (p : Party) (al : Nat) (m : Pages) (x : MElem) (s : State) :
    SameCores s (s.vaCheck p al m x).2.2 := elemCheck_cores p al m x.va x.n s

theorem commitDirty_cores (s : State) (asid : BitVec 16) (g : Bool) (va : Addr) :
    SameCores s (s.commitDirty asid g va) := by
  unfold State.commitDirty
  split
  · exact .rfl_
  · have h := translateFor_cores s g asid va
    split
    · rename_i h'; rw [h'] at h; exact h
    · rename_i h'; rw [h'] at h; exact h.trans ⟨rfl, rfl, rfl⟩

theorem commitPages_cores (s : State) (p : Party) (xs : List MElem) : SameCores s (s.commitPages p xs) :=
  .foldl _ (fun s _ => commitDirty_cores s _ _ _) _ _

theorem wrPieces_cores (ps : List (Nat × Nat)) (v : Nat) (s : State) : SameCores s (s.wrPieces ps v) := by
  induction ps generalizing v s with
  | nil => exact .rfl_
  | cons p ps ih => exact (wr_cores s p.1 p.2 v).trans (ih _ _)

theorem writeParts_cores {α : Type} [BEq α] (at_ : Nat → α) (put : Nat → Nat → State → State)
    (hp : ∀ i b s, SameCores s (put i b s)) (line v : Nat) (parts : List (Nat × Nat)) (st : List (α × Nat) × State) :
    SameCores st.2 (writeParts at_ put line v parts st).2 := by
  unfold writeParts
  induction parts generalizing st with
  | nil => exact .rfl_
  | cons r rs ih =>
    refine .trans ?_ (ih _)
    simp only
    split
    · exact .ite_ ((freeCtr_cores _ _).trans (.foldl _ (fun s i => hp i _ s) _ _)) (freeCtr_cores _ _)
    · exact .foldl _ (fun s i => hp i _ s) _ _

/-! ## Strips of copies -/

/-- The machine after a part of a copy, whatever it comes to. -/
def stripState {α : Type} : StripRun α → State
  | .done _ s => s
  | .stop _ s => s
  | .wait _ s => s

theorem copyElem_cores (p : Party) (m : Pages) (cs : Bool) (x : Int) (n : Nat) (s : State) :
    SameCores s (copyElem p m cs x n s).2.2 := by
  unfold copyElem
  split
  · exact .rfl_
  · exact vaCheck_cores _ _ _ _ _

theorem copySide_cores (p : Party) (m : Pages) (cs : Bool) (x : Int) (n : Nat) (s : State) :
    SameCores s (stripState (copySide p m cs x n s)) := by
  have h := copyElem_cores p m cs x n s
  unfold copySide
  split <;> (rename_i h'; rw [h'] at h; exact h)

theorem copyScan_cores (d : Desc) (p : Party) (fuel j : Nat) (ms md : Pages) (s : State) :
    SameCores s (stripState (copyScan d p fuel j ms md s)) := by
  induction fuel generalizing j ms md s with
  | zero => exact .rfl_
  | succ fuel ih =>
    unfold copyScan
    split
    · exact .rfl_
    · have h := copySide_cores (srcParty p) ms d.scs (d.srcAt j) d.size s
      split
      · rename_i h'; rw [h'] at h; exact h
      · rename_i h'; rw [h'] at h; exact h
      · rename_i x t h'
        rw [h'] at h
        have k := copySide_cores (dstParty p) md d.dcs (d.dstAt j) d.size t
        split
        · rename_i h'; rw [h'] at k; exact h.trans k
        · rename_i h'; rw [h'] at k; exact h.trans k
        · rename_i h'; rw [h'] at k; exact (h.trans k).trans (ih _ _ _ _)

theorem copyChunks_cores (d : Desc) (p : Party) (last fuel j : Nat) (s : State) :
    SameCores s (stripState (copyChunks d p last fuel j s)) := by
  induction fuel generalizing j s with
  | zero => exact .rfl_
  | succ fuel ih =>
    unfold copyChunks
    split
    · exact .rfl_
    · have h := copyScan_cores d p (d.count - j) j [] [] s
      split
      · rename_i h'; rw [h'] at h; exact h.trans (ih _ _)
      · exact h

theorem planStrip_cores (d : Desc) (p : Party) (js : List Nat) (ms md : Pages) (acc : List PlanElem) (s : State) :
    SameCores s (stripState (planStrip d p js ms md acc s)) := by
  induction js generalizing ms md acc s with
  | nil => exact .rfl_
  | cons j js ih =>
    unfold planStrip
    have h := copySide_cores (srcParty p) ms d.scs (d.srcAt j) d.size s
    split
    · rename_i h'; rw [h'] at h; exact h
    · rename_i h'; rw [h'] at h; exact h
    · rename_i x t h'
      rw [h'] at h
      simp only
      split
      · exact h
      · have k := copySide_cores (dstParty p) md d.dcs (d.dstAt j) d.size t
        split
        · rename_i h'; rw [h'] at k; exact h.trans k
        · rename_i h'; rw [h'] at k; exact h.trans k
        · rename_i h'; rw [h'] at k
          split
          · exact h.trans k
          · exact (h.trans k).trans (ih _ _ _ _)

theorem copyWrite_cores (d : Desc) (track : Bool) (st : List (Int × Nat) × State) (x : PlanElem) :
    SameCores st.2 (copyWrite d track st x).2 := by
  unfold copyWrite
  simp only
  split
  · exact writeParts_cores _ _ (fun i b s => by split; exacts [csWrite_cores _ _ _ _, wr_cores _ _ _ _]) _ _ _ _
  · simp only
    split
    · exact csWrite_cores _ _ _ _
    · exact wrPieces_cores _ _ _

theorem writeStrip_cores (d : Desc) (p : Party) (done : List Nat) (k : Nat) (xs : List PlanElem) (s : State) :
    SameCores s (writeStrip d p done k xs s) := by
  have h : ∀ (st : List (Int × Nat) × State), SameCores st.2 (xs.foldl (copyWrite d d.mayOverlap) st).2 := by
    induction xs with
    | nil => intro st; exact .rfl_
    | cons x xs ih => intro st; exact (copyWrite_cores d _ st x).trans (ih _)
  unfold writeStrip
  simp only
  split
  · exact (h (_, s)).trans (csClean_cores _ _)
  · exact ((h (_, s)).trans (clearPoison_cores _ _)).trans (commitPages_cores _ _ _)

theorem runStrip_cores (s : State) (d : Desc) (p : Party) (done : List Nat) (checked k : Nat) :
    SameCores s (stripState (s.runStrip d p done checked k)) := by
  unfold State.runStrip
  simp only
  have h := copyChunks_cores d p (min d.count ((k + 1) * d.perStrip) - 1)
    (min d.count ((k + 1) * d.perStrip) - 1 + 1 - checked) checked s
  split
  · rename_i h'; rw [h'] at h; exact h
  · rename_i h'; rw [h'] at h; exact h
  · rename_i t h'
    rw [h'] at h
    refine h.trans ?_
    have k' := planStrip_cores d { p with acc := { p.acc with watched := false } } (stripElems d k) [] [] [] t
    split
    · rename_i h'; rw [h'] at k'; exact k'
    · rename_i h'; rw [h'] at k'; exact k'
    · rename_i h'; rw [h'] at k'; exact k'.trans (writeStrip_cores _ _ _ _ _ _)

/-- `t` differs from `s`, as far as the cores go, in the running context's copies and their channels. -/
def SameButCopies (s t : State) : Prop :=
  t.ctx = { s.ctx with copies := t.ctx.copies, chans := t.ctx.chans } ∧ t.core.cid = s.core.cid ∧ t.others = s.others

namespace SameButCopies
theorem rfl_ {s : State} : SameButCopies s s := ⟨rfl, rfl, rfl⟩
theorem of {s t : State} (h : SameCores s t) : SameButCopies s t := ⟨by rw [h.ctx], h.cid, h.others⟩
theorem trans {s t u : State} (h : SameButCopies s t) (k : SameButCopies t u) : SameButCopies s u :=
  ⟨by rw [k.1, h.1], k.2.1.trans h.2.1, k.2.2.trans h.2.2⟩
theorem foldl {α : Type} (f : State → α → State) (h : ∀ s x, SameButCopies s (f s x)) (xs : List α) (s : State) :
    SameButCopies s (xs.foldl f s) := by
  induction xs generalizing s with
  | nil => exact rfl_
  | cons x xs ih => exact (h s x).trans (ih _)
end SameButCopies

theorem mapCopy_but (s : State) (i : Nat) (f : Copy → Copy) : SameButCopies s (s.mapCopy i f) := ⟨rfl, rfl, rfl⟩

theorem updateChan_but (s : State) (c : Copy) : SameButCopies s (s.updateChan c) := by
  unfold State.updateChan
  simp only
  split
  · exact ⟨rfl, rfl, rfl⟩
  · exact .rfl_

/-- A strip changes the context's copies and their channels, and memory. -/
theorem copyStrip_but (s : State) (i k : Nat) (force : Option Cause) : SameButCopies s (s.copyStrip i k force) := by
  unfold State.copyStrip
  split
  · exact .rfl_
  · simp only
    split
    · exact mapCopy_but _ _ _
    · rename_i c _ _
      have h := runStrip_cores s c.desc s.copyParty c.done c.checked k
      split
      · rename_i h'; rw [h'] at h; exact (SameButCopies.of h).trans (mapCopy_but _ _ _)
      · rename_i h'; rw [h'] at h; exact .of h
      · rename_i h'; rw [h'] at h
        exact ((SameButCopies.of h).trans (updateChan_but _ _)).trans ⟨rfl, rfl, rfl⟩

theorem moveStrip_but (i : Nat) (s : State) (k : Nat) : SameButCopies s (State.moveStrip i s k) := by
  unfold State.moveStrip
  split
  · exact .rfl_
  · split
    · exact .rfl_
    · exact copyStrip_but _ _ _ _

theorem finishStolen_but (s : State) : SameButCopies s s.finishStolen := by
  unfold State.finishStolen
  refine .foldl _ (fun s i => ?_) _ _
  split
  · exact .rfl_
  · exact .foldl _ (fun s k => moveStrip_but i s k) _ _

theorem runCopies_but (s : State) : SameButCopies s s.runCopies := by
  unfold State.runCopies
  refine .foldl _ (fun s i => ?_) _ _
  split
  · exact .rfl_
  · exact .foldl _ (fun s k => moveStrip_but i s k) _ _

end Sys2Proof.Laws
end

