-- ==== Sys2Proof/Laws/Stop.lean ====
section
/-!
SUPPORT. Sys2Proof/Laws/Stop.lean: what the stop at a fault leaves of the context that stops (R264 to R267, R271), and that
the operations on the other cores leave it alone.
-/

namespace Sys2Proof.Laws

open Sys2Proof.Machine Sys2Proof.Safety

/-- `t` has the focused core's running slot and CID of `s`. -/
def SameSlot (s t : State) : Prop := t.ctx = s.ctx ∧ t.core.cid = s.core.cid

theorem SameSlot.rfl_ {s : State} : SameSlot s s := ⟨rfl, rfl⟩
theorem SameSlot.trans {s t u : State} (h : SameSlot s t) (k : SameSlot t u) : SameSlot s u :=
  ⟨k.1.trans h.1, k.2.trans h.2⟩
theorem SameSlot.of {s t : State} (h : SameCores s t) : SameSlot s t := ⟨h.ctx, h.cid⟩

theorem foldl_sameSlot {α : Type} (f : State → α → State) (h : ∀ s x, SameSlot s (f s x)) (xs : List α) (s : State) :
    SameSlot s (xs.foldl f s) := by
  induction xs generalizing s with
  | nil => exact .rfl_
  | cons x xs ih => exact (h s x).trans (ih _)

theorem syncWaits_sameSlot (s : State) (ev : BitVec 16) : SameSlot s (s.syncWaits ev) := ⟨rfl, rfl⟩

theorem dropWaits_sameSlot (s : State) (c : Ctx) (keep : Bool) : SameSlot s (s.dropWaits c keep) := by
  unfold State.dropWaits
  cases keep
  · exact (SameSlot.trans ⟨rfl, rfl⟩ (foldl_sameSlot _ syncWaits_sameSlot _ _))
  · exact ⟨rfl, rfl⟩

theorem reportFault_sameSlot (s : State) (r : FaultRec) : SameSlot s (s.reportFault r) := by
  unfold State.reportFault
  split
  · rename_i s' h; exact (SameSlot.of (fqWrite_cores h)).trans ⟨rfl, rfl⟩
  · simp only
    split <;> exact ⟨rfl, rfl⟩

theorem setUnit_sameSlot (s : State) (cid : Nat) (u : Core × Ctx) (h : s.core.cid.toNat ≠ cid) :
    SameSlot s (s.setUnit cid u) := by
  unfold State.setUnit
  rw [if_neg h]
  split <;> exact ⟨rfl, rfl⟩

/-- A body on another core that leaves the cores' list alone leaves the focused slot alone. -/
theorem onCore_sameSlot (s : State) (cid : Nat) (f : State → State) (h : s.core.cid.toNat ≠ cid) (hc : cid < 256)
    (hf : ∀ t, (f t).core.cid = t.core.cid ∧ (f t).others = t.others) : SameSlot s (s.onCore cid f) := by
  have hk : ((s.others.find? fun u => u.1.cid.toNat == cid).getD ({ cid := BitVec.ofNat 8 cid }, {})).1.cid.toNat = cid := by
    cases hx : s.others.find? fun u => u.1.cid.toNat == cid with
    | none => simp; omega
    | some u => simpa using List.find?_some hx
  have h1 : (f (s.focus cid)).core.cid.toNat ≠ s.core.cid.toNat := by
    rw [(hf _).1]
    unfold State.focus
    rw [if_neg h]
    dsimp only
    rw [hk]; exact fun e => h e.symm
  have h2 : (f (s.focus cid)).others.find? (fun u => u.1.cid.toNat == s.core.cid.toNat) = some (s.core, s.ctx) := by
    rw [(hf _).2]
    unfold State.focus
    rw [if_neg h]
    simp
  unfold State.onCore
  rw [State.focus, if_neg h1]
  dsimp only
  rw [h2]
  exact ⟨rfl, rfl⟩

theorem landStrips_sameSlot (s : State) (cid : Nat) (h : s.core.cid.toNat ≠ cid) (hc : cid < 256) :
    SameSlot s (s.landStrips cid) := by
  unfold State.landStrips
  split
  · exact onCore_sameSlot s cid _ h hc fun t => ⟨(finishStolen_but t).2.1, (finishStolen_but t).2.2⟩
  · exact .rfl_

theorem preemptUnit_sameSlot (s : State) (cid : Nat) (r : BitVec 8) (h : s.core.cid.toNat ≠ cid) (hc : cid < 256) :
    SameSlot s (s.preemptUnit cid r) := by
  unfold State.preemptUnit
  simp only
  split
  · exact .rfl_
  · have h0 := landStrips_sameSlot s cid h hc
    have h1 := h0.trans (dropWaits_sameSlot (s.landStrips cid) (atBoundary ((s.landStrips cid).unitAt cid)).2 (r == 2))
    exact (h1.trans (setUnit_sameSlot _ cid _ (by rw [h1.2]; exact h))).trans ⟨rfl, rfl⟩

theorem preemptUnits_sameSlot (r : BitVec 8) (cs : List Nat) (s : State)
    (h : ∀ c ∈ cs, c ≠ s.core.cid.toNat ∧ c < 256) : SameSlot s (cs.foldl (fun s c => s.preemptUnit c r) s) := by
  induction cs generalizing s with
  | nil => exact .rfl_
  | cons c cs ih =>
    have h1 := preemptUnit_sameSlot s c r (fun e => (h c (by simp)).1 e.symm) (h c (by simp)).2
    exact h1.trans (ih _ fun d hd => by rw [h1.2]; exact h d (by simp [hd]))

theorem preemptMates_sameSlot (s : State) : SameSlot s s.preemptMates := by
  unfold State.preemptMates
  split
  · exact .rfl_
  · refine preemptUnits_sameSlot 1 _ s fun c hc => ?_
    have h := List.mem_filter.1 hc
    refine ⟨by simpa using h.2, ?_⟩
    simp only [State.runningOf, List.mem_map] at h
    obtain ⟨⟨u, _, rfl⟩, _⟩ := h
    exact u.1.cid.isLt

/-- The state in which a fault is taken: strips that other channels have started for the context have completed (R271). -/
theorem landed_but (s : State) :
    SameButCopies s (if s.ctx.copies.any (fun c => !c.stolen.isEmpty) = true then s.finishStolen else s) := by
  split
  · exact finishStolen_but s
  · exact .rfl_

/-- What the stop at a fault leaves of the context (R264, R266): `cs` and `ch` are its copies and channels once the strips
that other channels have started are complete, and `l` its launch's SEQ. -/
theorem fault_ctx (s : State) (i : Info) (tes : Nat) (seq : BitVec 32) (pc : Addr) :
    ∃ cs ch l, (s.fault i tes seq pc).ctx
        = { ({ s.ctx with copies := cs, chans := ch } : Ctx).rest 0 i.cause tes with
            frec := some (i.record { s.ctx with copies := cs, chans := ch } seq pc l) }
      ∧ ((∀ c ∈ s.ctx.copies, c.stolen = []) → cs = s.ctx.copies ∧ ch = s.ctx.chans) := by
  have hb := landed_but s
  generalize hu : (if s.ctx.copies.any (fun c => !c.stolen.isEmpty) = true then s.finishStolen else s) = u at hb
  refine ⟨u.ctx.copies, u.ctx.chans, u.lseq, ?_, fun h => ?_⟩
  · unfold State.fault
    simp only [hu]
    rw [(preemptMates_sameSlot _).1, (reportFault_sameSlot _ _).1]
    show Ctx.mk .. = _
    simp only [(dropWaits_sameSlot u u.ctx false).1, ← hb.1]
  · have : (s.ctx.copies.any fun c => !c.stolen.isEmpty) = false := by
      simp only [List.any_eq_false]
      intro c hc
      simp [h c hc]
    rw [this] at hu
    simp only [if_false, Bool.false_eq_true] at hu
    rw [← hu]; exact ⟨rfl, rfl⟩

/-- A trap of the control unit with nothing in the TIQ. -/
theorem trapCtl_traps (s : State) (i : Info) (pc : Addr) (h : s.ctx.tiq = []) (hp : i.pc = none) :
    ∃ cs ch l, Traps (.next (s.trapCtl i pc)) s i.cause pc
      (i.record { s.ctx with pc := pc, copies := cs, chans := ch } s.ctx.nextseq s.ctx.pc l) := by
  obtain ⟨cs, ch, l, hc, hs⟩ := fault_ctx (s.mapCtx fun c => { c with pc := pc }) i 0 s.ctx.nextseq s.ctx.pc
  have ht : s.trapCtl i pc = (s.mapCtx fun c => { c with pc := pc }).fault i 0 s.ctx.nextseq s.ctx.pc :=
    trapCtl_empty h i pc
  refine ⟨cs, ch, l, _, rfl, ?_, ?_, ?_, ?_, ?_, ?_, ?_⟩
  rotate_left 5
  · rw [ht, hc]; simp only [Ctx.rest, State.mapCtx, h, List.map_nil]; rfl
  · rw [ht, hc]; exact hs
  all_goals simp [Info.record, Info.trim, hp]

end Sys2Proof.Laws
end

