-- ==== Sys2Proof/Laws/Tiq.lean ====
section
/-!
SUPPORT. Sys2Proof/Laws/Tiq.lean: what a TIQ row comes to on a context with nothing in flight: its entry is performed at
once, and retires, stops the context or waits.
-/

namespace Sys2Proof.Laws

open Sys2Proof.Machine Sys2Proof.Safety

theorem mustWait_nil {c : Ctx} (h : c.tiq = []) (ds : List Dst) : c.mustWait ds = false := by
  simp [Ctx.mustWait, Ctx.pending, h]

theorem entryOf_fields (c : Ctx) (i : Instr) :
    (c.entryOf i).i = i ∧ (c.entryOf i).seq = c.nextseq ∧ (c.entryOf i).pc = c.pc ∧ (c.entryOf i).returned = false
      ∧ (c.entryOf i).splim = c.splim := by
  unfold Ctx.entryOf
  simp only
  split
  all_goals first | exact ⟨rfl, rfl, rfl, rfl, rfl⟩ | skip
  split
  · exact ⟨rfl, rfl, rfl, rfl, rfl⟩
  · split <;> exact ⟨rfl, rfl, rfl, rfl, rfl⟩

/-- The fields of a tile row's entry (R137), but for the rows that copy more. -/
theorem entryOf_tile (c : Ctx) (i : Instr) (f : TileFields) (h : fieldsOf i = some f) :
    (c.entryOf i).aop = c.getA f.as ∧ (c.entryOf i).g0 = c.getG f.gs ∧ (c.entryOf i).g1 = c.getG f.tb
      ∧ (c.entryOf i).g2 = c.getG f.tc := by
  unfold Ctx.entryOf
  simp only
  split
  all_goals first | (simp [fieldsOf] at h; done) | skip
  split
  · rename_i h'; rw [h] at h'; cases h'
  · rename_i h'; rw [h] at h'; cases h'
    split <;> exact ⟨rfl, rfl, rfl, rfl⟩

/-- With no copy of the context in progress no strip moves. -/
theorem runAll_nil {s : State} (h : s.ctx.copies = []) : s.runAll = s := by
  unfold State.runAll State.runCopies
  split
  · rw [h]; rfl
  · rfl

/-- With no copy in progress the head entry is performed. -/
theorem headEff_nil {s : State} (h : s.ctx.copies = []) (t : TiqEntry) (e : TiqEntry → State → Eff) :
    s.headEff t e = e t s := by
  have hf : s.ctx.tableFull t.i = false := by
    unfold Ctx.tableFull
    rw [h]
    have : lockNeed t.i ≤ 2 := by unfold lockNeed; split <;> omega
    simp
    intro _; omega
  unfold State.headEff
  rw [hf]; rfl

theorem pushed_copies (s : State) (i : Instr) (words : Nat) : (State.pushed s i words).ctx.copies = s.ctx.copies := rfl

/-- The effect is performed, and the entry retires. -/
theorem toTiq_done {s u : State} {i : Instr} {words : Nat} {e : TiqEntry → State → Eff} (h : Alone s)
    (he : effectOf i = some e)
    (hu : e (s.ctx.entryOf i) (State.pushed s i words) = .done u) (hrun : u.ctx.run = .running) (hq : u.ctx.tiq ≠ []) :
    s.toTiq i words = (u.retireHead (s.ctx.entryOf i)).runAll := by
  have h1 : (State.pushed s i words).ctx.tiq = [s.ctx.entryOf i] := by
    simp [State.pushed, State.push, State.mapCtx, Ctx.skip, h.tiq]
  have h2 : (State.pushed s i words).runAll = State.pushed s i words := runAll_nil h.copies
  have h3 : (State.pushed s i words).performHead = .retired (u.retireHead (s.ctx.entryOf i)) := by
    have := entryOf_fields s.ctx i
    unfold State.performHead
    simp [h1, this, he, headEff_nil (s := State.pushed s i words) h.copies, hu, hrun, hq]
  have h4 : (State.pushed s i words).eager = true := h.eager
  unfold State.toTiq
  rw [mustWait_nil h.tiq, h.tiq]
  show State.settle (State.pushed s i words) = _
  simp [State.settle, h4, h2, h1, State.drain, h3]

/-- The effect faults, and the context stops. -/
theorem toTiq_trap {s u : State} {i : Instr} {words : Nat} {e : TiqEntry → State → Eff} {f : Info} {tes : Nat}
    (h : Alone s) (he : effectOf i = some e) (hu : e (s.ctx.entryOf i) (State.pushed s i words) = .trap f tes u) :
    s.toTiq i words = (u.mapCtx Ctx.tried).entryFault f tes (s.ctx.entryOf i) := by
  have h1 : (State.pushed s i words).ctx.tiq = [s.ctx.entryOf i] := by
    simp [State.pushed, State.push, State.mapCtx, Ctx.skip, h.tiq]
  have h2 : (State.pushed s i words).runAll = State.pushed s i words := runAll_nil h.copies
  have h3 : (State.pushed s i words).performHead = .stopped ((u.mapCtx Ctx.tried).entryFault f tes (s.ctx.entryOf i)) := by
    have := entryOf_fields s.ctx i
    unfold State.performHead
    simp [h1, this, he, headEff_nil (s := State.pushed s i words) h.copies, hu]
  have h4 : (State.pushed s i words).eager = true := h.eager
  unfold State.toTiq
  rw [mustWait_nil h.tiq, h.tiq]
  show State.settle (State.pushed s i words) = _
  simp [State.settle, h4, h2, h1, State.drain, h3]

/-- The effect waits: its entry stays at the head. -/
theorem toTiq_block {s u : State} {i : Instr} {words : Nat} {e : TiqEntry → State → Eff} {w : Wait}
    (h : Alone s) (he : effectOf i = some e) (hu : e (s.ctx.entryOf i) (State.pushed s i words) = .block w u) :
    s.toTiq i words = u.mapCtx fun c => { c with wait := w } := by
  have h1 : (State.pushed s i words).ctx.tiq = [s.ctx.entryOf i] := by
    simp [State.pushed, State.push, State.mapCtx, Ctx.skip, h.tiq]
  have h2 : (State.pushed s i words).runAll = State.pushed s i words := runAll_nil h.copies
  have h3 : (State.pushed s i words).performHead = .blocked (u.mapCtx fun c => { c with wait := w }) := by
    have := entryOf_fields s.ctx i
    unfold State.performHead
    simp [h1, this, he, headEff_nil (s := State.pushed s i words) h.copies, hu]
  have h4 : (State.pushed s i words).eager = true := h.eager
  unfold State.toTiq
  rw [mustWait_nil h.tiq, h.tiq]
  show State.settle (State.pushed s i words) = _
  simp [State.settle, h4, h2, h1, State.drain, h3]

/-- A tile row that issues goes to the TIQ. -/
theorem tileExec_issues {s : State} {i : Instr} {f : TileFields} (h : Issues s i f) :
    tileExec i f s = .next (s.toTiq i (TileFields.words f)) := by
  have : 2 + pfxLen f.pfx = TileFields.words f := by
    unfold pfxLen TileFields.words; split <;> rfl
  simp [tileExec, h.1, h.2, this]

/-- An effect that only changes the destination's part of the context: the state of the statements. -/
theorem retire_ran {s : State} {i : Instr} {words : Nat} (c : Ctx)
    (u : State) (hu : u = { State.pushed s i words with ctx := { c with
      tiq := [s.ctx.entryOf i], nextseq := s.ctx.nextseq + 1, pc := s.ctx.pc + BitVec.ofNat 72 (4 * words) } })
    (hc : c.retd = s.ctx.retd) (hl : c.ilock = []) (hn : c.olds = []) :
    u.retireHead (s.ctx.entryOf i) = State.ran s i words c := by
  have := entryOf_fields s.ctx i
  subst hu
  simp only [State.retireHead, Ctx.retire, Core.retire, State.mapCtx, State.ran, this, State.pushed, State.push, hl, hn,
    hc, freeOlds, List.tail, List.map_nil, List.filter_nil]

end Sys2Proof.Laws
end

