-- ==== Sys2Proof/Laws/Access.lean ====
section
/-!
SUPPORT. Sys2Proof/Laws/Access.lean: what the check of a permitted scalar access comes to (R268).
-/

namespace Sys2Proof.Laws

open Sys2Proof.Machine Sys2Proof.Safety

/-- The check of an access leaves the context alone. -/
theorem check_ctx (s : State) (asid : BitVec 16) (ids : List Nat) (a : Acc) (va : Addr) (n : Nat) :
    (s.check asid ids a va n).2.ctx = s.ctx := (check_cores s asid ids a va n).ctx

/-- A naturally aligned access lies in one piece. -/
theorem pieces_aligned {va : Addr} {n : Nat} (h : va.toNat % n = 0) (hn : n ∣ 65536) :
    pieces va n = [(va, n)] := by
  obtain ⟨k, hk⟩ := hn
  obtain ⟨m, hm⟩ := Nat.dvd_of_mod_eq_zero h
  have : va.toNat % 65536 = n * (m % k) := by rw [hm, hk, Nat.mul_mod_mul_left]
  have hk0 : 0 < k := by rcases Nat.eq_zero_or_pos k with rfl | h'
                         · omega
                         · exact h'
  have h2 : m % k + 1 ≤ k := Nat.mod_lt _ hk0
  have h3 : n * (m % k) + n ≤ 65536 := by
    calc n * (m % k) + n = n * (m % k + 1) := by ring
      _ ≤ n * k := Nat.mul_le_mul_left n h2
      _ = 65536 := hk.symm
  unfold pieces
  simp only
  rw [if_pos (by omega)]

/-- The check of a naturally aligned scalar access that is permitted. -/
theorem vaCheck_reaches {s u : State} {a : Acc} {va : Addr} {n pa cls : Nat} (h : Reaches s a va n pa cls u)
    (hn : n ∣ 65536) :
    ∃ m, s.vaCheck (s.party a) n [] { va := va, n := n } = (.ok [(pa, n)] cls, m, u) := by
  refine ⟨[(va.toNat / 65536, pa - va.toNat % 65536, cls)], ?_⟩
  have hc : s.pieceCheck (s.party a) n [] (va, n)
      = (.ok [(pa, n)] cls, [(va.toNat / 65536, pa - va.toNat % 65536, cls)], u) := by
    simp [State.pieceCheck, State.pageCheck, State.party, h.check]
  have hw : s.watchMeets (s.party a).acc false va.toNat n = false := h.watch
  simp [State.vaCheck, State.elemCheck, pieces_aligned h.aligned hn, hc, h.aligned, hw]

/-- The check of a naturally aligned scalar access that a page's check refuses. -/
theorem vaCheck_fault {s u : State} {a : Acc} {va : Addr} {n : Nat} {c : Cause} (ha : va.toNat % n = 0)
    (hw : s.watchMeets a false va.toNat n = false) (hc : s.check s.ctx.asid s.ctx.ids a va n = (.fault c, u))
    (hn : n ∣ 65536) :
    ∃ m, s.vaCheck (s.party a) n [] { va := va, n := n } = (.fault c none, m, u) := by
  refine ⟨[], ?_⟩
  have hc : s.pieceCheck (s.party a) n [] (va, n) = (.fault c none, [], u) := by
    simp [State.pieceCheck, State.pageCheck, State.party, hc]
  have hw : s.watchMeets (s.party a).acc false va.toNat n = false := hw
  simp [State.vaCheck, State.elemCheck, pieces_aligned ha hn, hc, ha, hw]

end Sys2Proof.Laws
end

