-- ==== Sys2Proof/Laws/Encoding.lean ====
section
/-!
SUPPORT. Sys2Proof/Laws/Encoding.lean: how the words of an encoding are split into a unit again, and the fields of a tile
unit's words (R119, R123).
-/

namespace Sys2Proof.Laws

/-- A field above the lowest of two joined fields. -/
theorem extract_high {m n : Nat} (x : BitVec m) (y : BitVec n) (i w : Nat) (h : n ≤ i) :
    (x ++ y).extractLsb' i w = x.extractLsb' (i - n) w := by
  ext j hj
  simp [BitVec.getElem_extractLsb', BitVec.getLsbD_append]
  have : ¬ i + j < n := by omega
  have e : i + j - n = i - n + j := by omega
  simp [this, e]

/-- A field within the lowest of two joined fields. -/
theorem extract_low {m n : Nat} (x : BitVec m) (y : BitVec n) (i w : Nat) (h : i + w ≤ n) :
    (x ++ y).extractLsb' i w = y.extractLsb' i w := by
  ext j hj
  simp [BitVec.getElem_extractLsb', BitVec.getLsbD_append]
  have : i + j < n := by omega
  simp [this]

/-- The lowest field whole. -/
theorem extract_all {n : Nat} (x : BitVec n) : x.extractLsb' 0 n = x := by simp

/-- A prefix word has kind 3 and carries its payload. -/
theorem kind_pfx (p : BitVec 30) : (pfxWord p).kind = 3 ∧ (pfxWord p).extractLsb' 2 30 = p := by
  constructor
  · unfold Word.kind pfxWord; rw [extract_low _ _ _ _ (by omega)]; rfl
  · unfold pfxWord; rw [extract_high _ _ _ _ (by omega)]; exact extract_all p

/-- A control unit, with its prefix, is split off whole. -/
theorem splitUnit_ctl (p : Pfx) {w : Word} (h1 : w.kind ≠ 1) (h3 : w.kind ≠ 3) (rest : List Word) :
    splitUnit (pfxWords p ++ w :: rest) = some (p, w, 0, rest) := by
  cases p with
  | none => simp [pfxWords, splitUnit, h1, h3]
  | some p => simp [pfxWords, splitUnit, h1, kind_pfx]

/-- A tile unit, with its prefix, is split off whole. -/
theorem splitUnit_tile (p : Pfx) {w v : Word} (h1 : w.kind = 1) (rest : List Word) :
    splitUnit (pfxWords p ++ w :: v :: rest) = some (p, w, v, rest) := by
  cases p with
  | none => simp [pfxWords, splitUnit, h1]
  | some p => simp [pfxWords, splitUnit, h1, kind_pfx]

/-- The fields of a tile unit's two words. -/
theorem tileFields_words (op : BitVec 10) (f : TileFields) :
    tileFields (f.tc ++ f.tb ++ f.ta ++ f.td ++ op ++ 0b01#2) (f.imm ++ f.p ++ f.as ++ f.gs ++ f.md) f.pfx = f := by
  cases f
  simp only [tileFields]
  congr 1 <;> (try rw [extract_high _ _ _ _ (by omega)]) <;> (try rw [extract_high _ _ _ _ (by omega)]) <;>
    (try rw [extract_high _ _ _ _ (by omega)]) <;> (try rw [extract_high _ _ _ _ (by omega)]) <;>
    (try rw [extract_high _ _ _ _ (by omega)]) <;> (try rw [extract_low _ _ _ _ (by omega)]) <;> exact extract_all _

end Sys2Proof.Laws
end

