-- ==== Sys2Proof/Laws/Lanes.lean ====
section
/-!
SUPPORT. Sys2Proof/Laws/Lanes.lean: what the shared operations of the lane rows do in one lane and in all
(R197, R198).
-/

namespace Sys2Proof.Laws

open Sys2Proof.Machine Sys2Proof.Safety

/-- A row acts in the lanes it acts in, and leaves the others (R198). -/
theorem laneAct_eq (f : LaneFields) (l : Lane) (g : Lane → Lane) : (Acts f l → laneAct f l g = g l) ∧ (¬ Acts f l → laneAct f l g = l) := by
  have h : (l.on && l.trap.isNone && lanePred f l) = true ↔ Acts f l := by
    simp [Acts, Live, lanePred, kIdx, Option.isNone_iff_eq_none, and_assoc]
  constructor
  · intro a; rw [laneAct, if_pos (h.2 a)]
  · intro a; rw [laneAct, if_neg (fun b => a (h.1 b))]

/-- The same for a row that takes no predicate. -/
theorem laneActAll_eq (l : Lane) (g : Lane → Lane) : (Live l → laneActAll l g = g l) ∧ (¬ Live l → laneActAll l g = l) := by
  have h : (l.on && l.trap.isNone) = true ↔ Live l := by simp [Live, Option.isNone_iff_eq_none]
  constructor
  · intro a; rw [laneActAll, if_pos (h.2 a)]
  · intro a; rw [laneActAll, if_neg (fun b => a (h.1 b))]

/-- A lane row does to each lane what it does to one. -/
theorem laneExec_does (g : Lane → Lane) (s : State) (R : Lane → Lane → Prop) (h : ∀ l, R l (g l)) : LanesDo (laneExec g s) s R := by
  refine ⟨_, rfl, rfl, by simp, ?_⟩
  intro n l u h1 h2
  simp [h1] at h2
  subst h2; exact h l

/-- A lane register read after a write. -/
theorem lane_get_set (l : Lane) (d r : BitVec 6) (v : Nat) : (l.set d v).get r = if r = d then v % 2 ^ 32 else l.get r := by
  simp only [Lane.get, Lane.set]
  by_cases h : r = d
  · subst h; simp
  · have : d.toNat ≠ r.toNat := fun e => h (BitVec.eq_of_toNat_eq e.symm)
    simp [h, Vector.getElem_set_ne, this]

/-- A 32-bit result. -/
theorem putsL_set (l : Lane) (d : BitVec 6) (v : Nat) : PutsL 32 l (l.set d v) d v 0 := by
  refine ⟨by simp [Lane.set], fun r => ?_⟩
  simp [lane_get_set]

/-- A result of 32 or 64 bits with its flags. -/
theorem putsL_setW (w : Nat) (l : Lane) (d : BitVec 6) (v : Nat) (fl) (h : w = 64 → d.getLsbD 0 = false) : PutsL w l ((l.setW w d v).raise fl) d v fl := by
  unfold Lane.setW; split
  · rename_i hw
    refine ⟨by simp [Lane.setPair, Lane.set, Lane.raise], fun r => ?_⟩
    have : (((l.setPair d v).raise fl).get r) = (l.setPair d v).get r := rfl
    rw [this, Lane.setPair, lane_get_set, lane_get_set]
    have e : d ||| 1 ≠ d := by
      intro e; have := congrArg (BitVec.getLsbD · 0) e; have h3 := h hw; simp at h3; simp [h3] at this
    by_cases h1 : r = d
    · subst h1; simp; intro e'; exact absurd e'.symm e
    · simp [h1, hw, Nat.shiftRight_eq_div_pow]
  · rename_i hw
    refine ⟨by simp [Lane.set, Lane.raise], fun r => ?_⟩
    have : (((l.set d v).raise fl).get r) = (l.set d v).get r := rfl
    rw [this, lane_get_set]; simp [hw]

/-- A value of 32 or 64 bits. -/
theorem getW_eq (w) (l : Lane) (r) : l.getW w r = lword w l r := by
  unfold Lane.getW lword Lane.getPair; rw [Nat.shiftLeft_eq]

/-- A lane predicate read after a write. -/
theorem lane_getK_setK (l : Lane) (d v r) : (l.setK d v).getK r = if r = 0 then true else if r = d then v else l.getK r := by
  by_cases hd : d = 0
  · have : l.setK d v = l := by simp [Lane.setK, hd]
    rw [this]; by_cases h0 : r = 0
    · simp [h0, Lane.getK]
    · rw [if_neg h0, if_neg (by rw [hd]; exact h0)]
  · have : l.setK d v = { l with k := l.k.set d.toNat v d.isLt } := if_neg hd
    rw [this]
    by_cases h0 : r = 0
    · simp [h0, Lane.getK]
    · by_cases h : r = d
      · subst h; rw [if_neg h0, if_pos rfl]; simp only [Lane.getK, beq_eq_false_iff_ne.2 h0]; simp
      · have h3 : d.toNat ≠ r.toNat := fun e => h (BitVec.eq_of_toNat_eq e.symm)
        rw [if_neg h0, if_neg h]; simp only [Lane.getK, Vector.getElem_set_ne _ _ h3]

/-- A predicate result with its flags. -/
theorem putsK_setK (l : Lane) (d v) (fl) : PutsK l ((l.setK d v).raise fl) d v fl := by
  refine ⟨by simp [Lane.setK, Lane.raise]; split <;> simp, fun r => ?_⟩
  exact lane_getK_setK l d v r

/-- The low three bits of a field. -/
theorem extract_setWidth3 (x : BitVec 6) : x.extractLsb' 0 3 = x.setWidth 3 := by ext i; simp

end Sys2Proof.Laws
end

