-- ==== Sys2Proof/Laws/Links.lean ====
section
/-!
SUPPORT. Sys2Proof/Laws/Links.lean: a module read after a change of a module.
-/

namespace Sys2Proof.Laws

open Sys2Proof.Machine Sys2Proof.Safety

/-- A module after a change of module m. -/
theorem mod_map (s : State) (m n f) (h : n < 16) : (s.mapMod m f).mod n = if n = m then f (s.mod n) else s.mod n := by
  simp [State.mod, State.mapMod, h, List.getD]

end Sys2Proof.Laws
end

