-- ==== Sys2Proof/Laws/Tiles.lean ====
section
/-!
SUPPORT. Sys2Proof/Laws/Tiles.lean: bit strings read after a write, the elements of a row-major or column-major tile after
a fill, and the tile registers.
-/

namespace Sys2Proof.Laws

open Sys2Proof.Machine Sys2Proof.Safety

/-! ## Bit strings -/

theorem testBit_getBits (b p w j : Nat) : (getBits b p w).testBit j = (decide (j < w) && b.testBit (p + j)) := by
  simp [getBits, Nat.testBit_mod_two_pow, Nat.testBit_shiftRight]

theorem testBit_putBits (b p w v j : Nat) :
    (putBits b p w v).testBit j = if p ≤ j ∧ j < p + w then v.testBit (j - p) else b.testBit j := by
  unfold putBits
  rw [Nat.testBit_xor, Nat.testBit_shiftLeft, Nat.testBit_xor, testBit_getBits, Nat.testBit_mod_two_pow]
  by_cases h : p ≤ j
  · by_cases h2 : j < p + w
    · have : j - p < w := by omega
      have e : p + (j - p) = j := by omega
      simp [h, h2, this, e]
    · have : ¬ j - p < w := by omega
      simp [h, h2, this]
  · simp [h]

/-- The bits just written, cut to the width. -/
theorem getBits_putBits_same (b p w v : Nat) : getBits (putBits b p w v) p w = v % 2 ^ w := by
  apply Nat.eq_of_testBit_eq
  intro j
  rw [testBit_getBits, testBit_putBits, Nat.testBit_mod_two_pow]
  by_cases h : j < w
  · have : j + p - p = j := by omega
    simp [h]
  · simp [h]

/-- Bits elsewhere are as they were. -/
theorem getBits_putBits_other (b p w v q n : Nat) (h : q + n ≤ p ∨ p + w ≤ q) :
    getBits (putBits b p w v) q n = getBits b q n := by
  apply Nat.eq_of_testBit_eq
  intro j
  rw [testBit_getBits, testBit_getBits, testBit_putBits]
  by_cases hj : j < n
  · have : ¬ (p ≤ q + j ∧ q + j < p + w) := by omega
    simp [this]
  · simp [hj]

/-! ## Elements -/

/-- Two elements of a row-major or column-major tile have one index only if they are the same element (R57). -/
theorem index_inj {s : Sr} {r c r' c' : Nat} (hr : r < s.rows) (hc : c < s.cols) (hr' : r' < s.rows) (hc' : c' < s.cols)
    (h : s.index r c = s.index r' c') : r = r' ∧ c = c' := by
  unfold Sr.index at h
  split at h
  · have h1 := congrArg (· % s.rows) h
    have h2 := congrArg (· / s.rows) h
    simp only [Nat.mul_add_mod_of_lt hr, Nat.mul_add_mod_of_lt hr'] at h1
    have hp : 0 < s.rows := by omega
    simp only [Nat.mul_comm _ s.rows, Nat.mul_add_div hp, Nat.div_eq_of_lt hr, Nat.div_eq_of_lt hr'] at h2
    exact ⟨h1, by simpa using h2⟩
  · have h1 := congrArg (· % s.cols) h
    have h2 := congrArg (· / s.cols) h
    simp only [Nat.mul_add_mod_of_lt hc, Nat.mul_add_mod_of_lt hc'] at h1
    have hp : 0 < s.cols := by omega
    simp only [Nat.mul_comm _ s.cols, Nat.mul_add_div hp, Nat.div_eq_of_lt hc, Nat.div_eq_of_lt hc'] at h2
    exact ⟨by simpa using h2, h1⟩

theorem put_sr (t : Tile) (r c v : Nat) : (t.put r c v).sr = t.sr := by
  unfold Tile.put; split <;> rfl

theorem get_flat {t : Tile} (h : t.sr.layout < 2) (r c : Nat) :
    t.get r c = getBits t.slot (t.sr.w * t.sr.index r c) t.sr.w := by
  unfold Tile.get; split <;> first | (exfalso; omega) | rfl

theorem put_flat {t : Tile} (h : t.sr.layout < 2) (r c v : Nat) :
    t.put r c v = { t with
      slot := Tile.padded t.sr (t.sr.index r c) (putBits t.slot (t.sr.w * t.sr.index r c) t.sr.w v) } := by
  unfold Tile.put; split <;> first | (exfalso; omega) | rfl

/-- An element's index is one of rows * cols. -/
theorem index_lt {s : Sr} {r c : Nat} (hr : r < s.rows) (hc : c < s.cols) : s.index r c + 1 ≤ s.rows * s.cols := by
  unfold Sr.index
  split
  · have : (c + 1) * s.rows ≤ s.cols * s.rows := Nat.mul_le_mul_right _ hc
    rw [Nat.add_mul] at this
    rw [Nat.mul_comm s.rows]; omega
  · have : (r + 1) * s.cols ≤ s.rows * s.cols := Nat.mul_le_mul_right _ hr
    rw [Nat.add_mul] at this; omega

/-- Padding bits are no element's (R57). -/
theorem getBits_padded {s : Sr} {r c : Nat} (hr : r < s.rows) (hc : c < s.cols) (i b : Nat) :
    getBits (Tile.padded s i b) (s.w * s.index r c) s.w = getBits b (s.w * s.index r c) s.w := by
  unfold Tile.padded
  simp only
  split
  · refine getBits_putBits_other _ _ _ _ _ _ (.inl ?_)
    calc s.w * s.index r c + s.w = s.w * (s.index r c + 1) := by rw [Nat.mul_add, Nat.mul_one]
      _ ≤ s.w * (s.rows * s.cols) := Nat.mul_le_mul_left _ (index_lt hr hc)
      _ = s.rows * s.cols * s.w := Nat.mul_comm _ _
  · rfl

/-- An element read after a write (R57). -/
theorem get_put {t : Tile} (h : t.sr.layout < 2) {r c r' c' : Nat} (hr : r < t.sr.rows) (hc : c < t.sr.cols)
    (hr' : r' < t.sr.rows) (hc' : c' < t.sr.cols) (v : Nat) :
    (t.put r c v).get r' c' = if r' = r ∧ c' = c then v % 2 ^ t.sr.w else t.get r' c' := by
  rw [put_flat h, get_flat (by exact h), get_flat h]
  simp only
  rw [getBits_padded hr' hc']
  by_cases e : r' = r ∧ c' = c
  · obtain ⟨rfl, rfl⟩ := e
    simp [getBits_putBits_same]
  · rw [if_neg e]
    apply getBits_putBits_other
    have hne : t.sr.index r' c' ≠ t.sr.index r c := fun k => e (index_inj hr' hc' hr hc k)
    rcases Nat.lt_or_gt_of_ne hne with k | k
    · left
      calc _ = t.sr.w * (t.sr.index r' c' + 1) := by simp only [Nat.mul_add, Nat.mul_one]
        _ ≤ _ := Nat.mul_le_mul_left _ k
    · right
      calc _ = t.sr.w * (t.sr.index r c + 1) := by simp only [Nat.mul_add, Nat.mul_one]
        _ ≤ _ := Nat.mul_le_mul_left _ k

/-! ## Bit-plane tiles (R58) -/

/-- A sum of distinct powers of two, bit by bit. -/
theorem testBit_sumBits (b : Nat → Bool) (n j : Nat) :
    ((List.range n).foldl (fun v p => v + (bit (b p)) <<< p) 0).testBit j = (decide (j < n) && b j)
    ∧ (List.range n).foldl (fun v p => v + (bit (b p)) <<< p) 0 < 2 ^ n := by
  induction n with
  | zero => simp
  | succ n ih =>
    rw [List.range_succ, List.foldl_append]
    simp only [List.foldl_cons, List.foldl_nil]
    generalize hv : (List.range n).foldl (fun v p => v + (bit (b p)) <<< p) 0 = v at ih ⊢
    have hlt := ih.2
    have e : v + (bit (b n)) <<< n = 2 ^ n * bit (b n) + v := by rw [Nat.shiftLeft_eq]; ring
    rw [e]
    constructor
    · rw [Nat.testBit_two_pow_mul_add _ hlt]
      by_cases h : j < n
      · simp [h, ih.1]; intro _; omega
      · by_cases h2 : j = n
        · subst h2; cases b j <;> simp [bit]
        · have : 0 < j - n := by omega
          have h3 : ¬ j < n + 1 := by omega
          have h4 : (bit (b n)).testBit (j - n) = false := by
            apply Nat.testBit_eq_false_of_lt
            calc bit (b n) ≤ 1 := by cases b n <;> simp [bit]
              _ < 2 ^ (j - n) := Nat.one_lt_two_pow (by omega)
          simp [h, h3, h4]
    · have : bit (b n) ≤ 1 := by cases b n <;> simp [bit]
      have : 2 ^ n * bit (b n) ≤ 2 ^ n := by nlinarith [Nat.two_pow_pos n]
      rw [Nat.pow_succ]; omega

theorem getBits_one (b p : Nat) : getBits b p 1 = bit (b.testBit p) := by
  apply Nat.eq_of_testBit_eq
  intro j
  rw [testBit_getBits]
  by_cases h : j = 0
  · subst h; cases b.testBit p <;> simp [bit, *]
  · have : ¬ j < 1 := by omega
    have h2 : (bit (b.testBit p)).testBit j = false := by
      apply Nat.testBit_eq_false_of_lt
      calc bit (b.testBit p) ≤ 1 := by cases b.testBit p <;> simp [bit]
        _ < 2 ^ j := Nat.one_lt_two_pow h
    simp [this, h2]

/-- The bits of a bit-plane element are those of its planes. -/
theorem testBit_getPlanes (t : Tile) (i j : Nat) :
    (t.getPlanes i).testBit j = (decide (j < t.sr.planes)
      && t.slot.testBit (j * (8 * ceilDiv (t.sr.rows * t.sr.cols) 8) + i)) := by
  unfold Tile.getPlanes
  simp only [upto, getBits_one]
  exact (testBit_sumBits (fun p => t.slot.testBit (p * (8 * ceilDiv (t.sr.rows * t.sr.cols) 8) + i)) _ _).1

theorem testBit_putPlanes_fold (q i v n x : Nat) (b : Nat) (hi : i < q) :
    ((List.range n).foldl (fun b p => putBits b (p * q + i) 1 (v >>> p)) b).testBit x
      = if x % q = i ∧ x / q < n then v.testBit (x / q) else b.testBit x := by
  induction n with
  | zero => simp
  | succ n ih =>
    rw [List.range_succ, List.foldl_append]
    simp only [List.foldl_cons, List.foldl_nil]
    rw [testBit_putBits, ih]
    have hq : 0 < q := by omega
    by_cases h : n * q + i ≤ x ∧ x < n * q + i + 1
    · have hx : x = i + q * n := by rw [Nat.mul_comm]; omega
      have h1 : x % q = i := by rw [hx, Nat.add_mul_mod_self_left, Nat.mod_eq_of_lt hi]
      have h2 : x / q = n := by rw [hx, Nat.add_mul_div_left _ _ hq, Nat.div_eq_of_lt hi]; omega
      have h3 : x - (n * q + i) = 0 := by omega
      rw [if_pos h, if_pos ⟨h1, by omega⟩, h3, h2]
      simp
    · rw [if_neg h]
      by_cases h4 : x % q = i ∧ x / q < n
      · rw [if_pos h4, if_pos ⟨h4.1, by omega⟩]
      · rw [if_neg h4, if_neg]
        rintro ⟨h5, h6⟩
        apply h
        have h7 : x / q = n := by
          have : ¬ x / q < n := fun k => h4 ⟨h5, k⟩
          omega
        have := Nat.div_add_mod x q
        rw [h5, h7, Nat.mul_comm] at this
        omega

theorem get_planes {t : Tile} (h : t.sr.layout = 2) (r c : Nat) : t.get r c = t.getPlanes (r * t.sr.cols + c) := by
  unfold Tile.get; rw [h]; rfl
theorem put_planes {t : Tile} (h : t.sr.layout = 2) (r c v : Nat) :
    t.put r c v = { t with slot := t.putPlanes (r * t.sr.cols + c) v } := by
  unfold Tile.put; rw [h]; rfl

theorem le_ceilDiv (n : Nat) : n ≤ 8 * ceilDiv n 8 := by unfold ceilDiv; omega

/-- A bit-plane element read after a write (R58). -/
theorem get_put_planes {t : Tile} (h : t.sr.layout = 2) {r c r' c' : Nat} (hr : r < t.sr.rows) (hc : c < t.sr.cols)
    (hr' : r' < t.sr.rows) (hc' : c' < t.sr.cols) (v : Nat) :
    (t.put r c v).get r' c' = if r' = r ∧ c' = c then v % 2 ^ t.sr.planes else t.get r' c' := by
  have hb : ∀ {r c}, r < t.sr.rows → c < t.sr.cols → r * t.sr.cols + c < 8 * ceilDiv (t.sr.rows * t.sr.cols) 8 := by
    intro r c hr hc
    have := le_ceilDiv (t.sr.rows * t.sr.cols)
    have : (r + 1) * t.sr.cols ≤ t.sr.rows * t.sr.cols := Nat.mul_le_mul_right _ hr
    rw [Nat.add_mul] at this; omega
  have h1 := hb hr hc
  have h2 := hb hr' hc'
  rw [put_planes h, get_planes (by exact h), get_planes h]
  apply Nat.eq_of_testBit_eq
  intro j
  rw [testBit_getPlanes]
  simp only [Tile.putPlanes, upto]
  rw [testBit_putPlanes_fold _ _ _ _ _ _ h1]
  have hq : 0 < 8 * ceilDiv (t.sr.rows * t.sr.cols) 8 := by omega
  generalize hQ : 8 * ceilDiv (t.sr.rows * t.sr.cols) 8 = q at *
  have e1 : (j * q + (r' * t.sr.cols + c')) % q = r' * t.sr.cols + c' := by
    rw [Nat.add_comm, Nat.add_mul_mod_self_right, Nat.mod_eq_of_lt h2]
  have e2 : (j * q + (r' * t.sr.cols + c')) / q = j := by
    rw [Nat.add_comm, Nat.add_mul_div_right _ _ hq, Nat.div_eq_of_lt h2]; omega
  rw [e1, e2]
  by_cases e : r' = r ∧ c' = c
  · obtain ⟨rfl, rfl⟩ := e
    by_cases hj : j < t.sr.planes <;> simp [hj, Nat.testBit_mod_two_pow]
  · rw [if_neg e, testBit_getPlanes, hQ]
    have : ¬ (r' * t.sr.cols + c' = r * t.sr.cols + c ∧ j < t.sr.planes) := by
      rintro ⟨k, -⟩
      have h3 := congrArg (· % t.sr.cols) k
      have h4 := congrArg (· / t.sr.cols) k
      have hp : 0 < t.sr.cols := by omega
      simp only [Nat.mul_add_mod_of_lt hc, Nat.mul_add_mod_of_lt hc'] at h3
      simp only [Nat.mul_comm _ t.sr.cols, Nat.mul_add_div hp, Nat.div_eq_of_lt hc, Nat.div_eq_of_lt hc'] at h4
      exact e ⟨by simpa using h4, h3⟩
    rw [if_neg this]
/-- An element of a row-major, column-major or bit-plane tile read after a write. -/
theorem get_put_any {t : Tile} (h : t.sr.layout ≤ 2) {r c r' c' : Nat} (hr : r < t.sr.rows) (hc : c < t.sr.cols)
    (hr' : r' < t.sr.rows) (hc' : c' < t.sr.cols) (v : Nat) :
    (t.put r c v).get r' c' = if r' = r ∧ c' = c then v % 2 ^ elemBits t else t.get r' c' := by
  unfold elemBits
  by_cases e : t.sr.layout = 2
  · rw [if_pos e]; exact get_put_planes e hr hc hr' hc' v
  · rw [if_neg e]; exact get_put (by omega) hr hc hr' hc' v

/-! ## Extents and fills -/

theorem mem_extent {er ec : Nat} {p : Nat × Nat} : p ∈ extent er ec ↔ p.1 < er ∧ p.2 < ec := by
  simp only [extent, upto, List.mem_flatMap, List.mem_map, List.mem_range]
  constructor
  · rintro ⟨r, hr, c, hc, rfl⟩; exact ⟨hr, hc⟩
  · intro h; exact ⟨p.1, h.1, p.2, h.2, rfl⟩

/-- A list of writes of elements, each position with its own value. -/
theorem get_foldl_put {t : Tile} (h : t.sr.layout ≤ 2) (f : Nat → Nat → Nat) (ps : List (Nat × Nat))
    (hp : ∀ p ∈ ps, p.1 < t.sr.rows ∧ p.2 < t.sr.cols) :
    (ps.foldl (fun u p => u.put p.1 p.2 (f p.1 p.2)) t).sr = t.sr ∧
    ∀ r c, r < t.sr.rows → c < t.sr.cols →
      (ps.foldl (fun u p => u.put p.1 p.2 (f p.1 p.2)) t).get r c
        = if (r, c) ∈ ps then f r c % 2 ^ elemBits t else t.get r c := by
  induction ps generalizing t with
  | nil => simp
  | cons p ps ih =>
    have hs := put_sr t p.1 p.2 (f p.1 p.2)
    have hp1 := hp p (by simp)
    have := ih (t := t.put p.1 p.2 (f p.1 p.2)) (by rw [hs]; exact h)
      (fun q hq => by rw [hs]; exact hp q (by simp [hq]))
    have he : elemBits (t.put p.1 p.2 (f p.1 p.2)) = elemBits t := by unfold elemBits; rw [hs]
    rw [hs, he] at this
    refine ⟨this.1, fun r c hr hc => ?_⟩
    simp only [List.foldl_cons]
    rw [this.2 r c hr hc, get_put_any h hp1.1 hp1.2 hr hc]
    by_cases hm : (r, c) ∈ ps
    · simp [hm]
    · by_cases e : r = p.1 ∧ c = p.2
      · obtain ⟨rfl, rfl⟩ := e; simp
      · have : ¬ (r, c) = p := fun k => e ⟨by rw [← k], by rw [← k]⟩
        simp [hm, e, this]

/-! ## A record whose footprint is written (R44) -/

theorem extract_written (s : Sr) (k n : Nat) (h : k + n ≤ 40) : s.written.extractLsb' k n = s.extractLsb' k n := by
  apply BitVec.eq_of_getLsbD_eq
  intro i hi
  have h1 : (0x10000000000#64).getLsbD (k + i) = false := by
    have : (0x10000000000#64) = BitVec.twoPow 64 40 := by decide
    rw [this, BitVec.getLsbD_twoPow]; simp; omega
  have h2 : (1#64 <<< 40) = 0x10000000000#64 := by decide
  simp only [Sr.written, BitVec.getLsbD_extractLsb', BitVec.getLsbD_and, BitVec.getLsbD_not, h2, h1]
  by_cases h3 : k + i < 64
  · simp [h3]
  · omega

theorem written_rows (s : Sr) : s.written.rows = s.rows := by unfold Sr.rows; rw [extract_written _ _ _ (by omega)]
theorem written_cols (s : Sr) : s.written.cols = s.cols := by unfold Sr.cols; rw [extract_written _ _ _ (by omega)]
theorem written_fmt (s : Sr) : s.written.fmt = s.fmt := by unfold Sr.fmt; rw [extract_written _ _ _ (by omega)]
theorem written_layout (s : Sr) : s.written.layout = s.layout := by
  unfold Sr.layout; rw [extract_written _ _ _ (by omega)]
theorem written_planes (s : Sr) : s.written.planes = s.planes := by
  unfold Sr.planes Sr.planesM1; rw [extract_written _ _ _ (by omega)]
theorem written_spn (s : Sr) : s.written.spn = s.spn := by unfold Sr.spn; rw [extract_written _ _ _ (by omega)]

/-- The elements of a tile are as they were when ZF is cleared. -/
theorem written_get (t : Tile) (r c : Nat) : ({ t with sr := t.sr.written } : Tile).get r c = t.get r c := by
  simp only [Tile.get, Tile.getPlanes, Tile.getSparse, Sr.sparseV, Sr.w, Sr.index, written_rows, written_cols, written_fmt,
    written_layout, written_planes, written_spn]
  rfl

/-- A filled extent (R46, R163): the elements of the extent are replaced, and the tile is written (R44). -/
theorem filled_written {t u : Tile} {er ec : Nat} {f : Nat → Nat → Nat} (h : u.sr = t.sr)
    (hu : ∀ r c, r < t.sr.rows → c < t.sr.cols →
      u.get r c = if r < er ∧ c < ec then f r c % 2 ^ elemBits t else t.get r c) :
    Filled t { u with sr := u.sr.written } er ec f :=
  ⟨by rw [h], fun r c hr hc => by rw [written_get, hu r c hr hc]⟩

theorem fill_filled {t : Tile} (h : t.sr.layout ≤ 2) {er ec : Nat} (hr : er ≤ t.sr.rows) (hc : ec ≤ t.sr.cols)
    (f : Nat → Nat → Nat) : Filled t { t.fill er ec f with sr := (t.fill er ec f).sr.written } er ec f := by
  have := get_foldl_put h f (extent er ec) (fun p hp => by
    have := mem_extent.1 hp; exact ⟨by omega, by omega⟩)
  refine filled_written this.1 fun r c hr hc => ?_
  rw [Tile.fill, this.2 r c hr hc]
  simp [mem_extent]

/-- Results with flags: the tile is the one that the values alone fill, and the flags are their union. -/
theorem fillRes_eq (t : Tile) (er ec : Nat) (f : Nat → Nat → Res) :
    t.fillRes er ec f = (t.fill er ec fun r c => (f r c).1, flagsOf er ec fun r c => (f r c).2) := by
  unfold Tile.fillRes Tile.fill flagsOf
  generalize extent er ec = ps
  generalize (0 : FlagSet) = fl
  induction ps generalizing t fl with
  | nil => rfl
  | cons p ps ih => simp only [List.foldl_cons]; exact ih _ _

/-! ## Extents -/

theorem foldl_min_le {α : Type} (g : α → Nat) (rs : List α) (n : Nat) : rs.foldl (fun n r => min n (g r)) n ≤ n := by
  induction rs generalizing n with
  | nil => exact Nat.le_refl _
  | cons r rs ih => exact (ih _).trans (Nat.min_le_left _ _)

theorem foldl_min_mem {α : Type} (g : α → Nat) (rs : List α) (n : Nat) (r : α) (h : r ∈ rs) :
    rs.foldl (fun n r => min n (g r)) n ≤ g r := by
  induction rs generalizing n with
  | nil => cases h
  | cons q rs ih =>
    rcases List.mem_cons.1 h with rfl | h
    · exact (foldl_min_le g rs _).trans (Nat.min_le_right _ _)
    · exact ih _ h

theorem rowsOf_le {s : State} {rs : List (BitVec 5)} {r : BitVec 5} (h : r ∈ rs) :
    rowsOf s rs ≤ (s.ctx.tile r).sr.rows := foldl_min_mem _ rs _ r h
theorem colsOf_le {s : State} {rs : List (BitVec 5)} {r : BitVec 5} (h : r ∈ rs) :
    colsOf s rs ≤ (s.ctx.tile r).sr.cols := foldl_min_mem _ rs _ r h

/-! ## The checks of R161 -/

/-- Operands that suit an instruction over row-major and column-major tiles pass its checks. -/
theorem checkTiles_none {c : Ctx} {os : List Opnd}
    (h : ∀ o ∈ os, (c.tsc = 3 → o.name.toNat < 16) ∧ (c.tile o.name).sr.al = true ∧ (c.tile o.name).sr.ill = false
      ∧ (∀ f, o.fmt = some f → (c.tile o.name).sr.fmt = f) ∧ (c.tile o.name).sr.layout < 2 ∧ o.layouts = 3
      ∧ (c.tile o.name).sr.sblk = 0) : c.checkTiles os = none := by
  have none_of : ∀ bad : Opnd → Bool, (∀ o ∈ os, bad o = false) → firstBad os bad = none := by
    intro bad hb
    simp only [firstBad, Option.map_eq_none_iff, List.find?_eq_none]
    intro o ho; simp [hb o ho]
  have h1 : firstBad os (fun o => c.tsc == 3 && o.name.getLsbD 4) = none := none_of _ fun o ho => by
    by_cases e : c.tsc = 3
    · have : o.name.getLsbD 4 = false := by
        rw [BitVec.getLsbD, Nat.testBit_eq_false_of_lt ((h o ho).1 e)]
      rw [this, Bool.and_false]
    · rw [show (c.tsc == 3) = false from by simpa using e, Bool.false_and]
  have h2 : firstBad os (fun o => !o.fresh && (!(c.tile o.name).sr.al || (c.tile o.name).sr.ill)) = none :=
    none_of _ fun o ho => by simp [(h o ho).2.1, (h o ho).2.2.1]
  have h4 : firstBad os (fun o => !o.fresh && !o.layouts.testBit (c.tile o.name).sr.layout) = none :=
    none_of _ fun o ho => by
      obtain ⟨-, -, -, -, hl, h3, -⟩ := h o ho
      rcases (show (c.tile o.name).sr.layout = 0 ∨ (c.tile o.name).sr.layout = 1 by omega) with e | e <;>
        simp [h3, e, Nat.testBit]
  have h5 : firstBad os (fun o => (!o.scaled && !o.fresh && (c.tile o.name).sr.sblk != 0)
      || (o.scales && (c.tile o.name).sr.sblk != 0
        && !Tile.scaleOk (c.tile o.name) (c.tile (c.tile o.name).sr.stile))) = none :=
    none_of _ fun o ho => by simp [(h o ho).2.2.2.2.2.2]
  unfold Ctx.checkTiles
  simp only [h1, h2, h4, h5, Option.orElse_eq_orElse, Option.orElse_none]
  rw [none_of _ fun o ho => ?_]
  · rfl
  · cases e : o.fmt with
    | none => rfl
    | some f => simp [(h o ho).2.2.2.1 f e]

/-- The operands of an entry that are bound to a format and suit it. -/
theorem issued_check {s : State} {i : Instr} {n : Nat} {os : List Opnd}
    (h : ∀ o ∈ os, ∃ c, (o.fmt = some c ∨ o.fmt = none) ∧ o.layouts = 3 ∧ TileOk s o.name c) :
    (State.pushed s i n).ctx.checkTiles os = none := by
  apply checkTiles_none
  intro o ho
  obtain ⟨c, h1, h2, h3⟩ := h o ho
  refine ⟨h3.named, h3.al, h3.ill, fun f hf => ?_, h3.layout, h2, h3.plain⟩
  rcases h1 with h1 | h1 <;> rw [h1] at hf
  · cases hf; exact h3.fmt
  · cases hf

/-! ## Tile rows whose entry writes a tile -/

/-- The entry writes a tile and ORs flags (R163). -/
theorem tile_done {s : State} {i : Instr} {f : TileFields} {e : TiqEntry → State → Eff} {u : Tile} {fl : FlagSet}
    {td : BitVec 5} (h : Alone s) (hi : Issues s i f) (hex : exec i s = tileExec i f s) (he : effectOf i = some e)
    (hu : e (s.ctx.entryOf i) (State.pushed s i (TileFields.words f)) = .tile (State.pushed s i (TileFields.words f)) td u fl) :
    exec i s = .next (State.ran s i (TileFields.words f) { s.ctx.putTile td u with fcsr := s.ctx.fcsr ||| fl }) := by
  rw [hex, tileExec_issues hi]
  congr 1
  have hu' : e (s.ctx.entryOf i) (State.pushed s i (TileFields.words f)) = .done
      ((State.pushed s i (TileFields.words f)).mapCtx fun c => (c.putTile td u).raise fl) := hu
  rw [toTiq_done h he hu' h.run (by simp [State.pushed, State.push, State.mapCtx, Ctx.skip, Ctx.raise, Ctx.putTile,
    Ctx.setTile])]
  rw [retire_ran (words := TileFields.words f) { s.ctx.putTile td u with fcsr := s.ctx.fcsr ||| fl } _ ?_ rfl
    h.ilock h.olds]
  · rw [runAll_nil]; exact h.copies
  · simp only [State.pushed, State.push, State.mapCtx, Ctx.skip, Ctx.raise, Ctx.putTile, Ctx.setTile, h.tiq]; rfl

/-- The entry computes the elements of an extent of `td`, with flags (R46, R163). -/
theorem elems_done {s : State} {i : Instr} {f : TileFields} {e : TiqEntry → State → Eff} {v : Nat → Nat → Res}
    {er ec : Nat} (h : Alone s) (hi : Issues s i f) (hex : exec i s = tileExec i f s) (he : effectOf i = some e)
    (hr : er ≤ (s.ctx.tile f.td).sr.rows) (hc : ec ≤ (s.ctx.tile f.td).sr.cols) (hl : (s.ctx.tile f.td).sr.layout < 2)
    (hu : e (s.ctx.entryOf i) (State.pushed s i (TileFields.words f))
      = .elems (State.pushed s i (TileFields.words f)) f.td er ec v) :
    ∃ u, exec i s = .next (State.ran s i (TileFields.words f)
        { s.ctx.setTile f.td u with fcsr := s.ctx.fcsr ||| flagsOf er ec fun r k => (v r k).2 })
      ∧ Filled (s.ctx.tile f.td) u er ec fun r k => (v r k).1 := by
  refine ⟨_, (tile_done (u := (s.ctx.tile f.td).fill er ec fun r k => (v r k).1) (td := f.td) h hi hex he ?_).trans rfl,
    fill_filled (Nat.le_of_lt hl) hr hc _⟩
  rw [hu, Eff.elems, fillRes_eq]
  rfl

/-- The entry copies bit patterns into an extent of `td`, with no flag. -/
theorem bits_done {s : State} {i : Instr} {f : TileFields} {e : TiqEntry → State → Eff} {v : Nat → Nat → Nat}
    {er ec : Nat} (h : Alone s) (hi : Issues s i f) (hex : exec i s = tileExec i f s) (he : effectOf i = some e)
    (hr : er ≤ (s.ctx.tile f.td).sr.rows) (hc : ec ≤ (s.ctx.tile f.td).sr.cols) (hl : (s.ctx.tile f.td).sr.layout < 2)
    (hu : e (s.ctx.entryOf i) (State.pushed s i (TileFields.words f))
      = .bits (State.pushed s i (TileFields.words f)) f.td er ec v) :
    ∃ u, exec i s = .next (State.ran s i (TileFields.words f) (s.ctx.setTile f.td u))
      ∧ Filled (s.ctx.tile f.td) u er ec v := by
  refine ⟨_, ?_, fill_filled (Nat.le_of_lt hl) hr hc _⟩
  refine (tile_done (fl := 0) (u := (s.ctx.tile f.td).fill er ec v) (td := f.td) h hi hex he (by rw [hu]; rfl)).trans ?_
  have h0 : s.ctx.fcsr ||| (0 : FlagSet) = s.ctx.fcsr := by simp
  rw [h0]
  rfl

/-- The entry only changes the context: what its own registers become. -/
theorem ctx_done {s : State} {i : Instr} {f : TileFields} {e : TiqEntry → State → Eff} {g : Ctx → Ctx} {c : Ctx}
    (h : Alone s) (hi : Issues s i f) (hex : exec i s = tileExec i f s) (he : effectOf i = some e)
    (hu : e (s.ctx.entryOf i) (State.pushed s i (TileFields.words f)) = .done ((State.pushed s i (TileFields.words f)).mapCtx g))
    (hc : g (State.pushed s i (TileFields.words f)).ctx = { c with
      tiq := [s.ctx.entryOf i], nextseq := s.ctx.nextseq + 1, pc := s.ctx.pc + BitVec.ofNat 72 (4 * TileFields.words f) })
    (hrun : c.run = .running) (hcp : c.copies = []) (hret : c.retd = s.ctx.retd) (hil : c.ilock = [])
    (hrn : c.olds = []) :
    exec i s = .next (State.ran s i (TileFields.words f) c) := by
  rw [hex, tileExec_issues hi]
  congr 1
  rw [toTiq_done h he hu (by simp [State.mapCtx, hc, hrun]) (by simp [State.mapCtx, hc])]
  rw [retire_ran (words := TileFields.words f) c _ ?_ hret hil hrn]
  · rw [runAll_nil]; exact hcp
  · simp only [State.mapCtx, hc]

end Sys2Proof.Laws
end

