-- ==== Sys2Proof/Laws/Matrix.lean ====
section
/-!
SUPPORT. Sys2Proof/Laws/Matrix.lean: the elements of an accumulator after a write, a fill and a product.
-/

namespace Sys2Proof.Laws

open Sys2Proof.Machine Sys2Proof.Safety

/-- An accumulator element read after a write. -/
theorem accGet_accPut (m v : Nat) {i j i' j' : Nat} (hj : j < 128) (hj' : j' < 128) :
    accGet (accPut m i j v) i' j' = if i' = i ∧ j' = j then v % 2 ^ 32 else accGet m i' j' := by
  unfold accGet accPut
  by_cases e : i' = i ∧ j' = j
  · obtain ⟨rfl, rfl⟩ := e
    rw [if_pos ⟨rfl, rfl⟩]; exact getBits_putBits_same _ _ _ _
  · rw [if_neg e]
    apply getBits_putBits_other
    omega

/-- An accumulator after a fill of an extent (R225). -/
theorem accGet_accFill (m : Nat) {er ec : Nat} (hc : ec ≤ 128) (f : Nat → Nat → Nat) {i j : Nat} (hj : j < 128) :
    accGet (accFill m er ec f) i j = if i < er ∧ j < ec then f i j % 2 ^ 32 else accGet m i j := by
  unfold accFill
  have key : ∀ (ps : List (Nat × Nat)) (m : Nat), (∀ p ∈ ps, p.2 < 128) →
      accGet (ps.foldl (fun acc p => accPut acc p.1 p.2 (f p.1 p.2)) m) i j
        = if (i, j) ∈ ps then f i j % 2 ^ 32 else accGet m i j := by
    intro ps
    induction ps with
    | nil => simp
    | cons p ps ih =>
      intro m hp
      simp only [List.foldl_cons]
      rw [ih _ fun q hq => hp q (by simp [hq]), accGet_accPut _ _ (hp p (by simp)) hj]
      by_cases hm : (i, j) ∈ ps
      · simp [hm]
      · by_cases e : i = p.1 ∧ j = p.2
        · obtain ⟨rfl, rfl⟩ := e; simp
        · have : ¬ (i, j) = p := fun k => e ⟨by rw [← k], by rw [← k]⟩
          simp [hm, e, this]
  rw [key _ _ fun p hp => by have := (mem_extent.1 hp).2; omega]
  simp [mem_extent]

/-- The positions of an extent are distinct. -/
theorem extent_nodup (er ec : Nat) : (extent er ec).Nodup := by
  unfold extent upto
  rw [List.nodup_flatMap]
  refine ⟨fun r _ => ?_, ?_⟩
  · exact List.nodup_range.map fun a b h => by simpa using h
  · refine List.nodup_range.imp fun {a b} h => ?_
    simp only [Function.onFun, List.disjoint_left, List.mem_map]
    rintro _ ⟨_, _, rfl⟩ ⟨_, _, k⟩
    exact h (by simpa using (congrArg Prod.fst k).symm)

/-- The accumulator and the drain tile of a product, position by position. -/
theorem product_elems (f : TileFields) (t : TiqEntry) (s : State) (int : Bool) {m n : Nat} (k : Nat)
    (a b : Nat → Nat → Term) (hn : n ≤ 128) :
    let e := fun i j => prodElem int f.sat f.acc.toNat (t.g0.toNat % 2 ^ 32) (accGet (s.ctx.getAcc f.td) i j) k (a i)
      fun x => b x j
    let r := product f t s int m n k a b
    (∀ i j, j < 128 → accGet r.1 i j = if i < min s.xr m ∧ j < min s.xc n then (e i j).1 % 2 ^ 32
        else accGet (s.ctx.getAcc f.td) i j)
      ∧ (f.drain = true → (s.ctx.tile f.tc).sr.layout ≤ 2 → Filled (s.ctx.tile f.tc) { r.2.1 with sr := r.2.1.sr.written } (min s.xr m) (min s.xc n)
        fun i j => (drainConv (s.ctx.tile f.tc).sr.fmt f.drm.toNat f.sat int (e i j).1).1) := by
  intro e
  simp only [product]
  generalize hE : extent (min s.xr m) (min s.xc n) = ps
  have hmem : ∀ p, p ∈ ps ↔ p.1 < min s.xr m ∧ p.2 < min s.xc n := fun p => by rw [← hE]; exact mem_extent
  have hnd : ps.Nodup := by rw [← hE]; exact extent_nodup _ _
  have key : ∀ (ps : List (Nat × Nat)), ps.Nodup → (∀ p ∈ ps, p.2 < 128) → ∀ (M : Nat) (T : Tile) (fl : FlagSet),
      T.sr = (s.ctx.tile f.tc).sr → (∀ p ∈ ps, accGet M p.1 p.2 = accGet (s.ctx.getAcc f.td) p.1 p.2) →
      let r := ps.foldl (fun (st : Nat × Tile × FlagSet) p =>
        let r := prodElem int f.sat f.acc.toNat (t.g0.toNat % 2 ^ 32) (accGet st.1 p.1 p.2) k (a p.1) (fun x => b x p.2)
        let acc := accPut st.1 p.1 p.2 r.1
        if f.drain && decide (p.1 < st.2.1.sr.rows) && decide (p.2 < st.2.1.sr.cols) then
          let d := drainConv st.2.1.sr.fmt f.drm.toNat f.sat int r.1
          (acc, st.2.1.put p.1 p.2 d.1, st.2.2 ||| r.2 ||| d.2)
        else (acc, st.2.1, st.2.2 ||| r.2)) (M, T, fl)
      (∀ i j, j < 128 → accGet r.1 i j = if (i, j) ∈ ps then (e i j).1 % 2 ^ 32 else accGet M i j)
        ∧ r.2.1.sr = T.sr
        ∧ (f.drain = true → T.sr.layout ≤ 2 → ∀ i j, i < T.sr.rows → j < T.sr.cols → r.2.1.get i j =
            if (i, j) ∈ ps then (drainConv T.sr.fmt f.drm.toNat f.sat int (e i j).1).1 % 2 ^ elemBits T
            else T.get i j) := by
    intro ps
    induction ps with
    | nil => intro _ _ M T fl _ _; simp
    | cons p ps ih =>
      intro hnd hp M T fl hT hM
      have hp1 := hp p (by simp)
      have hpn : p ∉ ps := (List.nodup_cons.1 hnd).1
      have hMp := hM p (by simp)
      simp only [List.foldl_cons]
      rw [hMp]
      have he : prodElem int f.sat f.acc.toNat (t.g0.toNat % 2 ^ 32) (accGet (s.ctx.getAcc f.td) p.1 p.2) k (a p.1)
        (fun x => b x p.2) = e p.1 p.2 := rfl
      rw [he]
      have hM' : ∀ q ∈ ps, accGet (accPut M p.1 p.2 (e p.1 p.2).1) q.1 q.2 = accGet (s.ctx.getAcc f.td) q.1 q.2 := by
        intro q hq
        rw [accGet_accPut _ _ hp1 (hp q (by simp [hq])), if_neg, hM q (by simp [hq])]
        rintro ⟨h1, h2⟩
        exact hpn (by have : p = q := Prod.ext h1.symm h2.symm
                      rw [this]; exact hq)
      have acc_step : ∀ (r1 : Nat), (∀ i j, j < 128 → accGet r1 i j = if (i, j) ∈ ps then (e i j).1 % 2 ^ 32
          else accGet (accPut M p.1 p.2 (e p.1 p.2).1) i j) → ∀ i j, j < 128 →
          accGet r1 i j = if (i, j) ∈ p :: ps then (e i j).1 % 2 ^ 32 else accGet M i j := by
        intro r1 h1 i j hj
        rw [h1 i j hj, accGet_accPut _ _ hp1 hj]
        by_cases hm : (i, j) ∈ ps
        · simp [hm]
        · by_cases e' : i = p.1 ∧ j = p.2
          · obtain ⟨rfl, rfl⟩ := e'; simp
          · have : ¬ (i, j) = p := fun k => e' ⟨by rw [← k], by rw [← k]⟩
            simp [hm, e', this]
      by_cases hd : (f.drain && decide (p.1 < T.sr.rows) && decide (p.2 < T.sr.cols)) = true
      · simp only [hd, if_true]
        have h := ih (List.nodup_cons.1 hnd).2 (fun q hq => hp q (by simp [hq])) (accPut M p.1 p.2 (e p.1 p.2).1)
          (T.put p.1 p.2 (drainConv T.sr.fmt f.drm.toNat f.sat int (e p.1 p.2).1).1)
          (fl ||| (e p.1 p.2).2 ||| (drainConv T.sr.fmt f.drm.toNat f.sat int (e p.1 p.2).1).2)
          (by rw [put_sr]; exact hT) hM'
        have hs := put_sr T p.1 p.2 (drainConv T.sr.fmt f.drm.toNat f.sat int (e p.1 p.2).1).1
        have hel : elemBits (T.put p.1 p.2 (drainConv T.sr.fmt f.drm.toNat f.sat int (e p.1 p.2).1).1) = elemBits T := by
          unfold elemBits; rw [hs]
        rw [hs, hel] at h
        refine ⟨acc_step _ h.1, h.2.1, fun hdr hl i j hi hj => ?_⟩
        simp only [Bool.and_eq_true, decide_eq_true_eq] at hd
        rw [h.2.2 hdr hl i j hi hj, get_put_any hl hd.1.2 hd.2 hi hj]
        by_cases hm : (i, j) ∈ ps
        · simp [hm]
        · by_cases e' : i = p.1 ∧ j = p.2
          · obtain ⟨rfl, rfl⟩ := e'; simp
          · have : ¬ (i, j) = p := fun k => e' ⟨by rw [← k], by rw [← k]⟩
            simp [hm, e', this]
      · have hd' : (f.drain && decide (p.1 < T.sr.rows) && decide (p.2 < T.sr.cols)) = false := by simpa using hd
        simp only [hd', Bool.false_eq_true, if_false]
        have h := ih (List.nodup_cons.1 hnd).2 (fun q hq => hp q (by simp [hq])) (accPut M p.1 p.2 (e p.1 p.2).1) T
          (fl ||| (e p.1 p.2).2) hT hM'
        refine ⟨acc_step _ h.1, h.2.1, fun hdr hl i j hi hj => ?_⟩
        rw [h.2.2 hdr hl i j hi hj]
        have : ¬ (i, j) = p := by
          rintro rfl; simp [hdr, hi, hj] at hd
        simp [this]
  have h := key ps hnd (fun p hp => by have := ((hmem p).1 hp).2; omega) (s.ctx.getAcc f.td) (s.ctx.tile f.tc) 0 rfl
    (fun _ _ => rfl)
  refine ⟨fun i j hj => ?_, fun hdr hl => filled_written h.2.1 fun r c hr hc => ?_⟩
  · rw [h.1 i j hj]; simp only [hmem]
  · rw [h.2.2 hdr hl r c hr hc]; simp only [hmem]

/-- A product whose shapes fit runs, and gives the product elements (R212, R213, R217). -/
theorem mul_done {s : State} {i : Instr} {f : TileFields} {e : TiqEntry → State → Eff} {int ta tb : Bool} {a b : Nat → Nat → Term} {m n k kb : Nat}
  (h : Alone s) (hi : Issues s i f) (hex : exec i s = tileExec i f s) (he : effectOf i = some e) (hf : fieldsOf i = some f)
  (hm : m = if ta then (s.ctx.tile f.ta).sr.cols else (s.ctx.tile f.ta).sr.rows) (hk : k = if ta then (s.ctx.tile f.ta).sr.rows else (s.ctx.tile f.ta).sr.cols)
  (hn : n = if tb then (s.ctx.tile f.tb).sr.rows else (s.ctx.tile f.tb).sr.cols) (hkb : kb = if tb then (s.ctx.tile f.tb).sr.cols else (s.ctx.tile f.tb).sr.rows)
  (h1 : m ≤ 128) (h2 : n ≤ 128) (h3 : k = kb) (hdr : f.drain = true → TileOk s f.tc (s.ctx.tile f.tc).sr.fmt)
  (hu : e (s.ctx.entryOf i) (State.pushed s i (TileFields.words f)) = effProduct f (s.ctx.entryOf i) (State.pushed s i (TileFields.words f)) int ta tb a b) :
  Multiplies s i f int m n k (fun i k => if ta then a k i else a i k) (fun k j => if tb then b j k else b k j) := by
  have hg := (entryOf_tile s.ctx i f hf).2.1
  have hp := product_elems f (s.ctx.entryOf i) (State.pushed s i (TileFields.words f)) int (m := m) k (fun i k => if ta then a k i else a i k) (fun k j => if tb then b j k else b k j) h2
  simp only [hg] at hp
  generalize hR : product f (s.ctx.entryOf i) (State.pushed s i (TileFields.words f)) int m n k (fun i k => if ta then a k i else a i k) (fun k j => if tb then b j k else b k j) = R at hp
  refine ⟨R.1, { R.2.1 with sr := R.2.1.sr.written }, R.2.2, ?_, fun r c _ hc => hp.1 r c hc, fun hd => hp.2 hd (Nat.le_of_lt (hdr hd).layout)⟩
  refine ctx_done h hi hex he (g := fun c => (if f.drain then (c.setAcc f.td R.1).putTile f.tc R.2.1 else c.setAcc f.td R.1).raise R.2.2) ?_ ?_ ?_ ?_ ?_ ?_ ?_
  · rw [hu, effProduct]
    have e1 : ((State.pushed s i (TileFields.words f)).ctx.tile f.ta) = s.ctx.tile f.ta := rfl
    have e2 : ((State.pushed s i (TileFields.words f)).ctx.tile f.tb) = s.ctx.tile f.tb := rfl
    simp only [e1, e2, ← hm, ← hk, ← hn, ← hkb]
    rw [if_neg (by omega), if_neg (by omega), if_neg (by omega), hR]
  · simp only [State.pushed, State.push, State.mapCtx, Ctx.skip, afterProduct, h.tiq]
    cases f.drain <;> rfl
  all_goals unfold afterProduct; cases f.drain
  · exact h.run
  · exact h.run
  · exact h.copies
  · exact h.copies
  · rfl
  · rfl
  · exact h.ilock
  · exact h.ilock
  · exact h.olds
  · exact h.olds

end Sys2Proof.Laws
end

