-- ==== Sys2Proof/Laws/Memory.lean ====
section
/-!
SUPPORT. Sys2Proof/Laws/Memory.lean: memory operations keep the canonical form, a read after a write gives what was
written, and a write leaves every other byte alone.
-/

namespace Sys2Proof.Laws

open Sys2Proof.Machine

theorem wf_tail {x : Host.Cell} {m : List Host.Cell} (h : Memory.wf (x :: m) = true) : Memory.wf m = true := by
  simp only [Memory.wf, Bool.and_eq_true] at h; exact h.2

theorem above_trans {a b : Nat} {m : List Host.Cell} (h : Memory.above b m = true) (hb : a ≤ b) :
    Memory.above a m = true := by
  cases m with
  | nil => rfl
  | cons x m => simp only [Memory.above, decide_eq_true_eq] at *; omega

theorem above_write {a b : Nat} {v : Byte} {m : List Host.Cell} (hm : Memory.wf m = true)
    (h : Memory.above a m = true) (hb : a < b) : Memory.above a (Memory.write m b v) = true := by
  cases m with
  | nil => simp only [Memory.write]; split <;> simp [Memory.above, hb]
  | cons x m =>
    obtain ⟨c, w⟩ := x
    simp only [Memory.wf, Bool.and_eq_true] at hm
    have hc := above_trans hm.1.2 (le_of_lt (by simpa [Memory.above] using h))
    simp only [Memory.above, decide_eq_true_eq] at h
    simp only [Memory.write]
    split
    · split <;> simp [Memory.above, hb, h]
    · split
      · split
        · exact hc
        · simp [Memory.above, hb]
      · simp [Memory.above, h]

/-- A write of a byte keeps the canonical form. -/
theorem wf_write {m : List Host.Cell} (h : Memory.wf m = true) (a : Nat) (v : Byte) :
    Memory.wf (Memory.write m a v) = true := by
  induction m with
  | nil => simp only [Memory.write]; split <;> simp_all [Memory.wf, Memory.above]
  | cons x m ih =>
    obtain ⟨b, u⟩ := x
    have ht := wf_tail h
    simp only [Memory.write]
    split
    · split
      · exact h
      · simp_all [Memory.wf, Memory.above]
    · split
      · split
        · exact ht
        · rename_i e _
          simp_all [Memory.wf]
      · have hb : b < a := by omega
        simp only [Memory.wf, Bool.and_eq_true] at h ⊢
        exact ⟨⟨h.1.1, above_write h.2 h.1.2 hb⟩, ih h.2⟩

/-- A write of n bytes keeps the canonical form. -/
theorem wf_wr {m : List Host.Cell} (h : Memory.wf m = true) (a n v : Nat) : Memory.wf (Memory.wr m a n v) = true := by
  induction n generalizing m a v with
  | zero => exact h
  | succ n ih => exact ih (wf_write h a _) _ _

theorem read_above {m : List Host.Cell} {a : Nat} (h : Memory.above a m = true) : Memory.read m a = Memory.unlisted := by
  cases m with
  | nil => rfl
  | cons x m =>
    obtain ⟨b, u⟩ := x
    simp only [Memory.above, decide_eq_true_eq] at h
    simp [Memory.read, h]

/-- A byte reads what was written to it. -/
theorem read_write {m : List Host.Cell} (h : Memory.wf m = true) (a : Nat) (v : Byte) :
    Memory.read (Memory.write m a v) a = v := by
  induction m with
  | nil => simp only [Memory.write]; split <;> simp_all [Memory.read]
  | cons x m ih =>
    obtain ⟨b, u⟩ := x
    simp only [Memory.wf, Bool.and_eq_true] at h
    simp only [Memory.write]
    split
    · split <;> simp_all [Memory.read]
    · split
      · rename_i _ e
        split
        · rename_i hv
          rw [e, read_above h.1.2, hv]
        · simp [Memory.read]
      · rename_i h1 h2
        simp only [Memory.read, h1, h2, if_false]
        exact ih h.2

/-- A write leaves every other byte alone. -/
theorem read_write_ne {m : List Host.Cell} (h : Memory.wf m = true) {a c : Nat} (v : Byte) (hc : c ≠ a) :
    Memory.read (Memory.write m a v) c = Memory.read m c := by
  induction m with
  | nil => simp only [Memory.write]; split <;> simp [Memory.read]; intro _ e; exact absurd e hc
  | cons x m ih =>
    obtain ⟨b, u⟩ := x
    simp only [Memory.wf, Bool.and_eq_true] at h
    simp only [Memory.write]
    split
    · rename_i hab
      split
      · rfl
      · simp only [Memory.read]
        split
        · rw [if_pos (by omega)]
        · rfl
    · split
      · rename_i hab e
        subst e
        split
        · simp only [Memory.read, if_neg hc]
          split
          · exact read_above (above_trans h.1.2 (by omega))
          · rfl
        · simp only [Memory.read, if_neg hc]
      · simp only [Memory.read]
        rw [ih h.2]

/-- Bytes outside a write of n bytes are as they were. -/
theorem read_wr_out {m : List Host.Cell} (h : Memory.wf m = true) {a n c : Nat} (v : Nat) (hc : c < a ∨ a + n ≤ c) :
    Memory.read (Memory.wr m a n v) c = Memory.read m c := by
  induction n generalizing m a v with
  | zero => rfl
  | succ n ih =>
    simp only [Memory.wr]
    rw [ih (wf_write h _ _) _ (by omega), read_write_ne h _ (by omega)]

/-- Bytes within a write of n bytes. -/
theorem read_wr_in {m : List Host.Cell} (h : Memory.wf m = true) {a n k : Nat} (v : Nat) (hk : k < n) :
    Memory.read (Memory.wr m a n v) (a + k) = BitVec.ofNat 8 (v / 256 ^ k) := by
  induction n generalizing m a v k with
  | zero => omega
  | succ n ih =>
    simp only [Memory.wr]
    cases k with
    | zero =>
      rw [read_wr_out (wf_write h _ _) _ (by omega)]
      simpa using read_write h a _
    | succ k =>
      have := ih (a := a + 1) (wf_write h a (BitVec.ofNat 8 v)) (v / 256) (k := k) (by omega)
      rw [show a + (k + 1) = a + 1 + k by omega, this, Nat.div_div_eq_div_mul, Nat.pow_succ']

theorem rd_congr {m m' : List Host.Cell} {a n : Nat} (h : ∀ k < n, Memory.read m (a + k) = Memory.read m' (a + k)) :
    Memory.rd m a n = Memory.rd m' a n := by
  induction n generalizing a with
  | zero => rfl
  | succ n ih =>
    simp only [Memory.rd]
    rw [show Memory.read m a = Memory.read m' a from h 0 (by omega), ih fun k hk => ?_]
    have := h (k + 1) (by omega)
    rwa [show a + 1 + k = a + (k + 1) by omega]

/-- A read of n bytes gives what a write of n bytes to the same place put there. -/
theorem rd_wr {m : List Host.Cell} (h : Memory.wf m = true) (a n v : Nat) :
    Memory.rd (Memory.wr m a n v) a n = v % 256 ^ n := by
  induction n generalizing m a v with
  | zero => simp [Memory.rd, Nat.mod_one]
  | succ n ih =>
    simp only [Memory.rd, Memory.wr]
    rw [ih (wf_write h a _), read_wr_out (wf_write h _ _) _ (by omega), read_write h, Nat.pow_succ', Nat.mod_mul]
    simp

/-- A read of bytes that a write does not touch gives what it gave before. -/
theorem rd_wr_out {m : List Host.Cell} (h : Memory.wf m = true) {a n b k : Nat} (v : Nat) (hb : b + k ≤ a ∨ a + n ≤ b) :
    Memory.rd (Memory.wr m a n v) b k = Memory.rd m b k :=
  rd_congr fun _ _ => read_wr_out h v (by omega)

end Sys2Proof.Laws
end

