-- ==== Sys2Proof/Laws/Scalar.lean ====
section
/-!
SUPPORT. Sys2Proof/Laws/Scalar.lean: the values of the control unit's instructions in the arithmetic of their rules: shift
amounts, immediates, relations, address sums and displacements (R139 to R149).
-/

namespace Sys2Proof.Laws

open Sys2Proof.Machine Sys2Proof.Safety

/-- Fewer registers, no pending return among them. -/
theorem NoReturn.sub {s : State} {l m : List Dst} (h : NoReturn s m) (hs : ∀ x ∈ l, x ∈ m) : NoReturn s l :=
  fun x hx => h x (hs x hx)

/-- A shift takes its amount modulo 64. -/
theorem shiftAmt_eq (y : GWord) : shiftAmt y = y.toNat % 64 := by simp [shiftAmt, BitVec.extractLsb'_toNat]

/-- A register's signed value. -/
theorem toSigned_toNat (x : GWord) : toSigned 64 x.toNat = x.toInt := by
  unfold toSigned; rw [BitVec.toInt_eq_toNat_cond]; have := x.isLt
  rw [Nat.mod_eq_of_lt this]; split <;> split <;> omega

/-- Wrapping an integer to a register. -/
theorem ofNat_wrapInt (z : Int) : BitVec.ofNat 64 (wrapInt 64 z) = BitVec.ofInt 64 z := by
  apply BitVec.eq_of_toNat_eq; simp [wrapInt, BitVec.toNat_ofInt]
  omega

/-- The immediate of a CI unit, sign-extended (R120, R140). -/
theorem imm64_eq (i : BitVec 14) (p : Pfx) :
    imm64 i p = (match p with | none => i.signExtend 64 | some q => (q ++ i).signExtend 64) := by
  cases p <;> simp [imm64, ciImm, BitVec.signExtend]

/-- The same as an address. -/
theorem imm72_eq (i : BitVec 14) (p : Pfx) :
    BitVec.ofInt 72 (ciImm i p) = (match p with | none => i.signExtend 72 | some q => (q ++ i).signExtend 72) := by
  cases p <;> simp [ciImm, BitVec.signExtend]

/-- The relations of cmp on register values. -/
theorem relInt_eq (r : Nat) (x y : GWord) : relInt 64 r x.toNat y.toNat = Safety.relation r x y := by
  have := x.isLt; have := y.isLt
  unfold relInt Safety.relation
  simp only [toSigned_toNat, Nat.mod_eq_of_lt, *]
  split <;> first
    | rfl
    | (rw [Bool.eq_iff_iff]; simp [BitVec.toNat_eq]; done)
    | (rw [Bool.eq_iff_iff]; simp [BitVec.ule]; done)

/-- The stack check passes exactly the addresses that A15 may take (R138). -/
theorem stackBad_iff (s : State) (d : BitVec 4) (v : Addr) : s.ctx.stackBad d v = false ↔ StackOk s d v := by
  simp only [Ctx.stackBad, StackOk, Ctx.stackLimit]
  by_cases hd : d = 15
  · by_cases hs : s.ctx.splim = 0
    · simp [hs]
    · have hs' : ¬ s.ctx.splim = 0#64 := hs
      have := s.ctx.splim.isLt
      simp [hd, hs', Nat.shiftRight_eq_div_pow]
      omega
  · have hd' : ¬ d = 15#4 := hd
    simp [hd']

/-- sext72(G[g]) << s (Table 07-2). -/
theorem shl72 (g : GWord) (n : Nat) : g.signExtend 72 <<< n = BitVec.ofInt 72 (g.toInt * 2 ^ n) := by
  rw [BitVec.ofInt_mul, BitVec.signExtend, BitVec.shiftLeft_eq_mul_twoPow]
  congr 1
  apply BitVec.eq_of_toNat_eq
  rw [BitVec.toNat_twoPow, BitVec.toNat_ofInt]
  norm_cast

/-- ahi's two halves (Table 07-2). -/
theorem hi72 (g : GWord) (x : Addr) : (g.extractLsb' 0 8 ++ x.extractLsb' 0 64) =
    BitVec.ofNat 72 (g.toNat % 256 * 2 ^ 64 + x.toNat % 2 ^ 64) := by
  apply BitVec.eq_of_toNat_eq
  rw [BitVec.toNat_append, BitVec.extractLsb'_toNat, BitVec.extractLsb'_toNat, BitVec.toNat_ofNat]
  simp only [Nat.shiftRight_zero]
  rw [← Nat.shiftLeft_add_eq_or_of_lt (Nat.mod_lt _ (by decide)), Nat.shiftLeft_eq]
  omega

/-- An A register named by a 5-bit field. -/
theorem aIdx_setWidth (a : BitVec 4) : aIdx (a.setWidth 5) = a := by
  revert a; decide

/-- The displacement of a transfer, in bytes (R118, R148). -/
theorem dispOf_eq {w : Nat} (d : BitVec w) (x : Pfx) : dispOf d x = Safety.disp d x := by
  cases x <;> simp [dispOf, Safety.disp, BitVec.signExtend, BitVec.ofInt_mul, BitVec.mul_comm]

/-- csrr puts the value of a readable CSR (R154). -/
theorem csrr_puts {s : State} {g : BitVec 5} {c : BitVec 12} {v : Nat} (h : NoReturn s [.g g])
    (hd : Safety.drains c.toNat = true → s.ctx.tiq = []) (hv : s.csr c.toNat = some v) :
    PutsG (exec (.csrr g c) s) s g (BitVec.ofNat 64 v) 1 := by
  have hw : (waitsRead c.toNat && !s.ctx.tiq.isEmpty) = false := by
    rw [show Safety.drains c.toNat = waitsRead c.toNat from rfl] at hd
    cases e : waitsRead c.toNat
    · rfl
    · simp [hd e]
  have := aluStep_puts (s := s) (d := g) (srcs := []) h 1 (BitVec.ofNat 64 v)
  simp only [exec, execCsrr, hv, hw]
  exact this

end Sys2Proof.Laws
end

