-- ==== Sys2Proof/Laws/ScalarMem.lean ====
section
/-!
SUPPORT. Sys2Proof/Laws/ScalarMem.lean: the steps of a scalar access that is permitted, and what the checks of
accesses leave alone (R151, R268).
-/

namespace Sys2Proof.Laws

open Sys2Proof.Machine Sys2Proof.Safety

/-- The address of a CM unit: the offset counts units of the access width (R151). -/
theorem cmAddr_eq (a : Addr) (o : BitVec 13) (x : Pfx) (n : Nat) : cmAddr a o x n = a + (match x with | none => o.signExtend 72 | some q => (q.setWidth 24 ++ o).signExtend 72) * BitVec.ofNat 72 n := by
  unfold cmAddr cmOffset
  congr 1
  cases x with
  | none => rw [BitVec.ofInt_mul]; congr 1
  | some q =>
    rw [BitVec.ofInt_mul]
    have : q.extractLsb' 0 24 = q.setWidth 24 := by ext i; simp
    simp only [this]; rfl

/-- An access width divides a page. -/
theorem size_dvd_page (z : BitVec 2) : 2 ^ z.toNat ∣ 65536 := by
  have : (65536:Nat) = 2^16 := rfl
  rw [this]; exact Nat.pow_dvd_pow 2 (by have := z.isLt; omega)

/-- The context of a pushed entry. -/
theorem pushed_ctx {s : State} (h : Alone s) (i w) : (State.pushed s i w).ctx = { s.ctx with tiq := [s.ctx.entryOf i], nextseq := s.ctx.nextseq + 1, pc := s.ctx.pc + BitVec.ofNat 72 (4 * w) } := by
  simp [State.pushed, State.push, State.mapCtx, Ctx.skip, h.tiq]

/-- The check of an access leaves the context alone. -/
theorem reaches_ctx {p u : State} {a va n pa cls} (h : Reaches p a va n pa cls u) : u.ctx = p.ctx := by
  have := check_ctx p p.ctx.asid p.ctx.ids a va n
  rw [h.check] at this; exact this

/-- A permitted scalar access goes on with its one piece. -/
theorem withScalar_reaches {s u : State} {i w va n pa cls x wr} {body} (h : Alone s) (hn : n ∣ 65536) (hr : Reaches (State.pushed s i w) (cmAcc wr x) va n pa cls u) :
   withScalar x wr va n (State.pushed s i w) body = body [(pa,n)] cls u := by
  obtain ⟨m, hm⟩ := vaCheck_reaches hr hn
  have hc : u.ctx.copies = [] := by rw [reaches_ctx hr, pushed_ctx h]; exact h.copies
  have hd : u.dataFault (!wr) [(pa,n)] = none := hr.data
  unfold withScalar
  simp only [hm]
  simp only [afterCopies, hc, List.find?, hd]

/-- One piece read. -/
theorem rdPieces_one (u : State) (pa n) : u.rdPieces [(pa,n)] = u.rd pa n := by simp [State.rdPieces]

/-- A scalar read of one piece. -/
theorem scalarRead_one (u : State) (pa n cls) : u.scalarRead [(pa,n)] cls n = if cls = 3 ∧ u.target pa = .window then (u.winLoad pa n).toNat else u.rd pa n := by
  unfold State.scalarRead State.windowOf
  by_cases h : cls = 3 ∧ u.target pa = .window
  · simp [h]
  · simp only [h, if_false, rdPieces_one]

/-- The words of a CM unit. -/
theorem pfxLen_words (x : Pfx) : 1 + pfxLen x = if x.isSome then 2 else 1 := by unfold pfxLen; split <;> rfl

/-- The entry that has been performed retires. -/
theorem retire_scalar (s : State) (i : Instr) (w) (u : State) (c : Ctx) (v : State)
   (hv : v = { u with ctx := { c with
      tiq := [s.ctx.entryOf i], nextseq := s.ctx.nextseq + 1, pc := s.ctx.pc + BitVec.ofNat 72 (4 * w) } }) 
   (hc : c.retd = s.ctx.retd) (hl : c.ilock = []) (hn : c.olds = []) (hcp : c.copies = []):
   (v.retireHead (s.ctx.entryOf i)).runAll = State.ran { u with ctx := s.ctx } i w c := by
  have := entryOf_fields s.ctx i
  have e : v.retireHead (s.ctx.entryOf i) = State.ran { u with ctx := s.ctx } i w c := by
    subst hv
    simp only [State.retireHead, Ctx.retire, Core.retire, State.ran, this, hl, hn, hc, freeOlds, List.tail, List.map_nil,
      List.filter_nil]
  rw [e, runAll_nil]; exact hcp

/-- A register write under other fields. -/
theorem setG_queue (c : Ctx) (g v t n p) : ({ c with tiq := t, nextseq := n, pc := p } : Ctx).setG g v = { { c with g := (c.setG g v).g } with tiq := t, nextseq := n, pc := p } := by
  unfold Ctx.setG; split <;> rfl

/-- A dirty-bit update leaves the context alone. -/
theorem commitDirty_ctx (s : State) (asid) (g) (va) : (s.commitDirty asid g va).ctx = s.ctx :=
  (commitDirty_cores s asid g va).ctx

/-- An aligned access has one page. -/
theorem commitPages_one (s : State) (p : Party) (va : Addr) (n : Nat) (h : va.toNat % n = 0) (hn : n ∣ 65536) :
  s.commitPages p [{va := va, n := n}] = s.commitDirty p.asid p.acc.agent (BitVec.ofNat 72 (va.toNat / 65536 * 65536)) := by
  simp [State.commitPages, pagesOf, pieces_aligned h hn]

/-- A store that DMR signs. -/
theorem sign_eq (s : State) (va : Addr) (n v) : s.sign va n v = { s with ctx := { s.ctx with crc := if s.ctx.inst.isSome then crcBytes (crcBytes s.ctx.crc (bytesOf 9 va.toNat)) (bytesOf n v) else s.ctx.crc } } := by
  unfold State.sign; split
  · simp [State.mapCtx, *]
  · simp [*]

/-- What a dirty-bit update writes. -/
theorem commitDirty_mem (s : State) (asid va) (l pte size k) (hi : s.ctx.inst = none) (h : s.translate asid va = (some (l,pte,size),k)) : 
   (s.commitDirty asid false va).mem = (k.wr pte 8 (k.rd pte 8 ||| 0x10)).mem := by
  unfold State.commitDirty
  simp [hi, State.translateFor, h]

/-- A walk writes at most the leaf it ends at. -/
theorem translate_mem (s : State) (asid va) (l pte size k) (hm : MemOk s) (h : s.translate asid va = (some (l,pte,size),k)) :
   MemOk k ∧ ∀ b, (b < pte ∨ pte + 8 ≤ b) → Memory.read k.mem b = Memory.read s.mem b := by
  unfold State.translate at h
  split at h
  · simp at h; rw [← h.2]; exact ⟨hm, fun _ _ => rfl⟩
  · split at h
    · simp only [Prod.mk.injEq] at h
      rw [← h.2]; exact ⟨hm, fun _ _ => rfl⟩
    · unfold State.walkLeaf at h
      split at h
      · simp at h
      · split at h
        · simp at h
        · simp at h
        · simp only [if_true, Prod.mk.injEq, Option.some.injEq] at h
          obtain ⟨⟨rfl, rfl, rfl⟩, rfl⟩ := h
          split
          · exact ⟨hm, fun _ _ => rfl⟩
          · exact ⟨wf_wr hm _ _ _, fun b hb => read_wr_out hm _ (by omega)⟩

/-- The check of an element leaves the context alone. -/
theorem vaCheck_ctx (p : Party) (al : Nat) (m : Pages) (x : MElem) (s : State) :
    (s.vaCheck p al m x).2.2.ctx = s.ctx := (vaCheck_cores p al m x s).ctx

/-- So does a tile load from memory. -/
theorem loadVa_ctx (p al put) (xs) (m t s u v) (h : loadVa p al put xs m t s = .done u v) : v.ctx = s.ctx := by
  induction xs generalizing m t s with
  | nil => simp [loadVa] at h; rw [h.2]
  | cons x xs ih =>
    unfold loadVa at h
    have := vaCheck_ctx p al m x s
    split at h
    · rename_i h1
      rw [h1] at this
      split at h
      · cases h
      · rw [ih _ _ _ h]; exact this
    all_goals cases h

end Sys2Proof.Laws
end

