-- ==== Sys2Proof/Laws/State.lean ====
section
/-!
SUPPORT. Sys2Proof/Laws/State.lean: each field of the machine and of a context after each plain update, so that no proof
unfolds a record.
-/

namespace Sys2Proof.Laws

open Sys2Proof.Machine

/-! ### State.mapCtx -/

@[simp] theorem ctx_mapCtx (s : State) (f : Ctx → Ctx) : (s.mapCtx f).ctx = f s.ctx := rfl
@[simp] theorem core_mapCtx (s : State) (f : Ctx → Ctx) : (s.mapCtx f).core = s.core := rfl
@[simp] theorem others_mapCtx (s : State) (f : Ctx → Ctx) : (s.mapCtx f).others = s.others := rfl
@[simp] theorem lanes_mapCtx (s : State) (f : Ctx → Ctx) : (s.mapCtx f).lanes = s.lanes := rfl
@[simp] theorem call_mapCtx (s : State) (f : Ctx → Ctx) : (s.mapCtx f).call = s.call := rfl
@[simp] theorem saved_mapCtx (s : State) (f : Ctx → Ctx) : (s.mapCtx f).saved = s.saved := rfl
@[simp] theorem groups_mapCtx (s : State) (f : Ctx → Ctx) : (s.mapCtx f).groups = s.groups := rfl
@[simp] theorem xchg_mapCtx (s : State) (f : Ctx → Ctx) : (s.mapCtx f).xchg = s.xchg := rfl
@[simp] theorem mem_mapCtx (s : State) (f : Ctx → Ctx) : (s.mapCtx f).mem = s.mem := rfl
@[simp] theorem poison_mapCtx (s : State) (f : Ctx → Ctx) : (s.mapCtx f).poison = s.poison := rfl
@[simp] theorem sys_mapCtx (s : State) (f : Ctx → Ctx) : (s.mapCtx f).sys = s.sys := rfl
@[simp] theorem shoot_mapCtx (s : State) (f : Ctx → Ctx) : (s.mapCtx f).shoot = s.shoot := rfl
@[simp] theorem gone_mapCtx (s : State) (f : Ctx → Ctx) : (s.mapCtx f).gone = s.gone := rfl
@[simp] theorem variant_mapCtx (s : State) (f : Ctx → Ctx) : (s.mapCtx f).variant = s.variant := rfl
@[simp] theorem die1_mapCtx (s : State) (f : Ctx → Ctx) : (s.mapCtx f).die1 = s.die1 := rfl
@[simp] theorem stepping_mapCtx (s : State) (f : Ctx → Ctx) : (s.mapCtx f).stepping = s.stepping := rfl
@[simp] theorem gen_mapCtx (s : State) (f : Ctx → Ctx) : (s.mapCtx f).gen = s.gen := rfl
@[simp] theorem turns_mapCtx (s : State) (f : Ctx → Ctx) : (s.mapCtx f).turns = s.turns := rfl
@[simp] theorem eager_mapCtx (s : State) (f : Ctx → Ctx) : (s.mapCtx f).eager = s.eager := rfl
@[simp] theorem freeCtr_mapCtx (s : State) (f : Ctx → Ctx) : (s.mapCtx f).freeCtr = s.freeCtr := rfl
@[simp] theorem cycCtr_mapCtx (s : State) (f : Ctx → Ctx) : (s.mapCtx f).cycCtr = s.cycCtr := rfl
@[simp] theorem clTlb_mapCtx (s : State) (f : Ctx → Ctx) : (s.mapCtx f).clTlb = s.clTlb := rfl
@[simp] theorem tokc_mapCtx (s : State) (f : Ctx → Ctx) : (s.mapCtx f).tokc = s.tokc := rfl
@[simp] theorem l2_mapCtx (s : State) (f : Ctx → Ctx) : (s.mapCtx f).l2 = s.l2 := rfl
@[simp] theorem fqIrq_mapCtx (s : State) (f : Ctx → Ctx) : (s.mapCtx f).fqIrq = s.fqIrq := rfl
@[simp] theorem fqseq_mapCtx (s : State) (f : Ctx → Ctx) : (s.mapCtx f).fqseq = s.fqseq := rfl
@[simp] theorem shLost_mapCtx (s : State) (f : Ctx → Ctx) : (s.mapCtx f).shLost = s.shLost := rfl
@[simp] theorem mods_mapCtx (s : State) (f : Ctx → Ctx) : (s.mapCtx f).mods = s.mods := rfl
@[simp] theorem minmod_mapCtx (s : State) (f : Ctx → Ctx) : (s.mapCtx f).minmod = s.minmod := rfl
@[simp] theorem oden_mapCtx (s : State) (f : Ctx → Ctx) : (s.mapCtx f).oden = s.oden := rfl
@[simp] theorem shEvn_mapCtx (s : State) (f : Ctx → Ctx) : (s.mapCtx f).shEvn = s.shEvn := rfl
@[simp] theorem shEven_mapCtx (s : State) (f : Ctx → Ctx) : (s.mapCtx f).shEven = s.shEven := rfl
@[simp] theorem steer_mapCtx (s : State) (f : Ctx → Ctx) : (s.mapCtx f).steer = s.steer := rfl
@[simp] theorem drains_mapCtx (s : State) (f : Ctx → Ctx) : (s.mapCtx f).drains = s.drains := rfl
@[simp] theorem ports_mapCtx (s : State) (f : Ctx → Ctx) : (s.mapCtx f).ports = s.ports := rfl
@[simp] theorem lroute_mapCtx (s : State) (f : Ctx → Ctx) : (s.mapCtx f).lroute = s.lroute := rfl
@[simp] theorem shadows_mapCtx (s : State) (f : Ctx → Ctx) : (s.mapCtx f).shadows = s.shadows := rfl
@[simp] theorem pools_mapCtx (s : State) (f : Ctx → Ctx) : (s.mapCtx f).pools = s.pools := rfl
@[simp] theorem rasRep_mapCtx (s : State) (f : Ctx → Ctx) : (s.mapCtx f).rasRep = s.rasRep := rfl
@[simp] theorem launches_mapCtx (s : State) (f : Ctx → Ctx) : (s.mapCtx f).launches = s.launches := rfl
@[simp] theorem nextLaunch_mapCtx (s : State) (f : Ctx → Ctx) : (s.mapCtx f).nextLaunch = s.nextLaunch := rfl
@[simp] theorem rr_mapCtx (s : State) (f : Ctx → Ctx) : (s.mapCtx f).rr = s.rr := rfl
@[simp] theorem queues_mapCtx (s : State) (f : Ctx → Ctx) : (s.mapCtx f).queues = s.queues := rfl
@[simp] theorem nextStamp_mapCtx (s : State) (f : Ctx → Ctx) : (s.mapCtx f).nextStamp = s.nextStamp := rfl
@[simp] theorem seqs_mapCtx (s : State) (f : Ctx → Ctx) : (s.mapCtx f).seqs = s.seqs := rfl
@[simp] theorem waiters_mapCtx (s : State) (f : Ctx → Ctx) : (s.mapCtx f).waiters = s.waiters := rfl
@[simp] theorem slices_mapCtx (s : State) (f : Ctx → Ctx) : (s.mapCtx f).slices = s.slices := rfl
@[simp] theorem curq_mapCtx (s : State) (f : Ctx → Ctx) : (s.mapCtx f).curq = s.curq := rfl
@[simp] theorem ended_mapCtx (s : State) (f : Ctx → Ctx) : (s.mapCtx f).ended = s.ended := rfl
@[simp] theorem lent_mapCtx (s : State) (f : Ctx → Ctx) : (s.mapCtx f).lent = s.lent := rfl
@[simp] theorem fqPend_mapCtx (s : State) (f : Ctx → Ctx) : (s.mapCtx f).fqPend = s.fqPend := rfl
@[simp] theorem merges_mapCtx (s : State) (f : Ctx → Ctx) : (s.mapCtx f).merges = s.merges := rfl
@[simp] theorem objects_mapCtx (s : State) (f : Ctx → Ctx) : (s.mapCtx f).objects = s.objects := rfl
@[simp] theorem aside_mapCtx (s : State) (f : Ctx → Ctx) : (s.mapCtx f).aside = s.aside := rfl
@[simp] theorem msi_mapCtx (s : State) (f : Ctx → Ctx) : (s.mapCtx f).msi = s.msi := rfl
@[simp] theorem vfEnable_mapCtx (s : State) (f : Ctx → Ctx) : (s.mapCtx f).vfEnable = s.vfEnable := rfl
@[simp] theorem atomFns_mapCtx (s : State) (f : Ctx → Ctx) : (s.mapCtx f).atomFns = s.atomFns := rfl
@[simp] theorem hostOut_mapCtx (s : State) (f : Ctx → Ctx) : (s.mapCtx f).hostOut = s.hostOut := rfl
@[simp] theorem hostAbort_mapCtx (s : State) (f : Ctx → Ctx) : (s.mapCtx f).hostAbort = s.hostAbort := rfl
@[simp] theorem boot_mapCtx (s : State) (f : Ctx → Ctx) : (s.mapCtx f).boot = s.boot := rfl
@[simp] theorem trip_mapCtx (s : State) (f : Ctx → Ctx) : (s.mapCtx f).trip = s.trip := rfl
@[simp] theorem powered_mapCtx (s : State) (f : Ctx → Ctx) : (s.mapCtx f).powered = s.powered := rfl

/-! ### State.wr -/

@[simp] theorem ctx_wr (s : State) (pa n v : Nat) : (s.wr pa n v).ctx = s.ctx := rfl
@[simp] theorem core_wr (s : State) (pa n v : Nat) : (s.wr pa n v).core = s.core := rfl
@[simp] theorem others_wr (s : State) (pa n v : Nat) : (s.wr pa n v).others = s.others := rfl
@[simp] theorem lanes_wr (s : State) (pa n v : Nat) : (s.wr pa n v).lanes = s.lanes := rfl
@[simp] theorem call_wr (s : State) (pa n v : Nat) : (s.wr pa n v).call = s.call := rfl
@[simp] theorem saved_wr (s : State) (pa n v : Nat) : (s.wr pa n v).saved = s.saved := rfl
@[simp] theorem groups_wr (s : State) (pa n v : Nat) : (s.wr pa n v).groups = s.groups := rfl
@[simp] theorem xchg_wr (s : State) (pa n v : Nat) : (s.wr pa n v).xchg = s.xchg := rfl
@[simp] theorem mem_wr (s : State) (pa n v : Nat) : (s.wr pa n v).mem = Memory.wr s.mem pa n v := rfl
@[simp] theorem poison_wr (s : State) (pa n v : Nat) : (s.wr pa n v).poison = s.poison := rfl
@[simp] theorem sys_wr (s : State) (pa n v : Nat) : (s.wr pa n v).sys = s.sys := rfl
@[simp] theorem shoot_wr (s : State) (pa n v : Nat) : (s.wr pa n v).shoot = s.shoot := rfl
@[simp] theorem gone_wr (s : State) (pa n v : Nat) : (s.wr pa n v).gone = s.gone := rfl
@[simp] theorem variant_wr (s : State) (pa n v : Nat) : (s.wr pa n v).variant = s.variant := rfl
@[simp] theorem die1_wr (s : State) (pa n v : Nat) : (s.wr pa n v).die1 = s.die1 := rfl
@[simp] theorem stepping_wr (s : State) (pa n v : Nat) : (s.wr pa n v).stepping = s.stepping := rfl
@[simp] theorem gen_wr (s : State) (pa n v : Nat) : (s.wr pa n v).gen = s.gen := rfl
@[simp] theorem turns_wr (s : State) (pa n v : Nat) : (s.wr pa n v).turns = s.turns := rfl
@[simp] theorem eager_wr (s : State) (pa n v : Nat) : (s.wr pa n v).eager = s.eager := rfl
@[simp] theorem freeCtr_wr (s : State) (pa n v : Nat) : (s.wr pa n v).freeCtr = s.freeCtr := rfl
@[simp] theorem cycCtr_wr (s : State) (pa n v : Nat) : (s.wr pa n v).cycCtr = s.cycCtr := rfl
@[simp] theorem clTlb_wr (s : State) (pa n v : Nat) : (s.wr pa n v).clTlb = s.clTlb := rfl
@[simp] theorem tokc_wr (s : State) (pa n v : Nat) : (s.wr pa n v).tokc = s.tokc := rfl
@[simp] theorem l2_wr (s : State) (pa n v : Nat) : (s.wr pa n v).l2 = s.l2 := rfl
@[simp] theorem fqIrq_wr (s : State) (pa n v : Nat) : (s.wr pa n v).fqIrq = s.fqIrq := rfl
@[simp] theorem fqseq_wr (s : State) (pa n v : Nat) : (s.wr pa n v).fqseq = s.fqseq := rfl
@[simp] theorem shLost_wr (s : State) (pa n v : Nat) : (s.wr pa n v).shLost = s.shLost := rfl
@[simp] theorem mods_wr (s : State) (pa n v : Nat) : (s.wr pa n v).mods = s.mods := rfl
@[simp] theorem minmod_wr (s : State) (pa n v : Nat) : (s.wr pa n v).minmod = s.minmod := rfl
@[simp] theorem oden_wr (s : State) (pa n v : Nat) : (s.wr pa n v).oden = s.oden := rfl
@[simp] theorem shEvn_wr (s : State) (pa n v : Nat) : (s.wr pa n v).shEvn = s.shEvn := rfl
@[simp] theorem shEven_wr (s : State) (pa n v : Nat) : (s.wr pa n v).shEven = s.shEven := rfl
@[simp] theorem steer_wr (s : State) (pa n v : Nat) : (s.wr pa n v).steer = s.steer := rfl
@[simp] theorem drains_wr (s : State) (pa n v : Nat) : (s.wr pa n v).drains = s.drains := rfl
@[simp] theorem ports_wr (s : State) (pa n v : Nat) : (s.wr pa n v).ports = s.ports := rfl
@[simp] theorem lroute_wr (s : State) (pa n v : Nat) : (s.wr pa n v).lroute = s.lroute := rfl
@[simp] theorem shadows_wr (s : State) (pa n v : Nat) : (s.wr pa n v).shadows = s.shadows := rfl
@[simp] theorem pools_wr (s : State) (pa n v : Nat) : (s.wr pa n v).pools = s.pools := rfl
@[simp] theorem rasRep_wr (s : State) (pa n v : Nat) : (s.wr pa n v).rasRep = s.rasRep := rfl
@[simp] theorem launches_wr (s : State) (pa n v : Nat) : (s.wr pa n v).launches = s.launches := rfl
@[simp] theorem nextLaunch_wr (s : State) (pa n v : Nat) : (s.wr pa n v).nextLaunch = s.nextLaunch := rfl
@[simp] theorem rr_wr (s : State) (pa n v : Nat) : (s.wr pa n v).rr = s.rr := rfl
@[simp] theorem queues_wr (s : State) (pa n v : Nat) : (s.wr pa n v).queues = s.queues := rfl
@[simp] theorem nextStamp_wr (s : State) (pa n v : Nat) : (s.wr pa n v).nextStamp = s.nextStamp := rfl
@[simp] theorem seqs_wr (s : State) (pa n v : Nat) : (s.wr pa n v).seqs = s.seqs := rfl
@[simp] theorem waiters_wr (s : State) (pa n v : Nat) : (s.wr pa n v).waiters = s.waiters := rfl
@[simp] theorem slices_wr (s : State) (pa n v : Nat) : (s.wr pa n v).slices = s.slices := rfl
@[simp] theorem curq_wr (s : State) (pa n v : Nat) : (s.wr pa n v).curq = s.curq := rfl
@[simp] theorem ended_wr (s : State) (pa n v : Nat) : (s.wr pa n v).ended = s.ended := rfl
@[simp] theorem lent_wr (s : State) (pa n v : Nat) : (s.wr pa n v).lent = s.lent := rfl
@[simp] theorem fqPend_wr (s : State) (pa n v : Nat) : (s.wr pa n v).fqPend = s.fqPend := rfl
@[simp] theorem merges_wr (s : State) (pa n v : Nat) : (s.wr pa n v).merges = s.merges := rfl
@[simp] theorem objects_wr (s : State) (pa n v : Nat) : (s.wr pa n v).objects = s.objects := rfl
@[simp] theorem aside_wr (s : State) (pa n v : Nat) : (s.wr pa n v).aside = s.aside := rfl
@[simp] theorem msi_wr (s : State) (pa n v : Nat) : (s.wr pa n v).msi = s.msi := rfl
@[simp] theorem vfEnable_wr (s : State) (pa n v : Nat) : (s.wr pa n v).vfEnable = s.vfEnable := rfl
@[simp] theorem atomFns_wr (s : State) (pa n v : Nat) : (s.wr pa n v).atomFns = s.atomFns := rfl
@[simp] theorem hostOut_wr (s : State) (pa n v : Nat) : (s.wr pa n v).hostOut = s.hostOut := rfl
@[simp] theorem hostAbort_wr (s : State) (pa n v : Nat) : (s.wr pa n v).hostAbort = s.hostAbort := rfl
@[simp] theorem boot_wr (s : State) (pa n v : Nat) : (s.wr pa n v).boot = s.boot := rfl
@[simp] theorem trip_wr (s : State) (pa n v : Nat) : (s.wr pa n v).trip = s.trip := rfl
@[simp] theorem powered_wr (s : State) (pa n v : Nat) : (s.wr pa n v).powered = s.powered := rfl

/-! ### State.setSys -/

@[simp] theorem ctx_setSys (s : State) (d n : Nat) (v : BitVec 64) : (s.setSys d n v).ctx = s.ctx := rfl
@[simp] theorem core_setSys (s : State) (d n : Nat) (v : BitVec 64) : (s.setSys d n v).core = s.core := rfl
@[simp] theorem others_setSys (s : State) (d n : Nat) (v : BitVec 64) : (s.setSys d n v).others = s.others := rfl
@[simp] theorem lanes_setSys (s : State) (d n : Nat) (v : BitVec 64) : (s.setSys d n v).lanes = s.lanes := rfl
@[simp] theorem call_setSys (s : State) (d n : Nat) (v : BitVec 64) : (s.setSys d n v).call = s.call := rfl
@[simp] theorem saved_setSys (s : State) (d n : Nat) (v : BitVec 64) : (s.setSys d n v).saved = s.saved := rfl
@[simp] theorem groups_setSys (s : State) (d n : Nat) (v : BitVec 64) : (s.setSys d n v).groups = s.groups := rfl
@[simp] theorem xchg_setSys (s : State) (d n : Nat) (v : BitVec 64) : (s.setSys d n v).xchg = s.xchg := rfl
@[simp] theorem mem_setSys (s : State) (d n : Nat) (v : BitVec 64) : (s.setSys d n v).mem = s.mem := rfl
@[simp] theorem poison_setSys (s : State) (d n : Nat) (v : BitVec 64) : (s.setSys d n v).poison = s.poison := rfl
@[simp] theorem shoot_setSys (s : State) (d n : Nat) (v : BitVec 64) : (s.setSys d n v).shoot = s.shoot := rfl
@[simp] theorem gone_setSys (s : State) (d n : Nat) (v : BitVec 64) : (s.setSys d n v).gone = s.gone := rfl
@[simp] theorem variant_setSys (s : State) (d n : Nat) (v : BitVec 64) : (s.setSys d n v).variant = s.variant := rfl
@[simp] theorem die1_setSys (s : State) (d n : Nat) (v : BitVec 64) : (s.setSys d n v).die1 = s.die1 := rfl
@[simp] theorem stepping_setSys (s : State) (d n : Nat) (v : BitVec 64) : (s.setSys d n v).stepping = s.stepping := rfl
@[simp] theorem gen_setSys (s : State) (d n : Nat) (v : BitVec 64) : (s.setSys d n v).gen = s.gen := rfl
@[simp] theorem turns_setSys (s : State) (d n : Nat) (v : BitVec 64) : (s.setSys d n v).turns = s.turns := rfl
@[simp] theorem eager_setSys (s : State) (d n : Nat) (v : BitVec 64) : (s.setSys d n v).eager = s.eager := rfl
@[simp] theorem freeCtr_setSys (s : State) (d n : Nat) (v : BitVec 64) : (s.setSys d n v).freeCtr = s.freeCtr := rfl
@[simp] theorem cycCtr_setSys (s : State) (d n : Nat) (v : BitVec 64) : (s.setSys d n v).cycCtr = s.cycCtr := rfl
@[simp] theorem clTlb_setSys (s : State) (d n : Nat) (v : BitVec 64) : (s.setSys d n v).clTlb = s.clTlb := rfl
@[simp] theorem tokc_setSys (s : State) (d n : Nat) (v : BitVec 64) : (s.setSys d n v).tokc = s.tokc := rfl
@[simp] theorem l2_setSys (s : State) (d n : Nat) (v : BitVec 64) : (s.setSys d n v).l2 = s.l2 := rfl
@[simp] theorem fqIrq_setSys (s : State) (d n : Nat) (v : BitVec 64) : (s.setSys d n v).fqIrq = s.fqIrq := rfl
@[simp] theorem fqseq_setSys (s : State) (d n : Nat) (v : BitVec 64) : (s.setSys d n v).fqseq = s.fqseq := rfl
@[simp] theorem shLost_setSys (s : State) (d n : Nat) (v : BitVec 64) : (s.setSys d n v).shLost = s.shLost := rfl
@[simp] theorem mods_setSys (s : State) (d n : Nat) (v : BitVec 64) : (s.setSys d n v).mods = s.mods := rfl
@[simp] theorem minmod_setSys (s : State) (d n : Nat) (v : BitVec 64) : (s.setSys d n v).minmod = s.minmod := rfl
@[simp] theorem oden_setSys (s : State) (d n : Nat) (v : BitVec 64) : (s.setSys d n v).oden = s.oden := rfl
@[simp] theorem shEvn_setSys (s : State) (d n : Nat) (v : BitVec 64) : (s.setSys d n v).shEvn = s.shEvn := rfl
@[simp] theorem shEven_setSys (s : State) (d n : Nat) (v : BitVec 64) : (s.setSys d n v).shEven = s.shEven := rfl
@[simp] theorem steer_setSys (s : State) (d n : Nat) (v : BitVec 64) : (s.setSys d n v).steer = s.steer := rfl
@[simp] theorem drains_setSys (s : State) (d n : Nat) (v : BitVec 64) : (s.setSys d n v).drains = s.drains := rfl
@[simp] theorem ports_setSys (s : State) (d n : Nat) (v : BitVec 64) : (s.setSys d n v).ports = s.ports := rfl
@[simp] theorem lroute_setSys (s : State) (d n : Nat) (v : BitVec 64) : (s.setSys d n v).lroute = s.lroute := rfl
@[simp] theorem shadows_setSys (s : State) (d n : Nat) (v : BitVec 64) : (s.setSys d n v).shadows = s.shadows := rfl
@[simp] theorem pools_setSys (s : State) (d n : Nat) (v : BitVec 64) : (s.setSys d n v).pools = s.pools := rfl
@[simp] theorem rasRep_setSys (s : State) (d n : Nat) (v : BitVec 64) : (s.setSys d n v).rasRep = s.rasRep := rfl
@[simp] theorem launches_setSys (s : State) (d n : Nat) (v : BitVec 64) : (s.setSys d n v).launches = s.launches := rfl
@[simp] theorem nextLaunch_setSys (s : State) (d n : Nat) (v : BitVec 64) : (s.setSys d n v).nextLaunch = s.nextLaunch := rfl
@[simp] theorem rr_setSys (s : State) (d n : Nat) (v : BitVec 64) : (s.setSys d n v).rr = s.rr := rfl
@[simp] theorem queues_setSys (s : State) (d n : Nat) (v : BitVec 64) : (s.setSys d n v).queues = s.queues := rfl
@[simp] theorem nextStamp_setSys (s : State) (d n : Nat) (v : BitVec 64) : (s.setSys d n v).nextStamp = s.nextStamp := rfl
@[simp] theorem seqs_setSys (s : State) (d n : Nat) (v : BitVec 64) : (s.setSys d n v).seqs = s.seqs := rfl
@[simp] theorem waiters_setSys (s : State) (d n : Nat) (v : BitVec 64) : (s.setSys d n v).waiters = s.waiters := rfl
@[simp] theorem slices_setSys (s : State) (d n : Nat) (v : BitVec 64) : (s.setSys d n v).slices = s.slices := rfl
@[simp] theorem curq_setSys (s : State) (d n : Nat) (v : BitVec 64) : (s.setSys d n v).curq = s.curq := rfl
@[simp] theorem ended_setSys (s : State) (d n : Nat) (v : BitVec 64) : (s.setSys d n v).ended = s.ended := rfl
@[simp] theorem lent_setSys (s : State) (d n : Nat) (v : BitVec 64) : (s.setSys d n v).lent = s.lent := rfl
@[simp] theorem fqPend_setSys (s : State) (d n : Nat) (v : BitVec 64) : (s.setSys d n v).fqPend = s.fqPend := rfl
@[simp] theorem merges_setSys (s : State) (d n : Nat) (v : BitVec 64) : (s.setSys d n v).merges = s.merges := rfl
@[simp] theorem objects_setSys (s : State) (d n : Nat) (v : BitVec 64) : (s.setSys d n v).objects = s.objects := rfl
@[simp] theorem aside_setSys (s : State) (d n : Nat) (v : BitVec 64) : (s.setSys d n v).aside = s.aside := rfl
@[simp] theorem msi_setSys (s : State) (d n : Nat) (v : BitVec 64) : (s.setSys d n v).msi = s.msi := rfl
@[simp] theorem vfEnable_setSys (s : State) (d n : Nat) (v : BitVec 64) : (s.setSys d n v).vfEnable = s.vfEnable := rfl
@[simp] theorem atomFns_setSys (s : State) (d n : Nat) (v : BitVec 64) : (s.setSys d n v).atomFns = s.atomFns := rfl
@[simp] theorem hostOut_setSys (s : State) (d n : Nat) (v : BitVec 64) : (s.setSys d n v).hostOut = s.hostOut := rfl
@[simp] theorem hostAbort_setSys (s : State) (d n : Nat) (v : BitVec 64) : (s.setSys d n v).hostAbort = s.hostAbort := rfl
@[simp] theorem boot_setSys (s : State) (d n : Nat) (v : BitVec 64) : (s.setSys d n v).boot = s.boot := rfl
@[simp] theorem trip_setSys (s : State) (d n : Nat) (v : BitVec 64) : (s.setSys d n v).trip = s.trip := rfl
@[simp] theorem powered_setSys (s : State) (d n : Nat) (v : BitVec 64) : (s.setSys d n v).powered = s.powered := rfl

/-! ### State.mapQueue -/

@[simp] theorem ctx_mapQueue (s : State) (q : Nat) (f : Queue → Queue) : (s.mapQueue q f).ctx = s.ctx := rfl
@[simp] theorem core_mapQueue (s : State) (q : Nat) (f : Queue → Queue) : (s.mapQueue q f).core = s.core := rfl
@[simp] theorem others_mapQueue (s : State) (q : Nat) (f : Queue → Queue) : (s.mapQueue q f).others = s.others := rfl
@[simp] theorem lanes_mapQueue (s : State) (q : Nat) (f : Queue → Queue) : (s.mapQueue q f).lanes = s.lanes := rfl
@[simp] theorem call_mapQueue (s : State) (q : Nat) (f : Queue → Queue) : (s.mapQueue q f).call = s.call := rfl
@[simp] theorem saved_mapQueue (s : State) (q : Nat) (f : Queue → Queue) : (s.mapQueue q f).saved = s.saved := rfl
@[simp] theorem groups_mapQueue (s : State) (q : Nat) (f : Queue → Queue) : (s.mapQueue q f).groups = s.groups := rfl
@[simp] theorem xchg_mapQueue (s : State) (q : Nat) (f : Queue → Queue) : (s.mapQueue q f).xchg = s.xchg := rfl
@[simp] theorem mem_mapQueue (s : State) (q : Nat) (f : Queue → Queue) : (s.mapQueue q f).mem = s.mem := rfl
@[simp] theorem poison_mapQueue (s : State) (q : Nat) (f : Queue → Queue) : (s.mapQueue q f).poison = s.poison := rfl
@[simp] theorem sys_mapQueue (s : State) (q : Nat) (f : Queue → Queue) : (s.mapQueue q f).sys = s.sys := rfl
@[simp] theorem shoot_mapQueue (s : State) (q : Nat) (f : Queue → Queue) : (s.mapQueue q f).shoot = s.shoot := rfl
@[simp] theorem gone_mapQueue (s : State) (q : Nat) (f : Queue → Queue) : (s.mapQueue q f).gone = s.gone := rfl
@[simp] theorem variant_mapQueue (s : State) (q : Nat) (f : Queue → Queue) : (s.mapQueue q f).variant = s.variant := rfl
@[simp] theorem die1_mapQueue (s : State) (q : Nat) (f : Queue → Queue) : (s.mapQueue q f).die1 = s.die1 := rfl
@[simp] theorem stepping_mapQueue (s : State) (q : Nat) (f : Queue → Queue) : (s.mapQueue q f).stepping = s.stepping := rfl
@[simp] theorem gen_mapQueue (s : State) (q : Nat) (f : Queue → Queue) : (s.mapQueue q f).gen = s.gen := rfl
@[simp] theorem turns_mapQueue (s : State) (q : Nat) (f : Queue → Queue) : (s.mapQueue q f).turns = s.turns := rfl
@[simp] theorem eager_mapQueue (s : State) (q : Nat) (f : Queue → Queue) : (s.mapQueue q f).eager = s.eager := rfl
@[simp] theorem freeCtr_mapQueue (s : State) (q : Nat) (f : Queue → Queue) : (s.mapQueue q f).freeCtr = s.freeCtr := rfl
@[simp] theorem cycCtr_mapQueue (s : State) (q : Nat) (f : Queue → Queue) : (s.mapQueue q f).cycCtr = s.cycCtr := rfl
@[simp] theorem clTlb_mapQueue (s : State) (q : Nat) (f : Queue → Queue) : (s.mapQueue q f).clTlb = s.clTlb := rfl
@[simp] theorem tokc_mapQueue (s : State) (q : Nat) (f : Queue → Queue) : (s.mapQueue q f).tokc = s.tokc := rfl
@[simp] theorem l2_mapQueue (s : State) (q : Nat) (f : Queue → Queue) : (s.mapQueue q f).l2 = s.l2 := rfl
@[simp] theorem fqIrq_mapQueue (s : State) (q : Nat) (f : Queue → Queue) : (s.mapQueue q f).fqIrq = s.fqIrq := rfl
@[simp] theorem fqseq_mapQueue (s : State) (q : Nat) (f : Queue → Queue) : (s.mapQueue q f).fqseq = s.fqseq := rfl
@[simp] theorem shLost_mapQueue (s : State) (q : Nat) (f : Queue → Queue) : (s.mapQueue q f).shLost = s.shLost := rfl
@[simp] theorem mods_mapQueue (s : State) (q : Nat) (f : Queue → Queue) : (s.mapQueue q f).mods = s.mods := rfl
@[simp] theorem minmod_mapQueue (s : State) (q : Nat) (f : Queue → Queue) : (s.mapQueue q f).minmod = s.minmod := rfl
@[simp] theorem oden_mapQueue (s : State) (q : Nat) (f : Queue → Queue) : (s.mapQueue q f).oden = s.oden := rfl
@[simp] theorem shEvn_mapQueue (s : State) (q : Nat) (f : Queue → Queue) : (s.mapQueue q f).shEvn = s.shEvn := rfl
@[simp] theorem shEven_mapQueue (s : State) (q : Nat) (f : Queue → Queue) : (s.mapQueue q f).shEven = s.shEven := rfl
@[simp] theorem steer_mapQueue (s : State) (q : Nat) (f : Queue → Queue) : (s.mapQueue q f).steer = s.steer := rfl
@[simp] theorem drains_mapQueue (s : State) (q : Nat) (f : Queue → Queue) : (s.mapQueue q f).drains = s.drains := rfl
@[simp] theorem ports_mapQueue (s : State) (q : Nat) (f : Queue → Queue) : (s.mapQueue q f).ports = s.ports := rfl
@[simp] theorem lroute_mapQueue (s : State) (q : Nat) (f : Queue → Queue) : (s.mapQueue q f).lroute = s.lroute := rfl
@[simp] theorem shadows_mapQueue (s : State) (q : Nat) (f : Queue → Queue) : (s.mapQueue q f).shadows = s.shadows := rfl
@[simp] theorem pools_mapQueue (s : State) (q : Nat) (f : Queue → Queue) : (s.mapQueue q f).pools = s.pools := rfl
@[simp] theorem rasRep_mapQueue (s : State) (q : Nat) (f : Queue → Queue) : (s.mapQueue q f).rasRep = s.rasRep := rfl
@[simp] theorem launches_mapQueue (s : State) (q : Nat) (f : Queue → Queue) : (s.mapQueue q f).launches = s.launches := rfl
@[simp] theorem nextLaunch_mapQueue (s : State) (q : Nat) (f : Queue → Queue) : (s.mapQueue q f).nextLaunch = s.nextLaunch := rfl
@[simp] theorem rr_mapQueue (s : State) (q : Nat) (f : Queue → Queue) : (s.mapQueue q f).rr = s.rr := rfl
@[simp] theorem queues_mapQueue (s : State) (q : Nat) (f : Queue → Queue) : (s.mapQueue q f).queues = s.queues.map fun x => if x.q == q then f x else x := rfl
@[simp] theorem nextStamp_mapQueue (s : State) (q : Nat) (f : Queue → Queue) : (s.mapQueue q f).nextStamp = s.nextStamp := rfl
@[simp] theorem seqs_mapQueue (s : State) (q : Nat) (f : Queue → Queue) : (s.mapQueue q f).seqs = s.seqs := rfl
@[simp] theorem waiters_mapQueue (s : State) (q : Nat) (f : Queue → Queue) : (s.mapQueue q f).waiters = s.waiters := rfl
@[simp] theorem slices_mapQueue (s : State) (q : Nat) (f : Queue → Queue) : (s.mapQueue q f).slices = s.slices := rfl
@[simp] theorem curq_mapQueue (s : State) (q : Nat) (f : Queue → Queue) : (s.mapQueue q f).curq = s.curq := rfl
@[simp] theorem ended_mapQueue (s : State) (q : Nat) (f : Queue → Queue) : (s.mapQueue q f).ended = s.ended := rfl
@[simp] theorem lent_mapQueue (s : State) (q : Nat) (f : Queue → Queue) : (s.mapQueue q f).lent = s.lent := rfl
@[simp] theorem fqPend_mapQueue (s : State) (q : Nat) (f : Queue → Queue) : (s.mapQueue q f).fqPend = s.fqPend := rfl
@[simp] theorem merges_mapQueue (s : State) (q : Nat) (f : Queue → Queue) : (s.mapQueue q f).merges = s.merges := rfl
@[simp] theorem objects_mapQueue (s : State) (q : Nat) (f : Queue → Queue) : (s.mapQueue q f).objects = s.objects := rfl
@[simp] theorem aside_mapQueue (s : State) (q : Nat) (f : Queue → Queue) : (s.mapQueue q f).aside = s.aside := rfl
@[simp] theorem msi_mapQueue (s : State) (q : Nat) (f : Queue → Queue) : (s.mapQueue q f).msi = s.msi := rfl
@[simp] theorem vfEnable_mapQueue (s : State) (q : Nat) (f : Queue → Queue) : (s.mapQueue q f).vfEnable = s.vfEnable := rfl
@[simp] theorem atomFns_mapQueue (s : State) (q : Nat) (f : Queue → Queue) : (s.mapQueue q f).atomFns = s.atomFns := rfl
@[simp] theorem hostOut_mapQueue (s : State) (q : Nat) (f : Queue → Queue) : (s.mapQueue q f).hostOut = s.hostOut := rfl
@[simp] theorem hostAbort_mapQueue (s : State) (q : Nat) (f : Queue → Queue) : (s.mapQueue q f).hostAbort = s.hostAbort := rfl
@[simp] theorem boot_mapQueue (s : State) (q : Nat) (f : Queue → Queue) : (s.mapQueue q f).boot = s.boot := rfl
@[simp] theorem trip_mapQueue (s : State) (q : Nat) (f : Queue → Queue) : (s.mapQueue q f).trip = s.trip := rfl
@[simp] theorem powered_mapQueue (s : State) (q : Nat) (f : Queue → Queue) : (s.mapQueue q f).powered = s.powered := rfl

/-! ### State.mapGroups -/

@[simp] theorem ctx_mapGroups (s : State) (p : Group → Bool) (f : Group → Group) : (s.mapGroups p f).ctx = s.ctx := rfl
@[simp] theorem core_mapGroups (s : State) (p : Group → Bool) (f : Group → Group) : (s.mapGroups p f).core = s.core := rfl
@[simp] theorem others_mapGroups (s : State) (p : Group → Bool) (f : Group → Group) : (s.mapGroups p f).others = s.others := rfl
@[simp] theorem lanes_mapGroups (s : State) (p : Group → Bool) (f : Group → Group) : (s.mapGroups p f).lanes = s.lanes := rfl
@[simp] theorem call_mapGroups (s : State) (p : Group → Bool) (f : Group → Group) : (s.mapGroups p f).call = s.call := rfl
@[simp] theorem saved_mapGroups (s : State) (p : Group → Bool) (f : Group → Group) : (s.mapGroups p f).saved = s.saved := rfl
@[simp] theorem groups_mapGroups (s : State) (p : Group → Bool) (f : Group → Group) : (s.mapGroups p f).groups = s.groups.map fun g => if p g then f g else g := rfl
@[simp] theorem xchg_mapGroups (s : State) (p : Group → Bool) (f : Group → Group) : (s.mapGroups p f).xchg = s.xchg := rfl
@[simp] theorem mem_mapGroups (s : State) (p : Group → Bool) (f : Group → Group) : (s.mapGroups p f).mem = s.mem := rfl
@[simp] theorem poison_mapGroups (s : State) (p : Group → Bool) (f : Group → Group) : (s.mapGroups p f).poison = s.poison := rfl
@[simp] theorem sys_mapGroups (s : State) (p : Group → Bool) (f : Group → Group) : (s.mapGroups p f).sys = s.sys := rfl
@[simp] theorem shoot_mapGroups (s : State) (p : Group → Bool) (f : Group → Group) : (s.mapGroups p f).shoot = s.shoot := rfl
@[simp] theorem gone_mapGroups (s : State) (p : Group → Bool) (f : Group → Group) : (s.mapGroups p f).gone = s.gone := rfl
@[simp] theorem variant_mapGroups (s : State) (p : Group → Bool) (f : Group → Group) : (s.mapGroups p f).variant = s.variant := rfl
@[simp] theorem die1_mapGroups (s : State) (p : Group → Bool) (f : Group → Group) : (s.mapGroups p f).die1 = s.die1 := rfl
@[simp] theorem stepping_mapGroups (s : State) (p : Group → Bool) (f : Group → Group) : (s.mapGroups p f).stepping = s.stepping := rfl
@[simp] theorem gen_mapGroups (s : State) (p : Group → Bool) (f : Group → Group) : (s.mapGroups p f).gen = s.gen := rfl
@[simp] theorem turns_mapGroups (s : State) (p : Group → Bool) (f : Group → Group) : (s.mapGroups p f).turns = s.turns := rfl
@[simp] theorem eager_mapGroups (s : State) (p : Group → Bool) (f : Group → Group) : (s.mapGroups p f).eager = s.eager := rfl
@[simp] theorem freeCtr_mapGroups (s : State) (p : Group → Bool) (f : Group → Group) : (s.mapGroups p f).freeCtr = s.freeCtr := rfl
@[simp] theorem cycCtr_mapGroups (s : State) (p : Group → Bool) (f : Group → Group) : (s.mapGroups p f).cycCtr = s.cycCtr := rfl
@[simp] theorem clTlb_mapGroups (s : State) (p : Group → Bool) (f : Group → Group) : (s.mapGroups p f).clTlb = s.clTlb := rfl
@[simp] theorem tokc_mapGroups (s : State) (p : Group → Bool) (f : Group → Group) : (s.mapGroups p f).tokc = s.tokc := rfl
@[simp] theorem l2_mapGroups (s : State) (p : Group → Bool) (f : Group → Group) : (s.mapGroups p f).l2 = s.l2 := rfl
@[simp] theorem fqIrq_mapGroups (s : State) (p : Group → Bool) (f : Group → Group) : (s.mapGroups p f).fqIrq = s.fqIrq := rfl
@[simp] theorem fqseq_mapGroups (s : State) (p : Group → Bool) (f : Group → Group) : (s.mapGroups p f).fqseq = s.fqseq := rfl
@[simp] theorem shLost_mapGroups (s : State) (p : Group → Bool) (f : Group → Group) : (s.mapGroups p f).shLost = s.shLost := rfl
@[simp] theorem mods_mapGroups (s : State) (p : Group → Bool) (f : Group → Group) : (s.mapGroups p f).mods = s.mods := rfl
@[simp] theorem minmod_mapGroups (s : State) (p : Group → Bool) (f : Group → Group) : (s.mapGroups p f).minmod = s.minmod := rfl
@[simp] theorem oden_mapGroups (s : State) (p : Group → Bool) (f : Group → Group) : (s.mapGroups p f).oden = s.oden := rfl
@[simp] theorem shEvn_mapGroups (s : State) (p : Group → Bool) (f : Group → Group) : (s.mapGroups p f).shEvn = s.shEvn := rfl
@[simp] theorem shEven_mapGroups (s : State) (p : Group → Bool) (f : Group → Group) : (s.mapGroups p f).shEven = s.shEven := rfl
@[simp] theorem steer_mapGroups (s : State) (p : Group → Bool) (f : Group → Group) : (s.mapGroups p f).steer = s.steer := rfl
@[simp] theorem drains_mapGroups (s : State) (p : Group → Bool) (f : Group → Group) : (s.mapGroups p f).drains = s.drains := rfl
@[simp] theorem ports_mapGroups (s : State) (p : Group → Bool) (f : Group → Group) : (s.mapGroups p f).ports = s.ports := rfl
@[simp] theorem lroute_mapGroups (s : State) (p : Group → Bool) (f : Group → Group) : (s.mapGroups p f).lroute = s.lroute := rfl
@[simp] theorem shadows_mapGroups (s : State) (p : Group → Bool) (f : Group → Group) : (s.mapGroups p f).shadows = s.shadows := rfl
@[simp] theorem pools_mapGroups (s : State) (p : Group → Bool) (f : Group → Group) : (s.mapGroups p f).pools = s.pools := rfl
@[simp] theorem rasRep_mapGroups (s : State) (p : Group → Bool) (f : Group → Group) : (s.mapGroups p f).rasRep = s.rasRep := rfl
@[simp] theorem launches_mapGroups (s : State) (p : Group → Bool) (f : Group → Group) : (s.mapGroups p f).launches = s.launches := rfl
@[simp] theorem nextLaunch_mapGroups (s : State) (p : Group → Bool) (f : Group → Group) : (s.mapGroups p f).nextLaunch = s.nextLaunch := rfl
@[simp] theorem rr_mapGroups (s : State) (p : Group → Bool) (f : Group → Group) : (s.mapGroups p f).rr = s.rr := rfl
@[simp] theorem queues_mapGroups (s : State) (p : Group → Bool) (f : Group → Group) : (s.mapGroups p f).queues = s.queues := rfl
@[simp] theorem nextStamp_mapGroups (s : State) (p : Group → Bool) (f : Group → Group) : (s.mapGroups p f).nextStamp = s.nextStamp := rfl
@[simp] theorem seqs_mapGroups (s : State) (p : Group → Bool) (f : Group → Group) : (s.mapGroups p f).seqs = s.seqs := rfl
@[simp] theorem waiters_mapGroups (s : State) (p : Group → Bool) (f : Group → Group) : (s.mapGroups p f).waiters = s.waiters := rfl
@[simp] theorem slices_mapGroups (s : State) (p : Group → Bool) (f : Group → Group) : (s.mapGroups p f).slices = s.slices := rfl
@[simp] theorem curq_mapGroups (s : State) (p : Group → Bool) (f : Group → Group) : (s.mapGroups p f).curq = s.curq := rfl
@[simp] theorem ended_mapGroups (s : State) (p : Group → Bool) (f : Group → Group) : (s.mapGroups p f).ended = s.ended := rfl
@[simp] theorem lent_mapGroups (s : State) (p : Group → Bool) (f : Group → Group) : (s.mapGroups p f).lent = s.lent := rfl
@[simp] theorem fqPend_mapGroups (s : State) (p : Group → Bool) (f : Group → Group) : (s.mapGroups p f).fqPend = s.fqPend := rfl
@[simp] theorem merges_mapGroups (s : State) (p : Group → Bool) (f : Group → Group) : (s.mapGroups p f).merges = s.merges := rfl
@[simp] theorem objects_mapGroups (s : State) (p : Group → Bool) (f : Group → Group) : (s.mapGroups p f).objects = s.objects := rfl
@[simp] theorem aside_mapGroups (s : State) (p : Group → Bool) (f : Group → Group) : (s.mapGroups p f).aside = s.aside := rfl
@[simp] theorem msi_mapGroups (s : State) (p : Group → Bool) (f : Group → Group) : (s.mapGroups p f).msi = s.msi := rfl
@[simp] theorem vfEnable_mapGroups (s : State) (p : Group → Bool) (f : Group → Group) : (s.mapGroups p f).vfEnable = s.vfEnable := rfl
@[simp] theorem atomFns_mapGroups (s : State) (p : Group → Bool) (f : Group → Group) : (s.mapGroups p f).atomFns = s.atomFns := rfl
@[simp] theorem hostOut_mapGroups (s : State) (p : Group → Bool) (f : Group → Group) : (s.mapGroups p f).hostOut = s.hostOut := rfl
@[simp] theorem hostAbort_mapGroups (s : State) (p : Group → Bool) (f : Group → Group) : (s.mapGroups p f).hostAbort = s.hostAbort := rfl
@[simp] theorem boot_mapGroups (s : State) (p : Group → Bool) (f : Group → Group) : (s.mapGroups p f).boot = s.boot := rfl
@[simp] theorem trip_mapGroups (s : State) (p : Group → Bool) (f : Group → Group) : (s.mapGroups p f).trip = s.trip := rfl
@[simp] theorem powered_mapGroups (s : State) (p : Group → Bool) (f : Group → Group) : (s.mapGroups p f).powered = s.powered := rfl

/-! ### Ctx.setA -/

@[simp] theorem ctx_g_setA (c : Ctx) (r : BitVec 4) (v : Addr) : (c.setA r v).g = c.g := rfl
@[simp] theorem ctx_p_setA (c : Ctx) (r : BitVec 4) (v : Addr) : (c.setA r v).p = c.p := rfl
@[simp] theorem ctx_tiles_setA (c : Ctx) (r : BitVec 4) (v : Addr) : (c.setA r v).tiles = c.tiles := rfl
@[simp] theorem ctx_acc_setA (c : Ctx) (r : BitVec 4) (v : Addr) : (c.setA r v).acc = c.acc := rfl
@[simp] theorem ctx_fcsr_setA (c : Ctx) (r : BitVec 4) (v : Addr) : (c.setA r v).fcsr = c.fcsr := rfl
@[simp] theorem ctx_efc_setA (c : Ctx) (r : BitVec 4) (v : Addr) : (c.setA r v).efc = c.efc := rfl
@[simp] theorem ctx_xr_setA (c : Ctx) (r : BitVec 4) (v : Addr) : (c.setA r v).xr = c.xr := rfl
@[simp] theorem ctx_xc_setA (c : Ctx) (r : BitVec 4) (v : Addr) : (c.setA r v).xc = c.xc := rfl
@[simp] theorem ctx_tsc_setA (c : Ctx) (r : BitVec 4) (v : Addr) : (c.setA r v).tsc = c.tsc := rfl
@[simp] theorem ctx_tes_setA (c : Ctx) (r : BitVec 4) (v : Addr) : (c.setA r v).tes = c.tes := rfl
@[simp] theorem ctx_uid_setA (c : Ctx) (r : BitVec 4) (v : Addr) : (c.setA r v).uid = c.uid := rfl
@[simp] theorem ctx_ucnt_setA (c : Ctx) (r : BitVec 4) (v : Addr) : (c.setA r v).ucnt = c.ucnt := rfl
@[simp] theorem ctx_cgr_setA (c : Ctx) (r : BitVec 4) (v : Addr) : (c.setA r v).cgr = c.cgr := rfl
@[simp] theorem ctx_lid_setA (c : Ctx) (r : BitVec 4) (v : Addr) : (c.setA r v).lid = c.lid := rfl
@[simp] theorem ctx_diem_setA (c : Ctx) (r : BitVec 4) (v : Addr) : (c.setA r v).diem = c.diem := rfl
@[simp] theorem ctx_retd_setA (c : Ctx) (r : BitVec 4) (v : Addr) : (c.setA r v).retd = c.retd := rfl
@[simp] theorem ctx_bpa_setA (c : Ctx) (r : BitVec 4) (v : Addr) : (c.setA r v).bpa = c.bpa := rfl
@[simp] theorem ctx_splim_setA (c : Ctx) (r : BitVec 4) (v : Addr) : (c.setA r v).splim = c.splim := rfl
@[simp] theorem ctx_watch_setA (c : Ctx) (r : BitVec 4) (v : Addr) : (c.setA r v).watch = c.watch := rfl
@[simp] theorem ctx_pc_setA (c : Ctx) (r : BitVec 4) (v : Addr) : (c.setA r v).pc = c.pc := rfl
@[simp] theorem ctx_landp_setA (c : Ctx) (r : BitVec 4) (v : Addr) : (c.setA r v).landp = c.landp := rfl
@[simp] theorem ctx_sidefx_setA (c : Ctx) (r : BitVec 4) (v : Addr) : (c.setA r v).sidefx = c.sidefx := rfl
@[simp] theorem ctx_skipbp_setA (c : Ctx) (r : BitVec 4) (v : Addr) : (c.setA r v).skipbp = c.skipbp := rfl
@[simp] theorem ctx_skipwp_setA (c : Ctx) (r : BitVec 4) (v : Addr) : (c.setA r v).skipwp = c.skipwp := rfl
@[simp] theorem ctx_system_setA (c : Ctx) (r : BitVec 4) (v : Addr) : (c.setA r v).system = c.system := rfl
@[simp] theorem ctx_ctxid_setA (c : Ctx) (r : BitVec 4) (v : Addr) : (c.setA r v).ctxid = c.ctxid := rfl
@[simp] theorem ctx_cgid_setA (c : Ctx) (r : BitVec 4) (v : Addr) : (c.setA r v).cgid = c.cgid := rfl
@[simp] theorem ctx_asid_setA (c : Ctx) (r : BitVec 4) (v : Addr) : (c.setA r v).asid = c.asid := rfl
@[simp] theorem ctx_launch_setA (c : Ctx) (r : BitVec 4) (v : Addr) : (c.setA r v).launch = c.launch := rfl
@[simp] theorem ctx_tiq_setA (c : Ctx) (r : BitVec 4) (v : Addr) : (c.setA r v).tiq = c.tiq := rfl
@[simp] theorem ctx_nextseq_setA (c : Ctx) (r : BitVec 4) (v : Addr) : (c.setA r v).nextseq = c.nextseq := rfl
@[simp] theorem ctx_performed_setA (c : Ctx) (r : BitVec 4) (v : Addr) : (c.setA r v).performed = c.performed := rfl
@[simp] theorem ctx_partialDst_setA (c : Ctx) (r : BitVec 4) (v : Addr) : (c.setA r v).partialDst = c.partialDst := rfl
@[simp] theorem ctx_copies_setA (c : Ctx) (r : BitVec 4) (v : Addr) : (c.setA r v).copies = c.copies := rfl
@[simp] theorem ctx_chans_setA (c : Ctx) (r : BitVec 4) (v : Addr) : (c.setA r v).chans = c.chans := rfl
@[simp] theorem ctx_ilock_setA (c : Ctx) (r : BitVec 4) (v : Addr) : (c.setA r v).ilock = c.ilock := rfl
@[simp] theorem ctx_olds_setA (c : Ctx) (r : BitVec 4) (v : Addr) : (c.setA r v).olds = c.olds := rfl
@[simp] theorem ctx_wait_setA (c : Ctx) (r : BitVec 4) (v : Addr) : (c.setA r v).wait = c.wait := rfl
@[simp] theorem ctx_txcnt_setA (c : Ctx) (r : BitVec 4) (v : Addr) : (c.setA r v).txcnt = c.txcnt := rfl
@[simp] theorem ctx_cbargen_setA (c : Ctx) (r : BitVec 4) (v : Addr) : (c.setA r v).cbargen = c.cbargen := rfl
@[simp] theorem ctx_sendcnt_setA (c : Ctx) (r : BitVec 4) (v : Addr) : (c.setA r v).sendcnt = c.sendcnt := rfl
@[simp] theorem ctx_recvcnt_setA (c : Ctx) (r : BitVec 4) (v : Addr) : (c.setA r v).recvcnt = c.recvcnt := rfl
@[simp] theorem ctx_run_setA (c : Ctx) (r : BitVec 4) (v : Addr) : (c.setA r v).run = c.run := rfl
@[simp] theorem ctx_reason_setA (c : Ctx) (r : BitVec 4) (v : Addr) : (c.setA r v).reason = c.reason := rfl
@[simp] theorem ctx_cause_setA (c : Ctx) (r : BitVec 4) (v : Addr) : (c.setA r v).cause = c.cause := rfl
@[simp] theorem ctx_frec_setA (c : Ctx) (r : BitVec 4) (v : Addr) : (c.setA r v).frec = c.frec := rfl
@[simp] theorem ctx_crc_setA (c : Ctx) (r : BitVec 4) (v : Addr) : (c.setA r v).crc = c.crc := rfl
@[simp] theorem ctx_inst_setA (c : Ctx) (r : BitVec 4) (v : Addr) : (c.setA r v).inst = c.inst := rfl
@[simp] theorem ctx_entry_setA (c : Ctx) (r : BitVec 4) (v : Addr) : (c.setA r v).entry = c.entry := rfl
@[simp] theorem ctx_held_setA (c : Ctx) (r : BitVec 4) (v : Addr) : (c.setA r v).held = c.held := rfl

/-! ### Ctx.setTile -/

@[simp] theorem ctx_g_setTile (c : Ctx) (r : BitVec 5) (t : Tile) : (c.setTile r t).g = c.g := rfl
@[simp] theorem ctx_a_setTile (c : Ctx) (r : BitVec 5) (t : Tile) : (c.setTile r t).a = c.a := rfl
@[simp] theorem ctx_p_setTile (c : Ctx) (r : BitVec 5) (t : Tile) : (c.setTile r t).p = c.p := rfl
@[simp] theorem ctx_acc_setTile (c : Ctx) (r : BitVec 5) (t : Tile) : (c.setTile r t).acc = c.acc := rfl
@[simp] theorem ctx_fcsr_setTile (c : Ctx) (r : BitVec 5) (t : Tile) : (c.setTile r t).fcsr = c.fcsr := rfl
@[simp] theorem ctx_efc_setTile (c : Ctx) (r : BitVec 5) (t : Tile) : (c.setTile r t).efc = c.efc := rfl
@[simp] theorem ctx_xr_setTile (c : Ctx) (r : BitVec 5) (t : Tile) : (c.setTile r t).xr = c.xr := rfl
@[simp] theorem ctx_xc_setTile (c : Ctx) (r : BitVec 5) (t : Tile) : (c.setTile r t).xc = c.xc := rfl
@[simp] theorem ctx_tsc_setTile (c : Ctx) (r : BitVec 5) (t : Tile) : (c.setTile r t).tsc = c.tsc := rfl
@[simp] theorem ctx_tes_setTile (c : Ctx) (r : BitVec 5) (t : Tile) : (c.setTile r t).tes = c.tes := rfl
@[simp] theorem ctx_uid_setTile (c : Ctx) (r : BitVec 5) (t : Tile) : (c.setTile r t).uid = c.uid := rfl
@[simp] theorem ctx_ucnt_setTile (c : Ctx) (r : BitVec 5) (t : Tile) : (c.setTile r t).ucnt = c.ucnt := rfl
@[simp] theorem ctx_cgr_setTile (c : Ctx) (r : BitVec 5) (t : Tile) : (c.setTile r t).cgr = c.cgr := rfl
@[simp] theorem ctx_lid_setTile (c : Ctx) (r : BitVec 5) (t : Tile) : (c.setTile r t).lid = c.lid := rfl
@[simp] theorem ctx_diem_setTile (c : Ctx) (r : BitVec 5) (t : Tile) : (c.setTile r t).diem = c.diem := rfl
@[simp] theorem ctx_retd_setTile (c : Ctx) (r : BitVec 5) (t : Tile) : (c.setTile r t).retd = c.retd := rfl
@[simp] theorem ctx_bpa_setTile (c : Ctx) (r : BitVec 5) (t : Tile) : (c.setTile r t).bpa = c.bpa := rfl
@[simp] theorem ctx_splim_setTile (c : Ctx) (r : BitVec 5) (t : Tile) : (c.setTile r t).splim = c.splim := rfl
@[simp] theorem ctx_watch_setTile (c : Ctx) (r : BitVec 5) (t : Tile) : (c.setTile r t).watch = c.watch := rfl
@[simp] theorem ctx_pc_setTile (c : Ctx) (r : BitVec 5) (t : Tile) : (c.setTile r t).pc = c.pc := rfl
@[simp] theorem ctx_landp_setTile (c : Ctx) (r : BitVec 5) (t : Tile) : (c.setTile r t).landp = c.landp := rfl
@[simp] theorem ctx_sidefx_setTile (c : Ctx) (r : BitVec 5) (t : Tile) : (c.setTile r t).sidefx = c.sidefx := rfl
@[simp] theorem ctx_skipbp_setTile (c : Ctx) (r : BitVec 5) (t : Tile) : (c.setTile r t).skipbp = c.skipbp := rfl
@[simp] theorem ctx_skipwp_setTile (c : Ctx) (r : BitVec 5) (t : Tile) : (c.setTile r t).skipwp = c.skipwp := rfl
@[simp] theorem ctx_system_setTile (c : Ctx) (r : BitVec 5) (t : Tile) : (c.setTile r t).system = c.system := rfl
@[simp] theorem ctx_ctxid_setTile (c : Ctx) (r : BitVec 5) (t : Tile) : (c.setTile r t).ctxid = c.ctxid := rfl
@[simp] theorem ctx_cgid_setTile (c : Ctx) (r : BitVec 5) (t : Tile) : (c.setTile r t).cgid = c.cgid := rfl
@[simp] theorem ctx_asid_setTile (c : Ctx) (r : BitVec 5) (t : Tile) : (c.setTile r t).asid = c.asid := rfl
@[simp] theorem ctx_launch_setTile (c : Ctx) (r : BitVec 5) (t : Tile) : (c.setTile r t).launch = c.launch := rfl
@[simp] theorem ctx_tiq_setTile (c : Ctx) (r : BitVec 5) (t : Tile) : (c.setTile r t).tiq = c.tiq := rfl
@[simp] theorem ctx_nextseq_setTile (c : Ctx) (r : BitVec 5) (t : Tile) : (c.setTile r t).nextseq = c.nextseq := rfl
@[simp] theorem ctx_performed_setTile (c : Ctx) (r : BitVec 5) (t : Tile) : (c.setTile r t).performed = c.performed := rfl
@[simp] theorem ctx_partialDst_setTile (c : Ctx) (r : BitVec 5) (t : Tile) : (c.setTile r t).partialDst = c.partialDst := rfl
@[simp] theorem ctx_copies_setTile (c : Ctx) (r : BitVec 5) (t : Tile) : (c.setTile r t).copies = c.copies := rfl
@[simp] theorem ctx_chans_setTile (c : Ctx) (r : BitVec 5) (t : Tile) : (c.setTile r t).chans = c.chans := rfl
@[simp] theorem ctx_ilock_setTile (c : Ctx) (r : BitVec 5) (t : Tile) : (c.setTile r t).ilock = c.ilock := rfl
@[simp] theorem ctx_olds_setTile (c : Ctx) (r : BitVec 5) (t : Tile) : (c.setTile r t).olds = c.olds := rfl
@[simp] theorem ctx_wait_setTile (c : Ctx) (r : BitVec 5) (t : Tile) : (c.setTile r t).wait = c.wait := rfl
@[simp] theorem ctx_txcnt_setTile (c : Ctx) (r : BitVec 5) (t : Tile) : (c.setTile r t).txcnt = c.txcnt := rfl
@[simp] theorem ctx_cbargen_setTile (c : Ctx) (r : BitVec 5) (t : Tile) : (c.setTile r t).cbargen = c.cbargen := rfl
@[simp] theorem ctx_sendcnt_setTile (c : Ctx) (r : BitVec 5) (t : Tile) : (c.setTile r t).sendcnt = c.sendcnt := rfl
@[simp] theorem ctx_recvcnt_setTile (c : Ctx) (r : BitVec 5) (t : Tile) : (c.setTile r t).recvcnt = c.recvcnt := rfl
@[simp] theorem ctx_run_setTile (c : Ctx) (r : BitVec 5) (t : Tile) : (c.setTile r t).run = c.run := rfl
@[simp] theorem ctx_reason_setTile (c : Ctx) (r : BitVec 5) (t : Tile) : (c.setTile r t).reason = c.reason := rfl
@[simp] theorem ctx_cause_setTile (c : Ctx) (r : BitVec 5) (t : Tile) : (c.setTile r t).cause = c.cause := rfl
@[simp] theorem ctx_frec_setTile (c : Ctx) (r : BitVec 5) (t : Tile) : (c.setTile r t).frec = c.frec := rfl
@[simp] theorem ctx_crc_setTile (c : Ctx) (r : BitVec 5) (t : Tile) : (c.setTile r t).crc = c.crc := rfl
@[simp] theorem ctx_inst_setTile (c : Ctx) (r : BitVec 5) (t : Tile) : (c.setTile r t).inst = c.inst := rfl
@[simp] theorem ctx_entry_setTile (c : Ctx) (r : BitVec 5) (t : Tile) : (c.setTile r t).entry = c.entry := rfl
@[simp] theorem ctx_held_setTile (c : Ctx) (r : BitVec 5) (t : Tile) : (c.setTile r t).held = c.held := rfl

/-! ### Ctx.putTile -/

@[simp] theorem ctx_g_putTile (c : Ctx) (r : BitVec 5) (t : Tile) : (c.putTile r t).g = c.g := rfl
@[simp] theorem ctx_a_putTile (c : Ctx) (r : BitVec 5) (t : Tile) : (c.putTile r t).a = c.a := rfl
@[simp] theorem ctx_p_putTile (c : Ctx) (r : BitVec 5) (t : Tile) : (c.putTile r t).p = c.p := rfl
@[simp] theorem ctx_acc_putTile (c : Ctx) (r : BitVec 5) (t : Tile) : (c.putTile r t).acc = c.acc := rfl
@[simp] theorem ctx_fcsr_putTile (c : Ctx) (r : BitVec 5) (t : Tile) : (c.putTile r t).fcsr = c.fcsr := rfl
@[simp] theorem ctx_efc_putTile (c : Ctx) (r : BitVec 5) (t : Tile) : (c.putTile r t).efc = c.efc := rfl
@[simp] theorem ctx_xr_putTile (c : Ctx) (r : BitVec 5) (t : Tile) : (c.putTile r t).xr = c.xr := rfl
@[simp] theorem ctx_xc_putTile (c : Ctx) (r : BitVec 5) (t : Tile) : (c.putTile r t).xc = c.xc := rfl
@[simp] theorem ctx_tsc_putTile (c : Ctx) (r : BitVec 5) (t : Tile) : (c.putTile r t).tsc = c.tsc := rfl
@[simp] theorem ctx_tes_putTile (c : Ctx) (r : BitVec 5) (t : Tile) : (c.putTile r t).tes = c.tes := rfl
@[simp] theorem ctx_uid_putTile (c : Ctx) (r : BitVec 5) (t : Tile) : (c.putTile r t).uid = c.uid := rfl
@[simp] theorem ctx_ucnt_putTile (c : Ctx) (r : BitVec 5) (t : Tile) : (c.putTile r t).ucnt = c.ucnt := rfl
@[simp] theorem ctx_cgr_putTile (c : Ctx) (r : BitVec 5) (t : Tile) : (c.putTile r t).cgr = c.cgr := rfl
@[simp] theorem ctx_lid_putTile (c : Ctx) (r : BitVec 5) (t : Tile) : (c.putTile r t).lid = c.lid := rfl
@[simp] theorem ctx_diem_putTile (c : Ctx) (r : BitVec 5) (t : Tile) : (c.putTile r t).diem = c.diem := rfl
@[simp] theorem ctx_retd_putTile (c : Ctx) (r : BitVec 5) (t : Tile) : (c.putTile r t).retd = c.retd := rfl
@[simp] theorem ctx_bpa_putTile (c : Ctx) (r : BitVec 5) (t : Tile) : (c.putTile r t).bpa = c.bpa := rfl
@[simp] theorem ctx_splim_putTile (c : Ctx) (r : BitVec 5) (t : Tile) : (c.putTile r t).splim = c.splim := rfl
@[simp] theorem ctx_watch_putTile (c : Ctx) (r : BitVec 5) (t : Tile) : (c.putTile r t).watch = c.watch := rfl
@[simp] theorem ctx_pc_putTile (c : Ctx) (r : BitVec 5) (t : Tile) : (c.putTile r t).pc = c.pc := rfl
@[simp] theorem ctx_landp_putTile (c : Ctx) (r : BitVec 5) (t : Tile) : (c.putTile r t).landp = c.landp := rfl
@[simp] theorem ctx_sidefx_putTile (c : Ctx) (r : BitVec 5) (t : Tile) : (c.putTile r t).sidefx = c.sidefx := rfl
@[simp] theorem ctx_skipbp_putTile (c : Ctx) (r : BitVec 5) (t : Tile) : (c.putTile r t).skipbp = c.skipbp := rfl
@[simp] theorem ctx_skipwp_putTile (c : Ctx) (r : BitVec 5) (t : Tile) : (c.putTile r t).skipwp = c.skipwp := rfl
@[simp] theorem ctx_system_putTile (c : Ctx) (r : BitVec 5) (t : Tile) : (c.putTile r t).system = c.system := rfl
@[simp] theorem ctx_ctxid_putTile (c : Ctx) (r : BitVec 5) (t : Tile) : (c.putTile r t).ctxid = c.ctxid := rfl
@[simp] theorem ctx_cgid_putTile (c : Ctx) (r : BitVec 5) (t : Tile) : (c.putTile r t).cgid = c.cgid := rfl
@[simp] theorem ctx_asid_putTile (c : Ctx) (r : BitVec 5) (t : Tile) : (c.putTile r t).asid = c.asid := rfl
@[simp] theorem ctx_launch_putTile (c : Ctx) (r : BitVec 5) (t : Tile) : (c.putTile r t).launch = c.launch := rfl
@[simp] theorem ctx_tiq_putTile (c : Ctx) (r : BitVec 5) (t : Tile) : (c.putTile r t).tiq = c.tiq := rfl
@[simp] theorem ctx_nextseq_putTile (c : Ctx) (r : BitVec 5) (t : Tile) : (c.putTile r t).nextseq = c.nextseq := rfl
@[simp] theorem ctx_performed_putTile (c : Ctx) (r : BitVec 5) (t : Tile) : (c.putTile r t).performed = c.performed := rfl
@[simp] theorem ctx_partialDst_putTile (c : Ctx) (r : BitVec 5) (t : Tile) : (c.putTile r t).partialDst = c.partialDst := rfl
@[simp] theorem ctx_copies_putTile (c : Ctx) (r : BitVec 5) (t : Tile) : (c.putTile r t).copies = c.copies := rfl
@[simp] theorem ctx_chans_putTile (c : Ctx) (r : BitVec 5) (t : Tile) : (c.putTile r t).chans = c.chans := rfl
@[simp] theorem ctx_ilock_putTile (c : Ctx) (r : BitVec 5) (t : Tile) : (c.putTile r t).ilock = c.ilock := rfl
@[simp] theorem ctx_olds_putTile (c : Ctx) (r : BitVec 5) (t : Tile) : (c.putTile r t).olds = c.olds := rfl
@[simp] theorem ctx_wait_putTile (c : Ctx) (r : BitVec 5) (t : Tile) : (c.putTile r t).wait = c.wait := rfl
@[simp] theorem ctx_txcnt_putTile (c : Ctx) (r : BitVec 5) (t : Tile) : (c.putTile r t).txcnt = c.txcnt := rfl
@[simp] theorem ctx_cbargen_putTile (c : Ctx) (r : BitVec 5) (t : Tile) : (c.putTile r t).cbargen = c.cbargen := rfl
@[simp] theorem ctx_sendcnt_putTile (c : Ctx) (r : BitVec 5) (t : Tile) : (c.putTile r t).sendcnt = c.sendcnt := rfl
@[simp] theorem ctx_recvcnt_putTile (c : Ctx) (r : BitVec 5) (t : Tile) : (c.putTile r t).recvcnt = c.recvcnt := rfl
@[simp] theorem ctx_run_putTile (c : Ctx) (r : BitVec 5) (t : Tile) : (c.putTile r t).run = c.run := rfl
@[simp] theorem ctx_reason_putTile (c : Ctx) (r : BitVec 5) (t : Tile) : (c.putTile r t).reason = c.reason := rfl
@[simp] theorem ctx_cause_putTile (c : Ctx) (r : BitVec 5) (t : Tile) : (c.putTile r t).cause = c.cause := rfl
@[simp] theorem ctx_frec_putTile (c : Ctx) (r : BitVec 5) (t : Tile) : (c.putTile r t).frec = c.frec := rfl
@[simp] theorem ctx_crc_putTile (c : Ctx) (r : BitVec 5) (t : Tile) : (c.putTile r t).crc = c.crc := rfl
@[simp] theorem ctx_inst_putTile (c : Ctx) (r : BitVec 5) (t : Tile) : (c.putTile r t).inst = c.inst := rfl
@[simp] theorem ctx_entry_putTile (c : Ctx) (r : BitVec 5) (t : Tile) : (c.putTile r t).entry = c.entry := rfl
@[simp] theorem ctx_held_putTile (c : Ctx) (r : BitVec 5) (t : Tile) : (c.putTile r t).held = c.held := rfl

/-! ### Ctx.setAcc -/

@[simp] theorem ctx_g_setAcc (c : Ctx) (r : BitVec 5) (v : Nat) : (c.setAcc r v).g = c.g := rfl
@[simp] theorem ctx_a_setAcc (c : Ctx) (r : BitVec 5) (v : Nat) : (c.setAcc r v).a = c.a := rfl
@[simp] theorem ctx_p_setAcc (c : Ctx) (r : BitVec 5) (v : Nat) : (c.setAcc r v).p = c.p := rfl
@[simp] theorem ctx_tiles_setAcc (c : Ctx) (r : BitVec 5) (v : Nat) : (c.setAcc r v).tiles = c.tiles := rfl
@[simp] theorem ctx_fcsr_setAcc (c : Ctx) (r : BitVec 5) (v : Nat) : (c.setAcc r v).fcsr = c.fcsr := rfl
@[simp] theorem ctx_efc_setAcc (c : Ctx) (r : BitVec 5) (v : Nat) : (c.setAcc r v).efc = c.efc := rfl
@[simp] theorem ctx_xr_setAcc (c : Ctx) (r : BitVec 5) (v : Nat) : (c.setAcc r v).xr = c.xr := rfl
@[simp] theorem ctx_xc_setAcc (c : Ctx) (r : BitVec 5) (v : Nat) : (c.setAcc r v).xc = c.xc := rfl
@[simp] theorem ctx_tsc_setAcc (c : Ctx) (r : BitVec 5) (v : Nat) : (c.setAcc r v).tsc = c.tsc := rfl
@[simp] theorem ctx_tes_setAcc (c : Ctx) (r : BitVec 5) (v : Nat) : (c.setAcc r v).tes = c.tes := rfl
@[simp] theorem ctx_uid_setAcc (c : Ctx) (r : BitVec 5) (v : Nat) : (c.setAcc r v).uid = c.uid := rfl
@[simp] theorem ctx_ucnt_setAcc (c : Ctx) (r : BitVec 5) (v : Nat) : (c.setAcc r v).ucnt = c.ucnt := rfl
@[simp] theorem ctx_cgr_setAcc (c : Ctx) (r : BitVec 5) (v : Nat) : (c.setAcc r v).cgr = c.cgr := rfl
@[simp] theorem ctx_lid_setAcc (c : Ctx) (r : BitVec 5) (v : Nat) : (c.setAcc r v).lid = c.lid := rfl
@[simp] theorem ctx_diem_setAcc (c : Ctx) (r : BitVec 5) (v : Nat) : (c.setAcc r v).diem = c.diem := rfl
@[simp] theorem ctx_retd_setAcc (c : Ctx) (r : BitVec 5) (v : Nat) : (c.setAcc r v).retd = c.retd := rfl
@[simp] theorem ctx_bpa_setAcc (c : Ctx) (r : BitVec 5) (v : Nat) : (c.setAcc r v).bpa = c.bpa := rfl
@[simp] theorem ctx_splim_setAcc (c : Ctx) (r : BitVec 5) (v : Nat) : (c.setAcc r v).splim = c.splim := rfl
@[simp] theorem ctx_watch_setAcc (c : Ctx) (r : BitVec 5) (v : Nat) : (c.setAcc r v).watch = c.watch := rfl
@[simp] theorem ctx_pc_setAcc (c : Ctx) (r : BitVec 5) (v : Nat) : (c.setAcc r v).pc = c.pc := rfl
@[simp] theorem ctx_landp_setAcc (c : Ctx) (r : BitVec 5) (v : Nat) : (c.setAcc r v).landp = c.landp := rfl
@[simp] theorem ctx_sidefx_setAcc (c : Ctx) (r : BitVec 5) (v : Nat) : (c.setAcc r v).sidefx = c.sidefx := rfl
@[simp] theorem ctx_skipbp_setAcc (c : Ctx) (r : BitVec 5) (v : Nat) : (c.setAcc r v).skipbp = c.skipbp := rfl
@[simp] theorem ctx_skipwp_setAcc (c : Ctx) (r : BitVec 5) (v : Nat) : (c.setAcc r v).skipwp = c.skipwp := rfl
@[simp] theorem ctx_system_setAcc (c : Ctx) (r : BitVec 5) (v : Nat) : (c.setAcc r v).system = c.system := rfl
@[simp] theorem ctx_ctxid_setAcc (c : Ctx) (r : BitVec 5) (v : Nat) : (c.setAcc r v).ctxid = c.ctxid := rfl
@[simp] theorem ctx_cgid_setAcc (c : Ctx) (r : BitVec 5) (v : Nat) : (c.setAcc r v).cgid = c.cgid := rfl
@[simp] theorem ctx_asid_setAcc (c : Ctx) (r : BitVec 5) (v : Nat) : (c.setAcc r v).asid = c.asid := rfl
@[simp] theorem ctx_launch_setAcc (c : Ctx) (r : BitVec 5) (v : Nat) : (c.setAcc r v).launch = c.launch := rfl
@[simp] theorem ctx_tiq_setAcc (c : Ctx) (r : BitVec 5) (v : Nat) : (c.setAcc r v).tiq = c.tiq := rfl
@[simp] theorem ctx_nextseq_setAcc (c : Ctx) (r : BitVec 5) (v : Nat) : (c.setAcc r v).nextseq = c.nextseq := rfl
@[simp] theorem ctx_performed_setAcc (c : Ctx) (r : BitVec 5) (v : Nat) : (c.setAcc r v).performed = c.performed := rfl
@[simp] theorem ctx_partialDst_setAcc (c : Ctx) (r : BitVec 5) (v : Nat) : (c.setAcc r v).partialDst = c.partialDst := rfl
@[simp] theorem ctx_copies_setAcc (c : Ctx) (r : BitVec 5) (v : Nat) : (c.setAcc r v).copies = c.copies := rfl
@[simp] theorem ctx_chans_setAcc (c : Ctx) (r : BitVec 5) (v : Nat) : (c.setAcc r v).chans = c.chans := rfl
@[simp] theorem ctx_ilock_setAcc (c : Ctx) (r : BitVec 5) (v : Nat) : (c.setAcc r v).ilock = c.ilock := rfl
@[simp] theorem ctx_olds_setAcc (c : Ctx) (r : BitVec 5) (v : Nat) : (c.setAcc r v).olds = c.olds := rfl
@[simp] theorem ctx_wait_setAcc (c : Ctx) (r : BitVec 5) (v : Nat) : (c.setAcc r v).wait = c.wait := rfl
@[simp] theorem ctx_txcnt_setAcc (c : Ctx) (r : BitVec 5) (v : Nat) : (c.setAcc r v).txcnt = c.txcnt := rfl
@[simp] theorem ctx_cbargen_setAcc (c : Ctx) (r : BitVec 5) (v : Nat) : (c.setAcc r v).cbargen = c.cbargen := rfl
@[simp] theorem ctx_sendcnt_setAcc (c : Ctx) (r : BitVec 5) (v : Nat) : (c.setAcc r v).sendcnt = c.sendcnt := rfl
@[simp] theorem ctx_recvcnt_setAcc (c : Ctx) (r : BitVec 5) (v : Nat) : (c.setAcc r v).recvcnt = c.recvcnt := rfl
@[simp] theorem ctx_run_setAcc (c : Ctx) (r : BitVec 5) (v : Nat) : (c.setAcc r v).run = c.run := rfl
@[simp] theorem ctx_reason_setAcc (c : Ctx) (r : BitVec 5) (v : Nat) : (c.setAcc r v).reason = c.reason := rfl
@[simp] theorem ctx_cause_setAcc (c : Ctx) (r : BitVec 5) (v : Nat) : (c.setAcc r v).cause = c.cause := rfl
@[simp] theorem ctx_frec_setAcc (c : Ctx) (r : BitVec 5) (v : Nat) : (c.setAcc r v).frec = c.frec := rfl
@[simp] theorem ctx_crc_setAcc (c : Ctx) (r : BitVec 5) (v : Nat) : (c.setAcc r v).crc = c.crc := rfl
@[simp] theorem ctx_inst_setAcc (c : Ctx) (r : BitVec 5) (v : Nat) : (c.setAcc r v).inst = c.inst := rfl
@[simp] theorem ctx_entry_setAcc (c : Ctx) (r : BitVec 5) (v : Nat) : (c.setAcc r v).entry = c.entry := rfl
@[simp] theorem ctx_held_setAcc (c : Ctx) (r : BitVec 5) (v : Nat) : (c.setAcc r v).held = c.held := rfl

/-! ### Ctx.raise -/

@[simp] theorem ctx_g_raise (c : Ctx) (x : FlagSet) : (c.raise x).g = c.g := rfl
@[simp] theorem ctx_a_raise (c : Ctx) (x : FlagSet) : (c.raise x).a = c.a := rfl
@[simp] theorem ctx_p_raise (c : Ctx) (x : FlagSet) : (c.raise x).p = c.p := rfl
@[simp] theorem ctx_tiles_raise (c : Ctx) (x : FlagSet) : (c.raise x).tiles = c.tiles := rfl
@[simp] theorem ctx_acc_raise (c : Ctx) (x : FlagSet) : (c.raise x).acc = c.acc := rfl
@[simp] theorem ctx_efc_raise (c : Ctx) (x : FlagSet) : (c.raise x).efc = c.efc := rfl
@[simp] theorem ctx_xr_raise (c : Ctx) (x : FlagSet) : (c.raise x).xr = c.xr := rfl
@[simp] theorem ctx_xc_raise (c : Ctx) (x : FlagSet) : (c.raise x).xc = c.xc := rfl
@[simp] theorem ctx_tsc_raise (c : Ctx) (x : FlagSet) : (c.raise x).tsc = c.tsc := rfl
@[simp] theorem ctx_tes_raise (c : Ctx) (x : FlagSet) : (c.raise x).tes = c.tes := rfl
@[simp] theorem ctx_uid_raise (c : Ctx) (x : FlagSet) : (c.raise x).uid = c.uid := rfl
@[simp] theorem ctx_ucnt_raise (c : Ctx) (x : FlagSet) : (c.raise x).ucnt = c.ucnt := rfl
@[simp] theorem ctx_cgr_raise (c : Ctx) (x : FlagSet) : (c.raise x).cgr = c.cgr := rfl
@[simp] theorem ctx_lid_raise (c : Ctx) (x : FlagSet) : (c.raise x).lid = c.lid := rfl
@[simp] theorem ctx_diem_raise (c : Ctx) (x : FlagSet) : (c.raise x).diem = c.diem := rfl
@[simp] theorem ctx_retd_raise (c : Ctx) (x : FlagSet) : (c.raise x).retd = c.retd := rfl
@[simp] theorem ctx_bpa_raise (c : Ctx) (x : FlagSet) : (c.raise x).bpa = c.bpa := rfl
@[simp] theorem ctx_splim_raise (c : Ctx) (x : FlagSet) : (c.raise x).splim = c.splim := rfl
@[simp] theorem ctx_watch_raise (c : Ctx) (x : FlagSet) : (c.raise x).watch = c.watch := rfl
@[simp] theorem ctx_pc_raise (c : Ctx) (x : FlagSet) : (c.raise x).pc = c.pc := rfl
@[simp] theorem ctx_landp_raise (c : Ctx) (x : FlagSet) : (c.raise x).landp = c.landp := rfl
@[simp] theorem ctx_sidefx_raise (c : Ctx) (x : FlagSet) : (c.raise x).sidefx = c.sidefx := rfl
@[simp] theorem ctx_skipbp_raise (c : Ctx) (x : FlagSet) : (c.raise x).skipbp = c.skipbp := rfl
@[simp] theorem ctx_skipwp_raise (c : Ctx) (x : FlagSet) : (c.raise x).skipwp = c.skipwp := rfl
@[simp] theorem ctx_system_raise (c : Ctx) (x : FlagSet) : (c.raise x).system = c.system := rfl
@[simp] theorem ctx_ctxid_raise (c : Ctx) (x : FlagSet) : (c.raise x).ctxid = c.ctxid := rfl
@[simp] theorem ctx_cgid_raise (c : Ctx) (x : FlagSet) : (c.raise x).cgid = c.cgid := rfl
@[simp] theorem ctx_asid_raise (c : Ctx) (x : FlagSet) : (c.raise x).asid = c.asid := rfl
@[simp] theorem ctx_launch_raise (c : Ctx) (x : FlagSet) : (c.raise x).launch = c.launch := rfl
@[simp] theorem ctx_tiq_raise (c : Ctx) (x : FlagSet) : (c.raise x).tiq = c.tiq := rfl
@[simp] theorem ctx_nextseq_raise (c : Ctx) (x : FlagSet) : (c.raise x).nextseq = c.nextseq := rfl
@[simp] theorem ctx_performed_raise (c : Ctx) (x : FlagSet) : (c.raise x).performed = c.performed := rfl
@[simp] theorem ctx_partialDst_raise (c : Ctx) (x : FlagSet) : (c.raise x).partialDst = c.partialDst := rfl
@[simp] theorem ctx_copies_raise (c : Ctx) (x : FlagSet) : (c.raise x).copies = c.copies := rfl
@[simp] theorem ctx_chans_raise (c : Ctx) (x : FlagSet) : (c.raise x).chans = c.chans := rfl
@[simp] theorem ctx_ilock_raise (c : Ctx) (x : FlagSet) : (c.raise x).ilock = c.ilock := rfl
@[simp] theorem ctx_olds_raise (c : Ctx) (x : FlagSet) : (c.raise x).olds = c.olds := rfl
@[simp] theorem ctx_wait_raise (c : Ctx) (x : FlagSet) : (c.raise x).wait = c.wait := rfl
@[simp] theorem ctx_txcnt_raise (c : Ctx) (x : FlagSet) : (c.raise x).txcnt = c.txcnt := rfl
@[simp] theorem ctx_cbargen_raise (c : Ctx) (x : FlagSet) : (c.raise x).cbargen = c.cbargen := rfl
@[simp] theorem ctx_sendcnt_raise (c : Ctx) (x : FlagSet) : (c.raise x).sendcnt = c.sendcnt := rfl
@[simp] theorem ctx_recvcnt_raise (c : Ctx) (x : FlagSet) : (c.raise x).recvcnt = c.recvcnt := rfl
@[simp] theorem ctx_run_raise (c : Ctx) (x : FlagSet) : (c.raise x).run = c.run := rfl
@[simp] theorem ctx_reason_raise (c : Ctx) (x : FlagSet) : (c.raise x).reason = c.reason := rfl
@[simp] theorem ctx_cause_raise (c : Ctx) (x : FlagSet) : (c.raise x).cause = c.cause := rfl
@[simp] theorem ctx_frec_raise (c : Ctx) (x : FlagSet) : (c.raise x).frec = c.frec := rfl
@[simp] theorem ctx_crc_raise (c : Ctx) (x : FlagSet) : (c.raise x).crc = c.crc := rfl
@[simp] theorem ctx_inst_raise (c : Ctx) (x : FlagSet) : (c.raise x).inst = c.inst := rfl
@[simp] theorem ctx_entry_raise (c : Ctx) (x : FlagSet) : (c.raise x).entry = c.entry := rfl
@[simp] theorem ctx_held_raise (c : Ctx) (x : FlagSet) : (c.raise x).held = c.held := rfl
@[simp] theorem ctx_fcsr_raise (c : Ctx) (x : FlagSet) : (c.raise x).fcsr = c.fcsr ||| x := rfl

/-! ### Ctx.skip -/

@[simp] theorem ctx_g_skip (c : Ctx) (n : Nat) : (c.skip n).g = c.g := rfl
@[simp] theorem ctx_a_skip (c : Ctx) (n : Nat) : (c.skip n).a = c.a := rfl
@[simp] theorem ctx_p_skip (c : Ctx) (n : Nat) : (c.skip n).p = c.p := rfl
@[simp] theorem ctx_tiles_skip (c : Ctx) (n : Nat) : (c.skip n).tiles = c.tiles := rfl
@[simp] theorem ctx_acc_skip (c : Ctx) (n : Nat) : (c.skip n).acc = c.acc := rfl
@[simp] theorem ctx_fcsr_skip (c : Ctx) (n : Nat) : (c.skip n).fcsr = c.fcsr := rfl
@[simp] theorem ctx_efc_skip (c : Ctx) (n : Nat) : (c.skip n).efc = c.efc := rfl
@[simp] theorem ctx_xr_skip (c : Ctx) (n : Nat) : (c.skip n).xr = c.xr := rfl
@[simp] theorem ctx_xc_skip (c : Ctx) (n : Nat) : (c.skip n).xc = c.xc := rfl
@[simp] theorem ctx_tsc_skip (c : Ctx) (n : Nat) : (c.skip n).tsc = c.tsc := rfl
@[simp] theorem ctx_tes_skip (c : Ctx) (n : Nat) : (c.skip n).tes = c.tes := rfl
@[simp] theorem ctx_uid_skip (c : Ctx) (n : Nat) : (c.skip n).uid = c.uid := rfl
@[simp] theorem ctx_ucnt_skip (c : Ctx) (n : Nat) : (c.skip n).ucnt = c.ucnt := rfl
@[simp] theorem ctx_cgr_skip (c : Ctx) (n : Nat) : (c.skip n).cgr = c.cgr := rfl
@[simp] theorem ctx_lid_skip (c : Ctx) (n : Nat) : (c.skip n).lid = c.lid := rfl
@[simp] theorem ctx_diem_skip (c : Ctx) (n : Nat) : (c.skip n).diem = c.diem := rfl
@[simp] theorem ctx_retd_skip (c : Ctx) (n : Nat) : (c.skip n).retd = c.retd := rfl
@[simp] theorem ctx_bpa_skip (c : Ctx) (n : Nat) : (c.skip n).bpa = c.bpa := rfl
@[simp] theorem ctx_splim_skip (c : Ctx) (n : Nat) : (c.skip n).splim = c.splim := rfl
@[simp] theorem ctx_watch_skip (c : Ctx) (n : Nat) : (c.skip n).watch = c.watch := rfl
@[simp] theorem ctx_landp_skip (c : Ctx) (n : Nat) : (c.skip n).landp = c.landp := rfl
@[simp] theorem ctx_sidefx_skip (c : Ctx) (n : Nat) : (c.skip n).sidefx = c.sidefx := rfl
@[simp] theorem ctx_skipbp_skip (c : Ctx) (n : Nat) : (c.skip n).skipbp = c.skipbp := rfl
@[simp] theorem ctx_skipwp_skip (c : Ctx) (n : Nat) : (c.skip n).skipwp = c.skipwp := rfl
@[simp] theorem ctx_system_skip (c : Ctx) (n : Nat) : (c.skip n).system = c.system := rfl
@[simp] theorem ctx_ctxid_skip (c : Ctx) (n : Nat) : (c.skip n).ctxid = c.ctxid := rfl
@[simp] theorem ctx_cgid_skip (c : Ctx) (n : Nat) : (c.skip n).cgid = c.cgid := rfl
@[simp] theorem ctx_asid_skip (c : Ctx) (n : Nat) : (c.skip n).asid = c.asid := rfl
@[simp] theorem ctx_launch_skip (c : Ctx) (n : Nat) : (c.skip n).launch = c.launch := rfl
@[simp] theorem ctx_tiq_skip (c : Ctx) (n : Nat) : (c.skip n).tiq = c.tiq := rfl
@[simp] theorem ctx_nextseq_skip (c : Ctx) (n : Nat) : (c.skip n).nextseq = c.nextseq := rfl
@[simp] theorem ctx_performed_skip (c : Ctx) (n : Nat) : (c.skip n).performed = c.performed := rfl
@[simp] theorem ctx_partialDst_skip (c : Ctx) (n : Nat) : (c.skip n).partialDst = c.partialDst := rfl
@[simp] theorem ctx_copies_skip (c : Ctx) (n : Nat) : (c.skip n).copies = c.copies := rfl
@[simp] theorem ctx_chans_skip (c : Ctx) (n : Nat) : (c.skip n).chans = c.chans := rfl
@[simp] theorem ctx_ilock_skip (c : Ctx) (n : Nat) : (c.skip n).ilock = c.ilock := rfl
@[simp] theorem ctx_olds_skip (c : Ctx) (n : Nat) : (c.skip n).olds = c.olds := rfl
@[simp] theorem ctx_wait_skip (c : Ctx) (n : Nat) : (c.skip n).wait = c.wait := rfl
@[simp] theorem ctx_txcnt_skip (c : Ctx) (n : Nat) : (c.skip n).txcnt = c.txcnt := rfl
@[simp] theorem ctx_cbargen_skip (c : Ctx) (n : Nat) : (c.skip n).cbargen = c.cbargen := rfl
@[simp] theorem ctx_sendcnt_skip (c : Ctx) (n : Nat) : (c.skip n).sendcnt = c.sendcnt := rfl
@[simp] theorem ctx_recvcnt_skip (c : Ctx) (n : Nat) : (c.skip n).recvcnt = c.recvcnt := rfl
@[simp] theorem ctx_run_skip (c : Ctx) (n : Nat) : (c.skip n).run = c.run := rfl
@[simp] theorem ctx_reason_skip (c : Ctx) (n : Nat) : (c.skip n).reason = c.reason := rfl
@[simp] theorem ctx_cause_skip (c : Ctx) (n : Nat) : (c.skip n).cause = c.cause := rfl
@[simp] theorem ctx_frec_skip (c : Ctx) (n : Nat) : (c.skip n).frec = c.frec := rfl
@[simp] theorem ctx_crc_skip (c : Ctx) (n : Nat) : (c.skip n).crc = c.crc := rfl
@[simp] theorem ctx_inst_skip (c : Ctx) (n : Nat) : (c.skip n).inst = c.inst := rfl
@[simp] theorem ctx_entry_skip (c : Ctx) (n : Nat) : (c.skip n).entry = c.entry := rfl
@[simp] theorem ctx_held_skip (c : Ctx) (n : Nat) : (c.skip n).held = c.held := rfl
@[simp] theorem ctx_pc_skip (c : Ctx) (n : Nat) : (c.skip n).pc = c.pc + BitVec.ofNat 72 (4 * n) := rfl

/-! ### Ctx.advance -/

@[simp] theorem ctx_g_advance (c : Ctx) (n : Nat) : (c.advance n).g = c.g := rfl
@[simp] theorem ctx_a_advance (c : Ctx) (n : Nat) : (c.advance n).a = c.a := rfl
@[simp] theorem ctx_p_advance (c : Ctx) (n : Nat) : (c.advance n).p = c.p := rfl
@[simp] theorem ctx_tiles_advance (c : Ctx) (n : Nat) : (c.advance n).tiles = c.tiles := rfl
@[simp] theorem ctx_acc_advance (c : Ctx) (n : Nat) : (c.advance n).acc = c.acc := rfl
@[simp] theorem ctx_fcsr_advance (c : Ctx) (n : Nat) : (c.advance n).fcsr = c.fcsr := rfl
@[simp] theorem ctx_efc_advance (c : Ctx) (n : Nat) : (c.advance n).efc = c.efc := rfl
@[simp] theorem ctx_xr_advance (c : Ctx) (n : Nat) : (c.advance n).xr = c.xr := rfl
@[simp] theorem ctx_xc_advance (c : Ctx) (n : Nat) : (c.advance n).xc = c.xc := rfl
@[simp] theorem ctx_tsc_advance (c : Ctx) (n : Nat) : (c.advance n).tsc = c.tsc := rfl
@[simp] theorem ctx_tes_advance (c : Ctx) (n : Nat) : (c.advance n).tes = c.tes := rfl
@[simp] theorem ctx_uid_advance (c : Ctx) (n : Nat) : (c.advance n).uid = c.uid := rfl
@[simp] theorem ctx_ucnt_advance (c : Ctx) (n : Nat) : (c.advance n).ucnt = c.ucnt := rfl
@[simp] theorem ctx_cgr_advance (c : Ctx) (n : Nat) : (c.advance n).cgr = c.cgr := rfl
@[simp] theorem ctx_lid_advance (c : Ctx) (n : Nat) : (c.advance n).lid = c.lid := rfl
@[simp] theorem ctx_diem_advance (c : Ctx) (n : Nat) : (c.advance n).diem = c.diem := rfl
@[simp] theorem ctx_bpa_advance (c : Ctx) (n : Nat) : (c.advance n).bpa = c.bpa := rfl
@[simp] theorem ctx_splim_advance (c : Ctx) (n : Nat) : (c.advance n).splim = c.splim := rfl
@[simp] theorem ctx_watch_advance (c : Ctx) (n : Nat) : (c.advance n).watch = c.watch := rfl
@[simp] theorem ctx_landp_advance (c : Ctx) (n : Nat) : (c.advance n).landp = c.landp := rfl
@[simp] theorem ctx_sidefx_advance (c : Ctx) (n : Nat) : (c.advance n).sidefx = c.sidefx := rfl
@[simp] theorem ctx_skipbp_advance (c : Ctx) (n : Nat) : (c.advance n).skipbp = c.skipbp := rfl
@[simp] theorem ctx_skipwp_advance (c : Ctx) (n : Nat) : (c.advance n).skipwp = c.skipwp := rfl
@[simp] theorem ctx_system_advance (c : Ctx) (n : Nat) : (c.advance n).system = c.system := rfl
@[simp] theorem ctx_ctxid_advance (c : Ctx) (n : Nat) : (c.advance n).ctxid = c.ctxid := rfl
@[simp] theorem ctx_cgid_advance (c : Ctx) (n : Nat) : (c.advance n).cgid = c.cgid := rfl
@[simp] theorem ctx_asid_advance (c : Ctx) (n : Nat) : (c.advance n).asid = c.asid := rfl
@[simp] theorem ctx_launch_advance (c : Ctx) (n : Nat) : (c.advance n).launch = c.launch := rfl
@[simp] theorem ctx_tiq_advance (c : Ctx) (n : Nat) : (c.advance n).tiq = c.tiq := rfl
@[simp] theorem ctx_nextseq_advance (c : Ctx) (n : Nat) : (c.advance n).nextseq = c.nextseq := rfl
@[simp] theorem ctx_performed_advance (c : Ctx) (n : Nat) : (c.advance n).performed = c.performed := rfl
@[simp] theorem ctx_partialDst_advance (c : Ctx) (n : Nat) : (c.advance n).partialDst = c.partialDst := rfl
@[simp] theorem ctx_copies_advance (c : Ctx) (n : Nat) : (c.advance n).copies = c.copies := rfl
@[simp] theorem ctx_chans_advance (c : Ctx) (n : Nat) : (c.advance n).chans = c.chans := rfl
@[simp] theorem ctx_ilock_advance (c : Ctx) (n : Nat) : (c.advance n).ilock = c.ilock := rfl
@[simp] theorem ctx_olds_advance (c : Ctx) (n : Nat) : (c.advance n).olds = c.olds := rfl
@[simp] theorem ctx_wait_advance (c : Ctx) (n : Nat) : (c.advance n).wait = c.wait := rfl
@[simp] theorem ctx_txcnt_advance (c : Ctx) (n : Nat) : (c.advance n).txcnt = c.txcnt := rfl
@[simp] theorem ctx_cbargen_advance (c : Ctx) (n : Nat) : (c.advance n).cbargen = c.cbargen := rfl
@[simp] theorem ctx_sendcnt_advance (c : Ctx) (n : Nat) : (c.advance n).sendcnt = c.sendcnt := rfl
@[simp] theorem ctx_recvcnt_advance (c : Ctx) (n : Nat) : (c.advance n).recvcnt = c.recvcnt := rfl
@[simp] theorem ctx_run_advance (c : Ctx) (n : Nat) : (c.advance n).run = c.run := rfl
@[simp] theorem ctx_reason_advance (c : Ctx) (n : Nat) : (c.advance n).reason = c.reason := rfl
@[simp] theorem ctx_cause_advance (c : Ctx) (n : Nat) : (c.advance n).cause = c.cause := rfl
@[simp] theorem ctx_frec_advance (c : Ctx) (n : Nat) : (c.advance n).frec = c.frec := rfl
@[simp] theorem ctx_crc_advance (c : Ctx) (n : Nat) : (c.advance n).crc = c.crc := rfl
@[simp] theorem ctx_inst_advance (c : Ctx) (n : Nat) : (c.advance n).inst = c.inst := rfl
@[simp] theorem ctx_entry_advance (c : Ctx) (n : Nat) : (c.advance n).entry = c.entry := rfl
@[simp] theorem ctx_held_advance (c : Ctx) (n : Nat) : (c.advance n).held = c.held := rfl
@[simp] theorem ctx_pc_advance (c : Ctx) (n : Nat) : (c.advance n).pc = c.pc + BitVec.ofNat 72 (4 * n) := rfl
@[simp] theorem ctx_retd_advance (c : Ctx) (n : Nat) : (c.advance n).retd = c.retd + 1 := rfl

/-! ### Tiles and accumulators -/

/-- A tile name read after a write. -/
theorem tile_setTile (c : Ctx) (d r : BitVec 5) (t : Tile) : (c.setTile d t).tile r = if r = d then t else c.tile r := by
  by_cases h : r = d
  · subst h; simp [Ctx.tile, Ctx.setTile]
  · have h' : d.toNat ≠ r.toNat := fun e => h (BitVec.eq_of_toNat_eq e.symm)
    simp [Ctx.tile, Ctx.setTile, h, Vector.getElem_set_ne, h']

theorem tile_putTile (c : Ctx) (d r : BitVec 5) (t : Tile) :
    (c.putTile d t).tile r = if r = d then { t with sr := t.sr.written } else c.tile r := tile_setTile c d r _

/-- An accumulator read after a write: the low two bits name it. -/
theorem getAcc_setAcc (c : Ctx) (d r : BitVec 5) (v : Nat) :
    (c.setAcc d v).getAcc r = if r.extractLsb' 0 2 = d.extractLsb' 0 2 then v else c.getAcc r := by
  by_cases h : r.extractLsb' 0 2 = d.extractLsb' 0 2
  · simp only [Ctx.getAcc, Ctx.setAcc, h]; simp
  · have h' : (d.extractLsb' 0 2).toNat ≠ (r.extractLsb' 0 2).toNat := fun e => h (BitVec.eq_of_toNat_eq e.symm)
    rw [if_neg h]; simp only [Ctx.getAcc, Ctx.setAcc]
    exact Vector.getElem_set_ne _ _ h'

end Sys2Proof.Laws
end

