-- ==== Sys2Proof/Laws/TileRows.lean ====
section
/-!
SUPPORT. Sys2Proof/Laws/TileRows.lean: the checks that tile rows share, the elementwise family, and a tile row that stops
the context (R161, R163, R174, R264).
-/

namespace Sys2Proof.Laws

open Sys2Proof.Machine Sys2Proof.Safety

/-- Operands that are bound to a format and suit it pass (R161). -/
theorem ok_check {s : State} {i : Instr} {n : Nat} {os : List Opnd} (h : ∀ o ∈ os, ∃ c, o.fmt = some c ∧ o.layouts = 3 ∧ TileOk s o.name c) :
    (State.pushed s i n).ctx.checkTiles os = none := by
  apply checkTiles_none
  intro o ho
  obtain ⟨c, h1, h2, h3⟩ := h o ho
  exact ⟨h3.named, h3.al, h3.ill, fun f hf => by rw [h1] at hf; cases hf; exact h3.fmt, h3.layout, h2, h3.plain⟩

/-- An elementwise row computes its elements over the effective extent (R174). -/
theorem elementwise_ok {s : State} {i : Instr} {f : TileFields} {op : ElemOp} {n : Nat} (hn : n = 1 ∨ n = 2 ∨ n = 3) {rs : List (BitVec 5)}
   (hrs : rs = (if n = 1 then [f.td, f.ta] else if n = 2 then (if f.sBit then [f.td, f.ta] else [f.td, f.ta, f.tb])
        else if f.sBit then [f.td, f.ta, f.tc] else [f.td, f.ta, f.tb, f.tc])) (hok : ∀ r ∈ rs, TileOk s r f.fmt1.toNat)
   (hf : fieldsOf i = some f) (w : Nat) :
   elementwise op n f (s.ctx.entryOf i) (State.pushed s i w) = .elems (State.pushed s i w) f.td (rowsOf s rs) (colsOf s rs) (fun r k => op f.fmt1.toNat f.rm.toNat f.sat ((s.ctx.tile f.ta).get r k) (if f.sBit then (s.ctx.getG f.gs).toNat % 2 ^ fmtWidth f.fmt1.toNat else (s.ctx.tile f.tb).get r k)
        (if n = 3 then (s.ctx.tile f.tc).get r k else 0)) := by
  have hnames : (elemOpnds f n).map Opnd.name = rs := by
    subst hrs; rcases hn with rfl | rfl | rfl <;> cases hs : f.sBit <;> simp [elemOpnds, hs]
  have hc : (State.pushed s i w).ctx.checkTiles (elemOpnds f n) = none := by
    apply ok_check
    intro o ho
    have : o.name ∈ rs := by rw [← hnames]; exact List.mem_map_of_mem ho
    refine ⟨_, ?_, ?_, hok _ this⟩ <;> (
    unfold elemOpnds at ho
    rcases hn with rfl | rfl | rfl <;> cases hs : f.sBit <;> simp [hs] at ho <;>
      (try rcases ho with rfl | rfl | rfl | rfl) <;> rfl)
  have hg := (entryOf_tile s.ctx i f hf).2.1
  unfold elementwise withTiles
  simp only [hc, hnames, bOperand, hg]
  rfl

/-- A name written afresh passes where the configuration has it. -/
theorem chk_fresh {s : State} {i : Instr} {n : Nat} {r : BitVec 5} (h : Named s r) : (State.pushed s i n).ctx.checkTiles [{ name := r, fresh := true, scaled := true }] = none := by
  have hb : (s.ctx.tsc == 3 && r.getLsbD 4) = false := by
    by_cases e : s.ctx.tsc = 3
    · have : r.getLsbD 4 = false := by rw [BitVec.getLsbD, Nat.testBit_eq_false_of_lt (h e)]
      rw [this, Bool.and_false]
    · rw [show (s.ctx.tsc == 3) = false from by simpa using e, Bool.false_and]
  have hb' : ((State.pushed s i n).ctx.tsc == 3 && r.getLsbD 4) = false := hb
  simp only [Ctx.checkTiles, firstBad, List.find?, hb']
  simp

/-- A tile row whose entry traps with no effect stops the context; the record holds the address of a cause that has one
(Table 12-1). -/
theorem stops_of (s : State) (i : Instr) (f : TileFields) (e) (c : Cause) (inf : Info) (u : State) (hA : Alone s) (hI : Issues s i f) (hx : exec i s = tileExec i f s)
   (he : effectOf i = some e) (hu : e (s.ctx.entryOf i) (State.pushed s i (TileFields.words f)) = .trap inf 0 u) (hc : u.ctx = (State.pushed s i (TileFields.words f)).ctx)
   (hcause : inf.cause = c) (hpc : inf.pc = none) (hva : inf.va = none ∨ c.fields.1 = true) :
   Stops (exec i s) s i c inf.va := by
  rw [hx, tileExec_issues hI, toTiq_trap hA he hu]
  have hk := hc.trans (pushed_ctx hA i (TileFields.words f))
  obtain ⟨cs, ch, l, hfx, hcs⟩ := fault_ctx (u.mapCtx Ctx.tried) inf 0 (s.ctx.entryOf i).seq (s.ctx.entryOf i).pc
  have hn : (u.mapCtx Ctx.tried).ctx.copies = [] := by simp [State.mapCtx, Ctx.tried, hk, hA.copies]
  obtain ⟨rfl, rfl⟩ := hcs (by rw [hn]; simp)
  have hf := entryOf_fields s.ctx i
  refine ⟨_, inf.record (u.mapCtx Ctx.tried).ctx (s.ctx.entryOf i).seq (s.ctx.entryOf i).pc l, rfl, ?_, ?_, ?_, ?_, ?_, ?_,
    ?_⟩
  rotate_left 6
  · show (State.entryFault _ inf 0 (s.ctx.entryOf i)).ctx = _
    unfold State.entryFault
    rw [hfx]
    simp only [Ctx.rest, hcause, State.mapCtx, Ctx.tried, hk, List.map_cons, List.map_nil]
    rfl
  · exact hcause
  · intro a ha
    have hv : inf.trim.va = some a := by
      rcases hva with h | h
      · rw [h] at ha; cases ha
      · simp [Info.trim, hcause, h, ha]
    refine ⟨by simp [Info.record, hv], ?_⟩
    simp only [Info.record, hv, bit, Option.isSome_some]
    generalize (inf.trim.copy || _) = k
    cases inf.trim.cs <;> cases inf.trim.evn <;> cases inf.trim.elem.isSome <;> cases inf.trim.tile.isSome <;>
      cases inf.trim.wr <;> cases k <;> rfl
  · simp [Info.record, Info.trim, hpc, hf]
  · simp [Info.record, hf]
  · simp [Info.record, hk, State.mapCtx, Ctx.tried]
  · simp [Info.record, hk, State.mapCtx, Ctx.tried]

end Sys2Proof.Laws
end

