-- ==== Sys2Proof/Tests/Slice0.lean ====
section
/-!
SUPPORT. Sys2Proof/Tests/Slice0.lean: ill-formed terms that the checks refuse, words of every encoding, single steps with
results from the spec's worked examples, and for each statement with hypotheses a state that meets them.
-/

open Sys2Proof Sys2Proof.Machine Sys2Proof.Safety

-- The theorems below are checked one after another: many at once ask for more threads than the check allows.
set_option Elab.async false

/-! ## Decoding: words written out from the spec's encoding tables -/

/-- Table 06-2, R139: rows of opcode 0x01 with two sources, d at [12:8], a at [17:13], b at [22:18]. -/
theorem test_decode_integers : ∀ p ∈ ([
    (0x0059B302, .add 19 13 22), (0x00D9B302, .sub 19 13 22), (0x0159B302, .mul 19 13 22),
    (0x01D9B302, .mulh 19 13 22), (0x0259B302, .mulhn 19 13 22), (0x02D9B302, .div 19 13 22),
    (0x0359B302, .divn 19 13 22), (0x03D9B302, .rem 19 13 22), (0x0459B302, .remn 19 13 22),
    (0x04D9B302, .and 19 13 22), (0x0559B302, .or 19 13 22), (0x05D9B302, .xor 19 13 22),
    (0x0659B302, .andn 19 13 22), (0x06D9B302, .sll 19 13 22), (0x0759B302, .srl 19 13 22),
    (0x07D9B302, .sra 19 13 22), (0x0859B302, .min 19 13 22), (0x08D9B302, .max 19 13 22),
    (0x0959B302, .minn 19 13 22), (0x09D9B302, .maxn 19 13 22)
    ] : List (Word × Instr)), decodeUnit true none p.1 0 = .ok p.2 := by decide +kernel

/-- Table 06-2, Table 06-3, R139, R142, R143: one source; cmp and sel. -/
theorem test_decode_unaries : ∀ p ∈ ([
    (0x0A01B302, .clz 19 13), (0x0A81B302, .ctz 19 13), (0x0B01B302, .popc 19 13), (0x0B81B302, .sext8 19 13),
    (0x0C01B302, .sext16 19 13), (0x0C81B302, .sext32 19 13), (0x0459A604, .cmp 6 13 22 8),
    (0x06D9B306, .sel 19 13 22 5 1)
    ] : List (Word × Instr)), decodeUnit true none p.1 0 = .ok p.2 := by decide +kernel

/-- Tables 06-2 and 06-3, R146, R147. -/
theorem test_decode_floats : ∀ p ∈ ([
    (0x3859B308, .fadd 19 13 22 1 3), (0x38D9B308, .fsub 19 13 22 1 3), (0x3959B308, .fmul 19 13 22 1 3),
    (0x39D9B308, .ffma 19 13 22 1 3), (0x3A59B308, .fdiv 19 13 22 1 3), (0x3A81B308, .fsqrt 19 13 1 3),
    (0x0B59B308, .fmin 19 13 22 1), (0x0BD9B308, .fmax 19 13 22 1), (0x3C01B308, .fcvtF32F64 19 13 3),
    (0x0401B308, .fcvtF64F32 19 13), (0x3C81B308, .fcvtS64 19 13 1 3), (0x3D01B308, .fcvtN64 19 13 1 3),
    (0x3D81B308, .fcvtFmtS64 19 13 1 3), (0x3E01B308, .fcvtFmtN64 19 13 1 3), (0x09D9A60A, .fcmp 6 13 22 3 1)
    ] : List (Word × Instr)), decodeUnit true none p.1 0 = .ok p.2 := by decide +kernel

/-- Table 06-4, R140, R141, with no prefix. -/
theorem test_decode_immediates : ∀ p ∈ ([
    (0xAAF1B310, .addi 19 13 0x2abc none), (0xAAF1B312, .andi 19 13 0x2abc none),
    (0xAAF1B314, .ori 19 13 0x2abc none), (0xAAF1B316, .xori 19 13 0x2abc none), (0x0095B318, .slli 19 13 37 none),
    (0x0095B31A, .srli 19 13 37 none), (0x0095B31C, .srai 19 13 37 none), (0xAAF1A620, .cmpiEq 6 13 0x2abc none),
    (0xAAF1A622, .cmpiNe 6 13 0x2abc none), (0xAAF1A624, .cmpiLt 6 13 0x2abc none),
    (0xAAF1A626, .cmpiLe 6 13 0x2abc none), (0xAAF1A628, .cmpiGt 6 13 0x2abc none),
    (0xAAF1A62A, .cmpiGe 6 13 0x2abc none), (0xAAF1A62C, .cmpiLtn 6 13 0x2abc none),
    (0xAAF1A62E, .cmpiGen 6 13 0x2abc none), (0xA8643330, .lui 19 0x54321 none), (0xA8643332, .li 19 0x54321 none)
    ] : List (Word × Instr)), decodeUnit true none p.1 0 = .ok p.2 := by decide +kernel

/-- Table 06-8, R144, R145. -/
theorem test_decode_addresses : ∀ p ∈ ([
    (0x0055DB40, .aadd 11 13 21 2), (0x0155DB40, .asub 11 13 21 2), (0x02150B40, .amovg 11 21),
    (0x0315D040, .amovh 13 21), (0x0415D040, .gmova 13 21), (0x0515DB40, .ahi 11 13 21),
    (0x0669D640, .acmp 6 13 9 3), (0xAAF1AA42, .aaddi 10 13 0x2abc none)
    ] : List (Word × Instr)), decodeUnit true none p.1 0 = .ok p.2 := by decide +kernel

/-- Tables 06-5 and 06-6, R148 to R150, R156. -/
theorem test_decode_transfers : ∀ p ∈ ([
    (0xABCDEF80, .br 0xabcdef none), (0x9ABCDD82, .brp 5 1 0x9abcd none), (0xA8643584, .loop 21 0x54321 none),
    (0xABCDEF86, .call 0xabcdef none), (0x0001A088, .calli 13), (0x0001A08A, .jmpi 13), (0x0000008C, .ret),
    (0x0000008E, .land)
    ] : List (Word × Instr)), decodeUnit true none p.1 0 = .ok p.2 := by decide +kernel

/-- Table 06-7, R151 to R153. -/
theorem test_decode_accesses : ∀ p ∈ ([
    (0xD5E5B5A0, .ld 21 13 2 0x1abc none), (0xD5E5B5A2, .ldS 21 13 2 0x1abc none),
    (0xD5E5B5A4, .st 21 13 2 0x1abc none), (0xD5E1ACA6, .lda 12 13 0x1abc none),
    (0xD5E1ACA8, .sta 12 13 0x1abc none), (0xD5E5A1AA, .pref 1 13 2 0x1abc none)
    ] : List (Word × Instr)), decodeUnit true none p.1 0 = .ok p.2 := by decide +kernel

/-- Table 06-9, R154 to R159, R370. -/
theorem test_decode_system : ∀ p ∈ ([
    (0x822015C0, .csrr 21 0x822), (0x822035C0, .csrw 21 0x822), (0x822055C0, .csrs 21 0x822),
    (0x822075C0, .csrc 21 0x822), (0xA86420C2, .trap 0x54321 none), (0xA86420C4, .brk 0x54321 none),
    (0x000000C6, .nop), (0x000000C8, .endUnit), (0x000000CA, .eret), (0x0459A0CC, .tlbi 13 22 0 2),
    (0x0159A0CE, .icinv 13 22 2), (0x0559A0D0, .cpatch 13 22 2 1), (0x0059B3D2, .ctxsave 19 13 22),
    (0x0059B3D4, .ctxload 19 13 22), (0x01D9B3D6, .tkadm 19 13 22 3)
    ] : List (Word × Instr)), decodeUnit true none p.1 0 = .ok p.2 := by decide +kernel

/-- Table 06-16, R166 to R173. Word 0 is 01, the opcode at [11:2], td, ta, tb, tc; word 1 mod, gs, as, p, imm16 (Tables 06-11, 06-12). -/
theorem test_decode_shapes : ∀ p ∈ ([
    (none, 0x00009005, 0x0000A140, .tshape ⟨9, 0, 0, 0, 0, 20, 0, 5, 0x0, none⟩),
    (some 0x56000FF, 0x00009005, 0x1234A003, .tshapeKeep ⟨9, 0, 0, 0, 3, 0, 0, 5, 0x1234, some 0x56000FF⟩),
    (none, 0x003C9009, 0x0000A140, .tview ⟨9, 30, 0, 0, 0, 20, 0, 5, 0x0, none⟩),
    (none, 0x0000900D, 0x0000A000, .tfree ⟨9, 0, 0, 0, 0, 0, 0, 5, 0x0, none⟩),
    (none, 0x347C9011, 0x0000A000, .setx ⟨9, 30, 17, 6, 0, 0, 0, 5, 0x0, none⟩),
    (none, 0x04409015, 0x0001A14C, .tseq ⟨9, 0, 17, 0, 12, 20, 0, 5, 0x1, none⟩),
    (none, 0x00009019, 0x000DA140, .tfill ⟨9, 0, 0, 0, 0, 20, 0, 5, 0xD, none⟩),
    (none, 0x003C901D, 0x0000A000, .tmov ⟨9, 30, 0, 0, 0, 0, 0, 5, 0x0, none⟩),
    (none, 0x003C9021, 0x0000A000, .ttr ⟨9, 30, 0, 0, 0, 0, 0, 5, 0x0, none⟩)
    ] : List (Pfx × Word × Word × Instr)), decodeUnit false p.1 p.2.1 p.2.2.1 = .ok p.2.2.2 := by decide +kernel

/-- Table 06-16, R174 to R178. Word 0 is 01, the opcode at [11:2], td, ta, tb, tc; word 1 mod, gs, as, p, imm16 (Tables 06-11, 06-12). -/
theorem test_decode_elementwise : ∀ p ∈ ([
    (none, 0x047C9041, 0x0002A003, .tadd ⟨9, 30, 17, 0, 3, 0, 0, 5, 0x2, none⟩),
    (none, 0x047C9045, 0x0002A003, .tsub ⟨9, 30, 17, 0, 3, 0, 0, 5, 0x2, none⟩),
    (none, 0x047C9049, 0x0002A003, .tmul ⟨9, 30, 17, 0, 3, 0, 0, 5, 0x2, none⟩),
    (none, 0x047C904D, 0x0002A003, .tdiv ⟨9, 30, 17, 0, 3, 0, 0, 5, 0x2, none⟩),
    (none, 0x047C9051, 0x0002A000, .tmin ⟨9, 30, 17, 0, 0, 0, 0, 5, 0x2, none⟩),
    (none, 0x047C9055, 0x0002A000, .tmax ⟨9, 30, 17, 0, 0, 0, 0, 5, 0x2, none⟩),
    (none, 0x003C9059, 0x0001A000, .tabs ⟨9, 30, 0, 0, 0, 0, 0, 5, 0x1, none⟩),
    (none, 0x003C905D, 0x000CA008, .tneg ⟨9, 30, 0, 0, 8, 0, 0, 5, 0xC, none⟩),
    (none, 0x303C9061, 0x0401A144, .tfma ⟨9, 30, 0, 6, 4, 20, 0, 5, 0x401, none⟩),
    (none, 0x003C9081, 0x0003A004, .trcp ⟨9, 30, 0, 0, 4, 0, 0, 5, 0x3, none⟩),
    (none, 0x003C9085, 0x0003A004, .trsqrt ⟨9, 30, 0, 0, 4, 0, 0, 5, 0x3, none⟩),
    (none, 0x003C9089, 0x0003A004, .tsqrt ⟨9, 30, 0, 0, 4, 0, 0, 5, 0x3, none⟩),
    (none, 0x003C908D, 0x0003A000, .texp2 ⟨9, 30, 0, 0, 0, 0, 0, 5, 0x3, none⟩),
    (none, 0x003C9091, 0x0003A000, .tlog2 ⟨9, 30, 0, 0, 0, 0, 0, 5, 0x3, none⟩),
    (none, 0x003C9095, 0x0003A000, .ttanh ⟨9, 30, 0, 0, 0, 0, 0, 5, 0x3, none⟩),
    (none, 0x047C90C1, 0x000BA000, .trem ⟨9, 30, 17, 0, 0, 0, 0, 5, 0xB, none⟩),
    (none, 0x047C90C5, 0x000BA000, .tand ⟨9, 30, 17, 0, 0, 0, 0, 5, 0xB, none⟩),
    (none, 0x047C90C9, 0x000BA000, .tor ⟨9, 30, 17, 0, 0, 0, 0, 5, 0xB, none⟩),
    (none, 0x047C90CD, 0x000BA000, .txor ⟨9, 30, 17, 0, 0, 0, 0, 5, 0xB, none⟩),
    (none, 0x047C90D1, 0x000BA000, .tandn ⟨9, 30, 17, 0, 0, 0, 0, 5, 0xB, none⟩),
    (none, 0x047C90D5, 0x000BA000, .tsll ⟨9, 30, 17, 0, 0, 0, 0, 5, 0xB, none⟩),
    (none, 0x047C90D9, 0x000BA000, .tsrl ⟨9, 30, 17, 0, 0, 0, 0, 5, 0xB, none⟩),
    (none, 0x047C90DD, 0x000BA000, .tsra ⟨9, 30, 17, 0, 0, 0, 0, 5, 0xB, none⟩),
    (none, 0x047C90E1, 0x000BA000, .tmulh ⟨9, 30, 17, 0, 0, 0, 0, 5, 0xB, none⟩),
    (none, 0x047C9101, 0x280AA000, .tcmp ⟨9, 30, 17, 0, 0, 0, 0, 5, 0x280A, none⟩),
    (none, 0x303C9105, 0x0401A140, .tsel ⟨9, 30, 0, 6, 0, 20, 0, 5, 0x401, none⟩)
    ] : List (Pfx × Word × Word × Instr)), decodeUnit false p.1 p.2.1 p.2.2.1 = .ok p.2.2.2 := by decide +kernel

/-- Table 06-16, R179 to R195. Word 0 is 01, the opcode at [11:2], td, ta, tb, tc; word 1 mod, gs, as, p, imm16 (Tables 06-11, 06-12). -/
theorem test_decode_conversions : ∀ p ∈ ([
    (none, 0x003C9401, 0x0022A00B, .tcvt ⟨9, 30, 0, 0, 11, 0, 0, 5, 0x22, none⟩),
    (none, 0x003C9405, 0x0028A001, .tquant ⟨9, 30, 0, 0, 1, 0, 0, 5, 0x28, none⟩),
    (none, 0x003C9409, 0x0101A008, .tdequant ⟨9, 30, 0, 0, 8, 0, 0, 5, 0x101, none⟩),
    (none, 0x003C9441, 0x2441A003, .tred ⟨9, 30, 0, 0, 3, 0, 0, 5, 0x2441, none⟩),
    (none, 0x003C9445, 0x9A94A000, .tscan ⟨9, 30, 0, 0, 0, 0, 0, 5, 0x9A94, none⟩),
    (none, 0x047C9481, 0x0400A000, .tperm ⟨9, 30, 17, 0, 0, 0, 0, 5, 0x400, none⟩),
    (none, 0x003C9485, 0xFFFDA006, .tslide ⟨9, 30, 0, 0, 6, 0, 0, 5, 0xFFFD, none⟩),
    (none, 0x003C9489, 0x0000A142, .tbcast ⟨9, 30, 0, 0, 2, 20, 0, 5, 0x0, none⟩),
    (none, 0x003C948D, 0x0000A140, .txchg ⟨9, 30, 0, 0, 0, 20, 0, 5, 0x0, none⟩),
    (some 0x150000, 0x347C94C1, 0x0007B740, .map ⟨9, 30, 17, 6, 0, 20, 11, 5, 0x7, some 0x150000⟩),
    (none, 0x047C94C5, 0x00AAB740, .mapred ⟨9, 30, 17, 0, 0, 20, 11, 5, 0xAA, none⟩),
    (none, 0x347C9501, 0x0041B740, .momu ⟨9, 30, 17, 6, 0, 20, 11, 5, 0x41, none⟩)
    ] : List (Pfx × Word × Word × Instr)), decodeUnit false p.1 p.2.1 p.2.2.1 = .ok p.2.2.2 := by decide +kernel

/-- Table 06-16, R214 to R227. Word 0 is 01, the opcode at [11:2], td, ta, tb, tc; word 1 mod, gs, as, p, imm16 (Tables 06-11, 06-12). -/
theorem test_decode_matrix : ∀ p ∈ ([
    (none, 0x347C3601, 0x38A4A14E, .mma ⟨3, 30, 17, 6, 14, 20, 0, 5, 0x38A4, none⟩),
    (none, 0x047C3605, 0x0108A001, .mmas ⟨3, 30, 17, 0, 1, 0, 0, 5, 0x108, none⟩),
    (none, 0x047C3609, 0x0442A000, .mmsp ⟨3, 30, 17, 0, 0, 0, 0, 5, 0x442, none⟩),
    (none, 0x047C360D, 0x0C03A009, .mmb ⟨3, 30, 17, 0, 9, 0, 0, 5, 0xC03, none⟩),
    (none, 0x00003641, 0x0000A000, .mzero ⟨3, 0, 0, 0, 0, 0, 0, 5, 0x0, none⟩),
    (none, 0x00003645, 0x0400A140, .mfill ⟨3, 0, 0, 0, 0, 20, 0, 5, 0x400, none⟩),
    (none, 0x00049649, 0x0403A00B, .mdrain ⟨9, 2, 0, 0, 11, 0, 0, 5, 0x403, none⟩),
    (none, 0x0004964D, 0x0801A140, .mrow ⟨9, 2, 0, 0, 0, 20, 0, 5, 0x801, none⟩),
    (none, 0x00049651, 0x000AA140, .mcol ⟨9, 2, 0, 0, 0, 20, 0, 5, 0xA, none⟩)
    ] : List (Pfx × Word × Word × Instr)), decodeUnit false p.1 p.2.1 p.2.2.1 = .ok p.2.2.2 := by decide +kernel

/-- Table 06-16, R228 to R255. Word 0 is 01, the opcode at [11:2], td, ta, tb, tc; word 1 mod, gs, as, p, imm16 (Tables 06-11, 06-12). -/
theorem test_decode_tile_memory : ∀ p ∈ ([
    (some 0x2808001, 0x04409801, 0x8004B742, .tld ⟨9, 0, 17, 0, 2, 20, 11, 5, 0x8004, some 0x2808001⟩),
    (some 0x4C08001, 0x047C0805, 0x0040B741, .tst ⟨0, 30, 17, 0, 1, 20, 11, 5, 0x40, some 0x4C08001⟩),
    (none, 0x347C0805, 0x0008B746, .tstNfz ⟨0, 30, 17, 6, 6, 20, 11, 5, 0x8, none⟩),
    (none, 0x34409809, 0x0010B60C, .tldg ⟨9, 0, 17, 6, 12, 0, 11, 5, 0x10, none⟩),
    (none, 0x047C080D, 0x0010B603, .tstg ⟨0, 30, 17, 0, 3, 0, 11, 5, 0x10, none⟩),
    (none, 0x04409811, 0xFFC0B740, .tldm ⟨9, 0, 17, 0, 0, 20, 11, 5, 0xFFC0, none⟩),
    (none, 0x04409841, 0x0004A146, .csld ⟨9, 0, 17, 0, 6, 20, 0, 5, 0x4, none⟩),
    (none, 0x047C0845, 0x0004A140, .csst ⟨0, 30, 17, 0, 0, 20, 0, 5, 0x4, none⟩),
    (none, 0x00000881, 0x0003B600, .cpy ⟨0, 0, 0, 0, 0, 0, 11, 5, 0x3, none⟩),
    (none, 0x00000885, 0x0002A000, .cpyw ⟨0, 0, 0, 0, 0, 0, 0, 5, 0x2, none⟩),
    (none, 0x00000889, 0x0004A000, .cpyc ⟨0, 0, 0, 0, 0, 0, 0, 5, 0x4, none⟩),
    (none, 0x0000988D, 0x0001A000, .cpyq ⟨9, 0, 0, 0, 0, 0, 0, 5, 0x1, none⟩),
    (none, 0x003C98C1, 0x0000A140, .send ⟨9, 30, 0, 0, 0, 20, 0, 5, 0x0, none⟩),
    (none, 0x044098C5, 0x0000A140, .recv ⟨9, 0, 17, 0, 0, 20, 0, 5, 0x0, none⟩),
    (none, 0x347C9901, 0xFF09B60A, .tatom ⟨9, 30, 17, 6, 10, 0, 11, 5, 0xFF09, none⟩)
    ] : List (Pfx × Word × Word × Instr)), decodeUnit false p.1 p.2.1 p.2.2.1 = .ok p.2.2.2 := by decide +kernel

/-- Table 06-16, R250 to R259. Word 0 is 01, the opcode at [11:2], td, ta, tb, tc; word 1 mod, gs, as, p, imm16 (Tables 06-11, 06-12). -/
theorem test_decode_synchronisation : ∀ p ∈ ([
    (none, 0x00000B01, 0x0000A000, .cbar ⟨0, 0, 0, 0, 0, 0, 0, 5, 0x0, none⟩),
    (none, 0x00000B05, 0x0005A000, .fence ⟨0, 0, 0, 0, 0, 0, 0, 5, 0x5, none⟩),
    (some 0x6600000, 0x04409B21, 0x0019B740, .atom ⟨9, 0, 17, 0, 0, 20, 11, 5, 0x19, some 0x6600000⟩),
    (none, 0x00000B41, 0x1234A140, .evsig ⟨0, 0, 0, 0, 0, 20, 0, 5, 0x1234, none⟩),
    (none, 0x04400B45, 0x0000A141, .evwait ⟨0, 0, 17, 0, 1, 20, 0, 5, 0x0, none⟩),
    (none, 0x00009B49, 0xFFFFA000, .evquery ⟨9, 0, 0, 0, 0, 0, 0, 5, 0xFFFF, none⟩),
    (none, 0x00009B61, 0x0000B600, .futrd ⟨9, 0, 0, 0, 0, 0, 11, 5, 0x0, none⟩),
    (none, 0x00009B65, 0x0000B740, .futwr ⟨9, 0, 0, 0, 0, 20, 11, 5, 0x0, none⟩),
    (none, 0x00009B81, 0x0000B740, .tklend ⟨9, 0, 0, 0, 0, 20, 11, 5, 0x0, none⟩),
    (none, 0x00009B85, 0x0000B600, .tkret ⟨9, 0, 0, 0, 0, 0, 11, 5, 0x0, none⟩),
    (none, 0x00009B89, 0x0000B740, .tksplit ⟨9, 0, 0, 0, 0, 20, 11, 5, 0x0, none⟩),
    (none, 0x00009B8D, 0x0000B600, .tkjoin ⟨9, 0, 0, 0, 0, 0, 11, 5, 0x0, none⟩),
    (none, 0x04409B91, 0x0000B740, .tkshare ⟨9, 0, 17, 0, 0, 20, 11, 5, 0x0, none⟩),
    (none, 0x00009B95, 0x0000B600, .tkunshare ⟨9, 0, 0, 0, 0, 0, 11, 5, 0x0, none⟩),
    (none, 0x00009B99, 0x0000B600, .tkquery ⟨9, 0, 0, 0, 0, 0, 11, 5, 0x0, none⟩)
    ] : List (Pfx × Word × Word × Instr)), decodeUnit false p.1 p.2.1 p.2.2.1 = .ok p.2.2.2 := by decide +kernel

/-- Tables 06-13 and 06-17, R199 to R206: op at [7:0], ld, la, lb, the field k at [31:26], imm32. -/
theorem test_decode_lane_arithmetic : ∀ p ∈ ([
    (0x0000000427246101, .lfadd ⟨33, 17, 50, 9, 0x4⟩), (0x0000000427246102, .lfsub ⟨33, 17, 50, 9, 0x4⟩),
    (0x0000000427246103, .lfmul ⟨33, 17, 50, 9, 0x4⟩), (0x0000000427246104, .lffma ⟨33, 17, 50, 9, 0x4⟩),
    (0x0000000027246105, .lfmin ⟨33, 17, 50, 9, 0x0⟩), (0x0000000027246106, .lfmax ⟨33, 17, 50, 9, 0x0⟩),
    (0x0000000024046107, .lfabs ⟨33, 17, 0, 9, 0x0⟩), (0x0000000024046108, .lfneg ⟨33, 17, 0, 9, 0x0⟩),
    (0x0000000527244609, .lfcmp ⟨6, 17, 50, 9, 0x5⟩), (0x0000000224046110, .lrcp ⟨33, 17, 0, 9, 0x2⟩),
    (0x0000000224046111, .lrsqrt ⟨33, 17, 0, 9, 0x2⟩), (0x0000000224046112, .lsqrt ⟨33, 17, 0, 9, 0x2⟩),
    (0x0000000024046113, .lexp2 ⟨33, 17, 0, 9, 0x0⟩), (0x0000000024046114, .llog2 ⟨33, 17, 0, 9, 0x0⟩),
    (0x0000000024046115, .ltanh ⟨33, 17, 0, 9, 0x0⟩), (0x0000000027246120, .liadd ⟨33, 17, 50, 9, 0x0⟩),
    (0x0000000027246121, .lisub ⟨33, 17, 50, 9, 0x0⟩), (0x0000000027246122, .limul ⟨33, 17, 50, 9, 0x0⟩),
    (0x0000000127246123, .limulh ⟨33, 17, 50, 9, 0x1⟩), (0x0000000027246124, .lmin ⟨33, 17, 50, 9, 0x0⟩),
    (0x0000000027246125, .lmax ⟨33, 17, 50, 9, 0x0⟩), (0x0000000027246126, .lminn ⟨33, 17, 50, 9, 0x0⟩),
    (0x0000000027246127, .lmaxn ⟨33, 17, 50, 9, 0x0⟩)
    ] : List (BitVec 64 × Instr)), decodeLane p.1 = .ok p.2 := by decide +kernel

/-- Tables 06-13 and 06-17, R199 to R206: op at [7:0], ld, la, lb, the field k at [31:26], imm32. -/
theorem test_decode_lane_others : ∀ p ∈ ([
    (0x0000000027246128, .lband ⟨33, 17, 50, 9, 0x0⟩), (0x0000000027246129, .lbor ⟨33, 17, 50, 9, 0x0⟩),
    (0x000000002724612A, .lbxor ⟨33, 17, 50, 9, 0x0⟩), (0x000000002724612B, .lsll ⟨33, 17, 50, 9, 0x0⟩),
    (0x000000002724612C, .lsrl ⟨33, 17, 50, 9, 0x0⟩), (0x000000002724612D, .lsra ⟨33, 17, 50, 9, 0x0⟩),
    (0x000000092724462E, .licmp ⟨6, 17, 50, 9, 0x9⟩), (0x0000210124046230, .lcvt ⟨34, 17, 0, 9, 0x2101⟩),
    (0x0000000024046131, .lmov ⟨33, 17, 0, 9, 0x0⟩), (0xDEADBEEF24002132, .lmovi ⟨33, 0, 0, 9, 0xDEADBEEF⟩),
    (0x0000000B27246133, .lsel ⟨33, 17, 50, 9, 0xB⟩), (0x0000000224314634, .lkop ⟨6, 5, 3, 9, 0x2⟩),
    (0x000000042324A240, .ldadd ⟨34, 18, 50, 8, 0x4⟩), (0x000000042324A241, .ldsub ⟨34, 18, 50, 8, 0x4⟩),
    (0x000000042324A242, .ldmul ⟨34, 18, 50, 8, 0x4⟩), (0x000000042324A243, .ldfma ⟨34, 18, 50, 8, 0x4⟩),
    (0x0000000327248644, .ldcmp ⟨6, 18, 50, 9, 0x3⟩), (0x0000000624002150, .lrd ⟨33, 0, 0, 9, 0x6⟩),
    (0x0000003124044051, .lwr ⟨0, 17, 0, 9, 0x31⟩), (0x0000000624002152, .lidx ⟨33, 0, 0, 9, 0x6⟩),
    (0x0000000324002153, .lacc ⟨33, 0, 0, 9, 0x3⟩), (0x800000A524000060, .lnext ⟨0, 0, 0, 9, 0x800000A5⟩),
    (0x8000000024000061, .lstop ⟨0, 0, 0, 9, 0x80000000⟩)
    ] : List (BitVec 64 × Instr)), decodeLane p.1 = .ok p.2 := by decide +kernel

/-- R324, R328, Table 17-5: op, flags, EVN and operand in W0, then SEQ (7 here) and the extension words. -/
theorem test_decode_queue : ∀ p ∈ ([
    (0x0000000000000001, 0x1122334455667788, 0xC3, 0x0, .qlaunch ⟨0, 0x0, 0x0, 7, 0x1122334455667788, 0xC3, 0x0⟩),
    (0x89ABCDEF12340102, 0x1122334455667788, 0xC3, 0x0, .qcopy ⟨1, 0x1234, 0x89ABCDEF, 7, 0x1122334455667788, 0xC3, 0x0⟩),
    (0x0000000012340003, 0x1122334455667788, 0x0, 0x0, .qwait ⟨0, 0x1234, 0x0, 7, 0x1122334455667788, 0x0, 0x0⟩),
    (0x89ABCDEF12340004, 0x0, 0x0, 0x0, .qsig ⟨0, 0x1234, 0x89ABCDEF, 7, 0x0, 0x0, 0x0⟩),
    (0x000007FF00000005, 0x0, 0x0, 0x0, .qintr ⟨0, 0x0, 0x7FF, 7, 0x0, 0x0, 0x0⟩),
    (0x0000000000000006, 0x0, 0x0, 0x0, .qfence ⟨0, 0x0, 0x0, 7, 0x0, 0x0, 0x0⟩),
    (0x000000FF12340107, 0x1122334455667788, 0x0, 0x0, .qbr ⟨1, 0x1234, 0xFF, 7, 0x1122334455667788, 0x0, 0x0⟩),
    (0x0100000000000008, 0x1122334455667788, 0xC3, 0x0, .qjump ⟨0, 0x0, 0x1000000, 7, 0x1122334455667788, 0xC3, 0x0⟩),
    (0x0000000000000009, 0x1122334455667788, 0xC3, 0x0, .qstage ⟨0, 0x0, 0x0, 7, 0x1122334455667788, 0xC3, 0x0⟩),
    (0x00ABCDEF0000000A, 0x1122334455667788, 0xC3, 0x0, .qlend ⟨0, 0x0, 0xABCDEF, 7, 0x1122334455667788, 0xC3, 0x0⟩),
    (0x00ABCDEF0000010A, 0x1122334455667788, 0xC3, 0x0, .qlendRet ⟨1, 0x0, 0xABCDEF, 7, 0x1122334455667788, 0xC3, 0x0⟩),
    (0x000000000000000B, 0x1122334455667788, 0xC3, 0xFFEEDDCCBBAA9988, .qmark ⟨0, 0x0, 0x0, 7, 0x1122334455667788, 0xC3, 0xFFEEDDCCBBAA9988⟩),
    (0x000000000000000C, 0x0, 0x0, 0x0, .qnop ⟨0, 0x0, 0x0, 7, 0x0, 0x0, 0x0⟩),
    (0x000000000000000D, 0x0, 0x0, 0x0, .qend ⟨0, 0x0, 0x0, 7, 0x0, 0x0, 0x0⟩)
    ] : List (BitVec 64 × BitVec 64 × BitVec 64 × BitVec 64 × Instr)), decodeQueue p.1 7 p.2.1 p.2.2.1 p.2.2.2.1 = .ok p.2.2.2.2 := by decide +kernel

/-! ## Ill-formed terms, each refused by its check -/

/-- Tile, lane and queue fields of zeros, from which the tests below are made. -/
def Tests.z : TileFields := ⟨0, 0, 0, 0, 0, 0, 0, 0, 0, none⟩
def Tests.l : LaneFields := ⟨0, 0, 0, 0, 0⟩
def Tests.q : QueueCmd := ⟨0, 0, 0, 0, 0, 0, 0⟩

open Tests in
/-- Unassigned fn or op codes (Table 06-14, step 3; R325). -/
theorem test_wf_unassigned : ∀ i ∈ ([
    .cmp 1 2 3 10, .cmp 1 2 3 511, .fcmp 1 2 3 6 0, .tlbi 0 0 3 0, .tkadm 1 2 3 4, .tshapeKeep z, .tstNfz z,
    .qlend { q with flags := 1 }, .qlendRet q] : List Instr), i.illegal = some .unassigned := by decide +kernel

open Tests in
/-- Control rows with a field value out of range, reserved payload bits or an order that the row does not take (R118, R120,
R140, R144, R146, R152, R158, R159). -/
theorem test_wf_control : (∀ i ∈ ([
    .cmp 8 2 3 9, .fadd 1 2 3 0 5, .fsub 1 2 3 0 6, .fmul 1 2 3 1 7, .ffma 1 2 3 1 5, .fdiv 1 2 3 1 5, .fsqrt 1 2 0 5,
    .fcvtF32F64 1 2 5, .fcvtS64 1 2 0 5, .fcvtN64 1 2 0 5, .fcvtFmtS64 1 2 0 5, .fcvtFmtN64 1 2 0 5, .fcmp 8 2 3 5 1,
    .slli 1 2 64 none, .srli 1 2 (-1) none, .srai 1 2 0 (some 1), .cmpiEq 8 1 2 none, .cmpiNe 31 1 2 none,
    .cmpiLt 8 1 2 none, .cmpiLe 8 1 2 none, .cmpiGt 8 1 2 none, .cmpiGe 8 1 2 none, .cmpiLtn 8 1 2 none,
    .cmpiGen 8 1 2 none, .acmp 8 0 0 0, .acmp 7 0 16 0, .acmp 7 0 15 6, .aaddi 16 0 0 none, .aaddi 0 16 0 none,
    .calli 16, .jmpi 31, .ld 1 2 3 0 (some 0x10000000), .ld 1 2 3 0 (some 0x1000000), .ldS 1 2 3 0 none,
    .st 1 2 3 0 (some 0x8000000), .lda 16 0 0 none, .sta 16 0 0 none, .pref 2 0 0 0 none,
    .pref 0 0 0 0 (some 0x8000000), .tlbi 16 0 0 0, .tlbi 0 0 0 4, .icinv 16 0 0, .icinv 0 0 4, .cpatch 16 0 0 0,
    .cpatch 0 0 4 0, .cpatch 0 3 0 1, .ctxsave 0 16 0, .ctxload 0 16 0, .tkadm 0 16 0 3] : List Instr),
      i.illegal = some .value)
    ∧ ∀ i ∈ ([.ld 1 2 3 0 (some 0x20000000), .sta 1 2 0 (some 0x20000000), .tlbi 1 0 1 0, .tlbi 0 1 2 0] : List Instr),
      i.illegal = some .reserved := by decide +kernel

open Tests in
/-- Tile rows with a field of theirs that no use of it makes non-zero (R124, R120). -/
theorem test_wf_tile_reserved : ∀ i ∈ ([
    .tshape { z with ta := 1 }, .tshape { z with md := 2, gs := 1 }, .tshape { z with imm := 1 },
    .tshapeKeep { z with md := 1, tb := 1 }, .tview { z with md := 1 }, .tfree { z with ta := 1 }, .setx { z with gs := 1 },
    .tseq { z with ta := 1 }, .tfill { z with md := 1 }, .tmov { z with imm := 1 }, .ttr { z with tb := 1 },
    .tadd { z with tc := 1 }, .tsub { z with imm := 0x400, tb := 1 }, .tmul { z with gs := 1 }, .tdiv { z with as := 1 },
    .tmin { z with imm := 0x20 }, .tmax { z with pfx := some 1 }, .tabs { z with tb := 1 }, .tneg { z with imm := 0x400 },
    .trcp { z with imm := 1, md := 8 }, .ttanh { z with imm := 0x21 }, .trem { z with tc := 1 }, .tcmp { z with md := 1 },
    .tsel { z with md := 1 }, .tcvt { z with tb := 1 }, .tquant { z with md := 8 }, .tdequant { z with imm := 0x400 },
    .tred { z with imm := 0x8000 }, .tscan { z with gs := 1 }, .tperm { z with imm := 1 }, .tslide { z with gs := 1 },
    .tslide { z with md := 1, imm := 1 }, .tbcast { z with md := 4 }, .txchg { z with md := 1 },
    .map { z with imm := 9 }, .map { z with imm := 1, pfx := some 0x10000 }, .mapred { z with imm := 0x101 },
    .momu { z with md := 1 }, .mma { z with tc := 1 }, .mma { z with gs := 1 }, .mmas { z with gs := 1, md := 1 },
    .mmb { z with imm := 4 }, .mzero { z with ta := 1 }, .mfill { z with gs := 1 }, .mfill { z with imm := 0x400, ta := 1 },
    .mdrain { z with gs := 1 }, .mrow { z with tb := 1 }, .mcol { z with imm := 0x20 }, .tld { z with ta := 1 },
    .tld { z with pfx := some 0x10000000 }, .tst { z with td := 1 }, .tstNfz { z with md := 0xC }, .tldg { z with tc := 1 },
    .tstg { z with gs := 1 }, .tldm { z with md := 1 }, .csld { z with as := 1 }, .csst { z with md := 1 },
    .cpy { z with imm := 4 }, .cpyw { z with td := 1 }, .cpyc { z with imm := 8 }, .cpyq { z with imm := 4 },
    .send { z with imm := 1 }, .recv { z with ta := 1 }, .tatom { z with td := 1 }, .tatom { z with tc := 1 },
    .cbar { z with imm := 1 }, .fence { z with imm := 8 }, .atom { z with imm := 0x20 }, .atom { z with tb := 1 },
    .evsig { z with tb := 1 }, .evwait { z with md := 1, imm := 1 }, .evquery { z with gs := 1 }, .futrd { z with gs := 1 },
    .futwr { z with tb := 1 }, .tklend { z with ta := 1 }, .tkret { z with gs := 1 }, .tksplit { z with imm := 1 },
    .tkjoin { z with gs := 1 }, .tkshare { z with imm := 1 }, .tkunshare { z with gs := 1 },
    .tkquery { z with md := 1 }] : List Instr), i.illegal = some .reserved := by decide +kernel

open Tests in
/-- Tile rows with a field value that the row does not take: formats, rounding, saturation, relations, directions, operand
names, orders and scopes (R170 to R195, R214 to R227, R228 to R255). -/
theorem test_wf_tile_values : ∀ i ∈ ([
    .tseq { z with imm := 0x12 }, .tseq { z with md := 5 }, .tseq { z with md := 1, imm := 9 }, .tfill { z with imm := 0x16 },
    .tadd { z with imm := 4 }, .tsub { z with md := 5 }, .tmul { z with md := 1, imm := 9 }, .tdiv { z with md := 8, imm := 9 },
    .tmin { z with md := 8 }, .tmax { z with md := 1 }, .tabs { z with md := 8 }, .tfma { z with imm := 0x13 },
    .trcp z, .trsqrt { z with imm := 1, md := 5 }, .texp2 { z with imm := 1, md := 1 }, .trem z,
    .tand { z with imm := 1 }, .tsll { z with imm := 0x13 }, .tmulh { z with md := 8, imm := 9 },
    .tcmp { z with imm := 0x3000 }, .tcmp { z with imm := 0x13 }, .tsel { z with imm := 0x12 }, .tcvt { z with imm := 0x16 },
    .tcvt { z with md := 6 }, .tcvt { z with md := 5, imm := 9 }, .tcvt { z with imm := 0x400 }, .tquant { z with imm := 1 },
    .tquant { z with imm := 0xE4 }, .tdequant { z with imm := 0x109 }, .tred { z with imm := 0xC00 },
    .tred { z with imm := 0x6000 }, .tred { z with imm := 1 }, .tscan { z with md := 8, imm := 0x1000 },
    .tslide { z with imm := 0x400 }, .tbcast { z with md := 3 }, .map z, .map { z with imm := 1, tb := 1 },
    .mapred { z with imm := 0x19 }, .mapred { z with imm := 0xC1 }, .momu { z with imm := 0x21 },
    .momu { z with imm := 0x20, ta := 1, tb := 2, tc := 3 }, .momu { z with imm := 0x21, ta := 1, tb := 2, tc := 3, gs := 25 },
    .mma { z with td := 4, imm := 0x21 }, .mma { z with md := 3, imm := 0x21 }, .mma { z with imm := 0x41 },
    .mma { z with md := 2, imm := 0x18C }, .mma { z with md := 8, imm := 0x21 }, .mma { z with imm := 0x1021 },
    .mma { z with md := 4, imm := 0x5021 }, .mmas { z with imm := 0x42 }, .mmsp { z with imm := 0x21 },
    .mzero { z with td := 4 }, .mfill { z with td := 31 }, .mdrain { z with ta := 4 }, .mdrain { z with imm := 0x12 },
    .mdrain { z with md := 5 }, .mrow { z with imm := 0x800 }, .mcol { z with md := 1, imm := 0x801 },
    .tld { z with pfx := some 0x4000000 }, .tld { z with pfx := some 0x400000 }, .tst { z with pfx := some 0x2000000 },
    .tstNfz { z with md := 4, tc := 16 }, .tldg { z with md := 5 }, .tstg { z with pfx := some 0x2000000 },
    .csld { z with md := 1 }, .cpyw { z with imm := 5 }, .cpyc { z with imm := 6 }, .tatom { z with imm := 10 },
    .tatom { z with md := 5 }, .atom { z with imm := 10 }, .atom { z with pfx := some 0x8000000 }] : List Instr),
      i.illegal = some .value := by decide +kernel

open Tests in
/-- Lane words (R197 to R206, Table 09-1). -/
theorem test_wf_lanes : (∀ i ∈ ([
    .lfadd { l with imm := 8 }, .lfadd { l with k := 16 }, .lffma { l with imm := 8 }, .lfmin { l with imm := 1 },
    .lfabs { l with lb := 1 }, .lrcp { l with lb := 1 }, .lexp2 { l with imm := 1 }, .liadd { l with imm := 1 },
    .limulh { l with imm := 2 }, .licmp { l with imm := 16 }, .lcvt { l with lb := 1 }, .lmov { l with imm := 1 },
    .lmovi { l with la := 1 }, .lsel { l with imm := 16 }, .lkop { l with imm := 4, lb := 1 }, .ldadd { l with imm := 8 },
    .lrd { l with la := 1 }, .lwr { l with ld := 1 }, .lidx { l with imm := 8 }, .lacc { l with imm := 4 },
    .lnext { l with la := 1 }, .lnext { l with imm := 0x200 }, .lstop { l with imm := 1 }] : List Instr),
      i.illegal = some .reserved)
    ∧ ∀ i ∈ ([
    .lfadd { l with imm := 5 }, .lffma { l with imm := 5 }, .lfcmp { l with imm := 6 }, .lfcmp { l with ld := 8 },
    .lsqrt { l with imm := 5 }, .licmp { l with imm := 10 }, .licmp { l with ld := 8 }, .lcvt { l with imm := 0x1201 },
    .lcvt { l with ld := 1, imm := 0x100 }, .lcvt { l with la := 1, imm := 8 }, .lkop { l with imm := 6 },
    .lkop { l with ld := 8 }, .lkop { l with la := 8 }, .lkop { l with lb := 8 }, .ldadd { l with ld := 1 },
    .ldmul { l with la := 1 }, .ldfma { l with k := 1 }, .ldcmp { l with lb := 1 }, .lrd { l with imm := 3 },
    .lwr { l with imm := 10 }, .lidx { l with imm := 7 }, .lnext { l with imm := 0x100, k := 1 }] : List Instr),
      i.illegal = some .value := by decide +kernel

open Tests in
/-- Queue commands (R325, checks 3 and 4). -/
theorem test_wf_queue : (∀ i ∈ ([
    .qlaunch { q with flags := 1 }, .qlaunch { q with x1 := 0x100 }, .qlaunch { q with x2 := 1 }, .qcopy { q with ev := 1 },
    .qcopy { q with flags := 2 }, .qwait { q with opnd := 1 }, .qsig { q with x0 := 1 }, .qintr { q with opnd := 0x800 },
    .qfence { q with ev := 1 }, .qbr { q with opnd := 0x100 }, .qjump { q with x1 := 0x100, opnd := 2 },
    .qstage { q with opnd := 1 }, .qlend { q with opnd := 0x1000000 }, .qlendRet { q with flags := 3 },
    .qmark { q with opnd := 1 }, .qnop { q with x0 := 1 }, .qend { q with flags := 1 }] : List Instr),
      i.illegal = some .reserved)
    ∧ ∀ i ∈ ([.qbr q, .qjump { q with opnd := 1 }, .qjump { q with opnd := 0x1000001 }] : List Instr),
      i.illegal = some .value := by decide +kernel

/-! ## Single steps and results worked out in the spec -/

/-- The machine about to run the instruction of these bits, its context changed by `f`. -/
def Tests.put (nbits w : Nat) (f : Ctx → Ctx) : State := (State.reset.withFetchWord nbits w).mapCtx f

/-- A shape record (Table 02-3): rows, columns, format, layout, SBLK, STILE, SPN; allocated. -/
def Tests.sr (rows cols fmt : Nat) (layout sblk stile spn : Nat := 0) : Sr :=
  BitVec.ofNat 64 (rows - 1 + (cols - 1) * 2 ^ 8 + fmt * 2 ^ 18 + layout * 2 ^ 23 + sblk * 2 ^ 25 + stile * 2 ^ 27
    + spn * 2 ^ 35 + 2 ^ 41)

/-- A bit string of values of width `w`, the first lowest. -/
def Tests.pack (w : Nat) (xs : List Nat) : Nat := xs.foldr (fun x b => x + b * 2 ^ w) 0

def Tests.tile (s : Sr) (w : Nat) (xs : List Nat) : Tile := { sr := s, slot := pack w xs }

/-- What the next step leaves. -/
def Tests.run (s : State) (p : State → Bool) : Bool := match step s with | .next t => p t | _ => false

/-- A second leaf maps the part's memory at VA 2^38 as HOME. -/
def Tests.home (s : State) : State := s.wr (s.local_ (placeTables + 0x30008)) 8 (s.local_ 0 / 256 + 0x5B)

open Tests in
/-- Example 07-1: li and lui build 0x1234_5678_9ABC_DEF0 in G5. -/
theorem test_li_lui :
    run (put 64 (0x0B3C4D5F + 0x9BDE0532 * 2 ^ 32) id) (fun t => t.ctx.getG 5 == 0x16789ABCDEF0 && t.ctx.pc == 0x2000008) = true
    ∧ run (put 32 0x12344530 fun c => c.setG 5 0x16789ABCDEF0) (fun t => t.ctx.getG 5 == 0x123456789ABCDEF0) = true := by
  decide +kernel

open Tests in
/-- R71: a division by zero, and the least integer by -1. -/
theorem test_division_edges :
    run (put 32 0x028C4102 fun c => c.setG 2 7) (fun t => t.ctx.getG 1 == -1 && t.ctx.fcsr == 0) = true
    ∧ run (put 32 0x028C4102 fun c => (c.setG 2 0x8000000000000000).setG 3 (-1))
      (fun t => t.ctx.getG 1 == 0x8000000000000000) = true := by decide +kernel

open Tests in
/-- Example 02-1: tshape.keep to 1 x 4 bf16 reads the halves of two f32 elements; tshape without .keep reads zeros. -/
theorem test_reinterpret :
    run (put 96 (0x00000023 + 0x00002005 * 2 ^ 32 + 0x03000003 * 2 ^ 64) fun c => c.setTile 2 (tile (sr 1 2 1) 32 [0x3F800000, 0x40000000]))
      (fun t => (List.range 4).map ((t.ctx.tile 2).get 0) == [0, 0x3F80, 0, 0x4000]) = true
    ∧ run (put 96 (0x00000023 + 0x00002005 * 2 ^ 32 + 0x03000002 * 2 ^ 64) fun c => c.setTile 2 (tile (sr 1 2 1) 32 [0x3F800000, 0x40000000]))
      (fun t => (List.range 4).map ((t.ctx.tile 2).get 0) == [0, 0, 0, 0]) = true := by decide +kernel

open Tests in
/-- Example 02-2: setx g9, t1, g2, g3 grants 48 x 100. -/
theorem test_setx : run (put 64 (0x18829011) fun c => ((c.setG 2 48).setG 3 128).setTile 1 (tile (sr 64 100 1) 32 []))
    (fun t => t.ctx.getG 9 == 0x640030 && t.ctx.xr == 48 && t.ctx.xc == 100) = true := by decide +kernel

/-- Example 03-1: f32 to e4m3 under rne, without and with .sat. -/
theorem test_convert : ∀ x ∈ ([
    (0x3F800000, 0x38, 0, 0x38, 0), (0x43960000, 0x79, FlagSet.nx, 0x79, FlagSet.nx), (0x43E80000, 0x7E, FlagSet.nx, 0x7E, FlagSet.nx),
    (0x43EB0000, 0x7F, FlagSet.ovf ||| FlagSet.nx, 0x7E, FlagSet.sat ||| FlagSet.nx), (0xFF800000, 0x7F, FlagSet.nv, 0xFE, FlagSet.sat),
    (0x3A800000, 0x00, FlagSet.nx ||| FlagSet.unf, 0x00, FlagSet.nx ||| FlagSet.unf), (0x3AC00000, 0x01, FlagSet.nx ||| FlagSet.unf, 0x01, FlagSet.nx ||| FlagSet.unf)
    ] : List (Nat × Nat × FlagSet × Nat × FlagSet)),
      convert 0x04 0 false (decodeElem 0x01 x.1) = (x.2.1, x.2.2.1)
      ∧ convert 0x04 0 true (decodeElem 0x01 x.1) = (x.2.2.2.1, x.2.2.2.2) := by decide +kernel

open Tests in
/-- Example 03-2: two strips of tcvt.e2m1.f32.ef. -/
theorem test_error_feedback :
    run (put 64 (0x00023401 + 0x00280005 * 2 ^ 32) fun c =>
        (c.setTile 1 (tile (sr 1 3 1) 32 [0x3FA00000, 0x3FA00000, 0x3FA00000])).setTile 3 (tile (sr 1 3 8) 4 []))
      (fun t => (t.ctx.tile 3).slot == 0x0232 && t.ctx.efc == 0x3E800000 && t.ctx.fcsr == FlagSet.nx) = true
    ∧ run (put 64 (0x00023401 + 0x00280005 * 2 ^ 32) fun c =>
        { (c.setTile 1 (tile (sr 1 1 1) 32 [0x3FA00000])).setTile 3 (tile (sr 1 1 8) 4 []) with efc := 0x3E800000 })
      (fun t => (t.ctx.tile 3).slot == 0x03 && t.ctx.efc == 0) = true := by decide +kernel

open Tests in
/-- Example 08-1: tquant.e4m3.f32 t5, t1 under scale tile t6. -/
theorem test_tquant : run (put 64 (0x00025405 + 0x00240000 * 2 ^ 32) fun c =>
      ((c.setTile 1 (tile (sr 1 16 1) 32 [0x41580000, 0x40400000, 0xBF800000, 0x3F000000, 0x40A00000])).setTile 5
        (tile (sr 1 16 4 0 1 6) 8 [])).setTile 6 (tile (sr 1 1 0x10) 8 []))
    (fun t => (t.ctx.tile 5).slot == pack 8 [0x7E, 0x6C, 0xE0, 0x58, 0x72] && (t.ctx.tile 6).slot == 0x7A
      && t.ctx.fcsr == FlagSet.nx) = true := by decide +kernel

open Tests in
/-- Example 08-2: tscan.add.row.excl.n32.mask t3, t2. -/
theorem test_tscan : run (put 64 (0x00043445 + 0x82740000 * 2 ^ 32) fun c =>
      (c.setTile 2 (tile (sr 1 8 0x13) 1 [1, 0, 1, 1, 0, 0, 1, 0])).setTile 3 (tile (sr 1 8 0x14) 32 []))
    (fun t => (List.range 8).map ((t.ctx.tile 3).get 0) == [0, 1, 1, 2, 3, 3, 3, 4]) = true := by decide +kernel

open Tests in
/-- Example 08-4: momu.f32.f32 t0, t1, t2, t3, g16, a4, its counter in HOME memory. -/
theorem test_momu : run (home (put 64 (0x18820501 + 0x00210900 * 2 ^ 32) fun c =>
      [(0, [0x3F800000, 0x40000000, 0x40800000, 0x3F800000]), (1, [0x40000000, 0, 0x3F800000, 0]),
        (2, [0, 0, 0, 0x40000000]), (3, [0, 0, 0x7FC00000, 0xC0800000])].foldl
        (fun c (p : BitVec 5 × List Nat) => c.setTile p.1 (tile (sr 1 4 1) 32 p.2))
        ([(16, 0x3F000000), (17, 0x3F400000), (18, 0x3F000000), (19, 0), (20, 0x3E800000), (21, 0x3F000000),
          (22, 0x3E800000), (23, 1)].foldl (fun c (p : BitVec 5 × GWord) => c.setG p.1 p.2)
          { c.setA 4 (2 ^ 38 + 0x3000000) with xr := 1, xc := 4 })) |>.wr 0x3000000 8 5)
    (fun t => (t.ctx.tile 0).slot == pack 32 [0x3EC00000, 0x3FE00000, 0x40800000, 0x3F600000]
      && (t.ctx.tile 2).slot == pack 32 [0x3F800000, 0, 0, 0x3F800000]
      && (t.ctx.tile 3).slot == pack 32 [0x3F800000, 0, 0x7FC00000, 0]
      && t.rd 0x3000000 8 == 6 && t.ctx.fcsr == FlagSet.nv) = true := by decide +kernel

open Tests in
/-- Example 09-1: map t2, t1, a5, g0 over `leak`. -/
theorem test_map : run ((put 64 (0x000224C1 + 0x00010A00 * 2 ^ 32) fun c =>
      { ((c.setTile 1 (tile (sr 1 4 1) 32 [0xC0800000, 0x40000000, 0xBF000000, 0x41000000])).setTile 2
          (tile (sr 1 4 1) 32 [])).setA 5 0x3000000 with xr := 1, xc := 4 }) |>.wr 0x3000000 96
        (pack 64 [0x150, 0x232, 0x0000000200204109, 0x0000002104000060, 0x3E80000000000332, 0x0000000000304403, 0x10051, 0x61,
          0x3F80000000000332, 0x0000000000304401, 0x10051, 0x8000000000000061]))
    (fun t => (t.ctx.tile 2).slot == pack 32 [0xBF800000, 0x40400000, 0xBE000000, 0x41100000] && t.ctx.fcsr == 0)
      = true := by decide +kernel

open Tests in
/-- Example 10-1: mma.decay.drain.bf16.bf16 m1, t3, t1, t2, g7. -/
theorem test_mma : run (put 64 (0x18821601 + 0x00420076 * 2 ^ 32) fun c =>
      (((c.setTile 1 (tile (sr 2 3 2) 16 [0x3F80, 0x4000, 0x3F00, 0xBF80, 0x4040, 0x4000])).setTile 2
        (tile (sr 3 2 2) 16 [0x4000, 0x3F80, 0x3F80, 0xC000, 0x4080, 0x3E80])).setTile 3 (tile (sr 2 2 2) 16 [])
        |>.setG 7 0x3F000000).setAcc 1
        (pack 32 [0x40800000, 0xC1000000, 0x40400000] + pack 32 [0x40000000, 0x40C00000] * 2 ^ 4096))
    (fun t => t.ctx.getAcc 1 == pack 32 [0x41000000, 0xC0DC0000, 0x40400000] + pack 32 [0x41200000, 0xC0600000] * 2 ^ 4096
      && (t.ctx.tile 3).slot == pack 16 [0x4100, 0xC0DC, 0x4120, 0xC060] && t.ctx.fcsr == 0) = true := by decide +kernel

open Tests in
/-- Example 03-3: the first sixteen products are added in one sum, with one rounding (mma.keep.bf16.bf16). -/
theorem test_group_rule : run (put 64 (0x00820601 + 0x00420001 * 2 ^ 32) fun c =>
      ((c.setTile 1 (tile (sr 1 17 2) 16 (List.replicate 17 0x3F80))).setTile 2
        (tile (sr 17 1 2) 16 (List.replicate 17 0x3F00))).setAcc 0 0x4B800000)
    (fun t => t.ctx.getAcc 0 == 0x4B800004 && t.ctx.fcsr == FlagSet.nx) = true := by decide +kernel

open Tests in
/-- Example 10-2: an infinity at a pruned position counts under .strict only. -/
theorem test_mmsp : ∀ x ∈ ([(0x00420000, 12, 0x40800000, 0), (0x04420000, 12, 0x40800000, 0),
      (0x00420000, 5, 0x40800000, 0), (0x04420000, 5, 0x7FC00000, FlagSet.nv), (0x00420000, 9, 0x7FC00000, FlagSet.nv),
      (0x04420000, 9, 0x7FC00000, FlagSet.nv)] : List (Nat × Nat × Nat × FlagSet)),
    run (put 64 (0x00820609 + x.1 * 2 ^ 32) fun c =>
        (c.setTile 1 (tile (sr 1 12 2 3 0 0 4) 8 [0x80, 0x3F, 0x00, 0x40, 0x80, 0x3F, 0x00, 0x00, 0x89, 0x02])).setTile 2
          (tile (sr 12 1 2) 16 ((List.range 12).map fun r => if r = x.2.1 then 0x7F80 else 0x3F80)))
      (fun t => t.ctx.getAcc 0 == x.2.2.1 && t.ctx.fcsr == x.2.2.2) = true := by decide +kernel

open Tests in
/-- Example 11-1: tst.nfz [a2], t3, a6 scrubs two elements and adds 2 to its cell (here both lie in HOME memory). -/
theorem test_tst_nfz : run (home (put 64 (0x30060805 + 0x00000404 * 2 ^ 32) fun c =>
      { ((c.setTile 3 (tile (sr 1 4 1) 32 [0x3F800000, 0x7F800000, 0x7FC00000, 0xC0000000])).setA 2 (2 ^ 38 + 0x3000000)).setA 6
          (2 ^ 38 + 0x3000100) with xr := 1, xc := 4 }))
    (fun t => t.rd 0x3000000 16 == pack 32 [0x3F800000, 0, 0, 0xC0000000] && t.rd 0x3000100 8 == 2
      && (t.ctx.tile 3).slot == pack 32 [0x3F800000, 0x7F800000, 0x7FC00000, 0xC0000000] && t.ctx.fcsr == 0) = true := by
  decide +kernel

/-! ## Witnesses: states and operands that meet the hypotheses of the statements -/

/-- A running context with nothing in flight, changed by `f`. -/
def Tests.go (f : Ctx → Ctx) : State := { State.reset with ctx := f { run := .running, nextseq := 5, pc := 0x1000 } }

open Tests in
theorem Tests.go_alone : Alone (go id) := ⟨rfl, rfl, rfl, rfl, rfl, rfl⟩

open Tests in
theorem witness_integer_operations :
    (∃ (s : State) (d a b : BitVec 5) (x y : GWord), NoReturn s [.g d, .g a, .g b] ∧ s.ctx.getG a = x ∧ s.ctx.getG b = y)
    ∧ (∃ (s : State) (d a : BitVec 5) (x : GWord), NoReturn s [.g d, .g a] ∧ s.ctx.getG a = x)
    ∧ (∃ w : Word, w.getLsbD 0 = false ∧ w.opcode = 0x01 ∧ 26 ≤ (w.extractLsb' 23 9).toNat) :=
  ⟨⟨go fun c => c.setG 3 0x8000000000000000, 3, 3, 0, 0x8000000000000000, 0, by unfold NoReturn; decide +kernel, by decide +kernel,
      by decide +kernel⟩,
    ⟨go id, 0, 31, 0, by unfold NoReturn; decide +kernel, by decide +kernel⟩, 0x0D000002, by decide +kernel⟩

open Tests in
theorem witness_immediate_operations :
    (∀ p ∈ ([none, some 0x3FFFFFFF] : List Pfx), ∃ (s : State) (d a : BitVec 5) (i : BitVec 14) (x m : GWord) (n : Nat),
      NoReturn s [.g d, .g a] ∧ s.ctx.getG a = x ∧ n = (if p.isSome then 2 else 1) ∧
      m = (match p with | none => i.signExtend 64 | some q => (q ++ i).signExtend 64))
    ∧ (∃ (i : BitVec 14), (i.signExtend 64).toNat < 64)
    ∧ (∃ (s : State) (d : BitVec 5), NoReturn s [.g d])
    ∧ (∃ (s : State) (d : BitVec 5), Dst.g d ∈ s.ctx.pending) :=
  ⟨by intro p hp
      exact ⟨go id, 31, 0, 0x3FFF, 0, _, _, by unfold NoReturn; decide +kernel, by decide +kernel, rfl, rfl⟩,
    ⟨63, by decide +kernel⟩, ⟨go id, 1, by unfold NoReturn; decide +kernel⟩,
    go fun c => { c with tiq := [c.entryOf (.futrd ⟨9, 0, 0, 0, 0, 0, 3, 0, 0, none⟩)] }, 9, by decide +kernel⟩

open Tests in
theorem witness_compare_and_select :
    ∃ (s : State) (d a b : BitVec 5) (r : BitVec 9) (i : BitVec 14) (p : Pfx) (m : GWord) (w : Nat),
      NoReturn s [.g a, .g b] ∧ d.toNat < 8 ∧ r.toNat < 10 ∧ w = (if p.isSome then 2 else 1)
      ∧ m = (match p with | none => i.signExtend 64 | some q => (q ++ i).signExtend 64) ∧ NoReturn s [.g d] :=
  ⟨go id, 7, 1, 2, 9, 0x2000, none, _, _, by unfold NoReturn; decide +kernel, by decide, by decide, rfl, rfl,
    by unfold NoReturn; decide +kernel⟩

open Tests in
theorem witness_scalar_float :
    ∃ (s : State) (d a b : BitVec 5) (r : BitVec 3), NoReturn s [.g d, .g a, .g b] ∧ r.toNat ≤ 4 ∧ d.toNat < 8 ∧ r.toNat < 6 :=
  ⟨go id, 7, 0, 31, 4, by unfold NoReturn; decide +kernel, by decide, by decide, by decide⟩

open Tests in
theorem witness_address_operations :
    (∃ (s : State) (d a : BitVec 4) (b : BitVec 5) (r : BitVec 3) (v : Addr),
      NoReturn s [.a d, .a a, .g b, .a (b.setWidth 4)] ∧ StackOk s d v ∧ d.toNat < 8 ∧ r.toNat < 6 ∧ b.toNat < 16)
    ∧ (∃ (s : State) (a : BitVec 4) (b : BitVec 5) (v : Addr), NoReturn s [.a 15, .a a, .g b, .a (b.setWidth 4)]
      ∧ s.ctx.splim ≠ 0 ∧ v = s.ctx.getA a + BitVec.ofInt 72 ((s.ctx.getG b).toInt * 2 ^ 0) ∧ StackOk s 15 v
      ∧ v.toNat = s.ctx.splim.toNat / 256 * 65536)
    ∧ (∃ (s : State) (a : BitVec 4) (b : BitVec 5) (v : Addr), s.ctx.tiq = [] ∧ s.ctx.splim ≠ 0
      ∧ v.toNat < s.ctx.splim.toNat / 256 * 65536 ∧ v = s.ctx.getA a + BitVec.ofInt 72 ((s.ctx.getG b).toInt * 2 ^ 0)) :=
  ⟨⟨go id, 7, 15, 15, 5, 0, by unfold NoReturn; decide +kernel, by unfold StackOk; decide +kernel, by decide, by decide, by decide⟩,
    ⟨go fun c => { c.setA 1 0x20000 with splim := 0x200 }, 1, 0, 0x20000, by unfold NoReturn; decide +kernel, by decide +kernel,
      by decide +kernel, by unfold StackOk; decide +kernel, by decide +kernel⟩,
    go fun c => { c.setA 1 0x1FFFF with splim := 0x200 }, 1, 0, 0x1FFFF, by decide +kernel⟩

open Tests in
theorem witness_transfers :
    (∃ (s : State) (g : BitVec 5), NoReturn s [.g g] ∧ NoReturn s [.a 13] ∧ s.ctx.getG g - 1 = 0)
    ∧ (∃ (s : State) (g : BitVec 5), NoReturn s [.g g] ∧ s.ctx.getG g - 1 ≠ 0)
    ∧ (∃ (s : State) (p : BitVec 3), (s.ctx.getP p ^^ (0 : BitVec 1) == 1) = true)
    ∧ (∃ (s : State) (p : BitVec 3), (s.ctx.getP p ^^ (1 : BitVec 1) == 1) = false)
    ∧ (∃ (s : State) (a : BitVec 4), NoReturn s [.a a, .a 13]) :=
  ⟨⟨go fun c => c.setG 4 1, 4, by unfold NoReturn; decide +kernel, by unfold NoReturn; decide +kernel, by decide +kernel⟩,
    ⟨go id, 4, by unfold NoReturn; decide +kernel, by decide +kernel⟩, ⟨go id, 0, by decide +kernel⟩, ⟨go id, 0, by decide +kernel⟩,
    go id, 13, by unfold NoReturn; decide +kernel⟩

open Tests in
theorem witness_trap_and_brk : ∃ s : State, s.ctx.tiq = [] := ⟨go id, rfl⟩

open Tests in
theorem witness_csr_read :
    (∃ (s : State) (g : BitVec 5) (c : BitVec 12), NoReturn s [.g g] ∧ (Safety.drains c.toNat = true → s.ctx.tiq = [])
      ∧ s.csr c.toNat = none ∧ s.ctx.tiq = [])
    ∧ (∃ (s : State) (g : BitVec 5) (c : BitVec 12) (v : Nat), NoReturn s [.g g] ∧ Safety.drains c.toNat = true ∧ s.ctx.tiq = []
      ∧ s.csr c.toNat = some v)
    ∧ (∃ (s : State) (g : BitVec 5) (c : BitVec 12) (v : Nat), NoReturn s [.g g] ∧ Safety.drains c.toNat = false
      ∧ s.ctx.tiq ≠ [] ∧ s.csr c.toNat = some v) :=
  ⟨⟨go id, 1, 0x7FF, by unfold NoReturn; decide +kernel, by decide +kernel, by decide +kernel, rfl⟩,
    ⟨go id, 1, 0x021, 0, by unfold NoReturn; decide +kernel, by decide +kernel, rfl, by decide +kernel⟩,
    go fun c => { c with tiq := [c.entryOf (.fence ⟨0, 0, 0, 0, 0, 0, 0, 0, 0, none⟩)] }, 1, 0x04F, 0,
    by unfold NoReturn; decide +kernel, by decide +kernel, by decide +kernel, by decide +kernel⟩

open Tests in
theorem witness_csr_write :
    (∃ (s : State) (g : BitVec 5) (c : BitVec 12) (old : Nat), NoReturn s [.g g]
      ∧ (Safety.drains c.toNat = true → s.ctx.tiq = []) ∧ s.csr c.toNat = some old ∧ csrRo c.toNat = true ∧ s.ctx.tiq = [])
    ∧ (∃ (s t : State) (g : BitVec 5) (c : BitVec 12) (old : Nat), NoReturn s [.g g]
      ∧ (Safety.drains c.toNat = true → s.ctx.tiq = []) ∧ s.csr c.toNat = some old ∧ csrRo c.toNat = false
      ∧ s.writeCsr c.toNat (s.ctx.getG g) = some t)
    ∧ (∃ (s : State) (g : BitVec 5) (c : BitVec 12) (old : Nat), NoReturn s [.g g]
      ∧ (Safety.drains c.toNat = true → s.ctx.tiq = []) ∧ s.csr c.toNat = some old ∧ csrRo c.toNat = false
      ∧ s.writeCsr c.toNat (s.ctx.getG g) = none ∧ s.ctx.tiq = []) :=
  ⟨⟨go id, 1, 0x010, 0, by unfold NoReturn; decide +kernel, by decide +kernel, by decide +kernel, by decide +kernel, rfl⟩,
    ⟨go fun c => c.setG 1 256, _, 1, 0x002, 256, by unfold NoReturn; decide +kernel, by decide +kernel, by decide +kernel,
      by decide +kernel, rfl⟩,
    go fun c => c.setG 1 257, 1, 0x002, 256, by unfold NoReturn; decide +kernel, by decide +kernel, by decide +kernel,
    by decide +kernel, by decide +kernel, rfl⟩

theorem Tests.tile_ok {s : State} {r : BitVec 5} {c : Nat} (h : (s.ctx.tsc = 3 → r.toNat < 16) ∧ (s.ctx.tile r).sr.al = true
    ∧ (s.ctx.tile r).sr.ill = false ∧ (s.ctx.tile r).sr.fmt = c ∧ (s.ctx.tile r).sr.layout < 2 ∧ (s.ctx.tile r).sr.sblk = 0) :
    TileOk s r c := ⟨h.1, h.2.1, h.2.2.1, h.2.2.2.1, h.2.2.2.2.1, h.2.2.2.2.2⟩

theorem Tests.opnd_ok {s : State} {r : BitVec 5} {c : Nat} {ls : List Nat} (h : (s.ctx.tsc = 3 → r.toNat < 16)
    ∧ (s.ctx.tile r).sr.al = true ∧ (s.ctx.tile r).sr.ill = false ∧ (s.ctx.tile r).sr.fmt = c
    ∧ (s.ctx.tile r).sr.layout ∈ ls) : OpndOk s r c ls := ⟨h.1, h.2.1, h.2.2.1, h.2.2.2.1, h.2.2.2.2⟩

theorem Tests.scaled_ok {s : State} {r : BitVec 5} (h : (s.ctx.tsc = 3 → (s.ctx.tile r).sr.stile.toNat < 16)
    ∧ (s.ctx.tile r).sr.sblk ≠ 0 ∧ Tile.scaleOk (s.ctx.tile r) (s.ctx.tile (s.ctx.tile r).sr.stile) = true) : Scaled s r :=
  ⟨h.2.1, h.1, h.2.2⟩

theorem Tests.shape_ok {s : State} {r : BitVec 5} (h : (s.ctx.tsc = 3 → r.toNat < 16)
    ∧ (s.ctx.tile r).sr.al = true ∧ (s.ctx.tile r).sr.ill = false) : ShapeOk s r := ⟨h.1, h.2.1, h.2.2⟩

/-- Fields of a tile row over t9, t1, t2, t4. -/
def Tests.tf (md : BitVec 4) (imm : BitVec 16) : TileFields := ⟨9, 1, 2, 4, md, 0, 0, 0, imm, none⟩

/-- A running context with a 4 x 4 tile of format `c` in each of t1, t2, t4 and t9, changed by `f`. -/
def Tests.tiles (c : Nat) (f : Ctx → Ctx) : State :=
  go fun x => f ([1, 2, 4, 9].foldl (fun x r => x.setTile r (tile (sr 4 4 c) 8 [1, 2, 3])) x)

open Tests in
theorem witness_elementwise_operations :
    (∃ (s : State) (f : TileFields), Alone s
      ∧ (∀ i ∈ ([.tadd, .tsub, .tmul, .tdiv, .tmin, .tmax, .tabs, .tneg, .tfma] : List (TileFields → Instr)), Issues s (i f) f)
      ∧ ∀ r ∈ [f.td, f.ta, f.tb, f.tc], TileOk s r f.fmt1.toNat)
    ∧ (∃ (s : State) (f : TileFields), Alone s
      ∧ (∀ i ∈ ([.trem, .tand, .tor, .txor, .tandn, .tsll, .tsrl, .tsra, .tmulh] : List (TileFields → Instr)), Issues s (i f) f)
      ∧ f.sBit = true ∧ ∀ r ∈ [f.td, f.ta, f.tc], TileOk s r f.fmt1.toNat)
    ∧ (∃ (s : State) (f : TileFields), Alone s
      ∧ (∀ i ∈ ([.trcp, .trsqrt, .tsqrt, .texp2, .tlog2, .ttanh] : List (TileFields → Instr)), Issues s (i f) f)
      ∧ ∀ r ∈ [f.td, f.ta], TileOk s r f.fmt1.toNat) :=
  ⟨⟨tiles 1 id, tf 0 1, ⟨rfl, rfl, rfl, rfl, rfl, rfl⟩, by unfold Issues; decide +kernel,
      fun r hr => tile_ok (by revert r; decide +kernel)⟩,
    ⟨tiles 0x14 id, tf 0 0x414, ⟨rfl, rfl, rfl, rfl, rfl, rfl⟩, by unfold Issues; decide +kernel, by decide +kernel,
      fun r hr => tile_ok (by revert r; decide +kernel)⟩,
    tiles 2 id, tf 0 2, ⟨rfl, rfl, rfl, rfl, rfl, rfl⟩, by unfold Issues; decide +kernel,
    fun r hr => tile_ok (by revert r; decide +kernel)⟩

open Tests in
theorem witness_tile_compare_and_select :
    (∃ (s : State) (f : TileFields), Alone s ∧ Issues s (.tcmp f) f ∧ (∀ r ∈ [f.ta, f.tb], TileOk s r f.fmt1.toNat)
      ∧ TileOk s f.td 0x13)
    ∧ (∃ (s : State) (f : TileFields), Alone s ∧ Issues s (.tsel f) f ∧ f.sBit = true ∧ (∀ r ∈ [f.ta], TileOk s r f.fmt1.toNat)
      ∧ TileOk s f.td f.fmt1.toNat ∧ TileOk s f.tc 0x13) :=
  ⟨⟨tiles 1 fun x => x.setTile 9 (tile (sr 4 4 0x13) 1 []), tf 0 0x2801, ⟨rfl, rfl, rfl, rfl, rfl, rfl⟩,
      by unfold Issues; decide +kernel, fun r hr => tile_ok (by revert r; decide +kernel), tile_ok (by decide +kernel)⟩,
    tiles 8 fun x => x.setTile 4 (tile (sr 4 4 0x13) 1 []), tf 0 0x408, ⟨rfl, rfl, rfl, rfl, rfl, rfl⟩,
    by unfold Issues; decide +kernel, by decide +kernel, fun r hr => tile_ok (by revert r; decide +kernel),
    tile_ok (by decide +kernel), tile_ok (by decide +kernel)⟩

theorem witness_integer_elements : ∀ c ∈ [0x09, 0x0A, 0x0B, 0x0C, 0x0D, 0x0E, 0x0F, 0x14, 0x15],
    ∃ a b d w : Nat, w = fmtWidth c ∧ a < 2 ^ w ∧ b < 2 ^ w ∧ d < 2 ^ w :=
  fun c _ => ⟨2 ^ fmtWidth c - 1, 0, 1, _, rfl, Nat.sub_lt (Nat.two_pow_pos _) Nat.one_pos, Nat.two_pow_pos _, by
    revert c; decide⟩

open Tests in
theorem witness_tile_shapes :
    (∃ (s : State) (f : TileFields), Alone s ∧ s.ctx.getP f.p ≠ f.negp ∧ Safety.Named s f.td ∧ Safety.Named s f.ta
      ∧ (s.ctx.tile f.ta).sr.al = true ∧ (s.ctx.tile f.ta).sr.ill = false)
    ∧ (∃ (s : State) (f : TileFields), Alone s ∧ s.ctx.getP f.p ≠ f.negp ∧ s.ctx.tsc = 3 ∧ Safety.Named s f.td
      ∧ Safety.Named s f.ta ∧ (s.ctx.tile f.ta).sr.al = true ∧ (s.ctx.tile f.ta).sr.ill = false
      ∧ (s.ctx.getG f.tb).toInt < 1 ∧ ¬ (s.ctx.getG f.tc).toInt < 1) :=
  ⟨⟨tiles 1 id, tf 2 0x1234, ⟨rfl, rfl, rfl, rfl, rfl, rfl⟩, by decide +kernel, by unfold Safety.Named; decide +kernel,
      by unfold Safety.Named; decide +kernel, by decide +kernel, by decide +kernel⟩,
    tiles 1 fun x => { x.setG 4 1 with tsc := 3 }, { tf 0 0 with td := 15 }, ⟨rfl, rfl, rfl, rfl, rfl, rfl⟩, by decide +kernel, rfl,
    by unfold Safety.Named; decide +kernel, by unfold Safety.Named; decide +kernel, by decide +kernel⟩

open Tests in
theorem witness_tile_fills : ∀ c ∈ [0x00, 0x08, 0x09, 0x10, 0x13, 0x15], ∃ (s : State) (f : TileFields), Alone s
    ∧ s.ctx.getP f.p ≠ f.negp ∧ f.fmt1.toNat = c ∧ TileOk s f.td f.fmt1.toNat :=
  fun c hc => ⟨tiles c id, { tf 0 (BitVec.ofNat 16 c) with p := 0 }, ⟨rfl, rfl, rfl, rfl, rfl, rfl⟩, by revert c; decide +kernel,
    by revert c; decide +kernel, tile_ok (by revert c; decide +kernel)⟩

open Tests in
theorem witness_tile_moves :
    (∃ (s : State) (f : TileFields), Alone s ∧ s.ctx.getP f.p ≠ f.negp ∧ MovOk s f.ta ∧ MovOk s f.td
      ∧ (s.ctx.tile f.ta).sr.fmt = (s.ctx.tile f.td).sr.fmt ∧ (s.ctx.tile f.ta).sr.planesM1 = (s.ctx.tile f.td).sr.planesM1
      ∧ ((s.ctx.tile f.ta).sr.layout = 2 ↔ (s.ctx.tile f.td).sr.layout = 2) ∧ (s.ctx.tile f.ta).sr.layout = 2)
    ∧ (∃ (s : State) (f : TileFields), Alone s ∧ s.ctx.getP f.p ≠ f.negp ∧ TileOk s f.ta (s.ctx.tile f.ta).sr.fmt
      ∧ TileOk s f.td (s.ctx.tile f.ta).sr.fmt ∧ TileOk s f.tb (s.ctx.tile f.tb).sr.fmt
      ∧ ((s.ctx.tile f.tb).sr.fmt = 0x14 ∨ (s.ctx.tile f.tb).sr.fmt = 0x15) ∧ (f.md.extractLsb' 0 2).toNat ≤ 2) :=
  ⟨⟨tiles 1 fun x => (x.setTile 1 (tile (sr 4 4 0x12 2) 8 [1])).setTile 9 (tile (sr 3 5 0x12 2) 8 [7]), tf 0 0,
      ⟨rfl, rfl, rfl, rfl, rfl, rfl⟩, by decide +kernel,
      ⟨by unfold Safety.Named; decide +kernel, by decide +kernel, by decide +kernel, by decide +kernel, by decide +kernel⟩,
      ⟨by unfold Safety.Named; decide +kernel, by decide +kernel, by decide +kernel, by decide +kernel, by decide +kernel⟩,
      by decide +kernel⟩,
    tiles 6 fun x => x.setTile 2 (tile (sr 4 4 0x15) 16 [1]), tf 2 0, ⟨rfl, rfl, rfl, rfl, rfl, rfl⟩, by decide +kernel,
    tile_ok (by decide +kernel), tile_ok (by decide +kernel), tile_ok (by decide +kernel), by decide +kernel, by decide +kernel⟩

open Tests in
theorem witness_tile_reductions :
    (∀ dir ∈ [0, 1, 2], ∃ (s : State) (f : TileFields), f.dir.toNat = dir ∧ Alone s ∧ TileOk s f.ta f.fmt2.toNat
      ∧ TileOk s f.td f.fmt1.toNat ∧ f.dir.toNat ≤ 2 ∧ Issues s (.tred f) f ∧ Issues s (.tscan f) f
      ∧ (f.dir.toNat = 0 → rowsOf s [f.ta] ≤ (s.ctx.tile f.td).sr.rows)
      ∧ (f.dir.toNat = 1 → colsOf s [f.ta] ≤ (s.ctx.tile f.td).sr.cols))
    ∧ (∃ o : RedOp, o.op = 0 ∧ fmtIsInt o.df = true ∧ o.sat = false) :=
  ⟨fun dir hd => ⟨tiles 0x14 id, tf 0 (BitVec.ofNat 16 (0x294 + dir * 1024)), by revert dir; decide +kernel,
      ⟨rfl, rfl, rfl, rfl, rfl, rfl⟩, tile_ok (by revert dir; decide +kernel), tile_ok (by revert dir; decide +kernel),
      by revert dir; decide +kernel, by revert dir; unfold Issues; decide +kernel, by revert dir; unfold Issues; decide +kernel,
      by revert dir; decide +kernel, by revert dir; decide +kernel⟩,
    { op := 0, sf := 0x13, df := 0xA, mode := 0, sat := false }, by decide⟩

open Tests in
theorem witness_tile_conversions :
    (∃ (s : State) (f : TileFields), Alone s ∧ s.ctx.getP f.p ≠ f.negp ∧ OpndOk s f.ta f.fmt2.toNat [0, 1, 2, 3]
      ∧ Unscaled s f.ta ∧ Unscaled s f.td ∧ OpndOk s f.td f.fmt1.toNat [0, 1, 2] ∧ f.rm.toNat ≠ 5)
    ∧ (∃ (s : State) (f : TileFields), Alone s ∧ s.ctx.getP f.p ≠ f.negp ∧ OpndOk s f.ta f.fmt2.toNat [0, 1, 2, 3]
      ∧ Unscaled s f.ta ∧ Unscaled s f.td ∧ OpndOk s f.td f.fmt1.toNat [0, 1] ∧ f.rm.toNat = 5)
    ∧ (∃ (s : State) (f : TileFields), Alone s ∧ s.ctx.getP f.p ≠ f.negp ∧ OpndOk s f.ta f.fmt2.toNat [0, 1, 2, 3]
      ∧ Unscaled s f.ta ∧ Unscaled s f.td ∧ OpndOk s f.td f.fmt1.toNat [3] ∧ f.rm.toNat ≠ 5
      ∧ colsOf s [f.td, f.ta] % 12 = 0)
    ∧ (∃ (s : State) (f : TileFields), Alone s ∧ s.ctx.getP f.p ≠ f.negp ∧ TileOk s f.ta f.fmt2.toNat
      ∧ OpndOk s f.td f.fmt1.toNat [0, 1] ∧ Scaled s f.td ∧ (s.ctx.tile f.td).sr.stile ≠ f.td)
    ∧ (∃ (s : State) (f : TileFields), Alone s ∧ s.ctx.getP f.p ≠ f.negp ∧ OpndOk s f.ta f.fmt2.toNat [0, 1, 3]
      ∧ Scaled s f.ta ∧ TileOk s f.td f.fmt1.toNat) :=
  ⟨⟨tiles 1 fun x => x.setTile 1 (tile (sr 2 3 0x12 2) 1 [1]), tf 0 0x641, ⟨rfl, rfl, rfl, rfl, rfl, rfl⟩, by decide +kernel,
      opnd_ok (by decide +kernel), by unfold Unscaled; decide +kernel, by unfold Unscaled; decide +kernel,
      opnd_ok (by decide +kernel), by decide⟩,
    ⟨tiles 1 fun x => x.setTile 9 (tile (sr 4 4 8) 4 []), tf 5 0x28, ⟨rfl, rfl, rfl, rfl, rfl, rfl⟩, by decide +kernel,
      opnd_ok (by decide +kernel), by unfold Unscaled; decide +kernel, by unfold Unscaled; decide +kernel,
      opnd_ok (by decide +kernel), by decide⟩,
    ⟨tiles 1 fun x => (x.setTile 1 (tile (sr 2 24 1) 32 [1])).setTile 9 (tile (sr 2 12 2 3 0 0 6) 8 []), tf 0 0x22,
      ⟨rfl, rfl, rfl, rfl, rfl, rfl⟩, by decide +kernel, opnd_ok (by decide +kernel), by unfold Unscaled; decide +kernel,
      by unfold Unscaled; decide +kernel, opnd_ok (by decide +kernel), by decide, by decide +kernel⟩,
    ⟨tiles 1 fun x => (x.setTile 9 (tile (sr 1 16 4 0 1 6) 8 [])).setTile 6 (tile (sr 1 1 0x10) 8 []), tf 0 0x24,
      ⟨rfl, rfl, rfl, rfl, rfl, rfl⟩, by decide +kernel, tile_ok (by decide +kernel), opnd_ok (by decide +kernel),
      scaled_ok (by decide +kernel), by decide +kernel⟩,
    tiles 1 fun x => (x.setTile 1 (tile (sr 1 16 4 0 1 6) 8 [])).setTile 6 (tile (sr 1 1 0x11) 8 []), tf 0 0x81,
    ⟨rfl, rfl, rfl, rfl, rfl, rfl⟩, by decide +kernel, opnd_ok (by decide +kernel), scaled_ok (by decide +kernel),
    tile_ok (by decide +kernel)⟩

open Tests in
theorem witness_matrix_products :
    (∃ (s : State) (f : TileFields), Alone s ∧ Issues s (.mma f) f ∧ TileOk s f.ta f.fmt1.toNat ∧ TileOk s f.tb f.fmt2.toNat
      ∧ (f.drain = true → TileOk s f.tc (s.ctx.tile f.tc).sr.fmt) ∧ f.drain = true ∧ f.imm.getLsbD 10 = true
      ∧ f.imm.getLsbD 11 = false ∧ (s.ctx.tile f.tb).sr.cols ≤ 128 ∧ (s.ctx.tile f.ta).sr.cols ≤ 128
      ∧ (s.ctx.tile f.ta).sr.rows = (s.ctx.tile f.tb).sr.rows)
    ∧ (∃ (s : State) (f : TileFields), Alone s ∧ Issues s (.mmas f) f ∧ OpndOk s f.ta f.fmt1.toNat [0]
      ∧ OpndOk s f.tb f.fmt2.toNat [1] ∧ Scaled s f.ta ∧ Scaled s f.tb ∧ f.drain = false ∧ f.imm.getLsbD 10 = false
      ∧ f.imm.getLsbD 11 = false ∧ (s.ctx.tile f.tb).sr.cols ≤ 128 ∧ (s.ctx.tile f.ta).sr.rows ≤ 128
      ∧ (s.ctx.tile f.ta).sr.cols = (s.ctx.tile f.tb).sr.rows)
    ∧ (∃ (s : State) (f : TileFields), Alone s ∧ Issues s (.mmb f) f ∧ OpndOk s f.ta 0x12 [2] ∧ OpndOk s f.tb 0x12 [2]
      ∧ Unscaled s f.ta ∧ Unscaled s f.tb ∧ f.drain = false ∧ f.imm.getLsbD 10 = false ∧ f.imm.getLsbD 11 = true
      ∧ (s.ctx.tile f.tb).sr.rows ≤ 128 ∧ (s.ctx.tile f.ta).sr.rows ≤ 128
      ∧ (s.ctx.tile f.ta).sr.cols = (s.ctx.tile f.tb).sr.cols)
    ∧ (∃ (s : State) (f : TileFields), Alone s ∧ Issues s (.mmsp f) f ∧ OpndOk s f.ta f.fmt1.toNat [3] ∧ Unscaled s f.ta
      ∧ TileOk s f.tb f.fmt2.toNat ∧ f.drain = false ∧ f.imm.getLsbD 11 = false ∧ (s.ctx.tile f.tb).sr.cols ≤ 128
      ∧ (s.ctx.tile f.ta).sr.rows ≤ 128 ∧ (s.ctx.tile f.ta).sr.cols = (s.ctx.tile f.tb).sr.rows)
    ∧ (∃ (s : State) (f : TileFields), Alone s ∧ Issues s (.mmsp f) f ∧ OpndOk s f.ta f.fmt1.toNat [3] ∧ Scaled s f.ta
      ∧ OpndOk s f.tb f.fmt2.toNat [1] ∧ Scaled s f.tb ∧ f.drain = false ∧ f.imm.getLsbD 11 = false
      ∧ (s.ctx.tile f.tb).sr.cols ≤ 128 ∧ (s.ctx.tile f.ta).sr.rows ≤ 128
      ∧ (s.ctx.tile f.ta).sr.cols = (s.ctx.tile f.tb).sr.rows) := by
  refine ⟨⟨tiles 2 id, { tf 5 0x442 with td := 3 }, ⟨rfl, rfl, rfl, rfl, rfl, rfl⟩, by unfold Issues; decide +kernel,
      tile_ok (by decide +kernel), tile_ok (by decide +kernel), fun _ => tile_ok (by decide +kernel), by decide +kernel⟩,
    ⟨go fun x => (((x.setTile 1 (tile (sr 2 16 4 0 1 5) 8 [])).setTile 2 (tile (sr 16 128 4 1 1 6) 8 [])).setTile 5
        (tile (sr 2 1 0x10) 8 [])).setTile 6 (tile (sr 1 128 0x11 1) 8 []), { tf 1 0x84 with td := 3, tc := 0 },
      ⟨rfl, rfl, rfl, rfl, rfl, rfl⟩, by unfold Issues; decide +kernel, opnd_ok (by decide +kernel), opnd_ok (by decide +kernel),
      scaled_ok (by decide +kernel), scaled_ok (by decide +kernel), by decide +kernel⟩,
    ⟨go fun x => (x.setTile 1 (tile (sr 2 16 0x12 2) 1 [])).setTile 2 (tile (sr 128 16 0x12 2) 1 []), { tf 1 0x800 with td := 3, tc := 0 },
      ⟨rfl, rfl, rfl, rfl, rfl, rfl⟩, by unfold Issues; decide +kernel, opnd_ok (by decide +kernel), opnd_ok (by decide +kernel),
      by unfold Unscaled; decide +kernel, by unfold Unscaled; decide +kernel, by decide +kernel⟩,
    ⟨go fun x => (x.setTile 1 (tile (sr 1 12 2 3 0 0 4) 8 [])).setTile 2 (tile (sr 12 1 2) 16 []), { tf 0 0x42 with td := 3, tc := 0 },
      ⟨rfl, rfl, rfl, rfl, rfl, rfl⟩, by unfold Issues; decide +kernel, opnd_ok (by decide +kernel), by unfold Unscaled; decide +kernel,
      tile_ok (by decide +kernel), by decide +kernel⟩,
    go fun x => (((x.setTile 1 (tile (sr 1 12 4 3 1 5 4) 8 [])).setTile 2 (tile (sr 12 1 4 1 1 6) 8 [])).setTile 5
        (tile (sr 1 1 0x10) 8 [])).setTile 6 (tile (sr 1 1 0x11 1) 8 []), { tf 0 0x84 with td := 3, tc := 0 },
    ⟨rfl, rfl, rfl, rfl, rfl, rfl⟩, by unfold Issues; decide +kernel, opnd_ok (by decide +kernel), scaled_ok (by decide +kernel),
    opnd_ok (by decide +kernel), scaled_ok (by decide +kernel), by decide +kernel⟩

open Tests in
theorem witness_accumulator_moves :
    (∃ (s : State) (f : TileFields), Alone s ∧ s.ctx.getP f.p ≠ f.negp ∧ f.sBit = true ∧ TileOk s f.td f.fmt1.toNat)
    ∧ (∃ (s : State) (f : TileFields), Alone s ∧ s.ctx.getP f.p ≠ f.negp ∧ f.sBit = false ∧ TileOk s f.ta 0x14)
    ∧ (∃ (s t : State) (f g : TileFields), Alone s ∧ s.ctx.getP f.p ≠ f.negp ∧ s.ctx.getP g.p ≠ g.negp ∧ f.fmt1.toNat = 0xA
      ∧ TileOk s f.td 0xA ∧ (s.ctx.tile f.td).sr.rows = 128 ∧ 128 ≤ (s.ctx.tile f.td).sr.cols ∧ 128 ≤ s.ctx.xr.toNat
      ∧ 128 ≤ s.ctx.xc.toNat ∧ f.imm.getLsbD 11 = true ∧ g.sBit = false ∧ g.ta = f.td ∧ exec (.mdrain f) s = .next t) :=
  ⟨⟨tiles 1 id, tf 0 0x401, ⟨rfl, rfl, rfl, rfl, rfl, rfl⟩, by decide +kernel, by decide, tile_ok (by decide +kernel)⟩,
    ⟨tiles 0x14 id, tf 0 0, ⟨rfl, rfl, rfl, rfl, rfl, rfl⟩, by decide +kernel, by decide, tile_ok (by decide +kernel)⟩,
    go fun x => { x.setTile 9 (tile (sr 128 128 0xA) 8 []) with xr := 256, xc := 1024 }, _, tf 0 0x80A, { tf 0 0 with ta := 9 },
    ⟨rfl, rfl, rfl, rfl, rfl, rfl⟩, by decide +kernel, by decide +kernel, by decide, tile_ok (by decide +kernel),
    by decide +kernel, by decide +kernel, by decide +kernel, by decide +kernel, by decide, by decide, rfl, rfl⟩

open Tests in
/-- Lanes: one that acts, one that is off, one under a false predicate. -/
def Tests.lanes (call : LaneCall) : State :=
  { go id with lanes := [{ l := Vector.replicate 64 0x3F800000, ins := [1], olds := [2], outs := [none] }, { on := false },
                         { k := (Vector.replicate 8 false).set 1 true }], call := call }

open Tests in
theorem witness_lane_float :
    (∀ c ∈ [0x00, 0x01], ∃ (s : State) (f : LaneFields) (n : Nat) (l : Lane), f.rm.toNat < 5 ∧ f.ld.getLsbD 0 = false
      ∧ f.la.getLsbD 0 = false ∧ f.lb.getLsbD 0 = false ∧ f.k.getLsbD 0 = false ∧ fmtWidth c ≤ 64 ∧ s.lanes[n]? = some l ∧ Acts f l)
    ∧ (∃ (s : State) (f : LaneFields) (c d n : Nat) (l : Lane), c = f.lcvtS.toNat ∧ d = f.lcvtD.toNat ∧ fmtWidth c ≤ 64
      ∧ fmtWidth d ≤ 64 ∧ (fmtWidth d = 64 → f.ld.getLsbD 0 = false) ∧ (fmtWidth c = 64 → f.la.getLsbD 0 = false)
      ∧ s.lanes[n]? = some l ∧ Acts f l)
    ∧ (∃ (s : State) (f : LaneFields) (n : Nat) (l : Lane), s.lanes[n]? = some l ∧ ¬ Acts f l) :=
  ⟨fun c hc => ⟨lanes {}, ⟨62, 2, 4, 0, 4⟩, 0, _, by decide, by decide, by decide, by decide, by decide, by revert c; decide, rfl,
      by unfold Acts Live; decide +kernel⟩,
    ⟨lanes {}, ⟨62, 63, 0, 0, 0x100⟩, _, _, 0, _, rfl, rfl, by decide, by decide, by decide, by decide, rfl,
      by unfold Acts Live; decide +kernel⟩,
    lanes {}, ⟨0, 0, 0, 9, 0⟩, 2, _, rfl, by unfold Acts Live; decide +kernel⟩

open Tests in
theorem witness_lane_integers :
    ∃ (s : State) (f : LaneFields) (n : Nat) (l : Lane), f.ld.toNat < 8 ∧ f.la.getLsbD 0 = false ∧ f.lb.getLsbD 0 = false
      ∧ f.rm.toNat < 6 ∧ (f.imm.setWidth 4).toNat < 10 ∧ (f.la.toNat < 8 ∨ f.rm.toNat = 5) ∧ f.lb.toNat < 8
      ∧ s.lanes[n]? = some l ∧ Acts f l :=
  ⟨lanes {}, ⟨7, 62, 6, 0, 5⟩, 0, _, by decide, by decide, by decide, by decide, by decide, by decide, by decide, rfl,
    by unfold Acts Live; decide +kernel⟩

open Tests in
theorem witness_lane_data :
    (∃ (s : State) (f : LaneFields) (n : Nat) (l : Lane), f.rm.toNat < 7 ∧ s.lanes[n]? = some l ∧ Acts f l
      ∧ (f.imm.setWidth 2).toNat < s.call.inFmts.length ∧ (f.imm.setWidth 1).toNat < s.call.outFmts.length
      ∧ f.ld.getLsbD 0 = false ∧ f.la.getLsbD 0 = false)
    ∧ (∃ (s : State) (f : LaneFields) (n : Nat) (l : Lane), s.lanes[n]? = some l ∧ Acts f l
      ∧ s.call.inFmts.length ≤ (f.imm.setWidth 2).toNat ∧ s.call.outFmts.length ≤ (f.imm.setWidth 1).toNat)
    ∧ (∃ (s : State) (f : LaneFields) (n : Nat) (l : Lane), s.lanes[n]? = some l ∧ Live l ∧ f.imm.getLsbD 8 = true
      ∧ (BitVec.ofNat 4 (l.get f.la)).toNat < s.call.nblocks)
    ∧ (∃ (s : State) (f : LaneFields) (n : Nat) (l : Lane), s.lanes[n]? = some l ∧ Live l ∧ f.imm.getLsbD 8 = true
      ∧ s.call.nblocks ≤ (BitVec.ofNat 4 (l.get f.la)).toNat)
    ∧ (∃ (s : State) (f : LaneFields) (n : Nat) (l : Lane), s.lanes[n]? = some l ∧ Live l ∧ ¬ Acts f l ∧ f.imm.getLsbD 8 = false)
    ∧ (∃ (s : State) (n : Nat) (l : Lane), s.lanes[n]? = some l ∧ ¬ Live l) :=
  ⟨⟨lanes { inFmts := [0, 1], outFmts := [0, 9] }, ⟨62, 62, 0, 0, 1⟩, 0, _, by decide, rfl, by unfold Acts Live; decide +kernel,
      by decide, by decide, by decide, by decide⟩,
    ⟨lanes { inFmts := [0, 1], outFmts := [0] }, ⟨62, 62, 0, 0, 3⟩, 0, _, rfl, by unfold Acts Live; decide +kernel, by decide, by decide⟩,
    ⟨lanes { nblocks := 1 }, ⟨0, 62, 0, 0, 0x100⟩, 0, _, rfl, by unfold Live; decide +kernel, by decide, by decide +kernel⟩,
    ⟨{ lanes { nblocks := 1 } with lanes := [{ l := Vector.replicate 64 1 }] }, ⟨0, 62, 0, 0, 0x100⟩, 0, _, rfl,
      by unfold Live; decide +kernel, by decide, by decide +kernel⟩,
    ⟨lanes {}, ⟨0, 0, 0, 9, 0x21⟩, 2, _, rfl, by unfold Live; decide +kernel, by unfold Acts Live; decide +kernel, by decide⟩,
    lanes {}, 1, _, rfl, by unfold Live; decide +kernel⟩

/-- The instruction's memory mapped SHARED from 0 and HOME from 2^38; A1 names bytes of the first, A2 the same bytes of the
second, A3 an address that nothing maps. -/
def Tests.mapped (f : Ctx → Ctx) : State :=
  Tests.home (Tests.put 32 0xC6 fun c => f (((c.setA 1 0x3000010).setA 2 (2 ^ 38 + 0x3000010)).setA 3 (2 ^ 70)))

theorem Tests.pair_of {α β : Type} {x : α × β} {a : α} (h : x.1 = a) : x = (a, x.2) := Prod.ext h rfl

theorem Tests.three_of {α β γ : Type} {x : α × β × γ} {a : α} (h : x.1 = a) : x = (a, x.2.1, x.2.2) := Tests.pair_of h

theorem Tests.mapped_alone {f : Ctx → Ctx} (h : ∀ c, (f c).run = c.run ∧ (f c).tiq = c.tiq ∧ (f c).copies = c.copies
    ∧ (f c).ilock = c.ilock ∧ (f c).olds = c.olds) : Alone (Tests.mapped f) :=
  ⟨rfl, (h _).1, (h _).2.1, (h _).2.2.1, (h _).2.2.2.1, (h _).2.2.2.2⟩

theorem Tests.reaches_of {s : State} {a : Acc} {va : Addr} {n pa cls : Nat} (h : va.toNat % n = 0
    ∧ s.watchMeets a false va.toNat n = false ∧ (s.check s.ctx.asid s.ctx.ids a va n).1 = .ok pa cls
    ∧ (s.check s.ctx.asid s.ctx.ids a va n).2.dataFault (!a.write) [(pa, n)] = none) :
    Reaches s a va n pa cls (s.check s.ctx.asid s.ctx.ids a va n).2 := ⟨h.1, h.2.1, Prod.ext h.2.2.1 rfl, h.2.2.2⟩

/-- The same with the register window mapped DEVICE from 3 * 2^38, where A4 points. -/
def Tests.device : State :=
  let s := Tests.mapped fun c => c.setA 4 (3 * 2 ^ 38 + 0x4000)
  s.wr (s.local_ (placeTables + 0x30018)) 8 (s.local_ 0xF00000000000 / 256 + 0x7B)

open Tests in
theorem witness_scalar_loads_and_stores :
    (∀ z ∈ [0, 1, 2, 3, 4], ∃ (s u p : State) (a : BitVec 4) (o : BitVec 13) (va : Addr) (n pa cls : Nat), Alone s
      ∧ va = s.ctx.getA a + o.signExtend 72 * BitVec.ofNat 72 n ∧ p = State.pushed s (.ld 5 a (BitVec.ofNat 2 z) o none) 1
      ∧ Reaches p { scalar := true, qual := Pfx.order none != 0 } va n pa cls u ∧ n = 2 ^ z)
    ∧ (∀ l ∈ [0, 0x100], ∃ (s u p : State) (g : BitVec 5) (a : BitVec 4) (o : BitVec 13) (va : Addr) (pa cls : Nat), Alone s
      ∧ va = s.ctx.getA a + o.signExtend 72 * 16 ∧ p = State.pushed s (.lda g a o none) 1
      ∧ Reaches p { scalar := true, qual := Pfx.order none != 0 } va 16 pa cls u ∧ g.toNat < 16
      ∧ s.ctx.stackBad (g.setWidth 4) (BitVec.ofNat 72 (u.rd pa 16)) = (l != 0))
    ∧ (∀ c ∈ [1, 2], ∀ h ∈ [0#5, 1#5], ∃ (s p u : State) (a : BitVec 4) (l : Leaf) (pte size : Nat) (va : Addr), Alone s
      ∧ p = State.pushed s (.pref h a 0 0 none) 1 ∧ va = s.ctx.getA a
      ∧ p.translate s.ctx.asid va = (some (l, pte, size), u) ∧ l.cls = c ∧ p.target (leafPa l size va) = .hbm 0
      ∧ p.isPoisoned (leafPa l size va / 256 * 256) 256 = false)
    ∧ (∃ (s p u : State) (a : BitVec 4), Alone s ∧ p = State.pushed s (.pref 0 a 0 0 none) 1
      ∧ p.translate s.ctx.asid (s.ctx.getA a) = (none, u))
    ∧ (∃ (s u p c : State) (a : BitVec 4) (va : Addr) (pa : Nat), Alone s ∧ va = s.ctx.getA a
      ∧ p = State.pushed s (.st 5 a 3 0 none) 1
      ∧ Reaches p { write := true, scalar := true, qual := Pfx.order none != 0 } va 8 pa 3 u ∧ u.target pa = .window
      ∧ c = u.winStore pa 8 7 ∧ c.ctx = u.ctx)
    ∧ (∀ z ∈ [0, 1, 2, 3, 4], ∃ (s u p : State) (a : BitVec 4) (o : BitVec 13) (va : Addr) (n pa cls : Nat) (l : Leaf)
      (pte size : Nat) (k : State), Alone s
      ∧ va = s.ctx.getA a + o.signExtend 72 * BitVec.ofNat 72 n ∧ p = State.pushed s (.st 5 a (BitVec.ofNat 2 z) o none) 1
      ∧ Reaches p { write := true, scalar := true, qual := Pfx.order none != 0 } va n pa cls u ∧ n = 2 ^ z ∧ cls ≠ 3
      ∧ MemOk u ∧ ((u.wr pa n 7).clearPoison [(pa, n)]).translate s.ctx.asid (BitVec.ofNat 72 (va.toNat / 65536 * 65536))
        = (some (l, pte, size), k) ∧ (pte + 8 ≤ pa ∨ pa + n ≤ pte)) := by
  refine ⟨fun z hz => ⟨mapped id, _, _, 1, 0, _, 2 ^ z, 0x3000010, 1, mapped_alone fun c => ⟨rfl, rfl, rfl, rfl, rfl⟩, rfl, rfl,
      reaches_of (by revert z; decide +kernel), rfl⟩,
    fun l hl => ⟨mapped fun c => { c with splim := BitVec.ofNat 64 l }, _, _, 15, 1, 0, 0x3000010, 0x3000010, 1,
      mapped_alone fun c => ⟨rfl, rfl, rfl, rfl, rfl⟩, ?_, rfl, reaches_of ?_, ?_, ?_⟩,
    fun c hc h hh => ⟨mapped id, _, _, BitVec.ofNat 4 c, BitVec.ofNat 64 (if c = 1 then 0x2F else 0x5B), 0x1030000 + 8 * (c - 1), 38,
      BitVec.ofNat 72 ((c - 1) * 2 ^ 38 + 0x3000010), mapped_alone fun c => ⟨rfl, rfl, rfl, rfl, rfl⟩, rfl, ?_, pair_of ?_, ?_, ?_, ?_⟩,
    ⟨mapped id, _, _, 3, mapped_alone fun c => ⟨rfl, rfl, rfl, rfl, rfl⟩, rfl, pair_of (by decide +kernel)⟩,
    ⟨device, _, _, _, 4, 3 * 2 ^ 38 + 0x4000, 0xF00000004000, ⟨rfl, rfl, rfl, rfl, rfl, rfl⟩, by decide +kernel, rfl,
      reaches_of (by decide +kernel), by decide +kernel, rfl, by decide +kernel⟩,
    fun z hz => ⟨mapped id, _, _, 2, 0, _, 2 ^ z, 0x3000010, 2, 0x5B, 0x1030008, 38, _,
      mapped_alone fun c => ⟨rfl, rfl, rfl, rfl, rfl⟩, rfl, rfl, reaches_of ?_, rfl, by decide, ?_, pair_of ?_, Or.inl (by decide)⟩⟩
  all_goals first
    | (revert l; decide +kernel)
    | (revert h c; decide +kernel)
    | (revert z; first | decide +kernel | (unfold MemOk; decide +kernel))

theorem Tests.done_of {α : Type} {r : Run α} (h : (match r with | .done _ _ => true | _ => false) = true) :
    ∃ a s, r = .done a s := by
  cases r with
  | done a s => exact ⟨a, s, rfl⟩
  | _ => exact nomatch h

/-- A check of accesses that ends with these pieces and pages and this state. -/
def Tests.checked (r : Run (List (MElem × List (Nat × Nat) × Nat) × Pages)) (a : List (MElem × List (Nat × Nat) × Nat))
    (m : Pages) (s : State) : Bool :=
  match r with
  | .done b t => decide (b.1 = a) && decide (b.2 = m) && decide (t = s)
  | _ => false

theorem Tests.done_eq {r : Run (List (MElem × List (Nat × Nat) × Nat) × Pages)} {a : List (MElem × List (Nat × Nat) × Nat)}
    {m : Pages} {s : State} (h : Tests.checked r a m s = true) : r = .done (a, m) s := by
  cases r with
  | done b t =>
    simp only [Tests.checked, Bool.and_eq_true, decide_eq_true_eq] at h
    rw [← h.1.1, ← h.1.2, ← h.2]
  | _ => exact nomatch h

open Tests in
theorem witness_scalar_access_faults :
    (∃ (s u p : State) (i : Instr) (va : Addr) (n : Nat) (acc : Acc), Alone s ∧ va = s.ctx.getA 3 + 0 * BitVec.ofNat 72 n
      ∧ p = State.pushed s i 1 ∧ i = .ld 5 3 3 0 none ∧ n = 8 ∧ acc = { scalar := true } ∧ va.toNat % n = 0
      ∧ p.watchMeets acc false va.toNat n = false ∧ p.check s.ctx.asid s.ctx.ids acc va n = (.fault .pageNotPresent, u))
    ∧ (∃ (s u p : State) (i : Instr) (va : Addr) (n : Nat) (acc : Acc), Alone s ∧ va = s.ctx.getA 1 + 0 * BitVec.ofNat 72 n
      ∧ p = State.pushed s i 1 ∧ i = .sta 5 1 0 none ∧ n = 16 ∧ acc = { scalar := true, write := true } ∧ va.toNat % n = 0
      ∧ p.watchMeets acc false va.toNat n = false ∧ p.check s.ctx.asid s.ctx.ids acc va n = (.fault .pageProtection, u))
    ∧ (∃ (s t : State) (a : Acc) (va : Addr), MemOk s ∧ a.write = false ∧ s.check 0 [] a va 8 = (.ok 0x3000010 1, t)) :=
  ⟨⟨mapped id, _, _, _, _, _, { scalar := true }, mapped_alone fun c => ⟨rfl, rfl, rfl, rfl, rfl⟩, rfl, rfl, rfl, rfl, rfl, by decide +kernel,
      by decide +kernel, pair_of (by decide +kernel)⟩,
    ⟨mapped id, _, _, _, _, _, { scalar := true, write := true }, mapped_alone fun c => ⟨rfl, rfl, rfl, rfl, rfl⟩, rfl, rfl, rfl, rfl, rfl,
      by decide +kernel, by decide +kernel, pair_of (by decide +kernel)⟩,
    mapped id, _, { scalar := true }, 0x3000010, by unfold MemOk; decide +kernel, rfl, pair_of (by decide +kernel)⟩

/-- Tiles of the memory rows: t9 and t1 hold f32 elements, t2 indices, t4 a mask; A1 is SHARED, A2 HOME; the context is in a
group with 256 bytes of cluster space. -/
def Tests.memTiles : State :=
  { Tests.mapped fun c => { ((((c.setTile 9 (Tests.tile (Tests.sr 2 3 1) 32 [1, 2, 3])).setTile 1
        (Tests.tile (Tests.sr 2 3 1) 32 [0x3F800000, 0x7F800000, 5])).setTile 2 (Tests.tile (Tests.sr 2 3 0xA) 32 [0, 8, 16, 4, 20, 12])).setTile 4
        (Tests.tile (Tests.sr 2 3 0x13) 1 [1, 0, 1, 1, 1, 1])).setG 20 0xFFFF with launch := some 0 } with
    groups := [{ launch := 0, idx := 0, size := 256, bytes := 0x0123456789ABCDEF }] }

theorem Tests.mem_tiles_alone : Alone Tests.memTiles := ⟨rfl, rfl, rfl, rfl, rfl, rfl⟩

/-- Fields of a tile load of a merge group, over G20 and A1. -/
def Tests.joinF : TileFields := { Tests.tf 0 0 with tb := 0, gs := 20, as := 1 }

/-- The entry that a load of the pair's partner has opened. -/
def Tests.joinEntry : Merge :=
  { die := 0, slice := homeSlice 0x3000010, asid := 0, pa := 0x3000010, mtag := 0, cmask := 0xFFFF, pair := 0, base := 0x3000010, pitch := 12
    rows := 2, cols := 3, fmt := 1, layout := 0, er := 2, ec := 3, joined := [1], data := [7, 8, 9, 10, 11, 12] }

def Tests.joining : State := { Tests.memTiles with merges := [Tests.joinEntry] }

def Tests.joinTile : Tile := (State.pushed Tests.joining (.tldm Tests.joinF) 2).loadBase 9

/-- The hypotheses of a tile load that joins an open merge entry. -/
def Tests.JoinsMerge : Prop :=
  ∃ (s p v : State) (f : TileFields) (t : Tile) (ws : List (MElem × List (Nat × Nat) × Nat)) (m : Pages) (e k : Merge),
    Alone s ∧ Issues s (.tldm f) f ∧ p = State.pushed s (.tldm f) (TileFields.words f) ∧ ShapeOk s f.td ∧ t = p.loadBase f.td
      ∧ s.ctx.tes = 0 ∧ f.tb = 0 ∧ f.offset = 0 ∧ (s.ctx.getG f.gs).extractLsb' 28 36 = 0
      ∧ baseOff t.sr (s.ctx.getA f.as) t.sr.densePitch = false
      ∧ checkVa (s.party {}) 1 (s.vaElems f.td t (s.ctx.getA f.as) t.sr.densePitch) [] [] p = .done (ws, m) v ∧ v.onDie ws = true
      ∧ (s.ctx.getG f.gs).getLsbD s.pairBit = true ∧ s.getSys s.die 0x838 ≠ 0
      ∧ k = { die := s.die, slice := homeSlice (((ws.head?.bind fun w => w.2.1.head?).map Prod.fst).getD 0)
              asid := s.ctx.asid, pa := ((ws.head?.bind fun w => w.2.1.head?).map Prod.fst).getD 0
              mtag := (s.ctx.getG f.gs).extractLsb' 16 12, cmask := (s.ctx.getG f.gs).extractLsb' 0 16
              pair := s.pairNo, base := (s.ctx.getA f.as).toNat, pitch := t.sr.densePitch, rows := t.sr.rows
              cols := t.sr.cols, fmt := t.sr.fmt, layout := t.sr.layout, er := s.er [f.td], ec := s.ec [f.td] }
      ∧ s.merges = [e] ∧ (e.sameKey k = true ∧ e.die = k.die ∧ e.slice = k.slice ∧ e.pair = k.pair) ∧ e.bad = none

open Tests in
theorem witness_tile_loads :
    (∀ i ∈ ([.tld, .tldm] : List (TileFields → Instr)), ∃ (s p : State) (f : TileFields) (t u : Tile) (v : State), Alone s
      ∧ Issues s (i f) f ∧ p = State.pushed s (i f) (TileFields.words f) ∧ ShapeOk s f.td ∧ t = p.loadBase f.td ∧ f.tb = 0
      ∧ baseOff t.sr (s.ctx.getA f.as) t.sr.densePitch = false ∧ f.gs = 0 ∧ f.offset = 0 ∧ (s.ctx.getG f.gs).extractLsb' 28 36 = 0
      ∧ (s.ctx.getG f.gs).getLsbD s.pairBit = false
      ∧ loadVa (s.party (memAcc f false)) 1 putElem (s.fromTes (s.vaElems f.td t (s.ctx.getA f.as) t.sr.densePitch)) [] t p = .done u v)
    ∧ (∃ (s p : State) (f : TileFields) (t u : Tile) (v : State) (names : List (BitVec 5)), Alone s
      ∧ Issues s (.tldg f) f ∧ p = State.pushed s (.tldg f) (TileFields.words f) ∧ ShapeOk s f.td ∧ t = p.loadBase f.td
      ∧ names = [f.td, f.tb] ++ (if f.md.getLsbD 3 then [f.tc] else []) ∧ (∀ r ∈ names, TileOk s r (s.ctx.tile r).sr.fmt)
      ∧ f.md.getLsbD 3 = true ∧ (s.ctx.tile f.tc).sr.fmt = 0x13
      ∧ gatherFmt (s.ctx.tile f.td).sr = true ∧ (s.ctx.tile f.tb).sr.fmt ∈ [0x09, 0x0A, 0x14, 0x15]
      ∧ loadVa (s.party (memAcc f false)) (t.sr.w / 8) putElem (s.fromTes (s.gatherElems (s.ctx.tile f.td) (s.ctx.tile f.tb)
          (some (s.ctx.tile f.tc)) (s.ctx.getA f.as + BitVec.ofInt 72 f.offset) (f.md.extractLsb' 0 3).toNat names)) [] t p = .done u v)
    ∧ (∃ (s p : State) (f : TileFields) (t u : Tile) (v : State), Alone s
      ∧ Issues s (.csld f) f ∧ p = State.pushed s (.csld f) (TileFields.words f) ∧ ShapeOk s f.td ∧ t = p.loadBase f.td
      ∧ loadCs t.sr.memAlign (s.fromTes (s.csElems f (s.ctx.entryOf (.csld f)) f.td)) t p = .done u v)
    ∧ (∃ (s p v : State) (f : TileFields) (t : Tile) (xs : List MElem) (ws : List (MElem × List (Nat × Nat) × Nat)) (m : Pages),
      Alone s ∧ Issues s (.tldm f) f ∧ p = State.pushed s (.tldm f) (TileFields.words f) ∧ ShapeOk s f.td ∧ t = p.loadBase f.td
      ∧ s.ctx.tes = 0 ∧ f.tb = 0 ∧ f.offset = 0 ∧ (s.ctx.getG f.gs).extractLsb' 28 36 = 0
      ∧ baseOff t.sr (s.ctx.getA f.as) t.sr.densePitch = false ∧ xs = s.vaElems f.td t (s.ctx.getA f.as) t.sr.densePitch
      ∧ checkVa (s.party {}) 1 xs [] [] p = .done (ws, m) v ∧ v.onDie ws = true
      ∧ (s.ctx.getG f.gs).getLsbD s.pairBit = true ∧ s.getSys s.die 0x838 ≠ 0 ∧ (∀ w ∈ ws, v.dataFault true w.2.1 = none)
      ∧ s.merges = []) ∧ JoinsMerge := by
  refine ⟨fun i hi => ?_, ?_, ?_, ?_, ?_⟩
  · obtain ⟨u, v, h⟩ := done_of (r := loadVa (memTiles.party (memAcc (tf 0 0) false)) 1 putElem (memTiles.fromTes (memTiles.vaElems 9
      ((State.pushed memTiles (i { tf 0 0 with tb := 0, as := 1 }) 2).loadBase 9) (memTiles.ctx.getA 1)
      ((State.pushed memTiles (i { tf 0 0 with tb := 0, as := 1 }) 2).loadBase 9).sr.densePitch)) []
      ((State.pushed memTiles (i { tf 0 0 with tb := 0, as := 1 }) 2).loadBase 9)
      (State.pushed memTiles (i { tf 0 0 with tb := 0, as := 1 }) 2)) (by revert i; decide +kernel)
    exact ⟨memTiles, _, { tf 0 0 with tb := 0, as := 1 }, _, u, v, mem_tiles_alone, by clear h; revert i; unfold Issues; decide +kernel, rfl,
      shape_ok (by decide +kernel), rfl, rfl, by clear h; revert i; decide +kernel, rfl, by decide +kernel, by decide +kernel, by decide +kernel, h⟩
  · obtain ⟨u, v, h⟩ := done_of (r := loadVa (memTiles.party (memAcc { tf 8 0 with as := 1 } false))
      (((State.pushed memTiles (.tldg { tf 8 0 with as := 1 }) 2).loadBase 9).sr.w / 8) putElem
      (memTiles.fromTes (memTiles.gatherElems (memTiles.ctx.tile 9) (memTiles.ctx.tile 2) (some (memTiles.ctx.tile 4))
        (memTiles.ctx.getA 1 + BitVec.ofInt 72 0) 0 [9, 2, 4])) []
      ((State.pushed memTiles (.tldg { tf 8 0 with as := 1 }) 2).loadBase 9)
      (State.pushed memTiles (.tldg { tf 8 0 with as := 1 }) 2)) (by decide +kernel)
    exact ⟨memTiles, _, { tf 8 0 with as := 1 }, _, u, v, _, mem_tiles_alone, by unfold Issues; decide +kernel, rfl, shape_ok (by decide +kernel),
      rfl, rfl, fun r hr => tile_ok (by revert r; decide +kernel), by decide, by decide +kernel, by decide +kernel, by decide +kernel, h⟩
  · obtain ⟨u, v, h⟩ := done_of (r := loadCs ((State.pushed memTiles (.csld { tf 0 0 with tb := 0 }) 2).loadBase 9).sr.memAlign
      (memTiles.fromTes (memTiles.csElems { tf 0 0 with tb := 0 } (memTiles.ctx.entryOf (.csld { tf 0 0 with tb := 0 })) 9))
      ((State.pushed memTiles (.csld { tf 0 0 with tb := 0 }) 2).loadBase 9) (State.pushed memTiles (.csld { tf 0 0 with tb := 0 }) 2))
      (by decide +kernel)
    exact ⟨memTiles, _, { tf 0 0 with tb := 0 }, _, u, v, mem_tiles_alone, by unfold Issues; decide +kernel, rfl, shape_ok (by decide +kernel),
      rfl, h⟩
  · obtain ⟨q, v, h⟩ := done_of (r := checkVa (memTiles.party {}) 1 (memTiles.vaElems 9
      ((State.pushed memTiles (.tldm { tf 0 0 with tb := 0, gs := 20, as := 1 }) 2).loadBase 9) (memTiles.ctx.getA 1)
      ((State.pushed memTiles (.tldm { tf 0 0 with tb := 0, gs := 20, as := 1 }) 2).loadBase 9).sr.densePitch) [] []
      (State.pushed memTiles (.tldm { tf 0 0 with tb := 0, gs := 20, as := 1 }) 2)) (by decide +kernel)
    have g : (match checkVa (memTiles.party {}) 1 (memTiles.vaElems 9
        ((State.pushed memTiles (.tldm { tf 0 0 with tb := 0, gs := 20, as := 1 }) 2).loadBase 9) (memTiles.ctx.getA 1)
        ((State.pushed memTiles (.tldm { tf 0 0 with tb := 0, gs := 20, as := 1 }) 2).loadBase 9).sr.densePitch) [] []
        (State.pushed memTiles (.tldm { tf 0 0 with tb := 0, gs := 20, as := 1 }) 2) with
      | .done q v => v.onDie q.1 && q.1.all fun w => decide (v.dataFault true w.2.1 = none)
      | _ => false) = true := by decide +kernel
    rw [h] at g
    simp only [Bool.and_eq_true, List.all_eq_true, decide_eq_true_eq] at g
    exact ⟨memTiles, _, v, { tf 0 0 with tb := 0, gs := 20, as := 1 }, _, _, q.1, q.2, mem_tiles_alone, by unfold Issues; decide +kernel, rfl,
      shape_ok (by decide +kernel), rfl, rfl, rfl, by decide +kernel, by decide +kernel, by decide +kernel, rfl, h, g.1, by decide +kernel,
      by decide +kernel, g.2, rfl⟩
  · obtain ⟨q, v, h⟩ := done_of (r := checkVa (joining.party {}) 1 (joining.vaElems 9 joinTile (joining.ctx.getA 1)
      joinTile.sr.densePitch) [] [] (State.pushed joining (.tldm joinF) 2)) (by decide +kernel)
    have g : (match checkVa (joining.party {}) 1 (joining.vaElems 9 joinTile (joining.ctx.getA 1)
        joinTile.sr.densePitch) [] [] (State.pushed joining (.tldm joinF) 2) with
      | .done q v => v.onDie q.1 && decide (((q.1.head?.bind fun w => w.2.1.head?).map Prod.fst).getD 0 = 0x3000010)
      | _ => false) = true := by decide +kernel
    rw [h] at g
    simp only [Bool.and_eq_true, decide_eq_true_eq] at g
    exact ⟨joining, _, v, joinF, joinTile, q.1, q.2, joinEntry, { joinEntry with joined := [], data := [] }, ⟨rfl, rfl, rfl, rfl, rfl, rfl⟩, by unfold Issues; decide +kernel, rfl,
      shape_ok (by decide +kernel), rfl, rfl, rfl, rfl, by decide +kernel, by decide +kernel, h, g.1, by decide +kernel, by decide +kernel,
      by rw [g.2]; decide +kernel, rfl, by decide +kernel, rfl⟩

open Tests in
/-- The elements of t9 at A1, and the same state once their page's translation is cached. -/
def Tests.warmElems : List MElem := memTiles.vaElems 9 (memTiles.ctx.tile 9) 0x3000010 12

open Tests in
def Tests.warm : State :=
  match checkVa (memTiles.party {}) 1 warmElems [] [] memTiles with | .done _ v => v | _ => memTiles

open Tests in
/-- The accesses those elements make. -/
def Tests.warmPieces : List (MElem × List (Nat × Nat) × Nat) :=
  warmElems.map fun x => (x, [(x.va.toNat, 4)], 1)

open Tests in
theorem witness_tile_load_elements :
    ∃ (p : Party) (align : Nat) (xs : List MElem) (ws : List (MElem × List (Nat × Nat) × Nat)) (s : State) (t : Tile),
      xs.length = 6 ∧ t.sr.flat = true ∧ (∀ x ∈ xs, x.row < t.sr.rows ∧ x.col < t.sr.cols)
      ∧ xs.Pairwise (fun x y => x.row ≠ y.row ∨ x.col ≠ y.col) ∧ ws.map Prod.fst = xs
      ∧ (∀ n, n ≤ xs.length → ∃ m, checkVa p align (xs.take n) [] [] s = .done (ws.take n, m) s)
      ∧ (∀ w ∈ ws, s.dataFault true w.2.1 = none) := by
  refine ⟨warm.party {}, 1, warmElems, warmPieces, warm, warm.ctx.tile 9, by decide +kernel, by decide +kernel, by decide +kernel,
    by decide +kernel, by decide +kernel, fun n hn => ?_, by decide +kernel⟩
  have h : ∀ n ∈ List.range 7, ∃ m ∈ ([[], [(0x300, 0x3000000, 1)]] : List Pages),
      checked (checkVa (warm.party {}) 1 (warmElems.take n) [] [] warm) (warmPieces.take n) m warm = true := by decide +kernel
  obtain ⟨m, -, h⟩ := h n (List.mem_range.2 (by have : warmElems.length = 6 := by decide +kernel
                                                omega))
  exact ⟨m, done_eq h⟩

open Tests in
theorem witness_tile_stores :
    (∃ (s p : State) (f : TileFields) (t : Tile) (n : Nat) (v : State), Alone s ∧ Issues s (.tst f) f
      ∧ p = State.pushed s (.tst f) (TileFields.words f) ∧ ShapeOk s f.ta ∧ t = s.ctx.tile f.ta ∧ f.tb = 0
      ∧ baseOff t.sr (s.ctx.getA f.as) t.sr.densePitch = false ∧ f.gs = 0 ∧ f.offset = 0
      ∧ storeChunks (s.party (memAcc f true)) 1 (linesOverlap t.sr t.sr.densePitch)
          (chunks (s.fromTes (s.vaElems f.ta t (s.ctx.getA f.as) t.sr.densePitch))) p = .done n v)
    ∧ (∃ (s p u : State) (f : TileFields) (t : Tile) (n : Nat) (v : State) (ps : List (Nat × Nat)) (cls : Nat) (q : Tile × Nat),
      Alone s ∧ Issues s (.tstNfz f) f
      ∧ p = State.pushed s (.tstNfz f) (TileFields.words f) ∧ ShapeOk s f.ta ∧ t = s.ctx.tile f.ta ∧ f.tb = 0
      ∧ p.cellCheck (s.ctx.getA (f.tc.setWidth 4)) = (.ok ps cls, u) ∧ u.dataFault true ps = none
      ∧ q = scrub t (s.er [f.ta]) (s.ec [f.ta]) ∧ q.2 ≠ 0
      ∧ baseOff q.1.sr (s.ctx.getA f.as) t.sr.densePitch = false ∧ f.gs = 0 ∧ f.offset = 0
      ∧ storeChunks (s.party (memAcc f true)) 1 (linesOverlap t.sr t.sr.densePitch)
          (chunks (s.fromTes (s.vaElems f.ta q.1 (s.ctx.getA f.as) t.sr.densePitch))) u = .done n v)
    ∧ (∃ (s p : State) (f : TileFields) (t : Tile) (n : Nat) (v : State) (names : List (BitVec 5)) (xs : List MElem), Alone s
      ∧ Issues s (.tstg f) f
      ∧ p = State.pushed s (.tstg f) (TileFields.words f) ∧ ShapeOk s f.ta ∧ t = s.ctx.tile f.ta
      ∧ names = [f.ta, f.tb] ++ (if f.md.getLsbD 3 then [f.tc] else []) ∧ (∀ r ∈ names, TileOk s r (s.ctx.tile r).sr.fmt)
      ∧ f.md.getLsbD 3 = true ∧ (s.ctx.tile f.tc).sr.fmt = 0x13 ∧ gatherFmt t.sr = true
      ∧ (s.ctx.tile f.tb).sr.fmt ∈ [0x09, 0x0A, 0x14, 0x15]
      ∧ xs = s.gatherElems t (s.ctx.tile f.tb) (some (s.ctx.tile f.tc)) (s.ctx.getA f.as + BitVec.ofInt 72 f.offset)
          (f.md.extractLsb' 0 3).toNat names
      ∧ storeChunks (s.party (memAcc f true)) (t.sr.w / 8) (elemsOverlap xs) (chunks (s.fromTes xs)) p = .done n v)
    ∧ (∃ (s p : State) (f : TileFields) (t : Tile) (n : Nat) (v : State), Alone s ∧ Issues s (.csst f) f
      ∧ p = State.pushed s (.csst f) (TileFields.words f) ∧ ShapeOk s f.ta ∧ t = s.ctx.tile f.ta ∧ f.tb = 0
      ∧ storeCs t.sr.memAlign (linesOverlap t.sr t.sr.densePitch) (s.fromTes (s.csElems f (s.ctx.entryOf (.csst f)) f.ta)) p
          = .done n v)
    ∧ (∃ (s : State) (name : BitVec 5) (t : Tile) (x : MElem), t.sr.flat = true ∧ x ∈ s.vaElems name t 0x3000010 12)
    ∧ (∃ (ws : List (MElem × List (Nat × Nat) × Nat)) (s : State), ws.length = 6 ∧ MemOk s ∧ s.ctx.inst = none
      ∧ (∀ w ∈ ws, s.dataFault false w.2.1 = none ∧ s.ctx.performed.testBit w.1.e = false)
      ∧ (ws.map fun w => w.1.e).Nodup ∧ (ws.flatMap fun w => bytesIn w.2.1).Nodup) := by
  refine ⟨?_, ?_, ?_, ?_, ⟨memTiles, 9, memTiles.ctx.tile 9, warmElems.headD { n := 0 }, by decide +kernel, by decide +kernel⟩,
    ⟨warmPieces, warm, by decide +kernel, by unfold MemOk; decide +kernel, by decide +kernel, by decide +kernel, by decide +kernel,
      by decide +kernel⟩⟩
  · obtain ⟨n, v, h⟩ := done_of (r := storeChunks (memTiles.party (memAcc { tf 0 0 with tb := 0, as := 2 } true)) 1
      (linesOverlap (memTiles.ctx.tile 1).sr (memTiles.ctx.tile 1).sr.densePitch) (chunks (memTiles.fromTes
        (memTiles.vaElems 1 (memTiles.ctx.tile 1) (memTiles.ctx.getA 2) (memTiles.ctx.tile 1).sr.densePitch)))
      (State.pushed memTiles (.tst { tf 0 0 with tb := 0, as := 2 }) 2)) (by decide +kernel)
    exact ⟨memTiles, _, { tf 0 0 with tb := 0, as := 2 }, _, n, v, mem_tiles_alone, by unfold Issues; decide +kernel, rfl,
      shape_ok (by decide +kernel), rfl, rfl, by decide +kernel, rfl, by decide +kernel, h⟩
  · obtain ⟨n, v, h⟩ := done_of (r := storeChunks (memTiles.party (memAcc { tf 0 0 with tb := 0, tc := 2, as := 2 } true)) 1
      (linesOverlap (memTiles.ctx.tile 1).sr (memTiles.ctx.tile 1).sr.densePitch) (chunks (memTiles.fromTes
        (memTiles.vaElems 1 (scrub (memTiles.ctx.tile 1) (memTiles.er [1]) (memTiles.ec [1])).1 (memTiles.ctx.getA 2)
          (memTiles.ctx.tile 1).sr.densePitch)))
      ((State.pushed memTiles (.tstNfz { tf 0 0 with tb := 0, tc := 2, as := 2 }) 2).cellCheck (memTiles.ctx.getA 2)).2) (by decide +kernel)
    exact ⟨memTiles, _, _, { tf 0 0 with tb := 0, tc := 2, as := 2 }, _, n, v, [(0x3000010, 8)], 2, _, mem_tiles_alone,
      by unfold Issues; decide +kernel, rfl, shape_ok (by decide +kernel), rfl, rfl, pair_of (by decide +kernel), by decide +kernel, rfl,
      by decide +kernel, by decide +kernel, rfl, by decide +kernel, h⟩
  · obtain ⟨n, v, h⟩ := done_of (r := storeChunks (memTiles.party (memAcc { tf 8 0 with as := 2 } true))
      ((memTiles.ctx.tile 1).sr.w / 8) (elemsOverlap (memTiles.gatherElems (memTiles.ctx.tile 1) (memTiles.ctx.tile 2)
        (some (memTiles.ctx.tile 4)) (memTiles.ctx.getA 2 + BitVec.ofInt 72 0) 0 [1, 2, 4])) (chunks (memTiles.fromTes
        (memTiles.gatherElems (memTiles.ctx.tile 1) (memTiles.ctx.tile 2)
        (some (memTiles.ctx.tile 4)) (memTiles.ctx.getA 2 + BitVec.ofInt 72 0) 0 [1, 2, 4])))
      (State.pushed memTiles (.tstg { tf 8 0 with as := 2 }) 2)) (by decide +kernel)
    exact ⟨memTiles, _, { tf 8 0 with as := 2 }, _, n, v, _, _, mem_tiles_alone, by unfold Issues; decide +kernel, rfl,
      shape_ok (by decide +kernel), rfl, rfl, fun r hr => tile_ok (by revert r; decide +kernel), by decide, by decide +kernel,
      by decide +kernel, by decide +kernel, rfl, h⟩
  · obtain ⟨n, v, h⟩ := done_of (r := storeCs (memTiles.ctx.tile 1).sr.memAlign
      (linesOverlap (memTiles.ctx.tile 1).sr (memTiles.ctx.tile 1).sr.densePitch)
      (memTiles.fromTes (memTiles.csElems { tf 0 0 with tb := 0 } (memTiles.ctx.entryOf (.csst { tf 0 0 with tb := 0 })) 1))
      (State.pushed memTiles (.csst { tf 0 0 with tb := 0 }) 2)) (by decide +kernel)
    exact ⟨memTiles, _, { tf 0 0 with tb := 0 }, _, n, v, mem_tiles_alone, by unfold Issues; decide +kernel, rfl,
      shape_ok (by decide +kernel), rfl, rfl, h⟩

/-- Event 3 counts 5 in address space 0; A2 names a future cell of event 3 in HOME memory, full when `full` is 1; t9, t1, t2 and t4
hold 32-bit integers, t2 indices; the context is unit 0 of group 0 of launch 0. -/
def Tests.shared (full : Nat) (f : Ctx → Ctx) : State :=
  let s := Tests.mapped fun c => f { ([(9, [1]), (1, [7, 8, 9, 10]), (2, [0, 4, 8, 12]), (4, [3])].foldl
    (fun c (p : BitVec 5 × List Nat) => c.setTile p.1 (Tests.tile (Tests.sr 2 2 0xA) 32 p.2)) (c.setG 20 2)) with launch := some 0 }
  let s := ({ s with launches := [{ id := 0, q := 0, seq := 0, asid := 0, record := 0 }]
                     groups := [{ launch := 0, idx := 0, size := 256, bytes := 0 }] } : State)
  let s := s.setSys 0 0x829 0x4000000
  (s.wr 0x4000030 16 (5 + 2 ^ 80)).wr 0x3000010 16 (0x1234 + 3 * 2 ^ 64 + full * 2 ^ 80)

theorem Tests.shared_alone {n : Nat} {f : Ctx → Ctx} (h : ∀ c, (f c).run = c.run ∧ (f c).tiq = c.tiq ∧ (f c).copies = c.copies
    ∧ (f c).ilock = c.ilock ∧ (f c).olds = c.olds) : Alone (Tests.shared n f) :=
  ⟨rfl, (h _).1, (h _).2.1, (h _).2.2.1, (h _).2.2.2.1, (h _).2.2.2.2⟩

/-- Fields of a synchronisation row: td 9, gs G20, as A2. -/
def Tests.sf (gs : BitVec 5) (md : BitVec 4) (imm : BitVec 16) : TileFields := ⟨9, 0, 0, 0, md, gs, 2, 0, imm, none⟩

open Tests in
theorem witness_events :
    (∀ i ∈ ([.evsig, .evwait, .evquery] : List (TileFields → Instr)), ∃ (s p : State) (f : TileFields) (ev : BitVec 16), Alone s
      ∧ Issues s (i f) f ∧ p = State.pushed s (i f) (TileFields.words f) ∧ MemOk s
      ∧ ev = (if f.dyn then (s.ctx.getG f.tb).setWidth 16 else f.imm) ∧ s.evOn ev s.ctx.asid = true ∧ s.ctx.inst = none
      ∧ s.waits .evwait = false ∧ s.ctx.wait.sent = false ∧ (s.ctx.getG f.gs).toNat = s.evCount ev)
    ∧ (∃ (s : State) (f : TileFields) (ev : BitVec 16), Alone s ∧ Issues s (.evwait f) f ∧ MemOk s ∧ ev = f.imm ∧ f.dyn = false
      ∧ s.evOn ev s.ctx.asid = true ∧ s.waits .evwait = false ∧ s.ctx.wait.sent = false
      ∧ s.evCount ev < (s.ctx.getG f.gs).toNat ∧ s.waiters = [])
    ∧ (∃ (s : State) (f : TileFields) (ev : BitVec 16), Alone s ∧ Issues s (.evsig f) f ∧ MemOk s ∧ f.dyn = true
      ∧ ev = (s.ctx.getG f.tb).setWidth 16 ∧ s.evOn ev s.ctx.asid = false) := by
  refine ⟨fun i hi => ⟨shared 0 fun c => c.setG 20 5, _, sf 20 0 3, 3, shared_alone fun c => ⟨rfl, rfl, rfl, rfl, rfl⟩,
      by revert i; unfold Issues; decide +kernel, rfl, by unfold MemOk; decide +kernel, by decide +kernel, by decide +kernel,
      by decide +kernel, by decide +kernel, by decide +kernel, by decide +kernel⟩,
    ⟨shared 0 fun c => c.setG 20 6, sf 20 0 3, 3, shared_alone fun c => ⟨rfl, rfl, rfl, rfl, rfl⟩, by unfold Issues; decide +kernel,
      by unfold MemOk; decide +kernel, rfl, by decide, by decide +kernel, by decide +kernel, by decide +kernel, by decide +kernel, rfl⟩,
    shared 0 id, { sf 20 1 0 with tb := 20 }, 2, shared_alone fun c => ⟨rfl, rfl, rfl, rfl, rfl⟩, by unfold Issues; decide +kernel,
    by unfold MemOk; decide +kernel, by decide, by decide +kernel, by decide +kernel⟩

open Tests in
theorem witness_futures :
    (∀ w ∈ [false, true], ∀ n ∈ [0, 1], ∃ (s u p : State) (f : TileFields) (i : Instr), i = (if w then .futwr f else .futrd f)
      ∧ Alone s ∧ Issues s i f ∧ p = State.pushed s i (TileFields.words f)
      ∧ u.rd 0x3000010 16 / 2 ^ 80 % 256 = n ∧ s.ctx.inst = none ∧ MemOk u ∧ u.dataFault true [(0x3000010, 16)] = none
      ∧ Reaches p { home := true, write := w } (s.ctx.getA f.as) 16 0x3000010 2 u ∧ u.waits .futrd = false
      ∧ u.evOn (BitVec.ofNat 16 (u.rd 0x3000010 16 / 2 ^ 64)) s.ctx.asid = true ∧ s.ctx.sidefx = true ∧ u.waiters = [])
    ∧ (∃ (s u p : State) (f : TileFields), Alone s ∧ Issues s (.futrd f) f ∧ p = State.pushed s (.futrd f) (TileFields.words f)
      ∧ u.rd 0x3000010 16 / 2 ^ 80 % 256 = 0 ∧ s.ctx.inst = none ∧ MemOk u ∧ u.dataFault true [(0x3000010, 16)] = none
      ∧ Reaches p { home := true } (s.ctx.getA f.as) 16 0x3000010 2 u ∧ u.waits .futrd = false
      ∧ u.evOn (BitVec.ofNat 16 (u.rd 0x3000010 16 / 2 ^ 64)) s.ctx.asid = false)
    ∧ (∃ (u : State) (l : Leaf) (pte size : Nat) (k : State), (u.wr 0x3000010 16 7).translate 0 0x4003000000 = (some (l, pte, size), k)
      ∧ (pte + 8 ≤ 0x3000010 ∨ 0x3000010 + 16 ≤ pte) ∧ (u.evtAddr 3 + 16 ≤ 0x3000010 ∨ 0x3000010 + 16 ≤ u.evtAddr 3)) := by
  refine ⟨fun w hw n hn => ⟨shared n fun c => { c with sidefx := true }, _, _, sf 20 0 0, _, rfl,
      shared_alone fun c => ⟨rfl, rfl, rfl, rfl, rfl⟩, ?_, rfl, ?_, ?_, ?_, ?_, reaches_of ?_, ?_, ?_, ?_, ?_⟩,
    ⟨(shared 0 id).wr 0x3000018 2 4, _, _, sf 20 0 0, ⟨rfl, rfl, rfl, rfl, rfl, rfl⟩, by unfold Issues; decide +kernel, rfl,
      by decide +kernel, by decide +kernel, by unfold MemOk; decide +kernel, by decide +kernel, reaches_of (by decide +kernel),
      by decide +kernel, by decide +kernel⟩,
    shared 0 id, 0x5B, 0x1030008, 38, _, pair_of (by decide +kernel), Or.inl (by decide), Or.inr (by decide +kernel)⟩
  all_goals (revert w n; first | decide +kernel | (unfold Issues; decide +kernel) | (unfold MemOk; decide +kernel))

open Tests in
theorem witness_atomics :
    (∀ op ∈ List.range 10, ∃ (s u p : State) (f : TileFields) (l : Leaf) (pte size : Nat) (k : State), Alone s
      ∧ Issues s (.atom f) f ∧ f.atomOp.toNat = op ∧ p = State.pushed s (.atom f) (TileFields.words f) ∧ f.imm.getLsbD 4 = true
      ∧ Reaches p { memAcc f true with home := true } (s.ctx.getA f.as) 8 0x3000010 2 u ∧ u.dataFault true [(0x3000010, 8)] = none
      ∧ s.ctx.inst = none ∧ MemOk u ∧ f.atomOp.toNat ≤ 9
      ∧ (u.wr 0x3000010 8 5).translate s.ctx.asid 0x4003000000 = (some (l, pte, size), k)
      ∧ (pte + 8 ≤ 0x3000010 ∨ 0x3000010 + 8 ≤ pte))
    ∧ (∃ (s p : State) (f : TileFields) (fmt : Nat) (extra : List (BitVec 5)) (v : State) (r : Tile × FlagSet × Nat), Alone s
      ∧ Issues s (.tatom f) f ∧ p = State.pushed s (.tatom f) (TileFields.words f) ∧ fmt = (s.ctx.tile f.ta).sr.fmt
      ∧ fmt ∈ [0x00, 0x01, 0x09, 0x0A, 0x14] ∧ (fmt ∈ [0x00, 0x01] → f.atomOp.toNat ∈ [0, 1, 2, 8, 9])
      ∧ (s.ctx.tile f.tb).sr.fmt ∈ [0x09, 0x0A, 0x14, 0x15] ∧ TileOk s f.tb (s.ctx.tile f.tb).sr.fmt
      ∧ extra = (if f.md.getLsbD 3 then [f.td] else []) ++ (if f.isCas then [f.tc] else []) ∧ f.md.getLsbD 3 = true ∧ f.isCas = true
      ∧ (∀ r ∈ f.ta :: extra, TileOk s r fmt)
      ∧ atomChunks f fmt (s.ctx.tile f.ta) (s.ctx.tile f.tc) (s.party { memAcc f true with home := true })
          (chunks (s.fromTes (s.gatherElems (s.ctx.tile f.ta) (s.ctx.tile f.tb) none (s.ctx.getA f.as + BitVec.ofInt 72 f.offset12)
            (f.md.extractLsb' 0 3).toNat ([f.ta, f.tb] ++ extra)))) (s.loadBase f.td) 0 p = .done r v) := by
  refine ⟨fun op ho => ⟨shared 1 id, _, _, sf 20 0 (BitVec.ofNat 16 (op + 16)), 0x5B, 0x1030008, 38, _,
      shared_alone fun c => ⟨rfl, rfl, rfl, rfl, rfl⟩, ?_, ?_, rfl, ?_, reaches_of ?_, ?_, ?_, ?_, ?_, pair_of ?_, Or.inl (by decide)⟩, ?_⟩
  any_goals (revert op; first | decide +kernel | (unfold Issues; decide +kernel) | (unfold MemOk; decide +kernel))
  obtain ⟨r, v, h⟩ := done_of (r := atomChunks { tf 8 9 with as := 2 } 0xA ((shared 1 id).ctx.tile 1) ((shared 1 id).ctx.tile 4)
    ((shared 1 id).party { memAcc { tf 8 9 with as := 2 } true with home := true })
    (chunks ((shared 1 id).fromTes ((shared 1 id).gatherElems ((shared 1 id).ctx.tile 1) ((shared 1 id).ctx.tile 2) none
      ((shared 1 id).ctx.getA 2 + BitVec.ofInt 72 (TileFields.offset12 { tf 8 9 with as := 2 })) 0 [1, 2, 9, 4])))
    ((shared 1 id).loadBase 9) 0 (State.pushed (shared 1 id) (.tatom { tf 8 9 with as := 2 }) 2)) (by decide +kernel)
  exact ⟨shared 1 id, _, { tf 8 9 with as := 2 }, _, _, v, r, ⟨rfl, rfl, rfl, rfl, rfl, rfl⟩, by unfold Issues; decide +kernel, rfl, rfl,
    by decide +kernel, by decide +kernel, by decide +kernel, tile_ok (by decide +kernel), rfl, by decide, by decide,
    fun r hr => tile_ok (by revert r; decide +kernel), h⟩

open Tests in
theorem witness_atomic_formats : (∀ fmt ∈ [0x09, 0x0A, 0x14], fmtWidth fmt ≠ 0) ∧ ∃ fmt : Nat, fmt ∈ [0x00, 0x01] :=
  ⟨by decide, 0, by decide⟩

/-- A group of two units of launch 0: LID 0 has posted one receive, LID 1 has sent one message. -/
def Tests.two : Group :=
  { launch := 0, idx := 0, size := 256, recvs := [(0, 1, 0)], msgs := [{ src := 1, dst := 0, k := 0, len := 8, bytes := 0x0102030405060708 }] }

def Tests.twoWith (r e : Bool) : Group := { two with recvs := if r then two.recvs else [], ended := if e then [1] else [] }

/-- Launch 0 of four units in two groups, placed on both dies. -/
def Tests.two4 : Launch := { id := 0, q := 0, seq := 0, asid := 0, record := 0x2 * 2 ^ 16 + 0x3 * 2 ^ 24 + 4 * 2 ^ 128 }

/-- The context of LID 0 in such a group of such a launch. -/
def Tests.pair (g : Group) (f : Ctx → Ctx) : State :=
  let s := Tests.shared 0 fun c => f { c with cgr := 0x200000000, diem := 3, lid := 0 }
  { s with
    groups := [g]
    launches := [two4] }

theorem Tests.pair_alone {g : Group} {f : Ctx → Ctx} (h : ∀ c, (f c).run = c.run ∧ (f c).tiq = c.tiq
    ∧ (f c).copies = c.copies ∧ (f c).ilock = c.ilock ∧ (f c).olds = c.olds) : Alone (Tests.pair g f) :=
  ⟨rfl, (h _).1, (h _).2.1, (h _).2.2.1, (h _).2.2.2.1, (h _).2.2.2.2⟩

/-- Fields of send, recv and txchg: a partner's LID in G21. -/
def Tests.mf : TileFields := ⟨9, 1, 0, 0, 0, 21, 0, 0, 0, none⟩

open Tests in
theorem witness_messages :
    (∀ r ∈ [true, false], ∀ e ∈ [true, false], ∃ (s : State) (g : Group) (f : TileFields) (q : Nat), Alone s ∧ Issues s (.send f) f
      ∧ s.group = some g ∧ ShapeOk s f.ta ∧ q = (s.ctx.getG f.gs).toNat ∧ q < s.gsize ∧ q < 8 ∧ q ≠ s.ctx.lid.toNat
      ∧ g.recvs.contains (s.ctx.lid.toNat, q, (s.ctx.sendcnt.toList.getD q 0).toNat) = r ∧ g.ended.contains q = e)
    ∧ (∃ (s : State) (g : Group) (f : TileFields) (q : Nat) (o : Parcel), Alone s ∧ Issues s (.recv f) f ∧ s.group = some g
      ∧ ShapeOk s f.td ∧ q = (s.ctx.getG f.gs).toNat ∧ q < s.gsize ∧ q < 8 ∧ q ≠ s.ctx.lid.toNat
      ∧ g.msgs.find? (fun m => m.src == q && m.dst == s.ctx.lid.toNat && m.k == (s.ctx.recvcnt.toList.getD q 0).toNat) = some o)
    ∧ (∃ (s : State) (g : Group) (f : TileFields), Alone s ∧ Issues s (.txchg f) f ∧ s.group = some g ∧ ShapeOk s f.td
      ∧ ShapeOk s f.ta ∧ s.partner = none)
    ∧ (∃ (s : State) (g : Group) (f : TileFields) (u : Nat) (o : Parcel), Alone s ∧ Issues s (.txchg f) f ∧ s.group = some g
      ∧ ShapeOk s f.td ∧ ShapeOk s f.ta ∧ s.partner = some u ∧ s.shLost = false
      ∧ s.xchg = [(s.ctx.launch.getD 0, { src := u, dst := s.ctx.uid.toNat, k := s.ctx.txcnt.toNat, len := o.len, bytes := o.bytes })]
      ∧ s.ctx.wait.sent = false) := by
  refine ⟨fun r hr e he => ⟨pair (twoWith r e)
      (fun c => c.setG 21 1), twoWith r e, mf, 1, pair_alone fun c => ⟨rfl, rfl, rfl, rfl, rfl⟩, ?_, ?_, shape_ok ?_, ?_, ?_, by decide, ?_, ?_, ?_⟩,
    ⟨pair two (fun c => c.setG 21 1), _, mf, 1, { src := 1, dst := 0, k := 0, len := 8, bytes := 0x0102030405060708 },
      pair_alone fun c => ⟨rfl, rfl, rfl, rfl, rfl⟩, by unfold Issues; decide +kernel, rfl, shape_ok (by decide +kernel),
      by decide +kernel, by decide +kernel, by decide, by decide +kernel, by decide +kernel⟩,
    ⟨pair two (fun c => { c with diem := 1 }), _, mf, pair_alone fun c => ⟨rfl, rfl, rfl, rfl, rfl⟩, by unfold Issues; decide +kernel,
      rfl, shape_ok (by decide +kernel), shape_ok (by decide +kernel), by decide +kernel⟩,
    ⟨{ pair two id with xchg := [(0, { src := 2, dst := 0, k := 0, len := 8, bytes := 5 })] }, _, mf, 2,
      { src := 2, dst := 0, k := 0, len := 8, bytes := 5 }, ⟨rfl, rfl, rfl, rfl, rfl, rfl⟩, by unfold Issues; decide +kernel, rfl,
      shape_ok (by decide +kernel), shape_ok (by decide +kernel), by decide +kernel, by decide +kernel, by decide +kernel, rfl⟩⟩
  all_goals (revert e r; first | decide +kernel | (unfold Issues; decide +kernel))

open Tests in
theorem witness_barriers :
    (∀ i ∈ ([.fence, .cbar] : List (TileFields → Instr)), ∃ (s : State) (f : TileFields), Alone s ∧ Issues s (i f) f)
    ∧ (∃ (s : State) (f : TileFields) (g : Group) (n : Nat), Alone s ∧ Issues s (.cbar f) f ∧ s.group = some g
      ∧ n = s.ctx.cbargen.toNat + 1 ∧ s.gsize = 2
      ∧ ∀ l < s.gsize, l = s.ctx.lid.toNat ∨ g.ended.contains l = true ∨ ∃ m, n ≤ m ∧ (l, m) ∈ g.arrived ∧ l ≠ s.ctx.lid.toNat)
    ∧ (∃ (s : State) (f : TileFields) (g : Group) (n : Nat), Alone s ∧ Issues s (.cbar f) f ∧ s.group = some g
      ∧ n = s.ctx.cbargen.toNat + 1 ∧ s.gsize = 2
      ∧ ∀ l < s.gsize, l ≠ s.ctx.lid.toNat → g.ended.contains l = false ∧ ∀ m, (l, m) ∈ g.arrived → m < n) := by
  refine ⟨fun i hi => ⟨pair two id, mf, pair_alone fun c => ⟨rfl, rfl, rfl, rfl, rfl⟩, ?_⟩,
    ⟨pair { two with arrived := [(1, 1)] } id, mf, _, 1, pair_alone fun c => ⟨rfl, rfl, rfl, rfl, rfl⟩, by unfold Issues; decide +kernel,
      rfl, by decide +kernel, by decide +kernel, fun l hl => ?_⟩,
    ⟨pair { two with arrived := [(1, 0)] } id, mf, _, 1, pair_alone fun c => ⟨rfl, rfl, rfl, rfl, rfl⟩, by unfold Issues; decide +kernel,
      rfl, by decide +kernel, by decide +kernel, fun l hl hn => ⟨by rfl, fun m hm => ?_⟩⟩⟩
  · revert i; unfold Issues; decide +kernel
  · have h2 : l < 2 := hl
    obtain rfl | rfl : l = 0 ∨ l = 1 := by omega
    · exact .inl (by decide +kernel)
    · exact .inr (.inr ⟨1, by decide, by decide, by decide +kernel⟩)
  · obtain ⟨rfl, rfl⟩ : l = 1 ∧ m = 0 := by simpa using hm
    decide

/-! ### end, the system instructions, copies -/

open Tests in
theorem witness_end_of_unit :
    (∃ (s : State) (l : Launch) (g : Group), s.ctx.tiq = [] ∧ s.ctx.copies = [] ∧ s.core.staged = none
      ∧ s.ctx.launch = some l.id ∧ s.launchOf l.id = some l ∧ s.group = some g ∧ s.ctx.inst = none ∧ l.dmr = false
      ∧ l.lendFail = false ∧ l.units + 1 ≠ l.ucnt)
    ∧ (∃ s : State, s.ctx.tiq ≠ [])
    ∧ (∃ s : State, s.ctx.tiq = [] ∧ s.ctx.copies ≠ [] ∧ ∀ c ∈ s.ctx.copies, c.stop = none)
    ∧ (∃ (s : State) (c : Copy) (cs : List Copy) (f : CopyStop), s.ctx.tiq = [] ∧ s.ctx.copies = c :: cs ∧ c.stop = some f) := by
  refine ⟨⟨pair two id, two4, two, rfl, rfl, rfl, rfl, rfl, rfl, rfl, by decide +kernel, rfl, by decide +kernel⟩,
    ⟨go fun c => { c with tiq := [c.entryOf (.fence mf)] }, by decide +kernel⟩,
    ⟨go fun c => { c with copies := [{ desc := 0, ch := 3, pc := 8 }] }, rfl, by decide +kernel, by decide +kernel⟩,
    ⟨go fun c => { c with copies := [{ desc := 0, ch := 3, pc := 8, stop := some { cause := .linkLost, va := 5 } }] }, _, _, _, rfl, rfl, rfl⟩⟩

open Tests in
theorem witness_system_instructions :
    (∃ (s : State) (a : BitVec 4) (b : BitVec 5) (k : BitVec 2) (sc : BitVec 3), NoReturn s [.a a, .g b] ∧ s.eager = true
      ∧ s.core.inval = false ∧ sc.toNat < 4 ∧ k.toNat < 3 ∧ (s.ctx.getG b).toNat = 0)
    ∧ (∀ w ∈ [0#1, 1#1], ∃ (s s' : State) (a : BitVec 4) (b : BitVec 5) (sc : BitVec 3) (n v pa pte size : Nat) (l : Leaf),
      NoReturn s [.a a, .g b] ∧ (w = 1 → NoReturn s [.g (b + 1)]) ∧ s.eager = true ∧ s.core.inval = false
      ∧ sc.toNat < 4 ∧ (w = 1 → b.getLsbD 0 = false) ∧ n = (if w = 1 then 16 else 8)
      ∧ v = (if w = 1 then (s.ctx.getG b).toNat + (s.ctx.getG (b + 1)).toNat * 2 ^ 64 else (s.ctx.getG b).toNat)
      ∧ (s.ctx.getA a).toNat % n = 0 ∧ s.translate s.ctx.asid (s.ctx.getA a) = (some (l, pte, size), s')
      ∧ pa = leafPa l size (s.ctx.getA a) ∧ s'.inHbm pa = true ∧ s'.unreachable pa = false
      ∧ (pte + 8 ≤ pa ∨ pa + n ≤ pte) ∧ MemOk s') := by
  refine ⟨⟨mapped id, 1, 0, 2, 3, by unfold NoReturn; decide +kernel, rfl, rfl, by decide, by decide, by decide +kernel⟩,
    fun w hw => ⟨mapped fun c => (c.setG 30 7).setG 31 9, _, 1, 30, 3, _, _, _, 16973824, 38, 47, ?_, ?_, rfl, rfl, by decide,
      ?_, rfl, rfl, ?_, pair_of ?_, rfl, ?_, ?_, .inl ?_, ?_⟩⟩
  all_goals (revert w; first | (unfold NoReturn; decide +kernel) | (unfold MemOk; decide +kernel) | decide +kernel)

/-- Table 10-3's bytes for one element of eight bytes. -/
def Tests.descOf (src dst : Nat) : Nat :=
  src + dst * 2 ^ 128 + (1 * 2 ^ 3 + 2 * 2 ^ 6 + 3 * 2 ^ 9 + 4 * 2 ^ 12) * 2 ^ 336 + 3 * 2 ^ 352

/-- A4 names such a descriptor of the bytes at A2, to be copied 48 bytes further. -/
def Tests.copying (d : Nat) (f : Ctx → Ctx) : State := (Tests.shared 0 fun c => f (c.setA 4 0x3000100)).wr 0x3000100 128 d

/-- Fields of cpy and its followers: A4, channel 1, G9. -/
def Tests.cf : TileFields := { Tests.sf 0 0 1 with as := 4 }

theorem Tests.strip_of {α : Type} {r : StripRun α} (h : (match r with | .done _ _ => true | _ => false) = true) :
    ∃ a s, r = .done a s := by
  cases r with
  | done a s => exact ⟨a, s, rfl⟩
  | _ => exact nomatch h

theorem Tests.stop_of {α : Type} {r : StripRun α} {c : Cause} (h : (match r with | .stop f _ => f.cause == c | _ => false) = true) :
    ∃ f s, r = .stop f s ∧ f.cause = c := by
  cases r with
  | stop f s => exact ⟨f, s, rfl, eq_of_beq h⟩
  | _ => exact nomatch h

theorem Tests.wait_of {α : Type} {r : StripRun α} (h : (match r with | .wait _ _ => true | _ => false) = true) :
    ∃ a s, r = .wait a s := by
  cases r with
  | wait a s => exact ⟨a, s, rfl⟩
  | _ => exact nomatch h

/-- The state in which the descriptor's bytes have been checked. -/
def Tests.described (d : Nat) : State :=
  let p := State.pushed (Tests.copying d id) (.cpy Tests.cf) 2
  (p.vaCheck (p.party {}) 16 [] { va := 0x3000100, n := 128 }).2.2

open Tests in
theorem witness_copy_channels :
    (∀ i ∈ ([.cpyw, .cpyc, .cpyq] : List (TileFields → Instr)), ∃ (s p : State) (f : TileFields) (w : Nat), w = TileFields.words f
      ∧ Issues s (i f) f ∧ Quiet s (i f) w ∧ p = State.pushed s (i f) w
      ∧ (∀ c ∈ s.ctx.copies, c.stolen = []) ∧ s.ctx.copies ≠ []
      ∧ ∀ c ∈ s.ctx.copies, f.imm.getLsbD 2 = false ∧ c.ch ≠ f.imm.setWidth 2)
    ∧ (∃ (s p : State) (f : TileFields) (w : Nat) (c : Copy) (cs : List Copy) (e : CopyStop), w = TileFields.words f
      ∧ Issues s (.cpyw f) f ∧ Quiet s (.cpyw f) w ∧ p = State.pushed s (.cpyw f) w ∧ s.ctx.copies = c :: cs
      ∧ c.ch = f.imm.setWidth 2 ∧ c.stop = some e ∧ e.cause.fields.1 = true)
    ∧ (∃ (s p : State) (f : TileFields) (w : Nat) (c : Copy) (cs : List Copy), w = TileFields.words f
      ∧ Issues s (.cpyw f) f ∧ Quiet s (.cpyw f) w ∧ p = State.pushed s (.cpyw f) w ∧ s.ctx.copies = c :: cs
      ∧ f.imm.getLsbD 2 = true ∧ c.stop = none)
    ∧ (∀ x ∈ [(0, 0), (descOf 0x3000010 0x4003000040, 1), (descOf (2 ^ 70) 0x4003000040, 2)],
      ∃ (s p u : State) (f : TileFields) (pa cls w : Nat) (va : Addr) (d : Desc), w = TileFields.words f
      ∧ Alone s ∧ Issues s (.cpy f) f ∧ p = State.pushed s (.cpy f) w ∧ va = s.ctx.getA f.as ∧ va.toNat % 16 = 0
      ∧ s.ctx.inst = none ∧ (∃ m, p.vaCheck (p.party {}) 16 [] { va := va, n := 128 } = (.ok [(pa, 128)] cls, m, u))
      ∧ u.dataFault true [(pa, 128)] = none ∧ d = BitVec.ofNat 1024 (u.rd pa 128) ∧ d.bad = (x.2 == 0)
      ∧ (x.2 = 1 → ∃ m v, copyScan d (p.party {}) d.count 0 [] [] u = .done m v)
      ∧ (x.2 = 2 → ∃ f v, copyScan d (p.party {}) d.count 0 [] [] u = .stop f v ∧ f.cause.fields.1 = true)) := by
  refine ⟨fun i hi => ⟨copying 0 fun c => { c with copies := [{ desc := 0, ch := 2, pc := 8, stop := some { cause := .linkLost, va := 5 } }] }, _, cf, 2,
      rfl, ?_, ⟨rfl, rfl, rfl, ?_⟩, rfl, ?_, ?_, ?_⟩,
    ⟨copying 0 fun c => { c with copies := [{ desc := 0, ch := 1, pc := 8, stop := some { cause := .linkLost, va := 5 } }] }, _, cf, 2, _, _, _, rfl,
      by unfold Issues; decide +kernel, ⟨rfl, rfl, rfl, by decide +kernel⟩, rfl, rfl, rfl, rfl, rfl⟩,
    ⟨copying 0 fun c => { c with copies := [{ desc := BitVec.ofNat 1024 (descOf 0x3000010 0x4003000040), ch := 2, pc := 8, done := [0] }] },
      _, { cf with imm := 4 }, 2, _, _, rfl,
      by unfold Issues; decide +kernel, ⟨rfl, rfl, rfl, by decide +kernel⟩, rfl, rfl, rfl, rfl⟩,
    fun x hx => ⟨copying x.1 id, _, described x.1, cf, 0x3000100, 1, 2, 0x3000100, BitVec.ofNat 1024 x.1, rfl, ⟨rfl, rfl, rfl, rfl, rfl, rfl⟩, ?_, rfl, rfl,
      by decide, rfl, ⟨_, three_of ?_⟩, ?_, ?_, ?_, fun h => strip_of ?_, fun h => ?_⟩⟩
  case refine_12 =>
    obtain ⟨f, v, e, k⟩ := stop_of (r := copyScan (BitVec.ofNat 1024 x.1)
      ((State.pushed (copying x.1 id) (.cpy cf) 2).party {}) (Desc.count (BitVec.ofNat 1024 x.1)) 0 [] [] (described x.1))
      (c := .pageNotPresent) (by revert x; decide +kernel)
    exact ⟨f, v, e, by rw [k]; rfl⟩
  all_goals first
    | decide +kernel
    | (revert i; first | decide +kernel | (unfold Issues; decide +kernel))
    | (revert x; first | decide +kernel | (unfold Issues; decide +kernel))

/-! ### Functions over elements -/

theorem Tests.ok_of {x : LaneFn × State} (h : (match x.1 with | .ok _ => true | _ => false) = true) :
    ∃ b, x = (.ok b, x.2) := by
  obtain ⟨y, s⟩ := x
  cases y with
  | ok b => exact ⟨b, rfl⟩
  | bad => exact nomatch h

theorem Tests.none_of {α β : Type} {x : α × Option β} (h : x.2 = none) : x = (x.1, none) := Prod.ext rfl h

/-- f32 tiles t2 and t1 of one row, and a function at A5. -/
def Tests.fn (ws : List Nat) (f : Ctx → Ctx) : State :=
  (Tests.shared 0 fun c => f ((((c.setTile 1 (Tests.tile (Tests.sr 1 4 1) 32 [0xC0800000, 0x40000000, 0xBF000000, 0x41000000])).setTile 2
    (Tests.tile (Tests.sr 1 4 1) 32 [5]))).setA 5 0x3000100)).wr 0x3000100 96 (Tests.pack 64 ws)

/-- Example 09-1's function, and one that jumps to a block it has not. -/
def Tests.leak : List Nat :=
  [0x150, 0x232, 0x0000000200204109, 0x0000002104000060, 0x3E80000000000332, 0x0000000000304403, 0x10051, 0x61,
   0x3F80000000000332, 0x0000000000304401, 0x10051, 0x8000000000000061]

def Tests.hop : List Nat := [0x0000000500000332, 0x800001000000C060]

/-- t2 and t1 under a function at A5. -/
def Tests.uf (imm : BitVec 16) : TileFields := ⟨2, 1, 0, 0, 0, 0, 5, 0, imm, none⟩

theorem Tests.bad_of {x : LaneFn × State} {c : Cause} {va : Addr}
    (h : (match x.1 with | .bad d va' => decide (d = c) && va' == va | _ => false) = true) : x = (.bad c va, x.2) := by
  obtain ⟨y, s⟩ := x
  cases y with
  | ok b => exact nomatch h
  | bad d v => simp only [Bool.and_eq_true, decide_eq_true_eq, beq_iff_eq] at h; rw [h.1, h.2]

theorem Tests.some_of {α β : Type} {x : α × Option β} (h : x.2.isSome = true) : ∃ b, x = (x.1, some b) := by
  obtain ⟨y, b⟩ := Option.isSome_iff_exists.mp h
  exact ⟨y, Prod.ext rfl b⟩

/-- The blocks of a function that has been fetched. -/
def Tests.blocksOf (x : LaneFn × State) : List (List (Addr × Instr)) := match x.1 with | .ok b => b | _ => []

theorem Tests.ok_eq {x : LaneFn × State} (h : (match x.1 with | .ok _ => true | _ => false) = true) :
    x = (.ok (Tests.blocksOf x), x.2) := by
  obtain ⟨y, s⟩ := x
  cases y with
  | ok b => rfl
  | bad => exact nomatch h

open Tests in
theorem witness_mapped_functions : ∀ red ∈ [false, true],
    ∃ (s p u : State) (i : Instr) (f : TileFields) (ins outs : List (BitVec 5)) (er ec : Nat)
      (blocks : List (List (Addr × Instr))) (call : LaneCall) (ls : List Lane) (d : Tile), i = (if red then .mapred f else .map f)
      ∧ Alone s ∧ Issues s i f ∧ p = State.pushed s i (TileFields.words f) ∧ ins = [f.ta, f.tb, f.tc].take f.nin.toNat
      ∧ outs = (if f.out2 then [f.td, f.xt] else [f.td]) ∧ (∀ r ∈ outs ++ ins, TileOk s r (s.ctx.tile r).sr.fmt)
      ∧ er = rowsOf s (outs ++ ins) ∧ ec = colsOf s (outs ++ ins) ∧ p.laneFn (s.ctx.getA f.as) = (.ok blocks, u) ∧ u.ctx = p.ctx
      ∧ call = { inFmts := ins.map fun r => (s.ctx.tile r).sr.fmt, outFmts := outs.map fun r => (s.ctx.tile r).sr.fmt
                 arg := s.ctx.getG f.gs, isRed := red, nblocks := blocks.length }
      ∧ runCall p call (blocks.map fun b => b.map Prod.snd) (ins.map s.ctx.tile) (outs.map s.ctx.tile) er ec = (ls, none)
      ∧ d = s.ctx.tile f.td ∧ mapredFmt f.mapOp.toNat d.sr.fmt = true ∧ redTooSmall f.mapDir.toNat er ec d.sr = false := by
  intro red hr
  refine ⟨fn leak id, _, _, _, uf 1, _, _, _, _, _, _, _, _, rfl, ⟨rfl, rfl, rfl, rfl, rfl, rfl⟩, ?_, rfl, rfl, rfl,
    fun r hr => tile_ok (by clear * - hr; revert r; decide +kernel), rfl, rfl, ok_eq ?_, ?_, rfl, none_of ?_, rfl, ?_, ?_⟩
  all_goals (revert red; first | decide +kernel | (unfold Issues; decide +kernel))

open Tests in
theorem witness_mapped_function_stops :
    (∃ (s p u : State) (f : TileFields) (ins outs : List (BitVec 5)) (c : Cause) (va : Addr), Alone s ∧ Issues s (.map f) f
      ∧ p = State.pushed s (.map f) (TileFields.words f) ∧ ins = [f.ta, f.tb, f.tc].take f.nin.toNat
      ∧ outs = (if f.out2 then [f.td, f.xt] else [f.td]) ∧ (∀ r ∈ outs ++ ins, TileOk s r (s.ctx.tile r).sr.fmt) ∧ u.ctx = p.ctx
      ∧ p.laneFn (s.ctx.getA f.as) = (.bad c va, u))
    ∧ (∃ (s p u : State) (f : TileFields) (ins outs : List (BitVec 5)) (blocks : List (List (Addr × Instr))) (ls : List Lane),
      Alone s ∧ Issues s (.map f) f ∧ p = State.pushed s (.map f) (TileFields.words f) ∧ ins = [f.ta, f.tb, f.tc].take f.nin.toNat
      ∧ outs = (if f.out2 then [f.td, f.xt] else [f.td]) ∧ (∀ r ∈ outs ++ ins, TileOk s r (s.ctx.tile r).sr.fmt) ∧ u.ctx = p.ctx
      ∧ p.laneFn (s.ctx.getA f.as) = (.ok blocks, u)
      ∧ ∃ l, runCall p { inFmts := ins.map (fun r => (s.ctx.tile r).sr.fmt), outFmts := outs.map (fun r => (s.ctx.tile r).sr.fmt),
                          arg := s.ctx.getG f.gs, nblocks := blocks.length }
          (blocks.map fun b => b.map Prod.snd) (ins.map s.ctx.tile) (outs.map s.ctx.tile) (rowsOf s (outs ++ ins))
          (colsOf s (outs ++ ins)) = (ls, some l)) := by
  refine ⟨⟨fn [0x7F] id, _, _, uf 1, _, _, .illegalLaneBlock, 0x3000100, ⟨rfl, rfl, rfl, rfl, rfl, rfl⟩, by unfold Issues; decide +kernel, rfl, rfl, rfl,
      fun r hr => tile_ok (by revert r; decide +kernel), ?_, bad_of ?_⟩,
    ⟨fn hop id, _, _, uf 1, _, _, _, _, ⟨rfl, rfl, rfl, rfl, rfl, rfl⟩, by unfold Issues; decide +kernel, rfl, rfl, rfl,
      fun r hr => tile_ok (by revert r; decide +kernel), ?_, ok_eq ?_, some_of ?_⟩⟩
  all_goals decide +kernel

/-- Tiles and scalars of a moment update: t0, t1, t2, t3; its constants from G16, its counter at A4. -/
def Tests.moments (f : Ctx → Ctx) : State :=
  Tests.shared 0 fun c => f <| [(0, [0x3F800000, 0x40000000, 0x40800000, 0x3F800000]), (1, [0x40000000, 0, 0x3F800000, 0]),
      (2, [0, 0, 0, 0x40000000]), (3, [0, 0, 0x7FC00000, 0xC0800000])].foldl
    (fun c (p : BitVec 5 × List Nat) => c.setTile p.1 (Tests.tile (Tests.sr 1 4 1) 32 p.2))
    ([(16, 0x3F000000), (17, 0x3F400000), (18, 0x3F000000), (19, 0), (20, 0x3E800000), (21, 0x3F000000),
      (22, 0x3E800000)].foldl (fun c (p : BitVec 5 × GWord) => c.setG p.1 p.2) (c.setA 4 (2 ^ 38 + 0x3000000)))

/-- momu.f32.f32 t0, t1, t2, t3, g16, a4. -/
def Tests.muf : TileFields := ⟨0, 1, 2, 3, 0, 16, 4, 0, 0x21, none⟩

open Tests in
theorem witness_moment_updates : ∀ n ∈ [0, 1], ∃ (s p u : State) (i : Instr) (f : TileFields) (names : List (BitVec 5))
      (ps : List (Nat × Nat)) (cls : Nat), Alone s
      ∧ Issues s i f ∧ i = .momu f ∧ p = State.pushed s i (TileFields.words f) ∧ names = [f.td, f.ta, f.tb, f.tc]
      ∧ TileOk s f.td f.fmt1.toNat ∧ TileOk s f.ta f.fmt2.toNat ∧ TileOk s f.tb 0x01 ∧ TileOk s f.tc 0x01
      ∧ (s.ctx.getG (f.gs + 7)).setWidth 32 = BitVec.ofNat 32 n ∧ s.ctx.inst = none
      ∧ p.cellCheck (s.ctx.getA f.as) = (.ok ps cls, u) ∧ u.dataFault true ps = none := by
  intro n hn
  refine ⟨moments fun c => c.setG 23 (BitVec.ofNat 64 n), _, _, _, muf, _, [(0x3000000, 8)], 2, ⟨rfl, rfl, rfl, rfl, rfl, rfl⟩, ?_, rfl, rfl, rfl,
    tile_ok ?_, tile_ok ?_, tile_ok ?_, tile_ok ?_, ?_, rfl, pair_of ?_, ?_⟩
  all_goals (revert n; first | decide +kernel | (unfold Issues; decide +kernel))

/-! ### Tokens -/

/-- A token-table entry over 1 MiB from 2^39: its holder, state, shares, lending depth and first lender. -/
def Tests.token (holder state shares depth lender : Nat) : Tok :=
  2 ^ 23 + 20 * 2 ^ 56 + 2 ^ 63 + holder * 2 ^ 64 + state * 2 ^ 112 + shares * 2 ^ 116 + lender * 2 ^ 128 + depth * 2 ^ 224

/-- A4 names a region from 2^39 that entry 1 of an eight-entry token table describes; the context's identities are 5 and 6;
four share records stand behind the table. -/
def Tests.owned (e : Tok) (f : Ctx → Ctx) : State :=
  let s := Tests.mapped fun c => f { c.setA 4 (2 ^ 39) with ctxid := 5, cgid := 6 }
  let s := s.wr (s.local_ (placeTables + 0x30010)) 8 (s.local_ 0 / 256 + 0x1B + 2 ^ 48)
  let s := (((s.setSys 0 0x818 0x5000000).setSys 0 0x819 8).setSys 0 0x81A 0x5001000).setSys 0 0x81B 4
  s.wr 0x5000040 64 e

/-- A region already named by its page and table entry. -/
theorem Tests.region_of {s u : State} {i : Instr} {f : TileFields} {k : Nat}
    (h : ∃ l pte size, ((State.pushed s i (TileFields.words f)).translate s.ctx.asid (s.ctx.getA f.as)).1 = some (l, pte, size)
      ∧ ((State.pushed s i (TileFields.words f)).translate s.ctx.asid (s.ctx.getA f.as)).2 = u ∧ l.cls = 0
      ∧ u.governing s.ctx.asid l.tri (s.ctx.getA f.as).toNat = some k)
    (hm : MemOk u) (hs : ¬ ((u.tok k).state = tokTransit ∧ s.ctx.ids.contains (u.tok k).holder = true)) : Region s i f k u := by
  obtain ⟨l, pte, size, h1, h2, h3, h4⟩ := h
  exact ⟨⟨l, pte, size, Prod.ext h1 h2, h3, h4⟩, hm, hs⟩

/-- Fields of a token row: status in G9, its first operand in G20, A4. -/
def Tests.kf : TileFields := { Tests.sf 20 0 0 with as := 4 }

/-- The leaf that maps 2^39. -/
def Tests.ownedLeaf : Leaf := BitVec.ofNat 64 (0x1B + 2 ^ 48)

open Tests in
theorem witness_tokens_lent : ∀ i ∈ ([.tklend, .tkret] : List (TileFields → Instr)),
    ∀ e ∈ [token 7 0 0 0 0, token 5 0 0 0 0, token 5 1 1 0 0, token 5 0 0 4 3, token 5 0 0 1 3],
    ∃ (s u : State) (f : TileFields) (k h : Nat), Alone s ∧ Issues s (i f) f ∧ Region s (i f) f k u
      ∧ e = u.tok k ∧ e.base = (s.ctx.getA f.as).toNat ∧ s.ctx.inst = none ∧ e.state ≠ tokPoisoned
      ∧ h = (s.ctx.getG f.gs).toNat ∧ h < 6 * 2 ^ 21 ∧ h ≠ e.holder ∧ u.cutOff e.holder h = false
      ∧ (u.holds e = false ∨ e.shares ≠ 0 ∨ e.depth = 4 ∨ u.cutOff e.holder (e.lender 0) = false) := by
  intro i hi e he
  refine ⟨owned e fun c => c.setG 20 0xBFFFFF, _, kf, 1, 0xBFFFFF, ⟨rfl, rfl, rfl, rfl, rfl, rfl⟩, ?_,
    region_of ⟨ownedLeaf, 0x1030010, 38, ?_, rfl, rfl, ?_⟩ ?_ ?_, ?_, ?_, rfl, ?_, ?_, by decide, ?_, ?_, ?_⟩
  all_goals (revert i e; first | decide +kernel | (unfold Issues; decide +kernel) | (unfold MemOk; decide +kernel))

open Tests in
theorem witness_tokens_shared :
    (∃ (s u : State) (f : TileFields) (k h n : Nat) (e : Tok), Alone s ∧ Issues s (.tkshare f) f ∧ Region s (.tkshare f) f k u
      ∧ e = u.tok k ∧ e.base = (s.ctx.getA f.as).toNat ∧ s.ctx.inst = none ∧ e.state ≠ tokPoisoned ∧ h = (s.ctx.getG f.gs).toNat
      ∧ h < 6 * 2 ^ 21 ∧ s.ctx.getG f.tb = 1 ∧ u.holds e = true ∧ e.shares < 4095
      ∧ (u.tokAddr k + 64 ≤ (u.getSys 0 0x81A).toNat ∨ (u.getSys 0 0x81A).toNat + 8 * u.shareN ≤ u.tokAddr k)
      ∧ u.shareFind k h = none ∧ u.shareFree = some n ∧ k < 2 ^ 16)
    ∧ (∃ (s u : State) (f : TileFields) (k : Nat), Alone s ∧ Issues s (.tkunshare f) f ∧ Region s (.tkunshare f) f k u
      ∧ (u.tok k).base = (s.ctx.getA f.as).toNat ∧ s.ctx.inst = none ∧ (u.tok k).state ≠ tokPoisoned ∧ u.sharer k = none)
    ∧ (∃ (s u : State) (f : TileFields) (k h n : Nat) (e : Tok), Alone s ∧ Issues s (.tkunshare f) f ∧ Region s (.tkunshare f) f k u
      ∧ e = u.tok k ∧ e.base = (s.ctx.getA f.as).toNat ∧ s.ctx.inst = none ∧ e.state ≠ tokPoisoned
      ∧ u.sharer k = some h ∧ u.shareFind k h = some n ∧ u.hasEnded e.holder = false
      ∧ (u.tokAddr k + 64 ≤ (u.getSys 0 0x81A).toNat ∨ (u.getSys 0 0x81A).toNat + 8 * u.shareN ≤ u.tokAddr k)
      ∧ e.state = tokShared ∧ e.shares = 1)
    ∧ (∃ (s u : State) (f : TileFields) (k : Nat), Alone s ∧ Issues s (.tkquery f) f ∧ Region s (.tkquery f) f k u
      ∧ (u.tok k).base = (s.ctx.getA f.as).toNat ∧ (u.tok k).state = tokPoisoned) := by
  refine ⟨⟨owned (token 5 0 4094 0 0) fun c => (c.setG 20 0xBFFFFF).setG 21 1, _, { kf with tb := 21 }, 1, 0xBFFFFF, 0, _, ⟨rfl, rfl, rfl, rfl, rfl, rfl⟩, ?_,
      region_of ⟨ownedLeaf, 0x1030010, 38, ?_, rfl, rfl, ?_⟩ ?_ ?_, rfl, ?_, rfl, ?_, ?_, by decide, ?_, ?_, ?_, .inl ?_, ?_, ?_, by decide⟩,
    ⟨owned (token 9 1 1 0 0) id, _, kf, 1, ⟨rfl, rfl, rfl, rfl, rfl, rfl⟩, ?_, region_of ⟨ownedLeaf, 0x1030010, 38, ?_, rfl, rfl, ?_⟩ ?_ ?_,
      ?_, rfl, ?_, ?_⟩,
    ⟨(owned (token 9 1 1 0 0) id).wr 0x5001008 8 (1 + 6 * 2 ^ 16 + 2 ^ 40), _, kf, 1, 6, 1, _, ⟨rfl, rfl, rfl, rfl, rfl, rfl⟩, ?_,
      region_of ⟨ownedLeaf, 0x1030010, 38, ?_, rfl, rfl, ?_⟩ ?_ ?_, rfl, ?_, rfl, ?_, ?_, ?_, ?_, .inl ?_, ?_, ?_⟩,
    ⟨owned (token 9 5 0 0 0) id, _, kf, 1, ⟨rfl, rfl, rfl, rfl, rfl, rfl⟩, ?_, region_of ⟨ownedLeaf, 0x1030010, 38, ?_, rfl, rfl, ?_⟩ ?_ ?_,
      ?_, ?_⟩⟩
  all_goals first | decide +kernel | (unfold Issues; decide +kernel) | (unfold MemOk; decide +kernel)

/-- Entry 1 split in two parts, entries 4 and 5: 512 KiB each, held by 5, the second dirty. -/
def Tests.halved : State :=
  let r := (Tests.token 5 4 0 0 0) + 19 * 2 ^ 230 + 4 * 2 ^ 272
  let s := Tests.owned r id
  (s.wr 0x5000100 64 (partOf r 1 19 0)).wr 0x5000140 64 (Tok.setDirty (partOf r 1 19 1) true)

open Tests in
theorem witness_tokens_split :
    (∀ n ∈ [12, 16], ∃ (s u : State) (f : TileFields) (k : Nat) (e : Tok), Alone s ∧ Issues s (.tksplit f) f ∧ Region s (.tksplit f) f k u
      ∧ e = u.tok k ∧ e.base = (s.ctx.getA f.as).toNat ∧ s.ctx.inst = none ∧ e.state ≠ tokPoisoned ∧ e.base + 2 ^ e.log2 ≤ 2 ^ 72
      ∧ n = (s.ctx.getG f.gs).toNat ∧ u.holds e = true ∧ e.shares = 0
      ∧ (n < 16 ∨ n < e.log2 ∧ e.log2 ≤ n + 8 ∧ ∃ c, u.freeRun (2 ^ (e.log2 - n)) = some c ∧ (c + 2 ^ (e.log2 - n) ≤ k ∨ k < c)))
    ∧ (∃ (s u : State) (f : TileFields) (k h j : Nat) (e r : Tok) (parts : List Nat), Alone s ∧ Issues s (.tkjoin f) f ∧ Region s (.tkjoin f) f k u
      ∧ e = u.tok k ∧ e.base = (s.ctx.getA f.as).toNat ∧ s.ctx.inst = none ∧ e.state ≠ tokPoisoned ∧ e.base + 2 ^ e.log2 ≤ 2 ^ 72
      ∧ u.splitAt (s.ctx.getA f.as).toNat 40 (u.triOf (s.ctx.getA f.as)) = some j ∧ r = u.tok j
      ∧ parts = (List.range (2 ^ (r.log2 - r.ksplit))).map (fun n => r.child + n) ∧ j ∉ parts ∧ h = (u.tok r.child).holder
      ∧ s.ctx.ids.contains h = true ∧ ∀ q ∈ parts, (u.tok q).state = tokHeld ∧ (u.tok q).holder = h ∧ (u.tok q).shares = 0
          ∧ getBits (u.tok q) 128 99 = getBits r 128 99) := by
  refine ⟨fun n hn => ⟨(owned (token 5 0 0 0 0) fun c => c.setG 20 (BitVec.ofNat 64 n)).setSys 0 0x819 32, _, kf, 1, _, ⟨rfl, rfl, rfl, rfl, rfl, rfl⟩, ?_,
      region_of ⟨ownedLeaf, 0x1030010, 38, ?_, rfl, rfl, ?_⟩ ?_ ?_, rfl, ?_, rfl, ?_, ?_, ?_, ?_, ?_, ?last⟩,
    ⟨halved, _, kf, 4, 5, 1, _, _, _, ⟨rfl, rfl, rfl, rfl, rfl, rfl⟩, ?_,
      region_of ⟨ownedLeaf, 0x1030010, 38, ?_, rfl, rfl, ?_⟩ ?_ ?_, rfl, ?_, rfl, ?_, ?_, ?_, rfl, rfl, ?_, ?_, ?_, ?_⟩⟩
  case last =>
    have h : n = 12 ∨ n = 16 := by simpa using hn
    rcases h with rfl | rfl
    · exact .inl (by decide)
    · exact .inr ⟨by decide +kernel, by decide +kernel, 2, by decide +kernel, by decide +kernel⟩
  all_goals first
    | decide +kernel | (unfold Issues; decide +kernel) | (unfold MemOk; decide +kernel)
    | (revert n; first | decide +kernel | (unfold Issues; decide +kernel) | (unfold MemOk; decide +kernel))

/-! ### Frames and the token administration -/

/-- A2 names bytes of HOME memory on a 256-byte line, A1 others beside one; core 1 has stopped at `c`; G20 names it. -/
def Tests.frames (c : Ctx) (f : Ctx → Ctx) : State :=
  let s := Tests.mapped fun c => f ((c.setA 2 (2 ^ 38 + 0x3000000)).setG 20 1)
  { s with others := [(freshCore 1, c)] }

/-- The least frame: magic, version, length, and no sections. -/
def Tests.frame : Nat := frameMagic + frameVersion * 2 ^ 32 + fixBytes * 2 ^ 64

/-- The state after a run that is done. -/
def Tests.leaves {α : Type} (r : Run α) : State := match r with | .done _ s => s | _ => State.reset

theorem Tests.done_is {α : Type} [DecidableEq α] {r : Run α} {a : α} (h : (match r with | .done b _ => decide (b = a) | _ => false) = true) :
    r = .done a (Tests.leaves r) := by
  cases r with
  | done b s => rw [of_decide_eq_true h]; rfl
  | _ => exact nomatch h

/-- The machine with such a frame at A2. -/
def Tests.framed : State := (Tests.frames {} id).wr 0x3000000 16 Tests.frame

/-- Core 1 is idle, and the frame of a pre-empted context is its to save. -/
def Tests.holding : State := { Tests.frames {} id with saved := [{ run := .stopped, held := some 1 }] }

open Tests in
theorem witness_context_frames :
    (∃ (s : State) (d b : BitVec 5) (a : BitVec 4) (cid : Nat), NoReturn s [.g d, .a a, .g b] ∧ cid = (s.ctx.getG b).toNat
      ∧ (s.ctx.getA a).toNat % 256 ≠ 0 ∧ s.ctx.tiq = [])
    ∧ (∃ (s : State) (d b : BitVec 5) (a : BitVec 4) (cid : Nat), NoReturn s [.g d, .a a, .g b] ∧ cid = (s.ctx.getG b).toNat
      ∧ (s.ctx.getA a).toNat % 256 = 0 ∧ s.inService cid = false ∧ cid = 96)
    ∧ (∃ (s : State) (d b : BitVec 5) (a : BitVec 4) (cid : Nat), NoReturn s [.g d, .a a, .g b] ∧ cid = (s.ctx.getG b).toNat
      ∧ (s.ctx.getA a).toNat % 256 = 0 ∧ s.inService cid = true ∧ cid < 256 ∧ (s.unitAt cid).2.run = .idle
      ∧ (∀ k ∈ s.saved, k.held ≠ some cid) ∧ (s.unitAt cid).1.staged.isSome = true)
    ∧ (∃ (s : State) (d b : BitVec 5) (a : BitVec 4) (cid : Nat), NoReturn s [.g d, .a a, .g b] ∧ cid = (s.ctx.getG b).toNat
      ∧ (s.ctx.getA a).toNat % 256 = 0 ∧ s.inService cid = true ∧ cid < 256 ∧ (s.unitAt cid).1.staged = none
      ∧ ∃ u, s.frameRead (s.frameParty false) (s.ctx.getA a) fixBytes = .done 0 u ∧ frameBad 0 = true)
    ∧ (∃ (s u v : State) (d b : BitVec 5) (a : BitVec 4) (cid h f : Nat), NoReturn s [.g d, .a a, .g b] ∧ cid = (s.ctx.getG b).toNat
      ∧ (s.ctx.getA a).toNat % 256 = 0 ∧ s.inService cid = true ∧ cid < 256 ∧ (s.unitAt cid).1.staged = none
      ∧ s.frameRead (s.frameParty false) (s.ctx.getA a) fixBytes = .done h u ∧ frameBad h = false
      ∧ u.frameRead (s.frameParty false) (s.ctx.getA a) (min (fieldAt h 0x008 8) maxFrame) = .done f v ∧ v.ctx = s.ctx)
    ∧ (∃ (s u : State) (d b : BitVec 5) (a : BitVec 4) (cid : Nat) (c : Ctx) (img : Nat × Nat), NoReturn s [.g d, .a a, .g b]
      ∧ cid = (s.ctx.getG b).toNat ∧ (s.ctx.getA a).toNat % 256 = 0 ∧ s.inService cid = true ∧ cid < 256
      ∧ c = (s.unitAt cid).2 ∧ c.run = .stopped ∧ c.held = none ∧ img = c.image
      ∧ storeChunk (s.frameParty true) 1 false (pageElems framePages (s.ctx.getA a) img.2 img.1) s = .done () u)
    ∧ (∃ (s u : State) (d b : BitVec 5) (a : BitVec 4) (cid : Nat) (c : Ctx) (img : Nat × Nat), NoReturn s [.g d, .a a, .g b]
      ∧ cid = (s.ctx.getG b).toNat ∧ (s.ctx.getA a).toNat % 256 = 0 ∧ s.inService cid = true ∧ cid < 256
      ∧ (s.unitAt cid).2.run = .idle ∧ (s.saved.find? fun k => k.held == some cid) = some c ∧ img = c.image
      ∧ storeChunk (s.frameParty true) 1 false (pageElems framePages (s.ctx.getA a) img.2 img.1) s = .done () u) := by
  refine ⟨⟨frames {} id, 9, 20, 1, _, by unfold NoReturn; decide +kernel, rfl, by decide +kernel, rfl⟩,
    ⟨frames {} fun c => c.setG 20 96, 9, 20, 2, _, by unfold NoReturn; decide +kernel, rfl, by decide +kernel, by decide +kernel, by decide +kernel⟩,
    ⟨(frames {} id).setUnit 1 ({ freshCore 1 with staged := some {} }, {}), 9, 20, 2, 1, by unfold NoReturn; decide +kernel, by decide +kernel, by decide +kernel,
      by decide +kernel, by decide, by decide +kernel, by decide +kernel, by decide +kernel⟩,
    ⟨frames {} id, 9, 20, 2, 1, by unfold NoReturn; decide +kernel, by decide +kernel, by decide +kernel,
      by decide +kernel, by decide, by decide +kernel, _, done_is ?_, ?_⟩,
    ⟨framed, _, _, 9, 20, 2, 1, frame, frame, by unfold NoReturn; decide +kernel, by decide +kernel, by decide +kernel, by decide +kernel,
      by decide, by decide +kernel, done_is ?_, ?_, done_is ?_, ?_⟩, ?save, ?held⟩
  case save =>
    obtain ⟨x, u, h⟩ := done_of (r := storeChunk ((frames { run := .stopped } id).frameParty true) 1 false
      (pageElems framePages ((frames { run := .stopped } id).ctx.getA 2) (Ctx.image { run := .stopped }).2 (Ctx.image { run := .stopped }).1)
      (frames { run := .stopped } id)) (by decide +kernel)
    exact ⟨frames { run := .stopped } id, u, 9, 20, 2, 1, _, _, by unfold NoReturn; decide +kernel, by decide +kernel, by decide +kernel,
      by decide +kernel, by decide, rfl, rfl, rfl, rfl, h⟩
  case held =>
    obtain ⟨x, u, h⟩ := done_of (r := storeChunk (holding.frameParty true) 1 false
      (pageElems framePages (holding.ctx.getA 2) (Ctx.image { run := .stopped, held := some 1 }).2
        (Ctx.image { run := .stopped, held := some 1 }).1) holding) (by decide +kernel)
    exact ⟨holding, u, 9, 20, 2, 1, _, _, by unfold NoReturn; decide +kernel, by decide +kernel, by decide +kernel,
      by decide +kernel, by decide, rfl, rfl, rfl, h⟩
  all_goals decide +kernel

open Tests in
theorem witness_token_administration :
    (∀ o < 4, ∃ (s : State) (d b : BitVec 5) (a : BitVec 4) (h : Nat), NoReturn s [.g d, .a a, .g b] ∧ (BitVec.ofNat 3 o).toNat < 4
      ∧ h = (s.ctx.getG b).toNat % 2 ^ 24 ∧ badHolder (s.ctx.getG b) = false ∧ s.regionAt (s.ctx.getA a).toNat = none)
    ∧ (∃ (s : State) (d b : BitVec 5) (a : BitVec 4) (h k : Nat), NoReturn s [.g d, .a a, .g b]
      ∧ h = (s.ctx.getG b).toNat % 2 ^ 24 ∧ MemOk s ∧ s.regionAt (s.ctx.getA a).toNat = some k ∧ (s.tok k).state = tokHeld) := by
  refine ⟨fun o ho => ⟨owned 0 id, 9, 20, 4, _, ?_, ?_, rfl, ?_, ?_⟩,
    ⟨owned (token 7 0 0 0 0) id, 9, 20, 4, _, 1, ?_, rfl, ?_, ?_, ?_⟩⟩
  all_goals first
    | decide +kernel
    | (revert o; decide)
    | (unfold NoReturn; decide +kernel)
    | (unfold MemOk; decide +kernel)

theorem witness_frames_restore : ∃ c : Ctx, c = { (({} : Ctx)) with
      g := c.g, a := c.a, p := c.p, fcsr := c.fcsr, efc := c.efc, pc := c.pc, run := .stopped, uid := c.uid, ucnt := c.ucnt
      asid := c.asid, ctxid := c.ctxid, cgid := c.cgid, retd := c.retd, landp := c.landp } ∧ c.pc = 2 ^ 72 - 4 :=
  ⟨{ run := .stopped, pc := 2 ^ 72 - 4, asid := 7 }, rfl, rfl⟩

/-! ### Queues -/

/-- The descriptor of queue 0 (Table 17-2) in the table at 0x6000000: its ring of 16 words in SHARED memory, its status block in
HOME memory, priority 3, enabled. -/
def Tests.qdesc : Nat :=
  0x6100000 + (2 ^ 38 + 0x6200000) * 2 ^ 128 + (4 + 3 * 2 ^ 8 + 2 ^ 16) * 2 ^ 256 + 1 * 2 ^ 352 + 1 * 2 ^ 384 + 2 * 2 ^ 448

/-- Queue 0 in its sequencer's turn, `x` its fields; event 3 counts 5. -/
def Tests.queued (x : Queue) : State :=
  let s := (Tests.shared 0 id).setSys 0 0x828 0x6000000
  let s := s.wr 0x6000000 64 Tests.qdesc
  { s with queues := [x], curq := 0, seqs := [(2, 0)], launches := [], groups := [] }

/-- A command over event 3. -/
def Tests.qc (opnd x0 : Nat) (flags : BitVec 8 := 0) : QueueCmd :=
  { flags := flags, ev := 3, opnd := BitVec.ofNat 32 opnd, seq := 9, x0 := BitVec.ofNat 64 x0, x1 := 0, x2 := 77 }

/-- The state an access of a sequencer leaves. -/
def Tests.gotS (x : Got) : State := match x with | .val _ s => s | .fault s => s | .wait s => s

theorem Tests.got_val {x : Got} {n : Nat} (h : (match x with | .val v _ => v == n | _ => false) = true) : x = .val n (Tests.gotS x) := by
  cases x with
  | val v s => rw [← eq_of_beq h]; rfl
  | _ => exact nomatch h

theorem Tests.got_fault {x : Got} (h : (match x with | .fault _ => true | _ => false) = true) : x = .fault (Tests.gotS x) := by
  cases x with
  | fault s => rfl
  | _ => exact nomatch h

theorem Tests.next_ex {o : Out} (h : (match o with | .next _ => true | _ => false) = true) :
    o = .next (match o with | .next t => t | _ => State.reset) := by
  cases o with
  | next t => rfl
  | _ => exact nomatch h

open Tests in
theorem witness_queue_commands :
    (∀ f ∈ [0#8, 1#8], ∀ n ∈ [5, 6], ∃ (s : State) (x : Queue) (c : QueueCmd), InTurn s x ∧ s.evOn c.ev (s.qAsid x.q) = true ∧ c.ev ≠ 0xFFFF
      ∧ c.x0.toNat = n ∧ s.evCount c.ev = 5 ∧ c.flag = (f == 1))
    ∧ (∃ (s : State) (x : Queue) (c : QueueCmd), InTurn s x ∧ s.evOn c.ev (s.qAsid x.q) = false)
    ∧ (∃ (s : State) (x : Queue), InTurn s x
      ∧ (∀ p ∈ x.out, p.2 = .none ∨ (p.2 = .jump ∧ x.sub.any (fun b => b.seq == p.1) = true)) ∧ x.sub ≠ none)
    ∧ (∃ (s : State) (x : Queue) (c : QueueCmd), InTurn s x ∧ x.sub = none ∧ (cmdAddr c).toNat % 8 = 0
      ∧ ∃ p ∈ x.out, p.2 ≠ .none ∧ p.2 ≠ .jump)
    ∧ (∃ (s : State) (x : Queue) (c : QueueCmd), InTurn s x ∧ x.sub = none ∧ (cmdAddr c).toNat % 8 ≠ 0)
    ∧ (∃ (s w : State) (x : Queue) (c : QueueCmd), InTurn s x ∧ (cmdAddr c).toNat % 8 = 0 ∧ (∀ p ∈ x.out, p.2 = .none)
      ∧ s.seqWrite x.q (cmdAddr c) 8 c.x2.toNat = .val 0 w)
    ∧ (∃ (s w : State) (x : Queue) (c : QueueCmd), InTurn s x ∧ (cmdAddr c).toNat % 8 = 0
      ∧ (∃ p ∈ x.out, p.2 ≠ .none ∧ p.2 ≠ .jump) ∧ s.seqWrite x.q (cmdAddr c) 8 c.x2.toNat = .val 0 w)
    ∧ (∃ (s w : State) (x : Queue) (c : QueueCmd), InTurn s x ∧ (cmdAddr c).toNat % 8 = 0
      ∧ s.seqWrite x.q (cmdAddr c) 8 c.x2.toNat = .fault w)
    ∧ (∀ i ∈ ([.qnop, .qwait, .qbr, .qintr, .qfence, .qjump, .qend] : List (QueueCmd → Instr)), ∃ (s t : State) (c : QueueCmd),
      exec (i c) s = .next t) := by
  refine ⟨fun f hf n hn => ⟨queued { q := 0 }, _, qc 7 n f, ⟨rfl, rfl⟩, ?_, ?_, ?_, ?_, ?_⟩,
    ⟨queued { q := 0 }, _, { qc 0 0 with ev := 4 }, ⟨rfl, rfl⟩, ?_⟩,
    ⟨queued { q := 0, sub := some { addr := 0x6110000, len := 4, seq := 8 }, out := [(8, .jump), (8, .none)] }, _, ⟨rfl, rfl⟩, ?_, ?_⟩,
    ⟨queued { q := 0, out := [(8, .copy)] }, _, qc 0 8, ⟨rfl, rfl⟩, rfl, ?_, ?_⟩,
    ⟨queued { q := 0 }, _, qc 0 0x6100004, ⟨rfl, rfl⟩, rfl, ?_⟩,
    ⟨queued { q := 0, out := [(8, .none)] }, _, _, qc 0 (2 ^ 38 + 0x6300000), ⟨rfl, rfl⟩, ?_, ?_, got_val ?_⟩,
    ⟨queued { q := 0, out := [(8, .copy)] }, _, _, qc 0 (2 ^ 38 + 0x6300000), ⟨rfl, rfl⟩, ?_, ?_, got_val ?_⟩,
    ⟨queued { q := 0 }, _, _, qc 0 (2 ^ 70), ⟨rfl, rfl⟩, ?_, got_fault ?_⟩,
    fun i hi => ⟨queued { q := 0 }, _, qc 0 8, next_ex ?_⟩⟩
  all_goals first | decide +kernel | (revert f n; decide +kernel) | (revert i; decide +kernel)

open Tests in
theorem witness_queue_completion :
    (∀ f ∈ [0#8, 1#8], ∀ n ∈ [5, 6], ∃ (s : State) (x : Queue) (c : QueueCmd), s.queue s.curq = some x ∧ x.q = s.curq
      ∧ s.evOn c.ev (s.qAsid x.q) = true ∧ c.ev ≠ 0xFFFF ∧ c.x0.toNat = n ∧ s.evCount c.ev = 5 ∧ c.flag = (f == 1))
    ∧ (∃ (s : State) (x : Queue) (c : QueueCmd), s.queue s.curq = some x ∧ x.q = s.curq ∧ (∀ p ∈ x.out, p.2 = .none)
      ∧ x.sub = none ∧ (cmdAddr c).toNat % 8 = 0)
    ∧ (∃ (s : State) (x : Queue), s.queue s.curq = some x ∧ x.q = s.curq ∧ x.sub ≠ none)
    ∧ (∃ (s w : State) (x : Queue) (c : QueueCmd) (v : Nat), s.queue s.curq = some x ∧ x.q = s.curq ∧ (cmdAddr c).toNat % 8 = 0
      ∧ (∀ p ∈ x.out, p.2 = .none) ∧ s.seqWrite x.q (cmdAddr c) 8 c.x2.toNat = .val v w)
    ∧ (∃ (s : State) (x : Queue) (p : Pending), s.queue x.q = some x ∧ x.sub = none ∧ p ≠ .none
      ∧ (∀ o, x.out.head? = some o → o.2 ≠ .none) ∧ x.fresh < 63) := by
  refine ⟨fun f hf n hn => ⟨queued { q := 0 }, _, qc 7 n f, rfl, rfl, ?_, ?_, ?_, ?_, ?_⟩,
    ⟨queued { q := 0, out := [(8, .none)] }, _, qc 0 8, rfl, rfl, ?_, rfl, ?_⟩,
    ⟨queued { q := 0, sub := some { addr := 0x6110000, len := 4, seq := 8 } }, _, rfl, rfl, by decide⟩,
    ⟨queued { q := 0, out := [(8, .none)] }, _, _, qc 0 (2 ^ 38 + 0x6300000), 0, rfl, rfl, ?_, ?_, got_val ?_⟩,
    ⟨queued { q := 0, out := [(8, .copy)], fresh := 62 }, { q := 0, out := [(8, .copy)], fresh := 62 }, .stage, rfl, rfl, by decide,
      fun o ho => ?_, by decide⟩⟩
  rotate_right
  · cases ho
    decide
  all_goals first | decide +kernel | (revert f n; decide +kernel)

/-- A launch record (Table 17-6): one group of one unit on die 0, its object 7, event 3, completion word in HOME memory. -/
def Tests.rec (ucnt : Nat) : Nat :=
  1 + 2 ^ 16 + 2 ^ 24 + 7 * 2 ^ 96 + ucnt * 2 ^ 128 + 3 * 2 ^ 192 + 2 ^ 224 + 0x2000000 * 2 ^ 256
    + (2 ^ 38 + 0x6300000) * 2 ^ 384

/-- Queue 0 over such a record at 0x6400000, a descriptor at 0x6400400, a declaration at 0x6400800. -/
def Tests.work (r : Nat) (x : Queue) (n : Nat) : State :=
  let s := ((Tests.queued x).wr 0x6400000 128 r).wr 0x6400400 128 (Tests.descOf 0x3000010 0x4003000040)
  let s := s.wr 0x6400800 24 (0x6500000 + 256 * 2 ^ 128)
  { s with objects := [{ handle := 7, base := 0x2000000, size := 4 }]
           launches := List.replicate n { id := 1, q := 0, seq := 1, asid := 0, record := 0 } }

def Tests.fresh (r : Nat) : Launch := { id := 0, q := 0, seq := 9, asid := 0, record := r, dies := 1 }

/-- A queue's copy into a region in TRANSIT to the queue's CCG. -/
def Tests.lendingCopy : State :=
  let s := (Tests.work 0 { q := 0 } 0).wr 0x6400400 128 (Tests.descOf 0x3000010 (2 ^ 39))
  let s := s.wr (s.local_ (placeTables + 0x30010)) 8 (s.local_ 0 / 256 + 0x1B + 2 ^ 48)
  ((s.setSys 0 0x818 0x5000000).setSys 0 0x819 8).wr 0x5000040 64 (Tests.token 0x200000 tokTransit 0 1 3)

theorem Tests.read_eq {x : Option Nat × State} {n : Nat} (h : x.1 = some n) : x = (some n, x.2) := Prod.ext h rfl

open Tests in
theorem witness_queue_launches : ∀ p ∈ ([(0, 0, some 1), (rec 1, 16, none), (rec 1, 15, none), (rec 0, 0, none)] : List (Nat × Nat × Option Nat)),
    ∃ (s w v : State) (x : Queue) (c : QueueCmd) (l : Launch), InTurn s x ∧ (cmdAddr c).toNat % 256 = 0
      ∧ s.seqRead x.q (cmdAddr c) 768 = .val p.1 w
      ∧ l = { id := w.nextLaunch, q := x.q, seq := x.seqOf c.seq, asid := w.qAsid x.q, record := p.1, dies := l.dies
              prev := x.prev, unstaged := w.stagingOff x.q }
      ∧ (l.place = 1 → l.dies = 1) ∧ (l.place = 2 → l.dies = 2) ∧ (l.place = 3 → l.dies = if w.die1Up && !w.shLost then 3 else 1)
      ∧ (l.place = 0 ∨ 3 < l.place → l.dies = 3) ∧ w.launchCheck l = (p.2.2, v)
      ∧ (v.launches.filter fun m => m.q == x.q).length = p.2.1 ∧ (l.ucnt = 0 ↔ p.1 ≠ rec 1) := by
  intro p hp
  refine ⟨work p.1 { q := 0 } p.2.1, _, _, _, qc 0 0x6400000, { fresh p.1 with dies := if p.1 = 0 then 3 else 1 }, ⟨rfl, rfl⟩,
    by decide +kernel, got_val ?_, ?_, ?_, ?_, ?_, ?_, pair_of ?_, ?_, ?_⟩
  all_goals (revert p; decide +kernel)

open Tests in
theorem witness_queue_copies :
    (∀ d ∈ [(0, 0), (descOf 0x3000010 0x4003000040, 1), (descOf (2 ^ 70) 0x4003000040, 2)], ∃ (s w : State) (x : Queue) (c : QueueCmd) (b : Desc),
      InTurn s x ∧ (c.flag = true → s.evOn c.ev (s.qAsid x.q) = true) ∧ c.flag = true ∧ (cmdAddr c).toNat % 16 = 0
      ∧ s.seqRead x.q (cmdAddr c) 128 = .val d.1 w ∧ b = BitVec.ofNat 1024 d.1
      ∧ Desc.bad b = (d.2 == 0) ∧ Desc.scs b = false ∧ Desc.dcs b = false
      ∧ (d.2 = 1 → ∃ m v, w.firstChunk x b = .done m v) ∧ (d.2 = 2 → ∃ f v, w.firstChunk x b = .stop f v ∧ f.cause = .pageNotPresent))
    ∧ (∃ (s w : State) (x : Queue) (c : QueueCmd) (d : Nat) (b : Desc), InTurn s x ∧ (c.flag = true → s.evOn c.ev (s.qAsid x.q) = true)
      ∧ (cmdAddr c).toNat % 16 = 0 ∧ s.seqRead x.q (cmdAddr c) 128 = .val d w ∧ b = BitVec.ofNat 1024 d ∧ Desc.bad b = false
      ∧ Desc.scs b = false ∧ Desc.dcs b = false ∧ ∃ a v, w.firstChunk x b = .wait a v)
    ∧ (∀ k ∈ [0, 1], ∀ fl ∈ [0#8, 1#8], ∃ (s w v : State) (x : Queue) (c : QueueCmd) (b : Nat) (y : Slice), InTurn s x
      ∧ (c.flag = true → s.evOn c.ev (s.qAsid x.q) = true) ∧ c.flag = (fl == 1) ∧ (cmdAddr c).toNat % 8 = 0
      ∧ s.seqRead x.q (cmdAddr c) 32 = .val b w ∧ (declOf b).csp = false ∧ (declOf b).resv = false ∧ 0 < (declOf b).len
      ∧ (declOf b).len ≤ 2 ^ 31
      ∧ y = ({ launch := none, q := x.q, k := 0, csp := false, shared := false, asid := w.qAsid x.q, src := (declOf b).src
               len := (declOf b).len, dst := 0
               stage := some (x.seqOf c.seq, if c.flag then some (c.ev, c.opnd) else none) } : Slice)
      ∧ w.stageNothing y = (k == 0, v)) := by
  refine ⟨fun d hd => ⟨(work 0 { q := 0 } 0).wr 0x6400400 128 d.1, _, _, qc 7 0x6400400 1, BitVec.ofNat 1024 d.1, ⟨rfl, rfl⟩, ?_, ?_, ?_, got_val ?_,
      ?_, ?_, ?_, ?_, fun h => strip_of ?_, fun h => ?_⟩,
    ⟨lendingCopy, _, _, qc 7 0x6400400 1, descOf 0x3000010 (2 ^ 39), BitVec.ofNat 1024 (descOf 0x3000010 (2 ^ 39)), ⟨rfl, rfl⟩, ?_, ?_,
      got_val ?_, rfl, ?_, ?_, ?_, wait_of ?_⟩,
    fun k hk fl hf => ⟨(work 0 { q := 0 } 0).setSys 0 0x835 (BitVec.ofNat 64 (64 * k)), _, _, _, qc 7 0x6400800 fl, 0x6500000 + 256 * 2 ^ 128, _, ⟨rfl, rfl⟩,
      ?_, ?_, ?_, got_val ?_, ?_, ?_, ?_, ?_, rfl, pair_of ?_⟩⟩
  case refine_10 =>
    obtain ⟨f, v, e, k⟩ := stop_of (r := State.firstChunk (gotS (State.seqRead ((work 0 { q := 0 } 0).wr 0x6400400 128 d.1) 0 (cmdAddr (qc 7 0x6400400 1)) 128))
      { q := 0 } (BitVec.ofNat 1024 d.1)) (c := .pageNotPresent) (by revert d; decide +kernel)
    exact ⟨f, v, e, k⟩
  all_goals first | decide +kernel | (revert d; decide +kernel) | (revert k fl; decide +kernel)

/-- Queue 0 over the region from 2^39 that entry 1 of the token table describes. -/
def Tests.lending (e : Tok) (x : Queue) : State :=
  let s := Tests.queued x
  let s := s.wr (s.local_ (placeTables + 0x30010)) 8 (s.local_ 0 / 256 + 0x1B + 2 ^ 48)
  ((s.setSys 0 0x818 0x5000000).setSys 0 0x819 8).wr 0x5000040 64 e

theorem Tests.inl_of {x : (Nat ⊕ Nat) × State} {k : Nat} (h : x.1 = .inl k) : x = (.inl k, x.2) := Prod.ext h rfl
theorem Tests.inr_of {x : (Nat ⊕ Nat) × State} {k : Nat} (h : x.1 = .inr k) : x = (.inr k, x.2) := Prod.ext h rfl

open Tests in
theorem witness_queue_lends :
    (∀ e ∈ [token rootId tokHeld 0 0 0, token rootId tokTransit 0 0 0, token 7 tokHeld 0 0 0], ∀ h ∈ [0xBFFFFF, rootId],
      ∃ (s w : State) (x : Queue) (c : QueueCmd), InTurn s x ∧ s.qRegion x.q (cmdAddr c) = (.inl 1, w) ∧ w.tok 1 = e
      ∧ h = c.opnd.toNat % 2 ^ 24 ∧ h < 6 * 2 ^ 21 ∧ w.cutOff rootId h = false)
    ∧ (∀ e ∈ [token rootId tokShared 4095 0 0, token 0x200000 tokHeld 0 1 3, token 7 tokHeld 0 0 0],
      ∃ (s w : State) (x : Queue) (c : QueueCmd), InTurn s x ∧ s.qRegion x.q (cmdAddr c) = (.inl 1, w) ∧ w.tok 1 = e ∧ x.copies = []
      ∧ (Tok.holder e = w.qCcg x.q ↔ e = token 0x200000 tokHeld 0 1 3))
    ∧ (∃ (s w : State) (x : Queue) (c : QueueCmd), InTurn s x ∧ s.qRegion x.q (cmdAddr c) = (.inl 1, w) ∧ 6 * 2 ^ 21 ≤ c.opnd.toNat % 2 ^ 24)
    ∧ (∀ v ∈ [(2 ^ 63, 5), (2 ^ 38 + 0x3000010, 6)], ∃ (s w : State) (x : Queue) (c : QueueCmd), InTurn s x
      ∧ s.qRegion x.q (cmdAddr c) = (.inr v.2, w) ∧ c.opnd.toNat % 2 ^ 24 < 6 * 2 ^ 21) := by
  refine ⟨fun e he h hh => ⟨lending e { q := 0 }, _, _, qc h (2 ^ 39), ⟨rfl, rfl⟩, inl_of ?_, ?_, ?_, ?_, ?_⟩,
    fun e he => ⟨lending e { q := 0 }, _, _, qc 0 (2 ^ 39), ⟨rfl, rfl⟩, inl_of ?_, ?_, rfl, ?_⟩,
    ⟨lending (token rootId tokHeld 0 0 0) { q := 0 }, _, _, qc 0xC00000 (2 ^ 39), ⟨rfl, rfl⟩, inl_of ?_, ?_⟩,
    fun v hv => ⟨lending (token rootId tokHeld 0 0 0) { q := 0 }, _, _, qc 5 v.1, ⟨rfl, rfl⟩, inr_of ?_, ?_⟩⟩
  all_goals first | decide +kernel | (revert e h; decide +kernel) | (revert e; decide +kernel) | (revert v; decide +kernel)

/-! ### Writes of a driver -/

/-- Command words in queue 0's ring from word 2 on: a command of four words (SEQ 9). -/
def Tests.driven (x : Queue) : State := (Tests.queued x).wr 0x6100010 16 (8 + 9 * 2 ^ 64)

open Tests in
theorem witness_driver_writes :
    (∀ st ∈ [QState.idle, .running, .ready, .blocked, .stopped], ∃ (s : State) (q : Nat) (v : BitVec 64) (x : Queue), s.queue q = some x
      ∧ x.st = st ∧ x.st ≠ .done ∧ x.finished = false ∧ v ≠ x.tail ∧ x.tail.toNat ≤ v.toNat ∧ v.toNat = s.qHead q + s.qWords q)
    ∧ (∃ (s : State) (q : Nat) (v : BitVec 64) (x : Queue), s.queue q = some x ∧ x.finished = false ∧ v ≠ x.tail
      ∧ v.toNat = s.qHead q + s.qWords q + 1 ∧ x.st ≠ .stopped)
    ∧ (∃ (s : State) (q : Nat) (v : BitVec 64) (x : Queue), s.queue q = some x ∧ x.finished = false ∧ v.toNat + 1 = x.tail.toNat ∧ x.st ≠ .stopped)
    ∧ (∀ st ∈ [QState.stopped, .done], ∃ (s : State) (q : Nat) (x : Queue), s.queue q = some x ∧ x.st = st ∧ x.finished = true)
    ∧ (∃ (s : State) (q n : Nat) (x : Queue) (seq : BitVec 64), s.queue q = some x ∧ x.st = .stopped ∧ x.copies = [] ∧ x.why ≠ 0 ∧ x.why ≠ 9
      ∧ (x.why = 2 → x.sub = none) ∧ x.lendStop = false ∧ s.cmdLen x = some (n, seq))
    ∧ (∃ (s : State) (q : Nat) (x : Queue) (c : QCopy) (cs : List QCopy), s.queue q = some x ∧ x.st = .stopped ∧ x.copies = c :: cs
      ∧ c.stopped = true ∧ x.why ≠ 0 ∧ x.why ≠ 9 ∧ x.lendStop = false)
    ∧ (∃ (s : State) (q : Nat) (x : Queue) (ev : BitVec 16), s.queue q = some x ∧ s.evOn ev (s.qAsid q) = true ∧ s.evHost ev = true)
    ∧ (∃ (s : State) (q : Nat) (x : Queue) (ev : BitVec 16), s.queue q = some x ∧ (s.evOn ev (s.qAsid q) && s.evHost ev) = false) := by
  refine ⟨fun st hs => ⟨queued { q := 0, tail := 17, st := st }, 0, 18, _, rfl, rfl, ?_, rfl, ?_, ?_, ?_⟩,
    ⟨queued { q := 0, tail := 17 }, 0, 19, _, rfl, rfl, ?_, ?_, ?_⟩, ⟨queued { q := 0, tail := 17, st := .running }, 0, 16, _, rfl, rfl, ?_, ?_⟩,
    fun st hs => ⟨queued { q := 0, tail := 17, st := st, finished := true }, 0, _, rfl, rfl, rfl⟩,
    ⟨driven { q := 0, tail := 17, st := .stopped, err := 5, why := 5 }, 0, 4, _, 9, rfl, rfl, rfl, ?_, ?_, ?_, rfl, ?_⟩,
    ⟨queued { q := 0, st := .stopped, why := 5, copies := [{ seq := 9, desc := 0, stopped := true }] }, 0, _, _, _, rfl, rfl, rfl, rfl, ?_, ?_, rfl⟩,
    ⟨(queued { q := 0 }).wr 0x4000030 16 (5 + 2 ^ 80 + 2 ^ 82), 0, _, 3, rfl, ?_, ?_⟩, ⟨queued { q := 0 }, 0, _, 3, rfl, ?_⟩⟩
  all_goals first | decide +kernel | (revert st; decide +kernel)

open Tests in
theorem witness_queue_enable :
    (∃ (s : State) (q : Nat), (s.queue q).any (fun x => x.st != .done && s.qEn q) = true)
    ∧ (∀ e ∈ [true, false], ∃ (s u : State) (q pa die : Nat), ((s.queue q).all (fun x => x.st == .done) = e ∧ s.qEn q = e)
      ∧ q < 32768 ∧ MemOk s ∧ s.statusPa q = (some pa, u) ∧ (s.target pa = .hbm die ∨ s.target pa = .host)) := by
  refine ⟨⟨queued { q := 0 }, 0, ?_⟩,
    fun e he => ⟨(queued { q := 0, st := if e then .done else .idle }).wr 0x6000022 1 (if e then 1 else 0), _, 0, 0x6200000, 0, ?_, ?_, ?_, read_eq ?_, .inl ?_⟩⟩
  all_goals first | decide +kernel | (revert e; first | decide +kernel | (unfold MemOk; decide +kernel))

/-! ### The mailbox, bring-up, power -/

/-- The machine in a boot state. -/
def Tests.booted (st : BitVec 8) : State := let s := Tests.put 32 0xC6 id; { s with boot := { s.boot with st := st } }

/-- A mailbox command. -/
def Tests.mc (arg0 arg1 : Nat) : MailboxCmd := { seq := 0x12345, arg0 := BitVec.ofNat 64 arg0, arg1 := BitVec.ofNat 64 arg1 }

open Tests in
theorem witness_mailbox_commands :
    (∀ a ∈ [1199, 1200, 2800, 2801, 0x7FF, 0x900, 0x836, 0x823], ∃ (s : State) (c : MailboxCmd), MemOk s ∧ s.boot.st = 4 ∧ c.arg0.toNat = a
      ∧ c.arg1.toNat = 64 ∧ c.arg1.toNat < 2 ^ 56 ∧ c.arg1.toNat % 64 = 0)
    ∧ (∃ (s : State) (c : MailboxCmd) (v : Nat), MemOk s ∧ s.boot.st = 4 ∧ s.core.cid = 0 ∧ 0x800 ≤ c.arg0.toNat ∧ s.sysCsr 0 c.arg0.toNat = some v)
    ∧ (∀ n ∈ [2, 4], ∃ (s : State) (c : MailboxCmd), MemOk s ∧ s.boot.st = 4 ∧ c.arg1.toNat % 8 = n)
    ∧ (∀ st ∈ [0#8, 1#8, 2#8, 3#8, 4#8, 5#8], ∃ (s p : State) (c : MailboxCmd), MemOk s ∧ s.boot.st = st ∧ p = State.posted s 0x01 c
      ∧ p.bootCheck c.arg0.toNat ≠ 0) := by
  refine ⟨fun a ha => ⟨booted 4, mc a 64, ?_, rfl, ?_, ?_, ?_, ?_⟩, ⟨booted 4, mc 0x800 0, 0, ?_, rfl, rfl, ?_, ?_⟩,
    fun n hn => ⟨booted 4, mc 0 n, ?_, rfl, ?_⟩, fun st hs => ⟨booted st, _, mc 0 0, ?_, rfl, rfl, ?_⟩⟩
  all_goals first
    | (unfold MemOk; decide +kernel) | (revert a; decide +kernel) | (revert n; decide +kernel)
    | (revert st; first | (unfold MemOk; decide +kernel) | decide +kernel)
    | decide +kernel

/-- A firmware image of one byte; and the machine with a digest fused for its key. -/
def Tests.image : State := let s := Tests.booted 1; s.wr (s.local_ imageBase) 24 (0x4D464B59 + 2 ^ 32 + 2 ^ 128)
def Tests.fuse (s : State) (k : BitVec 256) : State := { s with boot := { st := 1, keys := Vector.replicate 4 k } }
theorem Tests.fuse_reads (s : State) (k : BitVec 256) (off n : Nat) : (Tests.fuse s k).mbRd off n = s.mbRd off n := rfl
theorem Tests.fuse_key (s : State) (k : BitVec 256) : (Tests.fuse s k).boot.keys[0] = k := by simp [Tests.fuse]
theorem Tests.fuse_mem {s : State} {k : BitVec 256} (h : MemOk s) : MemOk (Tests.fuse s k) := h

open Tests in
/-- Hashes and signatures are opaque: no concrete image is known to verify. Where this one's signature does, and its byte's hash is
the 0 of its header, it boots. -/
theorem witness_boot_succeeds
    (hv : Config.verify (bytesOf 1312 (image.mbRd (imageBase + 64) 1312))
      (bytesOf 32 (Config.sha3 (bytesOf 64 (image.mbRd imageBase 64))).toNat) (bytesOf 2420 (image.mbRd (imageBase + 1376) 2420)) = true)
    (hb : Config.sha3 (bytesOf 1 (image.mbRd (imageBase + 4096) 1)) = 0) :
    ∃ (s : State) (len : Nat), MemOk s ∧ s.boot.st = 1 ∧ s.bootCheck len = 0 := by
  refine ⟨fuse image (Config.sha3 (bytesOf 1312 (image.mbRd (imageBase + 64) 1312))), 4097, fuse_mem (by unfold MemOk; decide +kernel), rfl, ?_⟩
  have h1 : image.mbRd (imageBase + 16) 8 = 1 := by decide +kernel
  have h2 : image.mbRd (imageBase + 9) 1 = 0 := by decide +kernel
  have h3 : image.mbRd (imageBase + 32) 32 = 0 := by decide +kernel
  have h4 : image.mbRd (imageBase + 6) 2 = 0 := by decide +kernel
  have h5 : image.mbRd imageBase 4 = 0x4D464B59 := by decide +kernel
  have h6 : image.mbRd (imageBase + 4) 2 = 1 := by decide +kernel
  have h7 : image.mbRd (imageBase + 10) 6 = 0 := by decide +kernel
  have h8 : image.mbRd (imageBase + 24) 8 = 0 := by decide +kernel
  have h9 : image.mbRd (imageBase + 3796) 300 = 0 := by decide +kernel
  have hs : ∀ k, (fuse image k).boot.svn = 0 ∧ (fuse image k).boot.revoked = 0 := fun _ => ⟨rfl, rfl⟩
  unfold State.bootCheck
  simp [fuse_reads, fuse_key, hs, h1, h2, h3, h4, h5, h6, h7, h8, h9, hv, hb]

open Tests in
theorem witness_bring_up :
    (∃ s : State, s.boot.st = 0 ∧ s.powered = true) ∧ (∃ s : State, s.boot.st = 3 ∧ s.boot.adv = true ∧ s.boot.svn.toNat < s.boot.imgSvn.toNat)
    ∧ (∃ s : State, s.boot.st ≠ 0 ∧ s.boot.st ≠ 3 ∧ s.powered = true) ∧ (∃ s : State, s.powered = false)
    ∧ (∀ n ∈ [0, 1], ∃ (s : State) (vf : Nat), 1 ≤ vf ∧ vf = 31 ∧ (s.queues.filter fun x => s.qVf x.q == vf).length = n) := by
  refine ⟨⟨State.reset, rfl, rfl⟩, ⟨{ booted 3 with boot := { st := 3, adv := true, imgSvn := 64 } }, rfl, rfl, by decide⟩,
    ⟨booted 4, by decide, by decide, rfl⟩, ⟨{ State.reset with powered := false }, rfl⟩,
    fun n hn => ⟨(queued { q := 0 }).wr 0x6000023 1 (31 * n), 31, by decide, rfl, ?_⟩⟩
  revert n; decide +kernel

open Tests in
theorem witness_power_control :
    (∀ p ∈ [(0, 600), (0, 1800), (2 ^ 18, 600)], ∀ q ∈ [(2800, 89), (2801, 94), (2660, 95), (2659, 89), (2800, 104), (2800, 105)],
      ∃ (s : State) (d : PowerSample) (f cap avg tj : Nat) (em : Bool), f = (s.getSys 0 0x872).toNat % 4096
      ∧ cap = (s.getSys 0 0x870).toNat ∧ avg = min d.watts 4095 ∧ tj = min d.temp 255 ∧ em = (s.getSys 0 0x872).getLsbD 18
      ∧ f = p.2 ∧ em = (p.1 == 2 ^ 18) ∧ avg = q.1 ∧ tj = q.2 ∧ cap = 2800)
    ∧ (∀ w ∈ [2800, 2801], ∃ s : State, (s.getSys 0 0x872).getLsbD 18 = false ∧ w ≤ 2801) := by
  refine ⟨fun p hp q hq => ⟨(booted 4).setSys 0 0x872 (BitVec.ofNat 64 (p.1 + p.2)), { watts := q.1, temp := q.2, hbmTemp := 104 }, _, _, _, _, _, rfl, rfl, rfl,
    rfl, rfl, ?_, ?_, ?_, ?_, ?_⟩, fun w hw => ⟨booted 4, ?_, ?_⟩⟩
  all_goals first | (revert p q; decide +kernel) | (revert w; decide +kernel)

/-! ### Links -/

/-- The machine with module 15 as given, the others in service. -/
def Tests.linked (x : Module) : State := { Tests.booted 4 with mods := (Vector.replicate 16 { up := true }).set 15 x, die1 := true, variant := .l9 }

open Tests in
theorem witness_shuttle_modules :
    (∀ v ∈ [32, 5, 1, 4, 24], ∀ o ∈ [false, true], ∃ (s : State) (m : Nat), s.hasMod m = true ∧ m = 15 ∧ (BitVec.ofNat 64 v).toNat = v ∧ s.oden = o)
    ∧ (∀ o ∈ [false, true], ∃ (s : State) (m : Nat), s.hasMod m = true ∧ (s.mod m).off = o ∧ (s.mod m).trate = 0)
    ∧ (∀ n ∈ [2 ^ 24 - 1, 2 ^ 24], ∀ r ∈ [255, 256], ∃ (s : State) (m : Nat) (d : Fin 2), s.linkUp m = true ∧ m < 16 ∧ (s.mod m).winFlits[d] = n
      ∧ (s.mod m).winReplays[d] = r ∧ (s.mod m).limit.toNat = 256 ∧ (s.mod m).winReported[d] = false ∧ (s.mod m).autosd = false)
    ∧ (∃ (s : State) (m h b : Nat), s.hasMod m = true ∧ (upto 16).find? (fun k => (s.mod k).quiesce) = some m
      ∧ s.drains.find? (fun p => p.1 == h) = some (h, b) ∧ h = 63)
    ∧ (∃ (s : State) (m : Nat), s.hasMod m = true ∧ (s.mod m).quiesce = true ∧ (s.mod m).trained = false ∧ (s.mod m).change = 1 ∧ s.drains = []
      ∧ (s.mod m).pendingRet = [] ∧ (s.mod m).widthOf = 64)
    ∧ (∀ lane ∈ [63, 67], ∃ (s : State) (m d : Nat), s.hasMod m = true ∧ (∀ k < 16, (s.mod k).quiesce = false ∧ (s.mod k).change = 0)
      ∧ (s.mod m).inService = true ∧ d < 2 ∧ (s.mod m).laneIn d lane = true)
    ∧ (∃ (s : State) (m h : Nat), s.hasMod m = true ∧ (s.mod m).width ≠ 0 ∧ h < 64 ∧ s.steer.toList.getD h 0 = m ∧ s.carriers m ≠ [])
    ∧ (∃ (s : State) (m : Nat), s.hasMod m = true ∧ (s.mod m).width = 0) := by
  refine ⟨fun v hv o ho => ⟨{ linked {} with oden := o }, 15, ?_, rfl, ?_, rfl⟩, fun o ho => ⟨linked { off := o }, 15, ?_, ?_, ?_⟩,
    fun n hn r hr => ⟨linked { up := true, autosd := false, winFlits := Vector.replicate 2 n, winReplays := Vector.replicate 2 r }, 15, 1, ?_, ?_, ?_, ?_, ?_, ?_, ?_⟩,
    ⟨{ linked { quiesce := true } with drains := [(63, 3)] }, 15, 63, 3, ?_, ?_, ?_, rfl⟩,
    ⟨{ linked { quiesce := true, change := 1 } with drains := [] }, 15, ?_, ?_, ?_, ?_, rfl, ?_, ?_⟩,
    fun lane hl => ⟨linked { up := true }, 15, 1, ?_, ?_, ?_, by decide, ?_⟩,
    ⟨{ linked { up := true } with steer := Vector.replicate 64 15 }, 15, 63, ?_, ?_, ?_, ?_, ?_⟩, ⟨linked { width := 0 }, 15, ?_, ?_⟩⟩
  all_goals first
    | (revert lane; decide +kernel)
    | (revert n r; decide +kernel)
    | (revert v o; decide +kernel)
    | (revert o; decide +kernel)
    | decide +kernel

open Tests in
theorem witness_loom_pcie_faults :
    (∀ up ∈ [false, true], ∀ w ∈ [0, 4], ∃ (s : State) (p : Nat), s.hasPort p = true ∧ p = 7 ∧ (s.port p).en = true ∧ (s.port p).up = up
      ∧ (s.port p).lanes.toNat = (if up then 8 else 0) ∧ w < 8)
    ∧ (∃ (s : State) (p : Nat), s.hasPort p = true ∧ (s.port p).en = false ∧ (s.port p).up = false)
    ∧ (∀ n ∈ [63, 64], ∃ (s : State) (e : FqEntry) (ctl head tail : Nat), e.die < 2 ∧ ctl = (s.getSys e.die 0x821).toNat
      ∧ head = (s.getSys e.die 0x822).toNat ∧ tail = (s.getSys e.die 0x823).toNat ∧ e.record < 2 ^ 512 ∧ MemOk s
      ∧ ctl.testBit 8 = true ∧ head ≤ tail ∧ tail - head = n ∧ 2 ^ (ctl % 32) = 64 ∧ ctl % 32 ≤ 16 ∧ tail + 1 < 2 ^ 64)
    ∧ (∃ (s : State) (pa die : Nat), s.target pa = .hbm die) := by
  refine ⟨fun up hu w hw => ⟨{ linked {} with ports := Vector.replicate 8 { en := true, up := up, lanes := if up then 8 else 0 } }, 7, ?_, rfl, ?_, ?_, ?_, ?_⟩,
    ⟨{ linked {} with ports := Vector.replicate 8 {} }, 7, ?_, ?_, ?_⟩,
    fun n hn => ⟨((linked {}).setSys 1 0x821 0x106).setSys 1 0x823 (BitVec.ofNat 64 n), { die := 1, record := 2 ^ 200, asid := 0, src := 1 }, _, _, _, by decide, rfl,
      rfl, rfl, by decide +kernel, ?_, ?_, ?_, ?_, ?_, ?_, ?_⟩, ⟨linked {}, 0x3000000, 0, ?_⟩⟩
  all_goals first
    | (revert up w; decide +kernel) | (revert n; first | decide +kernel | (unfold MemOk; decide +kernel)) | decide +kernel

/-! ### The block sequencer -/

theorem Tests.eff_done {x : Eff} (h : (match x with | .done _ => true | _ => false) = true) : ∃ w, x = .done w := by
  cases x with
  | done w => exact ⟨w, rfl⟩
  | _ => exact nomatch h

theorem Tests.eff_trap {x : Eff} (h : (match x with | .trap _ _ _ => true | _ => false) = true) : ∃ i t w, x = .trap i t w := by
  cases x with
  | trap i t w => exact ⟨i, t, w, rfl⟩
  | _ => exact nomatch h

/-- What an entry's effect leaves. -/
def Tests.after (x : Eff) : State := match x with | .done w => w | _ => State.reset

theorem Tests.eff_eq {x : Eff} (h : (match x with | .done _ => true | _ => false) = true) : x = .done (Tests.after x) := by
  cases x with
  | done w => rfl
  | _ => exact nomatch h

theorem Tests.inl_ex {α β γ : Type} {x : (α ⊕ β) × γ} (h : x.1.isLeft = true) : ∃ i u, x = (.inl i, u) := by
  obtain ⟨y, u⟩ := x
  cases y with
  | inl i => exact ⟨i, u, rfl⟩
  | inr _ => exact nomatch h

/-- A context whose TIQ holds these instructions, its entries changed by `g`. -/
def Tests.tiqd (is : List Instr) (g : TiqEntry → TiqEntry) (f : Ctx → Ctx) : State :=
  Tests.shared 0 fun c => f { c with tiq := is.map fun i => g (c.entryOf i) }

/-- tadd over t9, t1, t2 of 32-bit integers; a load of G3 from A1. -/
def Tests.add9 : Instr := .tadd (Tests.tf 0 0xA)

theorem Tests.eff_block {x : Eff} (h : (match x with | .block _ _ => true | _ => false) = true) : ∃ b w, x = .block b w := by
  cases x with
  | block b w => exact ⟨b, w, rfl⟩
  | _ => exact nomatch h

/-- A context whose TIQ holds one entry that waits on event 3, issued. -/
def Tests.waiting (d : Bool) : State :=
  Tests.shared 0 fun c => { c.setG 20 6 with
    tiq := [{ (c.setG 20 6).entryOf (.evwait (Tests.sf 20 0 3)) with issued := true, done := d }] }

def Tests.waiting1 (d : Bool) : TiqEntry :=
  { ({ (Tests.waiting d).ctx with tiq := [] } : Ctx).entryOf (.evwait (Tests.sf 20 0 3)) with issued := true, done := d }

open Tests in
theorem witness_sequencer_steps :
    (∃ (s : State) (e : TiqEntry), s.ctx.tiq[0]? = some e ∧ s.ctx.run = .running ∧ s.mayIssue 0 e = true)
    ∧ (∃ (s : State) (e : TiqEntry), s.ctx.tiq[1]? = some e ∧ s.ctx.run = .running ∧ s.mayIssue 1 e = true)
    ∧ (∃ (s w : State) (e : TiqEntry) (eff : TiqEntry → State → Eff), s.ctx.tiq[0]? = some e ∧ s.ctx.run = .running
      ∧ s.returnOk 0 e = true ∧ effectOf e.i = some eff ∧ eff e s = .done w)
    ∧ (∃ (s w : State) (e : TiqEntry) (eff : TiqEntry → State → Eff), s.ctx.tiq[1]? = some e ∧ s.ctx.run = .running
      ∧ s.returnOk 1 e = true ∧ effectOf e.i = some eff ∧ eff e { s with ctx := { s.ctx with skipwp := false } } = .done w)
    ∧ (∀ d ∈ [false, true], ∃ (s w : State) (e : TiqEntry) (eff : TiqEntry → State → Eff), s.ctx.tiq[0]? = some e ∧ s.ctx.run = .running
      ∧ e.issued = true ∧ e.done = d ∧ s.core.reedmis = false ∧ e.returned = false ∧ effectOf e.i = some eff
      ∧ s.headEff e eff = .done w ∧ w.ctx.run = .running ∧ w.ctx.tiq ≠ [])
    ∧ (∀ d ∈ [false, true], ∃ (s w : State) (e : TiqEntry) (eff : TiqEntry → State → Eff) (b : Wait), s.ctx.tiq[0]? = some e
      ∧ s.ctx.run = .running ∧ e.issued = true ∧ e.done = d ∧ e.returned = false ∧ effectOf e.i = some eff ∧ s.headEff e eff = .block b w)
    ∧ (∃ (s : State) (e : TiqEntry) (eff : TiqEntry → State → Eff), s.ctx.tiq[0]? = some e ∧ s.ctx.run = .running
      ∧ e.issued = true ∧ e.returned = false ∧ effectOf e.i = some eff ∧ ∃ i tes w, s.headEff e eff = .trap i tes w)
    ∧ (∀ b ∈ [false, true], ∃ (s : State) (e : TiqEntry), s.ctx.tiq[0]? = some e ∧ s.ctx.run = .running ∧ e.issued = true ∧ e.done = true
      ∧ e.returned = true ∧ reedChecks e.i = true ∧ s.core.reedmis = b ∧ ∀ k ∈ s.ctx.copies, k.stolen = [])
    ∧ (∀ q ∈ [[], [add9]], ∃ s : State, s.ctx.run = .running ∧ s.ctx.tiq.map TiqEntry.i = q ∧ ∃ i u, s.nextUnit = (.inl i, u))
    ∧ (∃ (s w : State) (c : Nat) (e : TiqEntry) (es : List TiqEntry) (eff : TiqEntry → State → Eff), s.core.cid.toNat = c
      ∧ s.ctx.tiq = e :: es ∧ e.returned = false ∧ s.ctx.run = .running ∧ s.ctx.wait.kind = .txchg
      ∧ (∃ p ∈ s.xchg, some p.1 = s.ctx.launch ∧ p.2.dst = s.ctx.uid.toNat ∧ p.2.k = s.ctx.txcnt.toNat)
      ∧ effectOf e.i = some eff ∧ s.headEff e eff = .done w ∧ w.ctx.run = .running ∧ w.ctx.tiq ≠ [] ∧ w.core.cid = s.core.cid) := by
  refine ⟨⟨tiqd [add9] id id, _, rfl, rfl, ?_⟩, ⟨tiqd [add9, .ld 3 1 3 0 none] id id, _, rfl, rfl, ?_⟩,
    ⟨tiqd [.ld 3 1 3 0 none] (fun e => { e with issued := true }) id, _, _, _, rfl, rfl, ?_, rfl, eff_eq ?_⟩,
    ⟨tiqd [add9, .ld 3 1 3 0 none] (fun e => { e with issued := true }) id, _, _, _, rfl, rfl, ?_, rfl, eff_eq ?_⟩,
    fun d hd => ⟨tiqd [add9] (fun e => { e with issued := true, done := d }) id, _, _, _,
      rfl, rfl, rfl, rfl, rfl, rfl, rfl, eff_eq ?_, ?_, ?_⟩,
    fun d hd => ?block,
    ⟨tiqd [.tadd (tf 0 1)] (fun e => { e with issued := true }) id, _, _, rfl, rfl, rfl, rfl, rfl, eff_trap ?_⟩,
    fun b hb => ⟨let s := tiqd [add9] (fun e => { e with issued := true, done := true, returned := true }) id
                 { s with core := { s.core with reedmis := b } }, _, rfl, rfl, rfl, rfl, rfl, rfl, rfl, fun k hk => nomatch hk⟩,
    fun q hq => ⟨(tiqd q id id).mapCtx fun c => { c with pc := 2 }, rfl, ?_, inl_ex ?_⟩,
    ⟨let s := pair two fun c => { c with tiq := [c.entryOf (.txchg mf)], wait := { kind := .txchg } }
     { s with xchg := [(0, { src := 2, dst := 0, k := 0, len := 8, bytes := 5 })] }, _, _, _, _, _, rfl, rfl, rfl, rfl, rfl, ?_, rfl, eff_eq ?_,
     ?_, ?_, ?_⟩⟩
  case block =>
    obtain ⟨b, w, h⟩ := eff_block (x := (waiting d).headEff (waiting1 d) (effEvwait (sf 20 0 3))) (by revert d; decide +kernel)
    exact ⟨waiting d, w, waiting1 d, _, b, rfl, rfl, rfl, rfl, rfl, rfl, h⟩
  all_goals first
    | decide +kernel | (revert d; decide +kernel) | (revert q; decide +kernel)

/-! ### Scheduling -/

/-- An event wait of LID 0 of `two`, whose place is cluster 0 of die 0; launch 1 of one unit waits to be dispatched. -/
def Tests.blocked (l : Launch) : State :=
  let s := Tests.pair { Tests.two with place := some (0, 0) } fun c => { c with
    tiq := [c.entryOf (.evwait (Tests.sf 20 0 3))], wait := { kind := .evwait } }
  { s with launches := [{ Tests.two4 with dies := 1 }, l]
           waiters := [{ idx := some 0, ev := 3, thr := 9, kind := .evwait, ctxid := s.ctx.ctxid, launch := some 0 }] }

/-- Launch 5 over a record, nothing running; entry 1 of the token table describes a region from 2^39. -/
def Tests.sched (r : Nat) (e : Tok) : State :=
  { Tests.lending e { q := 0 } with ctx := {}, launches := [{ Tests.fresh r with id := 5 }], groups := [] }

/-- The record lends that region to its unit. -/
def Tests.lends (r : Nat) : Nat := Tests.rec 1 + 2 ^ 64 + r * 2 ^ 3072

/-- What a lend comes to: performed, failed, to wait for. -/
def Tests.lent (x : Lent) : Nat := match x with | .ok _ => 0 | .fail => 1 | .wait => 2

theorem Tests.lend_of {x : Lent} (n : Nat) (h : Tests.lent x = n) :
    (n = 0 → ∃ w, x = .ok w) ∧ (n = 1 → x = .fail) ∧ (n = 2 → x = .wait) := by
  subst h
  cases x with
  | ok w => exact ⟨fun _ => ⟨w, rfl⟩, fun h => absurd h (by simp [Tests.lent]), fun h => absurd h (by simp [Tests.lent])⟩
  | fail => exact ⟨fun h => absurd h (by simp [Tests.lent]), fun _ => rfl, fun h => absurd h (by simp [Tests.lent])⟩
  | wait => exact ⟨fun h => absurd h (by simp [Tests.lent]), fun h => absurd h (by simp [Tests.lent]), fun _ => rfl⟩

theorem Tests.some_ex {α : Type} {x : Option α} (h : x.isSome = true) : ∃ p, x = some p := Option.isSome_iff_exists.mp h

open Tests in
theorem witness_preemption :
    (∀ b ∈ [true, false], ∃ (s : State) (c : Nat), ((s.unitAt c).2.run == .running) = b)
    ∧ (∃ (s : State) (r : BitVec 8) (g : Group), s.ctx.run = .running ∧ s.core.prereq = some r ∧ s.group = some g)
    ∧ (∃ (s : State) (r : BitVec 8), s.ctx.run = .running ∧ s.core.prereq = some r ∧ s.groups = [] ∧ s.waiters = []
      ∧ (∀ k ∈ s.ctx.copies, k.stolen = []) ∧ ∀ e ∈ s.ctx.tiq, e.returned = false)
    ∧ (∃ s : State, s.core.prereq = none)
    ∧ (∃ (s : State) (l g : Nat) (h : Group), s.groups = [h] ∧ Blocked s l g h)
    ∧ (∃ (s : State) (l g : Nat) (h : Group), s.groups = [h] ∧ ¬ Blocked s l g h) := by
  refine ⟨fun b hb => ⟨pair two id, if b then 0 else 255, ?_⟩,
    ⟨let s := pair two id; { s with core := { s.core with prereq := some 1 } }, 1, two, rfl, rfl, rfl⟩,
    ⟨let s := booted 4; { s with core := { s.core with prereq := some 1 } }, 1, rfl, rfl, rfl, rfl,
      fun k hk => (nomatch hk), fun e he => (nomatch he)⟩, ⟨booted 4, rfl⟩,
    ⟨blocked { fresh (rec 1) with id := 1 }, 0, 0, _, rfl, rfl, rfl, ?_, ?_, (0, 0), { two4 with dies := 1 }, rfl, rfl, ?_⟩,
    ⟨blocked { fresh (rec 1) with id := 1 }, 0, 1, _, rfl, fun h => absurd h.2.1 (by decide)⟩⟩
  case refine_1 => revert b; decide +kernel
  all_goals decide +kernel

/-- The place of LID 0 on core 0. -/
def Tests.spot : Spot := { req := { idx := 0, inst := none, die := 0, lids := [0] }, cl := 0, seats := [(0, 0)] }

open Tests in
theorem witness_dispatch : ∃ (s : State) (l g : Nat) (L : Launch), s.launchOf l = some L ∧ s.mayDispatch L = true ∧ s.resumes L = []
    ∧ L.nextFresh = some g ∧ ∃ p, s.freshPlan L g = some p ∧ ∀ d ∈ planDies p, s.isTurn L d = true := by
  refine ⟨sched (rec 1) 0, 5, 0, { fresh (rec 1) with id := 5 }, rfl, ?_, ?_, ?_, [spot], ?_, ?_⟩
  all_goals decide +kernel

/-- Group 0 of launch 5, staged on core 0; whether a unit of it has started before. -/
def Tests.starting (r : Nat) (e : Tok) (b : Bool) : State :=
  let s := Tests.sched r e
  { s with
    groups := [{ launch := 5, idx := 0, size := 0, place := some (0, 0), begun := b }]
    core := { s.core with staged := some (Launch.unit { Tests.fresh r with id := 5 } 0 none 0) } }

open Tests in
theorem witness_starts :
    (∃ (s : State) (h : Group) (L : Launch), s.groups = [h] ∧ s.launchOf h.launch = some L ∧ s.mayStart h = true ∧ h.begun = true)
    ∧ ∀ x ∈ [(rec 1, 0, 0), (lends 5, 0, 1), (lends (2 ^ 39), token rootId tokTransit 0 0 0, 2)],
      ∃ (s w : State) (h : Group) (L : Launch), s.groups = [h] ∧ s.launchOf h.launch = some L ∧ s.mayStart h = true ∧ h.begun = false
        ∧ (x.2.2 = 0 → s.lendAll L.asid (L.lendsOf h.idx) = .ok w) ∧ (x.2.2 = 1 → s.lendAll L.asid (L.lendsOf h.idx) = .fail)
        ∧ (x.2.2 = 2 → s.lendAll L.asid (L.lendsOf h.idx) = .wait) := by
  refine ⟨⟨starting (rec 1) 0 true, _, { fresh (rec 1) with id := 5 }, rfl, rfl, by decide +kernel, rfl⟩, fun x hx => ?_⟩
  have h : (starting x.1 x.2.1 false).mayStart { launch := 5, idx := 0, size := 0, place := some (0, 0) } = true
      ∧ lent ((starting x.1 x.2.1 false).lendAll 0 (Launch.lendsOf { fresh x.1 with id := 5 } 0)) = x.2.2 := by
    revert x
    decide +kernel
  have k := lend_of x.2.2 h.2
  by_cases z : x.2.2 = 0
  · obtain ⟨w, hw⟩ := k.1 z
    exact ⟨starting x.1 x.2.1 false, w, _, { fresh x.1 with id := 5 }, rfl, rfl, h.1, rfl, fun _ => hw, k.2.1, k.2.2⟩
  · exact ⟨starting x.1 x.2.1 false, booted 0, _, { fresh x.1 with id := 5 }, rfl, rfl, h.1, rfl, fun y => absurd y z, k.2.1, k.2.2⟩

/-- Group 0 of launch 5 off the part, its one context stopped. -/
def Tests.returning : State :=
  { Tests.sched (Tests.rec 1) 0 with
    groups := [{ launch := 5, idx := 0, size := 0 }]
    saved := [{ (Tests.pair Tests.two id).ctx with run := .stopped, launch := some 5, cgr := 0x100000000, lid := 0, reason := 1 }] }

/-- A pre-emptible group of class 0 runs; launch 5 of class 1 asks for more pad than a cluster has. -/
def Tests.crowded : State :=
  let s := Tests.pair { Tests.two with launch := 6, place := some (0, 0) } fun c => { c with launch := some 6 }
  { s with
    launches := [{ Tests.fresh (Tests.rec 1 + 4 * 2 ^ 48) with id := 6 },
      { Tests.fresh (Tests.rec 1 + 2 ^ 32 + 255 * 2 ^ 72) with id := 5, q := 1 }] }

/-- A context staged on core 0, stopped; its core's running slot as `r` says. -/
def Tests.stagedOn (r : Bool) : State :=
  let s := Tests.pair Tests.two id
  { s with
    groups := []
    core := { s.core with staged := some { s.ctx with run := .stopped, tiq := [s.ctx.entryOf (.evwait (Tests.sf 20 0 3))] } }
    ctx := if r then s.ctx else {} }

open Tests in
theorem witness_resumption :
    (∃ (s : State) (l g : Nat) (L : Launch) (h : Group) (p : List Spot), s.launchOf l = some L ∧ s.mayDispatch L = true
      ∧ s.resumes L = [(h, p)] ∧ h.idx = g ∧ ∀ d ∈ planDies p, s.isTurn L d = true)
    ∧ (∃ (s : State) (l g : Nat) (L v : Launch) (h : Group), s.launchOf l = some L ∧ s.mayDispatch L = true ∧ s.groups = [h] ∧ h.launch ≠ l
      ∧ s.resumes L = [] ∧ L.nextFresh = some g ∧ s.freshPlan L g = none ∧ L.dmr = false ∧ L.place = 1 ∧ s.launchOf h.launch = some v
      ∧ v.preemptible = true ∧ v.cls < L.cls ∧ (∃ k, h.place = some (0, k)) ∧ s.dieUp 0 = true ∧ s.runningOf h ≠ [])
    ∧ (∀ r ∈ [true, false], ∃ (s : State) (c : Nat) (x : Ctx), (s.unitAt c).1.staged = some x ∧ (s.unitAt c).1.cid.toNat = c ∧ c < 256
      ∧ x.run = .stopped ∧ s.groups = [] ∧ s.gone = [] ∧ ((s.unitAt c).2.run == .idle) = !r ∧ x.tiq ≠ [])
    ∧ (∃ (s : State) (c : Nat), (s.unitAt c).2.run ≠ .idle ∧ s.groups = []) := by
  refine ⟨⟨returning, 5, 0, { fresh (rec 1) with id := 5 }, { launch := 5, idx := 0, size := 0 }, [spot], rfl, ?_, ?_, rfl, ?_⟩,
    ⟨crowded, 5, 0, _, _, _, rfl, ?_, rfl, ?_, ?_, ?_, ?_, ?_, ?_, rfl, ?_, ?_, ⟨0, rfl⟩, ?_, ?_⟩,
    fun r hr => ⟨stagedOn r, 0, _, rfl, ?_, ?_, rfl, rfl, rfl, ?_, ?_⟩, ⟨stagedOn true, 0, ?_, rfl⟩⟩
  all_goals first
    | decide +kernel
    | exact List.cons_ne_nil _ _
    | (revert r; decide +kernel)

/-! ### Strips and merge windows -/

/-- `n` + 1 elements of eight bytes to be copied 64 KiB further, some strips done; 512 elements make a strip. -/
def Tests.strips (n : Nat) (done : List Nat) (stolen : List (Nat × Nat × Nat) := []) : State := Tests.copying 0 fun c => { c with
  copies := [{ desc := BitVec.ofNat 1024 (Tests.descOf 0x3000000 0x4003010000 + n * 2 ^ 256 + 8 * 2 ^ 384 + 8 * 2 ^ 704), ch := 1, pc := 8, done := done,
                checked := n + 1, stolen := stolen }] }

/-- The same as a queue's copy, its channel at HOME pages. -/
def Tests.qstrips (n : Nat) (done : List Nat) : State := Tests.queued { q := 0, st := .running, copies :=
  [{ seq := 9, desc := BitVec.ofNat 1024 (Tests.descOf (2 ^ 38 + 0x6500000) (2 ^ 38 + 0x6510000) + n * 2 ^ 256 + 8 * 2 ^ 384 + 8 * 2 ^ 704), done := done,
       checked := n + 1 }] }

/-- Two tile loads of a merge group in the TIQ. -/
def Tests.merging : State := Tests.memTiles.mapCtx fun c => { c with
  tiq := List.replicate 2 (c.entryOf (.tldm { Tests.tf 0 0 with tb := 0, gs := 20, as := 1 })) }

/-- 513 elements of eight bytes to be copied to `va`, the first of two strips done. -/
def Tests.stripTo (va : Nat) (f : State → State) : State := f (Tests.copying 0 fun c => { c with
  copies := [{ desc := BitVec.ofNat 1024 (Tests.descOf 0x3000000 va + 512 * 2 ^ 256 + 8 * 2 ^ 384 + 8 * 2 ^ 704), ch := 1, pc := 8,
               done := [0], checked := 512 }] })

/-- The same as a queue's copy. -/
def Tests.qstripTo (va : Nat) (f : State → State) : State := f (Tests.queued { q := 0, st := .running, copies :=
  [{ seq := 9, desc := BitVec.ofNat 1024 (Tests.descOf (2 ^ 38 + 0x6500000) va + 512 * 2 ^ 256 + 8 * 2 ^ 384 + 8 * 2 ^ 704),
     done := [0], checked := 512 }] })

/-- A region from 2^39 in TRANSIT to a holder. -/
def Tests.transit (h : Nat) (s : State) : State :=
  let s := s.wr (s.local_ (placeTables + 0x30010)) 8 (s.local_ 0 / 256 + 0x1B + 2 ^ 48)
  ((s.setSys 0 0x818 0x5000000).setSys 0 0x819 8).wr 0x5000040 64 (Tests.token h tokTransit 0 1 3)

/-- What a strip's run leaves, and the stop it meets. -/
def Tests.strS {α : Type} (x : StripRun α) : State := match x with | .done _ s => s | .stop _ s => s | .wait _ s => s
def Tests.strF {α : Type} (x : StripRun α) : CopyStop := match x with | .stop f _ => f | _ => { cause := .linkLost, va := 0 }

theorem Tests.strip_eq {x : StripRun Nat} {n : Nat} (h : (match x with | .done m _ => m == n | _ => false) = true) :
    x = .done n (Tests.strS x) := by
  cases x with
  | done m s => rw [← eq_of_beq h]; rfl
  | _ => exact nomatch h

theorem Tests.stop_eq {α : Type} {x : StripRun α} (h : (match x with | .stop _ _ => true | _ => false) = true) :
    x = .stop (Tests.strF x) (Tests.strS x) := by
  cases x with
  | stop f s => rfl
  | _ => exact nomatch h

theorem Tests.wait_eq {α : Type} {x : StripRun α} {a : Option Addr} (h : (match x with | .wait b _ => b == a | _ => false) = true) :
    x = .wait a (Tests.strS x) := by
  cases x with
  | wait b s => rw [← eq_of_beq h]; rfl
  | _ => exact nomatch h

open Tests in
theorem witness_copy_strip_done : ∀ p ∈ [(513, [], 1), (1025, [(2, 1, 0)], 2)], ∃ (s w : State) (k n : Nat) (y : Copy) (m : Nat), s.ctx.copies[k]? = some y ∧ s.ctx.run = .running ∧ y.stop = none
      ∧ stripMoves y.desc y.done n = true ∧ y.inFlight n = true ∧ s.stripStalls y.desc n = false
      ∧ s.runStrip y.desc s.copyParty y.done y.checked n = .done m w ∧ w.core.cid = s.core.cid ∧ n = p.2.2 := by
  refine fun p hp => ⟨strips p.1 [0] p.2.1, _, 0, p.2.2, _, if p.1 = 513 then 514 else 1026, rfl, rfl, rfl, ?_, ?_, ?_, strip_eq ?_, ?_, rfl⟩
  all_goals first | decide +kernel | (revert p; decide +kernel)

open Tests in
theorem witness_copy_strip_stop : ∃ (s w : State) (k n : Nat) (y : Copy) (f : CopyStop), s.ctx.copies[k]? = some y ∧ s.ctx.run = .running ∧ y.stop = none
      ∧ stripMoves y.desc y.done n = true ∧ y.inFlight n = true ∧ s.stripStalls y.desc n = false
      ∧ s.runStrip y.desc s.copyParty y.done y.checked n = .stop f w ∧ w.core.cid = s.core.cid := by
  refine ⟨stripTo (2 ^ 70) id, _, 0, 1, _, _, rfl, rfl, rfl, ?_, ?_, ?_, stop_eq ?_, ?_⟩
  all_goals decide +kernel

open Tests in
theorem witness_copy_strip_wait : ∃ (s w : State) (k n : Nat) (y : Copy) (a : Option Addr), s.ctx.copies[k]? = some y ∧ s.ctx.run = .running ∧ y.stop = none
      ∧ stripMoves y.desc y.done n = true ∧ y.inFlight n = true ∧ s.stripStalls y.desc n = false
      ∧ s.runStrip y.desc s.copyParty y.done y.checked n = .wait a w ∧ w.core.cid = s.core.cid := by
  refine ⟨stripTo (2 ^ 39) (transit 0), _, 0, 1, _, some (2 ^ 39 + 4096), rfl, rfl, rfl, ?_, ?_, ?_, wait_eq ?_, ?_⟩
  all_goals decide +kernel

open Tests in
theorem witness_strip_steal : ∀ t ∈ [1, 7], ∃ (s : State) (k n : Nat) (y : Copy), s.ctx.copies[k]? = some y ∧ s.ctx.run = .running ∧ y.stop = none
      ∧ y.inFlight n = false ∧ t < 8 ∧ (s.unitAt (s.core.cid.toNat / 8 * 8 + t)).2.copies = []
      ∧ (∀ u ∈ s.units, ∀ z ∈ u.2.copies, ∀ p ∈ z.stolen, p.2.1 ≠ s.core.cid.toNat / 8 * 8 + t) ∧ s.core.cid.toNat % 128 < 96
      ∧ 2 ≤ y.unstarted.length
      ∧ (y.unstarted.filter fun i => decide (i ≤ (((List.range (Desc.strips y.desc)).find? fun i => !y.done.contains i).getD 0) + 255)).getLast?
          = some n := by
  refine fun t ht => ⟨strips 1025 [0], 0, 2, _, rfl, rfl, rfl, ?_, ?_, ?_, ?_, ?_, ?_, ?_⟩
  all_goals first | decide +kernel | (revert t; decide +kernel)

open Tests in
theorem witness_queue_strip_done : ∃ (s u v w : State) (q n d : Nat) (x : Queue) (y : QCopy) (ys : List QCopy) (m : Nat), s.queue q = some x ∧ x.copies = y :: ys
      ∧ y.stopped = false ∧ stripMoves y.desc y.done n = true ∧ s.dstDie q y.desc = (d, u)
      ∧ v = { u with core := { u.core with cid := BitVec.ofNat 8 (128 * d) } }
      ∧ v.runStrip y.desc (v.copyGroup q) y.done y.checked n = .done m w ∧ ∃ k < Desc.strips y.desc, k ≠ n ∧ k ∉ y.done := by
  refine ⟨qstrips 1025 [0], _, _, _, 0, 2, 0, _, _, _, 1026, rfl, rfl, rfl, ?_, pair_of ?_, rfl, strip_eq ?_, ?_⟩
  all_goals decide +kernel

open Tests in
theorem witness_queue_strip_stop : ∃ (s u v w : State) (q n d : Nat) (x : Queue) (y : QCopy) (ys : List QCopy) (f : CopyStop), s.queue q = some x ∧ x.copies = y :: ys
      ∧ y.stopped = false ∧ stripMoves y.desc y.done n = true ∧ s.dstDie q y.desc = (d, u)
      ∧ v = { u with core := { u.core with cid := BitVec.ofNat 8 (128 * d) } }
      ∧ v.runStrip y.desc (v.copyGroup q) y.done y.checked n = .stop f w := by
  refine ⟨qstripTo (2 ^ 70) id, _, _, _, 0, 1, 0, _, _, _, _, rfl, rfl, rfl, ?_, pair_of ?_, rfl, stop_eq ?_⟩
  all_goals decide +kernel

open Tests in
theorem witness_queue_strip_wait : ∃ (s u v w : State) (q n d : Nat) (x : Queue) (y : QCopy) (ys : List QCopy) (a : Option Addr), s.queue q = some x ∧ x.copies = y :: ys
      ∧ y.stopped = false ∧ stripMoves y.desc y.done n = true ∧ s.dstDie q y.desc = (d, u)
      ∧ v = { u with core := { u.core with cid := BitVec.ofNat 8 (128 * d) } }
      ∧ v.runStrip y.desc (v.copyGroup q) y.done y.checked n = .wait a w := by
  refine ⟨qstripTo (2 ^ 39) (transit 0x200000), _, _, _, 0, 1, 0, _, _, _, some (2 ^ 39 + 4096), rfl, rfl, rfl, ?_, pair_of ?_, rfl, wait_eq ?_⟩
  all_goals decide +kernel

open Tests in
theorem witness_merge_steps :
    (∃ (s w : State) (f : TileFields) (e : TiqEntry) (es : List TiqEntry) (eff : TiqEntry → State → Eff), s.ctx.run = .running
      ∧ s.ctx.tiq = e :: es ∧ e.i = .tldm f ∧ e.returned = false ∧ effectOf e.i = some eff ∧ s.headEff e eff = .done w
      ∧ w.ctx.run = .running ∧ w.ctx.tiq ≠ [] ∧ w.core.cid = s.core.cid)
    ∧ (∃ s : State, s.ctx.run = .running ∧ s.ctx.tiq = []) ∧ ∃ s : State, s.ctx.run = .running ∧ 0 < s.merges.length := by
  refine ⟨⟨merging, _, _, _, _, _, rfl, rfl, rfl, rfl, rfl, eff_eq ?_, ?_, ?_, ?_⟩, ⟨memTiles, rfl, rfl⟩, ⟨joining, rfl, by decide⟩⟩
  all_goals decide +kernel

/-! ### Staging, switches, tokens, shootdowns -/

/-- One slice of launch 5, or of queue 0; the budgets are those of the queue and of the die. -/
def Tests.slicing (x : Slice) : State :=
  let s := Tests.queued { q := 0 }
  { (s.setSys 0 0x833 1).setSys 0 0x835 50 with
    ctx := {}
    launches := [{ Tests.fresh (Tests.rec 1) with id := 5 }]
    groups := [{ launch := 5, idx := 0, place := some (0, 0), size := 0x100 }]
    slices := [x] }

/-- An L2 slice of unit 0 over 5000 bytes of HOME, or of a region. -/
def Tests.slice (st : SliceState) (csp : Bool) : Slice :=
  { launch := some 5, q := 0, k := 0, csp := csp, shared := false, asid := 0, src := 2 ^ 38 + 0x6500000, len := 5000, dst := 0, st := st }

/-- Unit 0 of launch 5 is staged on core 0 behind that slice; entry 1 of the token table describes a region from 2^39. -/
def Tests.deadline (st : SliceState) (r : Nat := Tests.rec 1) (e : Tok := 0) : State :=
  let s := Tests.slicing (Tests.slice st false)
  let s := s.wr (s.local_ (placeTables + 0x30010)) 8 (s.local_ 0 / 256 + 0x1B + 2 ^ 48)
  let s := ((s.setSys 0 0x818 0x5000000).setSys 0 0x819 8).wr 0x5000040 64 e
  { s with
    launches := [{ Tests.fresh r with id := 5 }]
    core := { s.core with staged := some (Launch.unit { Tests.fresh r with id := 5 } 0 none 0) } }

/-- Sequencer 2 has run 64 commands of queue 0, of priority 3; queue 1, of priority `p`, is READY. -/
def Tests.switching (ran p : Nat) : State :=
  let s := Tests.queued { q := 0, st := .running, ran := ran }
  { s.wr 0x6000040 64 (Tests.qdesc + p * 2 ^ 264 - 3 * 2 ^ 264) with queues := [{ q := 0, st := .running, ran := ran }, { q := 1, st := .ready }], nextStamp := 1 }

/-- Core 0 has three translations, and shootdowns to acknowledge. -/
def Tests.shot (xs : List Stale) : State :=
  let s := Tests.mapped id
  { s with
    shoot := xs.map fun x => (0, x)
    core := { s.core with tlb := [⟨1, 5, 16, 0, 0⟩, ⟨1, 6, 16, 0, 0⟩, ⟨2, 5, 16, 0, 0⟩] } }

/-- A slice in WAIT over host memory, mapped SHARED from 3 * 2^38. -/
def Tests.hosted (x : Slice) : State :=
  let s := Tests.slicing { x with src := 3 * 2 ^ 38 }
  s.wr (s.local_ (placeTables + 0x30018)) 8 (255 * 2 ^ 40 + 0x2B)

open Tests in
theorem witness_slices :
    (∃ (s : State) (k : Nat) (x : Slice), s.slices[k]? = some x ∧ x.st = .wait ∧ x.csp = true
      ∧ ∃ g ∈ s.groups, x.launch = some g.launch ∧ x.k = g.idx ∧ g.place.isSome = true)
    ∧ (∀ b ∈ [false, true], ∀ n ∈ [none, some 5], ∃ (s u : State) (k : Nat) (x y : Slice), s.slices[k]? = some x ∧ x.st = .wait ∧ x.csp = false
      ∧ s.admits x (s.admitDie x) = true ∧ y = { x with die := s.admitDie x, charge := (x.len + 255) / 256 * 256, st := .admitted }
      ∧ u = (s.setSlice k y).bindSlice y (s.admitDie x) ∧ u.hostSource y = b ∧ x.launch = n)
    ∧ (∀ st ∈ [SliceState.admitted, .fill], ∃ (s : State) (k : Nat) (x : Slice), s.slices[k]? = some x ∧ x.st = st ∧ x.st ≠ .wait ∧ x.csp = false
      ∧ (∀ i < x.nstrips, s.stripAllowed x i = true) ∧ x.stage = none ∧ s.getSys 0 0x835 ≠ 0 ∧ 1 < x.nstrips ∧ 1 ∉ x.strips ∧ 0 ∈ x.strips) := by
  refine ⟨⟨slicing (slice .wait true), 0, _, rfl, rfl, rfl, ?_⟩,
    fun b hb n hn => ⟨if b then hosted { slice .wait false with launch := n } else slicing { slice .wait false with launch := n }, _, 0,
      { slice .wait false with launch := n, src := if b then 3 * 2 ^ 38 else 2 ^ 38 + 0x6500000 }, _, ?_, rfl, rfl, ?_, rfl, rfl, ?_, rfl⟩,
    fun st hs => ⟨slicing { slice st false with strips := [0] }, 0, _, rfl, rfl, ?_, rfl, ?_, rfl, ?_, ?_, ?_, ?_⟩⟩
  all_goals first
    | decide +kernel
    | (revert st; decide +kernel)
    | (revert b n; decide +kernel)

open Tests in
theorem witness_deadline :
    (∃ (s : State) (l g : Nat) (h : Group) (L : Launch) (c : Ctx), s.groups = [h] ∧ h.launch = l
      ∧ h.idx = g ∧ s.launchOf l = some L ∧ s.others = [] ∧ s.core.staged = some c ∧ h.has c = true ∧ c.run = .ready ∧ s.ctx.run = .idle
      ∧ s.core.reserved = none ∧ ∀ x ∈ s.groupSlices h, s.sliceOk x = true)
    ∧ ∀ x ∈ [(rec 1, 0, 0), (lends 5, 0, 1), (lends (2 ^ 39), token rootId tokTransit 0 0 0, 2)],
      ∃ (s u : State) (l g : Nat) (h : Group) (L : Launch) (c : Ctx), s.groups = [h] ∧ h.launch = l
      ∧ h.idx = g ∧ s.launchOf l = some L ∧ s.others = [] ∧ s.core.staged = some c ∧ h.has c = true ∧ c.run = .ready ∧ s.ctx.run = .idle
      ∧ s.core.reserved = none ∧ (∃ x ∈ s.groupSlices h, s.sliceOk x = false) ∧ (x.2.2 = 0 → s.startLends h = .ok u)
      ∧ (x.2.2 = 1 → s.startLends h = .fail) ∧ (x.2.2 = 2 → s.startLends h = .wait) := by
  refine ⟨⟨deadline .ready, 5, 0, _, { fresh (rec 1) with id := 5 }, _, rfl, rfl, rfl, rfl, rfl, rfl, ?_, ?_, rfl, rfl, ?_⟩, fun x hx => ?_⟩
  rotate_right
  · have h : (∃ y ∈ (deadline .wait x.1 x.2.1).groupSlices { launch := 5, idx := 0, place := some (0, 0), size := 0x100 },
          (deadline .wait x.1 x.2.1).sliceOk y = false)
        ∧ Group.has { launch := 5, idx := 0, place := some (0, 0), size := 0x100 } (Launch.unit { fresh x.1 with id := 5 } 0 none 0) = true
        ∧ (Launch.unit { fresh x.1 with id := 5 } 0 none 0).run = .ready
        ∧ lent ((deadline .wait x.1 x.2.1).startLends { launch := 5, idx := 0, place := some (0, 0), size := 0x100 }) = x.2.2 := by
      revert x
      decide +kernel
    have k := lend_of x.2.2 h.2.2.2
    by_cases z : x.2.2 = 0
    · obtain ⟨w, hw⟩ := k.1 z
      exact ⟨deadline .wait x.1 x.2.1, w, 5, 0, _, { fresh x.1 with id := 5 }, _, rfl, rfl, rfl, rfl, rfl, rfl, h.2.1, h.2.2.1, rfl, rfl, h.1,
        fun _ => hw, k.2.1, k.2.2⟩
    · exact ⟨deadline .wait x.1 x.2.1, booted 0, 5, 0, _, { fresh x.1 with id := 5 }, _, rfl, rfl, rfl, rfl, rfl, rfl, h.2.1, h.2.2.1, rfl, rfl, h.1,
        fun y => absurd y z, k.2.1, k.2.2⟩
  all_goals decide +kernel

open Tests in
theorem witness_switch :
    (∀ p ∈ [(64, 3, 1), (63, 3, 1), (64, 3, 0)], ∃ (s t : State) (n q : Nat) (x y : Queue), s.seqs.find? (fun p => p.1 == n) = some (n, x.q)
      ∧ s.queue x.q = some x ∧ t = (s.makeReady x.q).release x.q ∧ t.pickQueue n = some y ∧ x.ran = p.1 ∧ y.q = 1 ∧ q = p.2.2
      ∧ ∃ z ∈ s.queues, z.st = .ready ∧ s.qPrio x.q ≤ s.qPrio z.q)
    ∧ (∃ (s t : State) (n : Nat) (x y : Queue), s.seqs.find? (fun p => p.1 == n) = some (n, x.q)
      ∧ s.queue x.q = some x ∧ t = (s.makeReady x.q).release x.q ∧ t.pickQueue n = some y ∧ x.ran = 64
      ∧ ∀ z ∈ s.queues, z.st = .ready → s.qPrio z.q < s.qPrio x.q)
    ∧ (∀ st ∈ [tokTransit, tokHeld], ∃ (s : State) (k : Nat), MemOk s ∧ k < s.tokN ∧ (s.tok k).v = true ∧ (s.tok k).state = st
      ∧ s.cutOff (s.tok k).giver (s.tok k).holder = false ∧ s.hasEnded (s.tok k).holder = false)
    ∧ (∃ (s : State) (c : Nat) (x : Stale), (c, x) ∈ s.shoot ∧ ∃ u ∈ s.units, u.1.cid.toNat = c ∧ u.1.tlb ≠ [])
    ∧ (∃ (s : State) (c : Nat), ∀ x, (c, x) ∉ s.shoot) := by
  refine ⟨fun p hp => ⟨switching p.1 p.2.1, _, 2, p.2.2, { q := 0, st := .running, ran := p.1 }, { q := 1, st := .ready }, rfl, rfl, rfl, ?_, rfl, rfl, rfl, ?_⟩,
    ⟨switching 64 2, _, 2, { q := 0, st := .running, ran := 64 }, { q := 0, st := .ready, ran := 64, stamp := 1 }, rfl, rfl, rfl, ?_, rfl, ?_⟩,
    fun st hs => ⟨owned (token 5 st 0 2 0) id, 1, ?_, ?_, ?_, ?_, ?_, ?_⟩,
    ⟨shot [.space 1], 0, .space 1, List.mem_cons_self .., _, List.mem_cons_self .., rfl, ?_⟩,
    ⟨shot [], 0, fun x => List.not_mem_nil⟩⟩
  all_goals first
    | decide +kernel
    | (revert p; decide +kernel)
    | (revert st; first | decide +kernel | (unfold MemOk; decide +kernel))

/-! ### Host requests and registers -/

/-- The memory of `mapped`, with no address space. -/
def Tests.unmapped : State := (Tests.mapped id).setSys 0 0x811 0

/-- A request of the physical function. -/
def Tests.req (off width : Nat) (write : Bool) (op : Option (BitVec 4) := none) : HostReq := ⟨off, width, write, op, 5, 0, 0⟩

/-- The first 1 MiB lies in a region of device holder 5, and in a HOME page. -/
def Tests.both : State := Tests.owned (Tests.token 5 0 0 0 0) id

theorem Tests.leaf_below {s : State} {pa n l base va i : Nat} {e : Leaf} {x : Leaf × Nat} (hb : s.inHbm base = true)
    (hi : i < if l = 0 then 4096 else 2048) (he : BitVec.ofNat 64 (s.rd (base + 8 * i) 8) = e)
    (hv : (!e.v || e.getLsbD 7) = false) (hl : e.leaf = false) (h : x ∈ s.leavesAt pa n (l + 1) (e.pfn * 65536) (va + i * 2 ^ levelShift l)) :
    x ∈ s.leavesAt pa (n + 1) l base va := by
  rw [State.leavesAt]
  simp only [hb, Bool.not_true, Bool.false_eq_true, if_false, List.mem_flatMap]
  refine ⟨i, by simpa [upto] using hi, ?_⟩
  simp only [he, hv, hl, Bool.false_eq_true, if_false]
  exact h

theorem Tests.leaf_at {s : State} {pa n l base va i : Nat} {e : Leaf} (hb : s.inHbm base = true)
    (hi : i < if l = 0 then 4096 else 2048) (he : BitVec.ofNat 64 (s.rd (base + 8 * i) 8) = e)
    (hv : (!e.v || e.getLsbD 7) = false) (hl : e.leaf = true)
    (h : 2 ≤ l ∧ e.pfn * 65536 ≤ pa ∧ pa < e.pfn * 65536 + 2 ^ levelShift l) :
    (e, va + i * 2 ^ levelShift l + (pa - e.pfn * 65536)) ∈ s.leavesAt pa (n + 1) l base va := by
  rw [State.leavesAt]
  simp only [hb, Bool.not_true, Bool.false_eq_true, if_false, List.mem_flatMap]
  refine ⟨i, by simpa [upto] using hi, ?_⟩
  simp only [he, hv, hl, Bool.false_eq_true, if_false, if_true, if_pos h, List.mem_singleton]

/-- The leaf at index i of the third table. -/
theorem Tests.both_leaf {i : Nat} {e : Leaf} (hi : i < 2048) (he : BitVec.ofNat 64 (Tests.both.rd (0x1030000 + 8 * i) 8) = e)
    (hv : (!e.v || e.getLsbD 7) = false) (hl : e.leaf = true) (hp : e.pfn = 0) :
    (0, e, i * 2 ^ 38 + 0x20000) ∈ Tests.both.leavesOf 0x20000 := by
  unfold State.leavesOf
  rw [List.mem_flatMap]
  refine ⟨0, by decide +kernel, ?_⟩
  have r : Tests.both.root (BitVec.ofNat 16 0) = some 0x1010000 := by decide +kernel
  simp only [r, List.mem_map]
  refine ⟨(e, i * 2 ^ 38 + 0x20000), ?_, rfl⟩
  refine Tests.leaf_below (i := 0) (e := 0x10201) (by decide +kernel) (by decide) (by decide +kernel) (by decide +kernel) (by decide +kernel) ?_
  refine Tests.leaf_below (i := 0) (e := 0x10301) (by decide +kernel) (by decide) (by decide +kernel) (by decide +kernel) (by decide +kernel) ?_
  have k := Tests.leaf_at (s := Tests.both) (pa := 0x20000) (n := 2) (l := 2) (base := 0x1030000) (va := 0) (i := i) (e := e) (by decide +kernel)
    hi he hv hl ⟨by decide, by rw [hp]; decide, by rw [hp]; decide⟩
  rw [hp] at k
  simpa [levelShift, show Leaf.pfn 0x10301#64 = 0x103 by decide +kernel] using k

theorem Tests.both_home : Tests.both.isHome 0x20000 = true :=
  List.any_eq_true.mpr ⟨_, Tests.both_leaf (i := 1) (e := 0x5B) (by decide) (by decide +kernel) (by decide +kernel) (by decide +kernel)
    (by decide +kernel), by decide +kernel⟩

theorem Tests.both_held : Tests.both.deviceHeld 0x20000 = true :=
  List.any_eq_true.mpr ⟨_, Tests.both_leaf (i := 2) (e := 0x100000000001B) (by decide) (by decide +kernel) (by decide +kernel) (by decide +kernel)
    (by decide +kernel), by decide +kernel⟩

theorem Tests.unmapped_free (pa : Nat) : Tests.unmapped.leavesOf pa = [] := by
  have h : (Tests.unmapped.getSys 0 0x811).toNat = 0 := by decide +kernel
  simp [State.leavesOf, h, upto]

theorem Tests.unmapped_plain (pa : Nat) : Tests.unmapped.isHome pa = false ∧ Tests.unmapped.deviceHeld pa = false := by
  simp [State.isHome, State.deviceHeld, Tests.unmapped_free]

open Tests in
theorem witness_host_requests :
    (∀ n ∈ [1, 2, 4, 8, 16, 32, 64], ∀ b ∈ [true, false], ∀ o ∈ [none, some 0#4, some 8, some 9, some 1],
      ∃ (s : State) (r : HostReq) (pa : Nat), HbmReq s r pa n ∧ s.boot.st = 4 ∧ MemOk s
      ∧ s.deviceHeld pa = false ∧ r.write = b ∧ s.isPoisoned pa n = false ∧ s.isHome pa = false ∧ r.op = o ∧ r.off % n = 0)
    ∧ (∃ (s : State) (r : HostReq) (pa : Nat), HbmReq s r pa 16 ∧ s.boot.st = 4 ∧ MemOk s ∧ s.deviceHeld pa = true ∧ s.isHome pa = true
      ∧ r.off % 16 = 0) := by
  have st (s : State) (h : s.mem = unmapped.mem) : MemOk s := by
    unfold MemOk
    rw [h]
    decide +kernel
  refine ⟨fun n hn b _ o _ => ⟨unmapped, req 0x3000040 n b o, 0x3000040, ⟨rfl, ?_, ⟨rfl, hn⟩, ?_, ?_, ?_⟩, ?_, st _ rfl, (unmapped_plain _).2, rfl, ?_,
      (unmapped_plain _).1, rfl, ?_⟩,
    ⟨both, req 0x20000 16 false, 0x20000, ⟨rfl, ?_, ⟨rfl, ?_⟩, ?_, ?_, ?_⟩, ?_, ?_, both_held, both_home, ?_⟩⟩
  all_goals first
    | decide +kernel
    | (clear st; revert n; decide +kernel)
    | (clear st; unfold MemOk; decide +kernel)
    | exact (by decide +kernel : 0x3000040 = unmapped.nodeId * 2 ^ 48 + 0x3000040)
    | exact (by clear st; revert n; decide +kernel : 0x3000040 + n ≤ 2 ^ 40 ∧ 0x10000 ≤ 0x3000040)
    | exact (by clear st; revert n; decide +kernel : 0x3000040 % n = 0)

open Tests in
theorem witness_host_refused :
    (∃ r : HostReq, r.fn ≠ 0 ∧ r.off < 0xF00000000000)
    ∧ (∀ p ∈ [(0, 4), (4, 8)], ∃ r : HostReq, r.fn = 0 ∧ 0xF00000000000 ≤ r.off ∧ r.off < 0xF00008000000 ∧ (r.width ≠ 8 ∨ r.off % 8 ≠ 0)
      ∧ r.off = 0xF00000000000 + p.1 ∧ r.width = p.2)
    ∧ (∀ k ∈ [2#8, 3], ∃ (s : State) (r : HostReq), r.fn = 0 ∧ s.hbmReq r = true ∧ r.off < 0x10000000 ∧ s.boot.st = k) := by
  refine ⟨⟨{ req 0 4 false with fn := 3 }, by decide, by decide⟩,
    fun p hp => ⟨req (0xF00000000000 + p.1) p.2 true, rfl, Nat.le_add_right .., ?_, ?_, rfl, rfl⟩,
    fun k hk => ⟨booted k, req 0x20000 8 true, rfl, ?_, by decide, rfl⟩⟩
  all_goals first
    | (revert p; decide +kernel)
    | (revert k; decide +kernel)

open Tests in
theorem witness_registers :
    (∃ (s : State) (v : BitVec 64), s.ctx.run = .running ∧ s.ctx.tiq = [] ∧ v.toNat < 4)
    ∧ (∃ s : State, s.ctx.tiq ≠ []) ∧ (∃ s : State, s.fqPend = [] ∧ ∀ u ∈ s.units, u.1.fqwait = none)
    ∧ (∃ (s : State) (d : Fin 2), s.writeFqctl d 0x1000006 = none) ∧ (∃ v : BitVec 64, v.toNat % 32 < 6) ∧ (∃ v : BitVec 64, 16 < v.toNat % 32)
    ∧ (∀ v ∈ [0x106#64, 0x110, 0x310], ∃ (s : State) (d : Fin 2), fqEn (s.getSys d 0x821) = false ∧ s.fqPend = [] ∧ (∀ u ∈ s.units, u.1.fqwait = none)
      ∧ 6 ≤ v.toNat % 32 ∧ v.toNat % 32 ≤ 16 ∧ v.toNat / 1024 = 0 ∧ v.toNat / 32 % 8 = 0 ∧ v.getLsbD 8 = true)
    ∧ (∃ (s : State) (pa : Nat), s.target pa = .nothing)
    ∧ (∃ (s : State) (pa : Nat), s.target pa ≠ .nothing ∧ pa % 8 ≠ 0)
    ∧ (∀ m < 16, ∃ (s : State) (pa : Nat) (v : BitVec 64), s.variant ≠ .l5 ∧ pa = s.nodeId * 2 ^ 48 + 0xF10000000010 + m * 4096
      ∧ v.toNat < 2 ^ 32 ∧ v ≠ 0)
    ∧ (∀ n < 255, ∃ (s : State) (pa : Nat) (v : BitVec 64), pa = s.nodeId * 2 ^ 48 + 0xF20100000000 + n * 8 ∧ v.toNat < 256
      ∧ (∀ p < 8, v.getLsbD p = true → s.hasPort p = true) ∧ v ≠ 0) := by
  refine ⟨⟨unmapped, 3, rfl, rfl, by decide⟩, ⟨unmapped.mapCtx fun c => { c with tiq := [c.entryOf (.fence mf)] }, by decide +kernel⟩,
    ⟨unmapped, rfl, by decide +kernel⟩, ⟨unmapped, 1, Option.isNone_iff_eq_none.mp (by decide +kernel)⟩, ⟨5, by decide⟩, ⟨17, by decide⟩,
    fun v hv => ⟨unmapped, 1, by decide +kernel, rfl, by decide +kernel, ?_⟩, ⟨unmapped, 2 ^ 47, by decide +kernel⟩, ⟨unmapped, 12, by decide +kernel, by decide⟩,
    fun m _ => ⟨unmapped, _, 77, by decide +kernel, rfl, by decide, by decide⟩, fun n _ => ⟨unmapped, _, 0xA5, rfl, by decide, by decide +kernel, by decide⟩⟩
  simp only [List.mem_cons, List.not_mem_nil, or_false] at hv
  rcases hv with rfl | rfl | rfl <;> decide

/-! ### Steps, fetch, breakpoints, landings -/

/-- A state before a step of its core, ready to fetch these words. -/
def Tests.ready (nbits w : Nat) (f : Ctx → Ctx) : State := Tests.put nbits w fun c => f { c with skipbp := false }

/-- The state in which a step's unit is fetched. -/
def Tests.settled (s : State) : State := (State.tick s).settle

/-- Queue 0 with one qintr in its ring. -/
def Tests.ringed : State :=
  (Tests.queued { q := 0, st := .running, tail := 4 }).wr 0x6100010 16 (0x0000000300000005 + 0x103 * 2 ^ 64)

theorem Tests.next_of {o : Out} {p : State → Prop} [DecidablePred p] (h : (match o with | .next t => decide (p t) | _ => false) = true) :
    ∃ t, o = .next t ∧ p t := by
  cases o with
  | next t => exact ⟨t, rfl, of_decide_eq_true h⟩
  | _ => exact nomatch h

open Tests in
theorem witness_step_runs :
    (∀ w ∈ [(0xC6, Instr.nop, false), (0x8E, .land, true)], ∃ (s r u : State) (x : Pfx) (w0 w1 : Word) (i : Instr), s.turns = [] ∧ s.powered = true
      ∧ s.boot.st ∉ [0, 3] ∧ r = (State.tick s).settle ∧ s.ctx.run = .running ∧ s.core.prereq = none ∧ r.ctx.run = .running
      ∧ r.ctx.atBreakpoint = false ∧ r.fetchUnit = (.inr (x, w0, w1), u) ∧ decodeUnit u.ctx.system x w0 w1 = .ok i
      ∧ (u.ctx.landp = false ∨ i = .land) ∧ u.ctx.skipbp = false ∧ i = w.2.1)
    ∧ (∃ (s r u : State) (x : Pfx) (w0 w1 : Word) (i : Instr), s.turns = [] ∧ s.powered = true
      ∧ s.boot.st ∉ [0, 3] ∧ r = (State.tick s).settle ∧ s.ctx.run = .running ∧ s.core.prereq = none ∧ r.ctx.run = .running
      ∧ r.ctx.atBreakpoint = false ∧ r.fetchUnit = (.inr (x, w0, w1), u) ∧ decodeUnit u.ctx.system x w0 w1 = .ok i
      ∧ u.ctx.landp = false ∧ u.ctx.skipbp = true ∧ ∃ t, exec i u = .next t ∧ (t.ctx.retd ≠ u.ctx.retd
        ∨ t.ctx.nextseq ≠ u.ctx.nextseq ∨ (t.ctx.run = .running ∨ t.ctx.run = .stopped) ∧ t.ctx.pc ≠ u.ctx.pc))
    ∧ (∃ (s : State) (i : Instr) (ts : List Turn), s.turns = .event i :: ts ∧ encode i = [])
    ∧ (∃ (s u : State) (n : Nat) (ts : List Turn) (x : Queue) (i : Instr), s.turns = .sequencer n :: ts ∧ n < 32
      ∧ s.seqs.find? (fun p => p.1 == n) = some (n, x.q) ∧ s.queue x.q = some x ∧ x.ran < 64 ∧ State.fetchCmd { s with turns := ts, curq := x.q } x = (.inl i, u)) := by
  refine ⟨fun w hw => ⟨ready 32 w.1 fun c => { c with landp := w.2.2 }, settled (ready 32 w.1 fun c => { c with landp := w.2.2 }), _, none, w.1, 0, w.2.1,
      ?_, ?_, ?_, rfl, ?_, ?_, ?_, ?_, pair_of ?_, ?_, ?_, ?_, rfl⟩,
    ⟨put 32 0xC6 id, settled (put 32 0xC6 id), _, none, 0xC6, 0, .nop, rfl, rfl, ?_, rfl, rfl, rfl, ?_, ?_, pair_of ?_, ?_, ?_, ?_, next_of ?_⟩,
    ⟨{ ringed with turns := [.event .romInit] }, _, _, rfl, rfl⟩,
    ⟨{ ringed with turns := [.sequencer 2] }, _, 2, [], { q := 0, st := .running, tail := 4 }, .qintr { flags := 0, ev := 0, opnd := 3, seq := 0x103, x0 := 0, x1 := 0, x2 := 0 }, rfl, ?_,
      rfl, rfl, ?_, pair_of ?_⟩⟩
  all_goals first
    | decide +kernel
    | (revert w; decide +kernel)

open Tests in
theorem witness_fetch :
    (∃ (s u : State) (l : Leaf) (pte size pa : Nat) (w : Word), s.ctx.pc.toNat % 4 = 0
      ∧ s.translate s.ctx.asid s.ctx.pc = (some (l, pte, size), u) ∧ l.cls = 1 ∧ l.x = true ∧ pa = leafPa l size s.ctx.pc
      ∧ u.core.icache = [] ∧ pa % 4 = 0 ∧ u.dataFault true [(pa / 16 * 16, 16)] = none
      ∧ w = BitVec.ofNat 32 (u.rd pa 4) ∧ w.kind ≠ 1 ∧ w.kind ≠ 3)
    ∧ (∃ w0 : Word, w0.getLsbD 0 = false ∧ 0x78 ≤ w0.opcode) ∧ (∃ w0 : Word, w0.kind = 1 ∧ 0x3E0 ≤ (w0.extractLsb' 2 10).toNat)
    ∧ (∃ w0 : Word, w0.kind = 3)
    ∧ (∀ n ∈ [0x65, 0x6B], ∃ (w0 : Word) (r : Row), w0.getLsbD 0 = false ∧ w0.opcode = n ∧ decodeCtl w0 none = some r
      ∧ r.i.illegal ≠ some .unassigned) := by
  refine ⟨⟨ready 32 0xC6 id, _, 0x2F, 0x1030000, 38, 0x2000000, 0xC6, ?_, pair_of ?_, ?_, ?_, ?_, ?_, ?_, ?_, ?_, ?_, ?_⟩,
    ⟨0xF0, by decide, by decide⟩, ⟨0xF81, by decide, by decide⟩, ⟨3, by decide⟩, fun n hn => ?_⟩
  case refine_12 =>
    have h : ((decodeCtl (BitVec.ofNat 32 (2 * n)) none).map fun r => decide (r.i.illegal ≠ some .unassigned)) = some true := by revert n; decide +kernel
    obtain ⟨r, h1, h2⟩ := Option.map_eq_some_iff.mp h
    have k : (BitVec.ofNat 32 (2 * n)).getLsbD 0 = false ∧ Word.opcode (BitVec.ofNat 32 (2 * n)) = n := by
      clear h h1
      revert n
      decide +kernel
    exact ⟨BitVec.ofNat 32 (2 * n), r, k.1, k.2, h1, of_decide_eq_true h2⟩
  all_goals decide +kernel

/-- Two breakpoints, the second enabled at the unit. -/
def Tests.broken (w : Nat) (skip : Bool) (at_ : Addr) : State := (Tests.ready 32 w fun c => { c with bpa := c.bpa.set 1 (at_.setWidth 64 + 1) }).mapCtx
  fun c => { c with skipbp := skip }

/-- What a step of such a state meets: its bring-up over, its unit fetched. -/
theorem Tests.broken_step (w : Nat) (skip : Bool) (at_ : Addr) (i : Instr)
    (h : (Tests.settled (Tests.broken w skip at_)).fetchUnit.1 = .inr (none, BitVec.ofNat 32 w, 0)
      ∧ (Tests.settled (Tests.broken w skip at_)).ctx.run = .running ∧ (Tests.settled (Tests.broken w skip at_)).ctx.tiq = []
      ∧ (Tests.settled (Tests.broken w skip at_)).fetchUnit.2.ctx.landp = false
      ∧ (Tests.settled (Tests.broken w skip at_)).fetchUnit.2.ctx.system = false ∧ decodeUnit false none (BitVec.ofNat 32 w) 0 = .ok i) :
    ∃ (s r u : State) (x : Pfx) (w0 w1 : Word), s = Tests.broken w skip at_ ∧ s.turns = [] ∧ s.powered = true ∧ s.boot.st ∉ [0, 3]
      ∧ r = (State.tick s).settle ∧ s.ctx.run = .running ∧ s.core.prereq = none ∧ r.ctx.run = .running ∧ r.ctx.tiq = []
      ∧ r.fetchUnit = (.inr (x, w0, w1), u) ∧ decodeUnit u.ctx.system x w0 w1 = .ok i ∧ (u.ctx.landp = false ∨ i = .land) :=
  ⟨_, Tests.settled (Tests.broken w skip at_), _, none, _, 0, rfl, rfl, rfl, by simp [Tests.broken, Tests.ready, Tests.put, State.mapCtx, State.withFetchWord],
    rfl, rfl, rfl, h.2.1, h.2.2.1, Tests.pair_of h.1, by rw [h.2.2.2.2.1]; exact h.2.2.2.2.2, .inl h.2.2.2.1⟩

theorem Tests.broken_bpa : (Tests.settled (Tests.broken 0xC6 false 0x2000000)).ctx.bpa.toList = 0 :: 0x2000001 :: List.replicate 14 0
    ∧ (Tests.settled (Tests.broken 0xC6 false 0x2000004)).ctx.bpa.toList = 0 :: 0x2000005 :: List.replicate 14 0
    ∧ (Tests.settled (Tests.broken 0xC6 false 0x2000000)).ctx.pc = 0x2000000
    ∧ (Tests.settled (Tests.broken 0xC6 false 0x2000004)).ctx.pc = 0x2000000 := by decide +kernel

open Tests in
theorem witness_breakpoint_met : ∃ (s r : State), s.turns = [] ∧ s.powered = true ∧ s.boot.st ∉ [0, 3] ∧ r = (State.tick s).settle
    ∧ s.ctx.run = .running ∧ s.core.prereq = none ∧ r.ctx.run = .running ∧ r.ctx.tiq = []
    ∧ ∃ b ∈ r.ctx.bpa.toList, b.getLsbD 0 = true ∧ b.extractLsb' 2 62 = r.ctx.pc.extractLsb' 2 62 ∧ r.ctx.skipbp = false := by
  refine ⟨broken 0xC6 false 0x2000000, settled (broken 0xC6 false 0x2000000), ?_, ?_, ?_, rfl, ?_, ?_, ?_, ?_, 0x2000001, ?_, ?_, ?_, ?_⟩
  case refine_8 => rw [broken_bpa.1]; decide
  case refine_10 => rw [broken_bpa.2.2.1]; decide
  all_goals decide +kernel

open Tests in
theorem witness_landing : ∃ (s r u : State) (x : Pfx) (w0 w1 : Word), s.turns = [] ∧ s.powered = true ∧ s.boot.st ∉ [0, 3]
    ∧ r = (State.tick s).settle ∧ s.ctx.run = .running ∧ s.core.prereq = none ∧ r.ctx.run = .running ∧ r.ctx.tiq = []
    ∧ r.ctx.atBreakpoint = false ∧ r.fetchUnit = (.inr (x, w0, w1), u) ∧ u.ctx.landp = true ∧ (x ≠ none ∨ w0 ≠ 0x8E) := by
  refine ⟨ready 32 0xC6 fun c => { c with landp := true }, settled (ready 32 0xC6 fun c => { c with landp := true }), _, none, 0xC6, 0, ?_, ?_, ?_, rfl,
    ?_, ?_, ?_, ?_, ?_, pair_of ?_, ?_, ?_⟩
  all_goals decide +kernel

open Tests in
theorem witness_breakpoint_passed :
    (∃ (s r u : State) (x : Pfx) (w0 w1 : Word), s = broken 0xC6 false 0x2000004 ∧ s.turns = [] ∧ s.powered = true ∧ s.boot.st ∉ [0, 3]
      ∧ r = (State.tick s).settle ∧ s.ctx.run = .running ∧ s.core.prereq = none ∧ r.ctx.run = .running ∧ r.ctx.tiq = []
      ∧ r.fetchUnit = (.inr (x, w0, w1), u) ∧ decodeUnit u.ctx.system x w0 w1 = .ok .nop ∧ (u.ctx.landp = false ∨ Instr.nop = .land))
    ∧ (∀ b ∈ (settled (broken 0xC6 false 0x2000004)).ctx.bpa.toList, b.getLsbD 0 = true →
      b.extractLsb' 2 62 ≠ (settled (broken 0xC6 false 0x2000004)).ctx.pc.extractLsb' 2 62)
    ∧ (settled (broken 0xC6 false 0x2000004)).ctx.skipbp = false := by
  refine ⟨broken_step _ _ _ _ (by decide +kernel), ?_, by decide +kernel⟩
  rw [broken_bpa.2.1, broken_bpa.2.2.2]
  intro b hb h
  simp only [List.mem_cons, List.mem_replicate] at hb
  rcases hb with rfl | rfl | ⟨-, rfl⟩
  · simp at h
  · simp
  · simp at h

open Tests in
theorem witness_skipbp : ∀ p ∈ [(0xC6, Instr.nop), (0xC4, .brk 0 none)], ∃ (s r u : State) (x : Pfx) (w0 w1 : Word), s = broken p.1 true 0x2000000
    ∧ s.turns = [] ∧ s.powered = true ∧ s.boot.st ∉ [0, 3] ∧ r = (State.tick s).settle ∧ s.ctx.run = .running ∧ s.core.prereq = none ∧ r.ctx.run = .running
    ∧ r.ctx.tiq = [] ∧ r.fetchUnit = (.inr (x, w0, w1), u) ∧ decodeUnit u.ctx.system x w0 w1 = .ok p.2 ∧ (u.ctx.landp = false ∨ p.2 = .land) :=
  fun p hp => broken_step _ _ _ _ (by revert p; decide +kernel)

open Tests in
theorem witness_skipbp_met : (settled (broken 0xC6 true 0x2000000)).ctx.skipbp = true ∧ (settled (broken 0xC4 true 0x2000000)).ctx.skipbp = true
    ∧ ∃ t, exec .nop (settled (broken 0xC6 true 0x2000000)).fetchUnit.2 = .next t
      ∧ (t.ctx.retd ≠ (settled (broken 0xC6 true 0x2000000)).fetchUnit.2.ctx.retd
        ∨ t.ctx.nextseq ≠ (settled (broken 0xC6 true 0x2000000)).fetchUnit.2.ctx.nextseq
        ∨ (t.ctx.run = .running ∨ t.ctx.run = .stopped) ∧ t.ctx.pc ≠ (settled (broken 0xC6 true 0x2000000)).fetchUnit.2.ctx.pc) :=
  ⟨by decide +kernel, by decide +kernel, next_of (by decide +kernel)⟩

/-! ### Round trips, memory, the tile predicate -/

theorem Tests.not_lane_nop : ¬ LaneRow .nop := by
  rintro ⟨op, f, h⟩
  unfold laneRow at h
  split at h <;> simp at h

theorem Tests.not_queue_nop : ¬ QueueRow .nop := by
  rintro ⟨op, f, h⟩
  unfold queueRow at h
  split at h <;> try simp at h
  all_goals split at h <;> simp at h

theorem Tests.not_lane_tadd (g : TileFields) : ¬ LaneRow (.tadd g) := by
  rintro ⟨op, f, h⟩
  unfold laneRow at h
  split at h <;> simp at h

theorem Tests.not_queue_tadd (g : TileFields) : ¬ QueueRow (.tadd g) := by
  rintro ⟨op, f, h⟩
  unfold queueRow at h
  split at h <;> try simp at h
  all_goals split at h <;> simp at h

open Tests in
theorem witness_control_round_trip :
    (∃ (i : Instr) (sys : Bool), i.WellFormed ∧ encode i ≠ [] ∧ ¬ LaneRow i ∧ ¬ QueueRow i ∧ (i.isSystem = true → sys = true))
    ∧ (∃ (i : Instr) (sys : Bool), i = .tadd ⟨31, 1, 2, 0, 0, 0, 0, 7, 0xA, some 0x200000⟩ ∧ i.WellFormed ∧ encode i ≠ [] ∧ ¬ LaneRow i
      ∧ ¬ QueueRow i ∧ (i.isSystem = true → sys = true)) := by
  refine ⟨⟨.nop, false, ?_, ?_, not_lane_nop, not_queue_nop, ?_⟩, ⟨_, false, rfl, ?_, ?_, not_lane_tadd _, not_queue_tadd _, ?_⟩⟩
  all_goals decide +kernel

open Tests in
theorem witness_other_round_trips :
    (∃ (op : Nat) (f : LaneFields) (i : Instr), laneRow op f = some i ∧ i.WellFormed)
    ∧ (∃ (op : Nat) (c : QueueCmd) (i : Instr) (w : Nat → BitVec 64), queueRow op c = some i ∧ i.WellFormed ∧ w = words64 (encode i))
    ∧ (∃ (sys : Bool) (x : Pfx) (w0 w1 : Word) (i : Instr), decodeUnit sys x w0 w1 = .ok i) :=
  ⟨⟨1, ⟨63, 62, 61, 0, 0⟩, _, rfl, by decide +kernel⟩, ⟨3, ⟨0, 5, 0, 9, 7, 0, 0⟩, _, _, rfl, by decide +kernel, rfl⟩,
    ⟨true, none, 0xC6, 0, .nop, by decide +kernel⟩⟩

open Tests in
theorem witness_memory_canonical : (∃ s t : State, MemOk s ∧ step s = .next t) ∧ ∃ s : State, MemOk s := by
  refine ⟨⟨put 32 0xC6 id, ?_⟩, ⟨put 32 0xC6 id, ?_⟩⟩
  · obtain ⟨t, h, -⟩ := next_of (o := step (put 32 0xC6 id)) (p := fun _ => True) (by decide +kernel)
    exact ⟨t, by unfold MemOk; decide +kernel, h⟩
  · unfold MemOk
    decide +kernel

/-- A context whose TIQ holds `n` loads to G3. -/
def Tests.loads (n : Nat) : State := Tests.tiqd (List.replicate n (.ld 3 1 3 0 none)) id id

open Tests in
theorem witness_tile_issue :
    (∃ (s : State) (op : Nat) (f : TileFields) (i : Instr), tileRow op f = some i ∧ s.ctx.getP f.p = f.negp)
    ∧ (∃ (s : State) (op : Nat) (f : TileFields) (i : Instr), tileRow op f = some i ∧ s.ctx.getP f.p ≠ f.negp ∧ s.lacks i = true ∧ s.ctx.tiq = [])
    ∧ (∃ (s : State) (op : Nat) (f : TileFields) (i : Instr), tileRow op f = some i ∧ s.ctx.getP f.p ≠ f.negp ∧ s.lacks i = false
      ∧ s.ctx.mustWait (tiqUses i) = true)
    ∧ (∃ (s : State) (op : Nat) (f : TileFields) (i : Instr), tileRow op f = some i ∧ s.ctx.getP f.p ≠ f.negp ∧ s.lacks i = false
      ∧ 64 ≤ s.ctx.tiq.length)
    ∧ (∃ (s : State) (op : Nat) (f : TileFields) (i : Instr), tileRow op f = some i ∧ s.ctx.getP f.p ≠ f.negp ∧ s.lacks i = false
      ∧ s.ctx.mustWait (tiqUses i) = false ∧ s.ctx.tiq.length < 64 ∧ s.ctx.tiq ≠ [] ∧ s.eager = false)
    ∧ (∃ (s : State) (d a b : BitVec 5) (x : Pfx) (j : BitVec 14) (c : BitVec 12), ∀ r ∈ [Dst.g d, .g a, .g b], r ∈ s.ctx.pending
      ∧ ∀ i ∈ [Instr.add d a b, .sub d a b, .mulh d a b, .div d a b, .sll d a b, .addi d a j x, .clz d a, .csrr d c, .csrw d c, .sel d a b 0 0],
        (i, r) ∈ [(Instr.add d a b, Dst.g d), (.add d a b, .g a), (.add d a b, .g b), (.sub d a b, .g a), (.mulh d a b, .g b),
          (.div d a b, .g a), (.sll d a b, .g b), (.addi d a j x, .g a), (.addi d a j x, .g d), (.clz d a, .g a),
          (.csrr d c, .g d), (.csrw d c, .g d), (.sel d a b 0 0, .g b)]) := by
  refine ⟨⟨loads 0, 0x10, { tf 0 0xA with pfx := some 0x200000 }, _, rfl, ?_⟩, ⟨{ loads 0 with variant := .l7 }, 0x10, tf 0 0, _, rfl, ?_, ?_, rfl⟩,
    ⟨loads 1, 0x06, { tf 0 0xA with gs := 3 }, _, rfl, ?_, ?_, ?_⟩, ⟨loads 64, 0x10, tf 0 0xA, _, rfl, ?_, ?_, ?_⟩,
    ⟨{ loads 63 with eager := false }, 0x10, tf 0 0xA, _, rfl, ?_, ?_, ?_, ?_, ?_, rfl⟩, ⟨loads 1, 3, 3, 3, none, 5, 0x800, ?_⟩⟩
  all_goals decide +kernel
end

section
/-!
PROOFS. The control stream's integer arithmetic, immediate forms and transfers (R139 to R141, R148 to R150, R156).
-/

namespace Sys2Proof.ControlInstructions

open Sys2Proof.Machine Sys2Proof.Safety Sys2Proof.Laws

/-! ## Values of Table 07-1 (R139, R71) -/

theorem add_value (x y : GWord) : x + y = BitVec.ofNat 64 (x.toNat + y.toNat) := by
  simp [BitVec.ofNat_add]

theorem sub_value (x y : GWord) : x - y = BitVec.ofInt 64 (x.toInt - y.toInt) := by
  apply BitVec.eq_of_toInt_eq
  rw [BitVec.toInt_sub, BitVec.toInt_ofInt]

theorem mul_value (x y : GWord) : x * y = BitVec.ofNat 64 (x.toNat * y.toNat) := by
  simp [BitVec.ofNat_mul]

/-- The high half of a signed product is a signed 64-bit number. -/
theorem mulh_value (x y : GWord) :
    (BitVec.ofInt 64 (x.toInt * y.toInt / 2 ^ 64)).toInt = x.toInt * y.toInt / 2 ^ 64 := by
  have lo : -2 ^ 126 ≤ x.toInt * y.toInt := BitVec.le_toInt_mul_toInt
  have hi : x.toInt * y.toInt ≤ 2 ^ 126 := BitVec.toInt_mul_toInt_le
  apply BitVec.toInt_ofInt_eq_self <;> omega

/-- The high half of an unsigned product fits in 64 bits. -/
theorem mulhn_value (x y : GWord) :
    (BitVec.ofNat 64 (x.toNat * y.toNat / 2 ^ 64)).toNat = x.toNat * y.toNat / 2 ^ 64 := by
  have h : x.toNat * y.toNat < 2 ^ 64 * 2 ^ 64 := Nat.mul_lt_mul'' x.isLt y.isLt
  exact Nat.mod_eq_of_lt (Nat.div_lt_of_lt_mul h)

theorem toNat_eq_zero_iff (y : GWord) : y.toNat = 0 ↔ y = 0 := BitVec.toNat_inj (y := 0)

/-- R71's readings of a register as an integer. -/
theorem intOf_signed (x : GWord) : intOf 64 true x.toNat = x.toInt := toSigned_toNat x

theorem intOf_unsigned (x : GWord) : intOf 64 false x.toNat = x.toNat := by
  simp only [intOf, BitVec.toNat_mod_cancel, Bool.false_eq_true, if_false]

theorem div_value (x y : GWord) :
    BitVec.ofNat 64 (divInt 64 true x.toNat y.toNat) = if y = 0 then -1 else BitVec.ofInt 64 (x.toInt.tdiv y.toInt) := by
  simp only [divInt, BitVec.toNat_mod_cancel, toNat_eq_zero_iff, intOf_signed]
  split
  · rfl
  · exact ofNat_wrapInt _

theorem rem_value (x y : GWord) :
    BitVec.ofNat 64 (remInt 64 true x.toNat y.toNat) = if y = 0 then x else BitVec.ofInt 64 (x.toInt.tmod y.toInt) := by
  simp only [remInt, BitVec.toNat_mod_cancel, toNat_eq_zero_iff, intOf_signed]
  split
  · simp
  · exact ofNat_wrapInt _

theorem divn_value (x y : GWord) :
    BitVec.ofNat 64 (divInt 64 false x.toNat y.toNat) = if y = 0 then -1 else x / y := by
  simp only [divInt, BitVec.toNat_mod_cancel, toNat_eq_zero_iff, intOf_unsigned]
  split
  · rfl
  · rw [ofNat_wrapInt, ← Int.ofNat_tdiv, BitVec.ofInt_natCast]
    exact BitVec.udiv_def.symm

theorem remn_value (x y : GWord) :
    BitVec.ofNat 64 (remInt 64 false x.toNat y.toNat) = if y = 0 then x else x % y := by
  simp only [remInt, BitVec.toNat_mod_cancel, toNat_eq_zero_iff, intOf_unsigned]
  split
  · simp
  · rw [ofNat_wrapInt, ← Int.ofNat_tmod, BitVec.ofInt_natCast]
    exact BitVec.umod_def.symm

/-- An arithmetic shift is the floor of a division (R139, R140). -/
theorem sra_value (x : GWord) (n : Nat) : x.sshiftRight n = BitVec.ofInt 64 (x.toInt / 2 ^ n) := by
  rw [BitVec.sshiftRight, Int.shiftRight_eq_div_pow]
  norm_cast

/-- Taking the first of two registers that are equal, or the second, is the same: an order by an injective reading
may be tested strictly. -/
theorem select_le_eq_lt {α : Type} [LinearOrder α] {f : GWord → α} (hf : f.Injective) (x y : GWord) :
    (if f x ≤ f y then x else y) = (if f x < f y then x else y)
      ∧ (if f x ≤ f y then y else x) = (if f x < f y then y else x) := by
  rcases eq_or_ne x y with rfl | h
  · simp
  · simp only [(hf.ne h).le_iff_lt, and_self]

theorem min_value (x y : GWord) : (if x.toInt ≤ y.toInt then x else y) = if x.slt y then x else y := by
  simpa [BitVec.slt_iff_toInt_lt] using (select_le_eq_lt (fun _ _ => BitVec.eq_of_toInt_eq) x y).1

theorem max_value (x y : GWord) : (if x.toInt ≤ y.toInt then y else x) = if x.slt y then y else x := by
  simpa [BitVec.slt_iff_toInt_lt] using (select_le_eq_lt (fun _ _ => BitVec.eq_of_toInt_eq) x y).2

theorem minn_value (x y : GWord) : (if x.toNat ≤ y.toNat then x else y) = if x.ult y then x else y := by
  simpa [BitVec.ult] using (select_le_eq_lt (fun _ _ => BitVec.eq_of_toNat_eq) x y).1

theorem maxn_value (x y : GWord) : (if x.toNat ≤ y.toNat then y else x) = if x.ult y then y else x := by
  simpa [BitVec.ult] using (select_le_eq_lt (fun _ _ => BitVec.eq_of_toNat_eq) x y).2

/-- The first index below `n` at which `p` holds, or `n`. -/
theorem find_range_spec (p : Nat → Bool) (n : Nat) :
    ((List.range n).find? p).getD n ≤ n ∧ (∀ i < ((List.range n).find? p).getD n, p i = false)
      ∧ (((List.range n).find? p).getD n < n → p (((List.range n).find? p).getD n) = true) := by
  cases h : (List.range n).find? p with
  | none => simpa using h
  | some k =>
    obtain ⟨hk, hn, hlt⟩ := List.find?_range_eq_some.1 h
    exact ⟨(List.mem_range.1 hn).le, by simpa using hlt, fun _ => hk⟩

theorem clz64_spec (x : GWord) : clz64 x ≤ 64 ∧ (∀ i < clz64 x, x.getLsbD (63 - i) = false)
    ∧ (clz64 x < 64 → x.getLsbD (63 - clz64 x) = true) :=
  find_range_spec (fun i => x.getLsbD (63 - i)) 64

theorem ctz64_spec (x : GWord) : ctz64 x ≤ 64 ∧ (∀ i < ctz64 x, x.getLsbD i = false)
    ∧ (ctz64 x < 64 → x.getLsbD (ctz64 x) = true) :=
  find_range_spec x.getLsbD 64

/-- A field above the low `n` bits of a register, as lui joins them (R141). -/
theorem append_low {m n : Nat} (i : BitVec m) (x mask : BitVec (m + n)) (hm : mask.toNat = 2 ^ n - 1) :
    i ++ x.extractLsb' 0 n = (i.setWidth (m + n) <<< n) ||| (x &&& mask) := by
  have hi : i.toNat * 2 ^ n < 2 ^ (m + n) := by
    rw [Nat.pow_add]
    exact Nat.mul_lt_mul_of_pos_right i.isLt (by positivity)
  have hi' : i.toNat < 2 ^ (m + n) := lt_of_lt_of_le i.isLt (Nat.pow_le_pow_right (by omega) (by omega))
  apply BitVec.eq_of_toNat_eq
  simp [hm, BitVec.toNat_append, Nat.and_two_pow_sub_one_eq_mod, Nat.shiftLeft_eq, Nat.mod_eq_of_lt, hi, hi',
    BitVec.extractLsb'_toNat]

/-! ## Instructions that put a value in a general register -/

/-- A register instruction puts what its row says, where that is the value the step computes. -/
theorem puts_value {s : State} {d : BitVec 5} {srcs : List (BitVec 5)} {words : Nat} {v v' : GWord}
    (h : NoReturn s ((d :: srcs).map Dst.g)) (hv : v = v') : PutsG (aluStep d srcs words v s) s d v' words :=
  hv ▸ aluStep_puts h words v

/-- The immediate as an integer is its value read as signed (R120). -/
theorem ciImm_eq (i : BitVec 14) (p : Pfx) : ciImm i p = (imm64 i p).toInt := by
  unfold imm64 ciImm
  cases p with
  | none => exact (BitVec.toInt_signExtend_of_le (x := i) (by omega)).symm
  | some q => exact (BitVec.toInt_signExtend_of_le (x := q ++ i) (by omega)).symm

/-- A shift amount within 0 to 63 is the immediate itself. -/
theorem shift_amount {i : BitVec 14} {p : Pfx} (h : (imm64 i p).toNat < 64) : (ciImm i p).toNat = (imm64 i p).toNat := by
  rw [ciImm_eq, BitVec.toInt_eq_toNat_of_lt (by omega), Int.toNat_natCast]

/-- A unit of one word has two words under a pfx (R119). -/
theorem unitLen_eq (p : Pfx) : unitLen p = if p.isSome then 2 else 1 := by
  cases p <;> rfl

/-! ## Decoding of opcode 0x01 -/

/-- fn values from 26 on are unassigned (R139). -/
theorem decodeInt_unassigned {w : Word} (h : 26 ≤ w.fnCr.toNat) : decodeInt w = none := by
  unfold decodeInt
  split
  case h_27 => rfl
  all_goals omega

/-- The control words are those of an even value (Table 06-1). -/
theorem kind_even_iff (w : Word) : (w.kind ≠ 1 ∧ w.kind ≠ 3) ↔ w.toNat % 2 = 0 := by
  have hk : w.kind = w.toNat % 4 := by
    simp [Word.kind, BitVec.extractLsb'_toNat]
  omega

/-- A control word in no row of Table 06-15, under no pfx: step 4 for the experimental opcodes, else step 3. -/
theorem decodeUnit_noRow {w0 : Word} (sys : Bool) (w1 : Word) (hk : w0.toNat % 2 = 0)
    (h : decodeCtl w0 none = none) :
    decodeUnit sys none w0 w1 = .err (if experimentalCtl w0.opcode then ⟨.lifetime, 4⟩ else ⟨.illegalOp, 3⟩) := by
  obtain ⟨h1, h3⟩ := (kind_even_iff w0).2 hk
  unfold decodeUnit
  split
  · contradiction
  · contradiction
  · rw [h]
    rfl

/-- A word of opcode 0x01 with an unassigned fn value traps at step 3 (R118, R139). -/
theorem decodeUnit_int_unassigned {w0 : Word} (sys : Bool) (w1 : Word) (hk : w0.toNat % 2 = 0) (hop : w0.opcode = 0x01)
    (hfn : 26 ≤ w0.fnCr.toNat) : decodeUnit sys none w0 w1 = .err ⟨.illegalOp, 3⟩ := by
  have hrow : decodeCtl w0 none = none := by
    unfold decodeCtl
    rw [hop]
    exact decodeInt_unassigned hfn
  rw [decodeUnit_noRow sys w1 hk hrow, hop]
  rfl

/-- Settles O1: each row is an instruction that puts one value, and the value is Table 07-1's. -/
theorem integerOperations : Obligations.IntegerOperations := by
  refine ⟨?_, ?_, ?_⟩
  · rintro s d a b _ _ h rfl rfl
    exact ⟨puts_value h (add_value _ _),
      puts_value h (sub_value _ _),
      puts_value h (mul_value _ _),
      ⟨_, aluStep_puts h 1 _, mulh_value _ _⟩,
      ⟨_, aluStep_puts h 1 _, mulhn_value _ _⟩,
      puts_value h (div_value _ _),
      puts_value h (divn_value _ _),
      puts_value h (rem_value _ _),
      puts_value h (remn_value _ _),
      aluStep_puts h 1 _, aluStep_puts h 1 _, aluStep_puts h 1 _, aluStep_puts h 1 _,
      puts_value h (by simp only [shiftAmt_eq, State.gr]),
      puts_value h (by simp only [shiftAmt_eq, State.gr]),
      puts_value h (by simp only [shiftAmt_eq, State.gr, sra_value]),
      puts_value h (min_value _ _),
      puts_value h (max_value _ _),
      puts_value h (minn_value _ _),
      puts_value h (maxn_value _ _)⟩
  · rintro s d a _ h rfl
    exact ⟨⟨_, (clz64_spec _).1, aluStep_puts h 1 _, (clz64_spec _).2⟩,
      ⟨_, (ctz64_spec _).1, aluStep_puts h 1 _, (ctz64_spec _).2⟩,
      puts_value h (congrArg _ List.countP_eq_length_filter.symm),
      puts_value h (congrArg _ (BitVec.setWidth_eq_extractLsb' (by omega)).symm),
      puts_value h (congrArg _ (BitVec.setWidth_eq_extractLsb' (by omega)).symm),
      puts_value h (congrArg _ (BitVec.setWidth_eq_extractLsb' (by omega)).symm)⟩
  · intro sys w0 w1 hk hop hfn
    exact decodeUnit_int_unassigned sys w1 (Nat.mod_two_eq_zero_iff_testBit_zero.2 hk) hop hfn

/-- Settles O2: the immediate forms by the value of their immediate, lui as two joined fields. -/
theorem immediateOperations : Obligations.ImmediateOperations := by
  refine ⟨?_, ?_, ?_⟩
  · rintro s d a i p _ m _ h rfl rfl hm
    obtain rfl : m = imm64 i p := hm.trans (imm64_eq i p).symm
    rw [← unitLen_eq]
    refine ⟨aluStep_puts h _ _, aluStep_puts h _ _, aluStep_puts h _ _, aluStep_puts h _ _, fun hlt => ?_⟩
    rw [← shift_amount hlt]
    exact ⟨aluStep_puts h _ _, aluStep_puts h _ _, puts_value h (sra_value _ _)⟩
  · intro s d i q h
    exact ⟨aluStep_puts h 1 _, aluStep_puts h 2 _, puts_value h (append_low (m := 19) (n := 45) i _ _ rfl),
      puts_value h (append_low (m := 49) (n := 15) (q ++ i) _ _ rfl)⟩
  · intro s d i x hp
    exact ctlStep_waits (fun h => h _ (List.mem_singleton.2 rfl) hp) _

/-! ## Transfers of control (R148, R149) -/

/-- A control word stands after its pfx. -/
theorem wordPc_eq (s : State) (x : Pfx) : s.wordPc x = s.ctx.pc + BitVec.ofNat 72 (4 * (unitLen x - 1)) := by
  cases x <;> rfl

theorem mapCtx_ite (s : State) (p : Ctx → Bool) (f g : Ctx → Ctx) :
    s.mapCtx (fun c => if p c then f c else g c) = if p s.ctx then s.mapCtx f else s.mapCtx g := by
  simp only [State.mapCtx]
  split <;> rfl

/-- A transfer that writes a general register changes the context in that register, the PC and RETD alone. -/
theorem mapCtx_setG_jump (s : State) (g : BitVec 5) (v : GWord) (to_ : Addr) :
    s.mapCtx (fun c => (c.setG g v).jump to_) = State.goes s to_ { s.ctx with g := (s.ctx.setG g v).g } := by
  rw [State.mapCtx, setG_eq]
  rfl

/-- The same for a transfer not taken. -/
theorem mapCtx_setG_advance (s : State) (g : BitVec 5) (v : GWord) (words : Nat) :
    s.mapCtx (fun c => (c.setG g v).advance words) = State.after s words { s.ctx with g := (s.ctx.setG g v).g } := by
  rw [State.mapCtx, setG_eq]
  rfl

theorem exec_br (s : State) (d : BitVec 24) (x : Pfx) :
    exec (.br d x) s = .next (State.goes s (s.wordPc x + Safety.disp d x) s.ctx) := by
  rw [← dispOf_eq]
  rfl

theorem exec_brp (s : State) (p : BitVec 3) (n : BitVec 1) (d : BitVec 20) (x : Pfx) :
    exec (.brp p n d x) s = .next (if s.ctx.getP p ^^ n == 1 then State.goes s (s.wordPc x + Safety.disp d x) s.ctx
      else State.after s (unitLen x) s.ctx) := by
  rw [← dispOf_eq]
  exact congrArg Host.Outcome.next (mapCtx_ite s (fun c => c.getP p ^^ n == 1)
    (fun c => c.jump (s.wordPc x + dispOf d x)) (fun c => c.advance (unitLen x)))

/-- loop decrements its register, also from 0, and jumps unless that gives 0. -/
theorem exec_loop {s : State} {g : BitVec 5} (h : NoReturn s [.g g]) (d : BitVec 19) (x : Pfx) :
    exec (.loop g d x) s = .next (if s.ctx.getG g - 1 = 0
      then State.after s (unitLen x) { s.ctx with g := (s.ctx.setG g (s.ctx.getG g - 1)).g }
      else State.goes s (s.wordPc x + Safety.disp d x) { s.ctx with g := (s.ctx.setG g (s.ctx.getG g - 1)).g }) := by
  rw [← dispOf_eq, ← mapCtx_setG_jump, ← mapCtx_setG_advance, ← ite_not]
  simp only [← ne_eq, ← bne_iff_ne]
  exact (ctlStep_acts h _).trans (congrArg _ (mapCtx_ite s (fun _ => s.ctx.getG g - 1 != 0) _ _))

theorem exec_call {s : State} (h : NoReturn s [.a 13]) (d : BitVec 24) (x : Pfx) :
    exec (.call d x) s
      = .next (State.goes s (s.wordPc x + Safety.disp d x) (s.ctx.setA 13 (s.wordPc x + 4))) := by
  rw [← dispOf_eq]
  exact ctlStep_acts h _

/-- calli reads its register before it writes A13. -/
theorem exec_calli {s : State} {a : BitVec 4} (h : NoReturn s [.a a, .a 13]) :
    exec (.calli (a.setWidth 5)) s
      = .next (State.goes s (s.ctx.getA a) { s.ctx.setA 13 (s.ctx.pc + 4) with landp := true }) := by
  rw [← aIdx_setWidth a] at h
  conv_rhs => rw [← aIdx_setWidth a]
  exact ctlStep_acts h _

theorem exec_jmpi {s : State} {a : BitVec 4} (h : NoReturn s [.a a]) :
    exec (.jmpi (a.setWidth 5)) s = .next (State.goes s (s.ctx.getA a) { s.ctx with landp := true }) := by
  rw [← aIdx_setWidth a] at h
  conv_rhs => rw [← aIdx_setWidth a]
  exact ctlStep_acts h _

theorem exec_ret {s : State} (h : NoReturn s [.a 13]) : exec .ret s = .next (State.goes s (s.ctx.getA 13) s.ctx) :=
  ctlStep_acts h _

/-! ## Decoding of nop (R156) -/

/-- No row of the tile stream is a nop. -/
theorem tileRow_ne_nop (op : Nat) (f : TileFields) : tileRow op f ≠ some .nop := by
  intro h
  unfold tileRow at h
  split_ifs at h
  all_goals split at h <;> cases h

theorem decodeInt_ne_nop {w : Word} {r : Row} (h : decodeInt w = some r) : r.i ≠ .nop := by
  unfold decodeInt at h
  split at h <;> cases h <;> nofun

theorem decodeFloat_ne_nop {w : Word} {r : Row} (h : decodeFloat w = some r) : r.i ≠ .nop := by
  simp only [decodeFloat] at h
  split_ifs at h
  all_goals split at h <;> cases h <;> nofun

theorem decodeAddr_ne_nop {w : Word} {r : Row} (h : decodeAddr w = some r) : r.i ≠ .nop := by
  unfold decodeAddr at h
  split at h <;> cases h <;> nofun

theorem decodeCsr_ne_nop {w : Word} {r : Row} (h : decodeCsr w = some r) : r.i ≠ .nop := by
  unfold decodeCsr at h
  split at h <;> cases h <;> nofun

/-- nop has one row of Table 06-15, in which every field is reserved. -/
theorem decodeCtl_nop {w : Word} {x : Pfx} {r : Row} (h : decodeCtl w x = some r) (hn : r.i = .nop) :
    w.opcode = 0x63 ∧ r.resv = 0xffffff00 := by
  unfold decodeCtl at h
  split at h
  case h_1 => exact absurd hn (decodeInt_ne_nop h)
  case h_3 => split_ifs at h; cases h; cases hn
  case h_4 => exact absurd hn (decodeFloat_ne_nop h)
  case h_23 => exact absurd hn (decodeAddr_ne_nop h)
  case h_39 => exact absurd hn (decodeCsr_ne_nop h)
  case h_42 hop => cases h; exact ⟨hop, rfl⟩
  all_goals cases h <;> cases hn

/-- What decodes is the row's instruction. -/
theorem decodeRow_ok {sys : Bool} {r : Row} {resv : Bool} {i : Instr} (h : decodeRow sys r resv = .ok i) :
    r.i = i ∧ resv = false := by
  unfold decodeRow at h
  split_ifs at h with _ _ hr
  simp only [Decoded.ok.injEq] at h
  have hclear : resv = false ∧ r.i.illegal ≠ some .reserved := by simpa using hr
  exact ⟨h, hclear.1⟩

/-- An even word with opcode 0x63 and no bit above it is nop's. -/
theorem nop_word {w : Word} (hk : w.toNat % 2 = 0) (hop : w.opcode = 0x63) (hr : w &&& 0xffffff00 = 0) : w = 0xC6 := by
  have hlow : w &&& 0xff = w := by
    calc w &&& 0xff = (w &&& 0xffffff00) ||| (w &&& 0xff) := by rw [hr]; exact BitVec.zero_or.symm
      _ = w &&& (0xffffff00 ||| 0xff) := BitVec.and_or_distrib_left.symm
      _ = w := BitVec.and_allOnes
  have hlt : w.toNat < 256 := by
    rw [← hlow, BitVec.toNat_and]
    exact Nat.lt_succ_of_le Nat.and_le_right
  have hop' : w.toNat / 2 % 128 = 0x63 := by
    simpa [Word.opcode, BitVec.extractLsb'_toNat, Nat.shiftRight_eq_div_pow] using hop
  apply BitVec.eq_of_toNat_eq
  show w.toNat = 198
  omega

/-- A unit that decodes is a tile row, or an even word of a row of Table 06-15 with no reserved bit set, and a pfx
stands only before an opcode that accepts one (Table 06-14). -/
theorem decodeUnit_ok {sys : Bool} {x : Pfx} {w0 w1 : Word} {i : Instr} (h : decodeUnit sys x w0 w1 = .ok i) :
    (∃ op f, tileRow op f = some i)
      ∨ w0.toNat % 2 = 0 ∧ (∃ r, decodeCtl w0 x = some r ∧ r.i = i ∧ w0 &&& r.resv = 0)
        ∧ (x.isSome = true → acceptsPfx w0.opcode = true) := by
  simp only [decodeUnit] at h
  split at h
  · cases h
  · split at h
    · cases h
    · next htile =>
      exact .inl ⟨_, _, htile.trans (congrArg some (decodeRow_ok h).1)⟩
  · next h3 h1 =>
    split at h
    · split_ifs at h
    · next r hrow =>
      split_ifs at h with hpfx
      obtain ⟨hi, hresv⟩ := decodeRow_ok h
      refine .inr ⟨(kind_even_iff w0).1 ⟨h1, h3⟩, ⟨r, hrow, hi, by simpa using hresv⟩, fun hx => ?_⟩
      simp only [hx, Bool.true_and, Bool.or_eq_true, Bool.not_eq_true', not_or, Bool.not_eq_false] at hpfx
      exact hpfx.1

/-- nop accepts no pfx and has one encoding (R129, R156). -/
theorem decodeUnit_nop_iff (sys : Bool) (x : Pfx) (w0 w1 : Word) :
    decodeUnit sys x w0 w1 = .ok .nop ↔ w0 = 0xC6 ∧ x = none := by
  constructor
  · intro h
    rcases decodeUnit_ok h with ⟨op, f, htile⟩ | ⟨heven, ⟨r, hrow, hn, hresv⟩, hpfx⟩
    · exact absurd htile (tileRow_ne_nop op f)
    · obtain ⟨hop, hmask⟩ := decodeCtl_nop hrow hn
      rw [hmask] at hresv
      rw [hop] at hpfx
      refine ⟨nop_word heven hop hresv, ?_⟩
      cases x with
      | none => rfl
      | some q => exact absurd (hpfx rfl) (by decide)
  · rintro ⟨rfl, rfl⟩
    cases sys <;> rfl

/-- Settles O6: each transfer by its own effect, and nop by inverting the decoder. -/
theorem transfers : Obligations.Transfers := by
  refine ⟨?_, ?_, decodeUnit_nop_iff⟩
  · rintro s x d24 d20 d19 p n g _ _ rfl rfl
    rw [← unitLen_eq, ← wordPc_eq]
    refine ⟨exec_br s d24 x, exec_brp s p n d20 x, fun h => ?_, fun h => exec_call h d24 x⟩
    refine ⟨_, _, exec_loop h d19 x, rfl, ?_⟩
    split
    · exact ⟨fun r => getG_setG s.ctx g r _, rfl⟩
    · exact ⟨fun r => getG_setG s.ctx g r _, rfl⟩
  · intro s a h
    exact ⟨exec_calli h, exec_jmpi (NoReturn.sub h (by simp)), exec_ret (NoReturn.sub h (by simp)), rfl, rfl⟩

end Sys2Proof.ControlInstructions
end

section
/-!
PROOFS. Fills, moves, permutes, slides and broadcasts of tiles (R170 to R173, R185 to R187).
-/

namespace Sys2Proof.TileTransfers

open Sys2Proof.Machine Sys2Proof.Safety Sys2Proof.Laws

/-! ## The checks of R161 -/

theorem withTiles_pass {s : State} {os : List Opnd} (h : s.ctx.checkTiles os = none) (e : Eff) : withTiles s os e = e := by
  unfold withTiles
  rw [h]

theorem firstBad_none {os : List Opnd} {bad : Opnd → Bool} (h : ∀ o ∈ os, bad o = false) : firstBad os bad = none := by
  simpa [firstBad] using h

theorem named_check {s : State} {r : BitVec 5} (h : Named s r) : (s.ctx.tsc == 3 && r.getLsbD 4) = false := by
  by_cases e : s.ctx.tsc = 3
  · rw [BitVec.getLsbD, Nat.testBit_eq_false_of_lt (h e), Bool.and_false]
  · rw [beq_eq_false_iff_ne.2 e, Bool.false_and]

/-- The layout mask of a copy admits row-major, column-major and bit-plane. -/
theorem testBit_seven {l : Nat} (h : l ≤ 2) : (7 : Nat).testBit l = true := by
  interval_cases l <;> rfl

/-- Operands that a copy accepts pass its checks, each bound to its own format or to none (R161, R172). -/
theorem copyable_check {s : State} {os : List Opnd}
    (h : ∀ o ∈ os, MovOk s o.name ∧ o.layouts = 7 ∧ o.scales = false
      ∧ (o.fmt = some (s.ctx.tile o.name).sr.fmt ∨ o.fmt = none)) : s.ctx.checkTiles os = none := by
  simp only [Ctx.checkTiles, Option.orElse_eq_none]
  refine ⟨firstBad_none ?named, firstBad_none ?shaped, firstBad_none ?format, firstBad_none ?layout, firstBad_none ?scale⟩
  all_goals
    intro o ho
    obtain ⟨hm, hl, hs, hf⟩ := h o ho
  case named => exact named_check hm.named
  case shaped => simp [hm.al, hm.ill]
  case format => rcases hf with hf | hf <;> simp [hf]
  case layout => simp [hl, testBit_seven hm.layout]
  case scale => simp [hs, hm.plain]

/-! ## Elements that are copied -/

/-- An element's bits fit its width (R57, R58). -/
theorem get_lt {t : Tile} (h : t.sr.layout ≤ 2) (r c : Nat) : t.get r c < 2 ^ elemBits t := by
  unfold elemBits
  by_cases e : t.sr.layout = 2
  · rw [if_pos e, get_planes e]
    refine Nat.lt_pow_two_of_testBit _ fun j hj => ?_
    simp [testBit_getPlanes, Nat.not_lt.2 hj]
  · rw [if_neg e, get_flat (by omega)]
    exact Nat.mod_lt _ (Nat.two_pow_pos _)

theorem elemBits_eq {t u : Tile} (hf : t.sr.fmt = u.sr.fmt) (hp : t.sr.planesM1 = u.sr.planesM1)
    (hl : t.sr.layout = 2 ↔ u.sr.layout = 2) : elemBits t = elemBits u := by
  simp only [elemBits, Sr.planes, Sr.w, hf, hp, hl]

/-- Elements of the destination's own width are written whole. -/
theorem get_of_filled_copy {t u a : Tile} {er ec r c : Nat} (h : Filled t u er ec a.get) (ha : a.sr.layout ≤ 2)
    (hw : elemBits a = elemBits t) (hr : r < t.sr.rows) (hc : c < t.sr.cols) :
    u.get r c = if r < er ∧ c < ec then a.get r c else t.get r c := by
  rw [h.2 r c hr hc, ← hw, Nat.mod_eq_of_lt (get_lt ha r c)]

/-! ## Rows that write bit patterns into an extent of td -/

/-- A tile row runs and fills an extent of td with bit patterns; it raises no flag, and nothing else changes. -/
def FillsTd (s : State) (i : Instr) (f : TileFields) (er ec : Nat) (v : Nat → Nat → Nat) : Prop :=
  ∃ u, exec i s = .next (State.ran s i (TileFields.words f) (s.ctx.setTile f.td u))
    ∧ Filled (s.ctx.tile f.td) u er ec v

/-- As `bits_done`, for a bit-plane destination also. -/
theorem fillsTd_of_bits {s : State} {i : Instr} {f : TileFields} {e : TiqEntry → State → Eff} {v : Nat → Nat → Nat}
    {er ec : Nat} (h : Alone s) (hi : Issues s i f) (hex : exec i s = tileExec i f s) (he : effectOf i = some e)
    (hr : er ≤ (s.ctx.tile f.td).sr.rows) (hc : ec ≤ (s.ctx.tile f.td).sr.cols) (hl : (s.ctx.tile f.td).sr.layout ≤ 2)
    (hu : e (s.ctx.entryOf i) (State.pushed s i (TileFields.words f))
      = .bits (State.pushed s i (TileFields.words f)) f.td er ec v) : FillsTd s i f er ec v := by
  refine ⟨_, ?_, fill_filled hl hr hc _⟩
  have hflags : s.ctx.fcsr ||| (0 : FlagSet) = s.ctx.fcsr := by simp
  rw [tile_done (fl := 0) (u := (s.ctx.tile f.td).fill er ec v) (td := f.td) h hi hex he (by rw [hu]; rfl), hflags]
  rfl

/-! ## tseq and tfill (R170, R171) -/

/-- The value that tseq gives the element at a row and column (R170). -/
def seqValue (s : State) (f : TileFields) (r k : Nat) : Res :=
  let e := r * s.ctx.xc.toNat + k
  if fmtIsInt f.fmt1.toNat || f.fmt1.toNat == 0x13 then
    convert f.fmt1.toNat f.rm.toNat f.sat (.int ((s.ctx.getG f.gs).toInt + e * (s.ctx.getG f.tb).toInt))
  else
    let p := mulV (.fin false e 0 false) (decodeFp (fpOf 0) (s.ctx.getG f.tb).toNat)
    let q := sumV f.rm.toNat [decodeFp (fpOf 0) (s.ctx.getG f.gs).toNat, p.1]
    let d := convert f.fmt1.toNat f.rm.toNat f.sat (.flt q.1)
    (d.1, d.2 ||| p.2 ||| q.2)

section
variable {s : State} {f : TileFields} (hd : TileOk s f.td f.fmt1.toNat)
include hd

theorem td_check {i : Instr} {n : Nat} :
    (State.pushed s i n).ctx.checkTiles [{ name := f.td, fmt := some f.fmt1.toNat }] = none :=
  issued_check (List.forall_mem_singleton.2 ⟨_, .inl rfl, rfl, hd⟩)

theorem tseq_entry : effTseq f (s.ctx.entryOf (.tseq f)) (State.pushed s (.tseq f) (TileFields.words f))
    = .elems (State.pushed s (.tseq f) (TileFields.words f)) f.td (rowsOf s [f.td]) (colsOf s [f.td]) (seqValue s f) := by
  obtain ⟨-, hg0, hg1, -⟩ := entryOf_tile s.ctx (.tseq f) f rfl
  simp only [effTseq, withTiles_pass (td_check hd), hg0, hg1]
  rfl

theorem tfill_entry : effTfill f (s.ctx.entryOf (.tfill f)) (State.pushed s (.tfill f) (TileFields.words f))
    = .bits (State.pushed s (.tfill f) (TileFields.words f)) f.td (rowsOf s [f.td]) (colsOf s [f.td])
        fun _ _ => (s.ctx.getG f.gs).toNat := by
  obtain ⟨-, hg0, -, -⟩ := entryOf_tile s.ctx (.tfill f) f rfl
  simp only [effTfill, withTiles_pass (td_check hd), hg0]
  rfl

end

/-- Settles O16: each entry passes the checks of R161 and writes its values over the extent of td. -/
theorem tileFills : Obligations.TileFills := by
  refine ⟨?tseq, ?tfill⟩
  case tseq =>
    rintro s f er ec v h hn hd rfl rfl rfl
    exact elems_done h ⟨hn, rfl⟩ rfl rfl (rowsOf_le (by simp)) (colsOf_le (by simp)) hd.layout (tseq_entry hd)
  case tfill =>
    intro s f h hn hd
    exact bits_done h ⟨hn, rfl⟩ rfl rfl (rowsOf_le (by simp)) (colsOf_le (by simp)) hd.layout (tfill_entry hd)

/-! ## tmov (R172) -/

section
variable {s : State} {f : TileFields} (ha : MovOk s f.ta) (hd : MovOk s f.td)
  (hf : (s.ctx.tile f.ta).sr.fmt = (s.ctx.tile f.td).sr.fmt)
  (hp : (s.ctx.tile f.ta).sr.planesM1 = (s.ctx.tile f.td).sr.planesM1)
include ha hd hf hp

theorem tmov_entry (t : TiqEntry) (i : Instr) (n : Nat) : effTmov f t (State.pushed s i n)
    = .bits (State.pushed s i n) f.td (rowsOf s [f.td, f.ta]) (colsOf s [f.td, f.ta]) (s.ctx.tile f.ta).get := by
  have hcheck : (State.pushed s i n).ctx.checkTiles
      [{ name := f.td, layouts := 7, fmt := some (s.ctx.tile f.ta).sr.fmt }, { name := f.ta, layouts := 7 }] = none :=
    copyable_check (s := s) (List.forall_mem_cons.2
      ⟨⟨hd, rfl, rfl, .inl (congrArg some hf)⟩, List.forall_mem_singleton.2 ⟨ha, rfl, rfl, .inr rfl⟩⟩)
  have hplanes : ¬ ((s.ctx.tile f.td).sr.planesM1 != (s.ctx.tile f.ta).sr.planesM1) = true := by simp [hp]
  exact (withTiles_pass hcheck _).trans (if_neg hplanes)

theorem tmov_fills (h : Alone s) (hn : s.ctx.getP f.p ≠ f.negp) :
    FillsTd s (.tmov f) f (rowsOf s [f.td, f.ta]) (colsOf s [f.td, f.ta]) (s.ctx.tile f.ta).get :=
  fillsTd_of_bits h ⟨hn, rfl⟩ rfl rfl (rowsOf_le (by simp)) (colsOf_le (by simp)) hd.layout
    (tmov_entry ha hd hf hp _ _ _)

end

/-! ## tslide and tbcast, element by element (R186, R187) -/

/-- What a position reads, the zero pattern where there is none (R186). -/
def readAt (g : Nat → Nat) : Option Nat → Nat
  | some i => g i
  | none => 0

/-- What is read through a slide: the rotated position, or the shifted one where it lies inside (R186). -/
theorem readAt_slideFrom (rot : Bool) (n i : Nat) (k : Int) (g : Nat → Nat) :
    readAt g (slideFrom rot n i k)
      = if rot then g ((i - k) % n).toNat else if 0 ≤ i - k ∧ i - k < n then g (i - k).toNat else 0 := by
  cases rot
  case true => rfl
  case false =>
    simp only [slideFrom, Bool.false_eq_true, if_false]
    split <;> rfl

/-- The amount of a slide (R186). -/
def slideBy (s : State) (f : TileFields) : Int :=
  if f.md.getLsbD 0 then (s.ctx.getG f.gs).toInt else f.imm.toInt

/-- The element that a slide of `a` by `k` reads for a position of the extent (R186). -/
def slid (rot col : Bool) (a : Tile) (k : Int) (er ec r c : Nat) : Nat :=
  if rot then (if col then a.get ((r - k) % er).toNat c else a.get r ((c - k) % ec).toNat)
  else if col then (if 0 ≤ r - k ∧ r - k < er then a.get (r - k).toNat c else 0)
  else if 0 ≤ c - k ∧ c - k < ec then a.get r (c - k).toNat else 0

theorem readAt_slid (rot col : Bool) (a : Tile) (k : Int) (er ec r c : Nat) :
    (if col then readAt (fun i => a.get i c) (slideFrom rot er r k)
      else readAt (fun i => a.get r i) (slideFrom rot ec c k)) = slid rot col a k er ec r c := by
  simp only [slid, readAt_slideFrom]
  cases rot <;> cases col <;> rfl

/-- The element that tbcast replicates, by its KIND and index (R187). -/
def replicated (kind : Nat) (a : Tile) (n r c : Nat) : Nat :=
  if kind = 0 then (if n < a.sr.rows then a.get n c else 0)
  else if kind = 1 then (if n < a.sr.cols then a.get r n else 0)
  else if n < a.sr.rows * a.sr.cols then a.get (n / a.sr.cols) (n % a.sr.cols) else 0

/-- The element that tperm gathers by an index (R185). -/
def gathered (rowidx : Bool) (a : Tile) (r i : Nat) : Nat :=
  if rowidx then (if r < a.sr.rows ∧ i < a.sr.cols then a.get r i else 0)
  else if i < a.sr.rows * a.sr.cols then a.get (i / a.sr.cols) (i % a.sr.cols) else 0

/-! ## Rows over td and ta of one format (R173, R185 to R187) -/

section
variable {s : State} {f : TileFields} (ha : TileOk s f.ta (s.ctx.tile f.ta).sr.fmt)
  (hd : TileOk s f.td (s.ctx.tile f.ta).sr.fmt)
include ha hd

theorem sameFmt_suits (i : Instr) (n : Nat) :
    ∀ o ∈ sameFmt f (State.pushed s i n), ∃ c, (o.fmt = some c ∨ o.fmt = none) ∧ o.layouts = 3 ∧ TileOk s o.name c :=
  List.forall_mem_cons.2 ⟨⟨_, .inl rfl, rfl, hd⟩, List.forall_mem_singleton.2 ⟨_, .inr rfl, rfl, ha⟩⟩

theorem sameFmt_check (i : Instr) (n : Nat) :
    (State.pushed s i n).ctx.checkTiles (sameFmt f (State.pushed s i n)) = none :=
  issued_check (sameFmt_suits ha hd i n)

theorem ttr_fills (h : Alone s) (hn : s.ctx.getP f.p ≠ f.negp) :
    FillsTd s (.ttr f) f (min s.ctx.xc.toNat (min (s.ctx.tile f.ta).sr.cols (s.ctx.tile f.td).sr.rows))
      (min s.ctx.xr.toNat (min (s.ctx.tile f.ta).sr.rows (s.ctx.tile f.td).sr.cols))
      fun c r => (s.ctx.tile f.ta).get r c :=
  bits_done h ⟨hn, rfl⟩ rfl rfl (by omega) (by omega) hd.layout (withTiles_pass (sameFmt_check ha hd _ _) _)

theorem tperm_entry (hb : TileOk s f.tb (s.ctx.tile f.tb).sr.fmt)
    (hi : (s.ctx.tile f.tb).sr.fmt = 0x14 ∨ (s.ctx.tile f.tb).sr.fmt = 0x15) (t : TiqEntry) (i : Instr) (n : Nat) :
    effTperm f t (State.pushed s i n)
      = .bits (State.pushed s i n) f.td (rowsOf s [f.td, f.tb]) (colsOf s [f.td, f.tb]) fun r c =>
          gathered (f.imm.getLsbD 10) (s.ctx.tile f.ta) r ((s.ctx.tile f.tb).get r c) := by
  have hcheck : (State.pushed s i n).ctx.checkTiles (sameFmt f (State.pushed s i n) ++ [{ name := f.tb }]) = none :=
    issued_check (List.forall_mem_append.2
      ⟨sameFmt_suits ha hd i n, List.forall_mem_singleton.2 ⟨_, .inr rfl, rfl, hb⟩⟩)
  have hindex : ¬ (!((s.ctx.tile f.tb).sr.fmt == 0x14 || (s.ctx.tile f.tb).sr.fmt == 0x15)) = true := by
    rcases hi with hi | hi <;> simp [hi]
  exact (withTiles_pass hcheck _).trans (if_neg hindex)

theorem tperm_fills (h : Alone s) (hn : s.ctx.getP f.p ≠ f.negp) (hb : TileOk s f.tb (s.ctx.tile f.tb).sr.fmt)
    (hi : (s.ctx.tile f.tb).sr.fmt = 0x14 ∨ (s.ctx.tile f.tb).sr.fmt = 0x15) :
    FillsTd s (.tperm f) f (rowsOf s [f.td, f.tb]) (colsOf s [f.td, f.tb]) fun r c =>
      gathered (f.imm.getLsbD 10) (s.ctx.tile f.ta) r ((s.ctx.tile f.tb).get r c) :=
  bits_done h ⟨hn, rfl⟩ rfl rfl (rowsOf_le (by simp)) (colsOf_le (by simp)) hd.layout
    (tperm_entry ha hd hb hi _ _ _)

theorem tslide_entry : effTslide f (s.ctx.entryOf (.tslide f)) (State.pushed s (.tslide f) (TileFields.words f))
    = .bits (State.pushed s (.tslide f) (TileFields.words f)) f.td (rowsOf s [f.td, f.ta]) (colsOf s [f.td, f.ta])
        (slid (f.md.getLsbD 2) (f.md.getLsbD 1) (s.ctx.tile f.ta) (slideBy s f) (rowsOf s [f.td, f.ta])
          (colsOf s [f.td, f.ta])) := by
  obtain ⟨-, hg0, -, -⟩ := entryOf_tile s.ctx (.tslide f) f rfl
  simp only [effTslide, withTiles_pass (sameFmt_check ha hd _ _), hg0]
  exact congrArg (Eff.bits _ _ _ _) (funext₂ fun r c =>
    readAt_slid (f.md.getLsbD 2) (f.md.getLsbD 1) (s.ctx.tile f.ta) (slideBy s f) _ _ r c)

theorem tslide_fills (h : Alone s) (hn : s.ctx.getP f.p ≠ f.negp) :
    FillsTd s (.tslide f) f (rowsOf s [f.td, f.ta]) (colsOf s [f.td, f.ta])
      (slid (f.md.getLsbD 2) (f.md.getLsbD 1) (s.ctx.tile f.ta) (slideBy s f) (rowsOf s [f.td, f.ta])
        (colsOf s [f.td, f.ta])) :=
  bits_done h ⟨hn, rfl⟩ rfl rfl (rowsOf_le (by simp)) (colsOf_le (by simp)) hd.layout (tslide_entry ha hd)

theorem tbcast_entry : effTbcast f (s.ctx.entryOf (.tbcast f)) (State.pushed s (.tbcast f) (TileFields.words f))
    = .bits (State.pushed s (.tbcast f) (TileFields.words f)) f.td (rowsOf s [f.td, f.ta]) (colsOf s [f.td, f.ta])
        (replicated (f.md.extractLsb' 0 2).toNat (s.ctx.tile f.ta) (s.ctx.getG f.gs).toNat) := by
  obtain ⟨-, hg0, -, -⟩ := entryOf_tile s.ctx (.tbcast f) f rfl
  simp only [effTbcast, withTiles_pass (sameFmt_check ha hd _ _), hg0]
  refine congrArg (Eff.bits _ _ _ _) (funext₂ fun r c => ?_)
  rcases (f.md.extractLsb' 0 2).toNat with _ | _ | kind <;> rfl

theorem tbcast_fills (h : Alone s) (hn : s.ctx.getP f.p ≠ f.negp) :
    FillsTd s (.tbcast f) f (rowsOf s [f.td, f.ta]) (colsOf s [f.td, f.ta])
      (replicated (f.md.extractLsb' 0 2).toNat (s.ctx.tile f.ta) (s.ctx.getG f.gs).toNat) :=
  bits_done h ⟨hn, rfl⟩ rfl rfl (rowsOf_le (by simp)) (colsOf_le (by simp)) hd.layout (tbcast_entry ha hd)

end

/-- Settles O17: each entry passes the checks of R161 and writes the source elements that its rule names; tmov keeps
them whole because both its tiles have one element width. -/
theorem tileMoves : Obligations.TileMoves := by
  refine ⟨?_, ?_⟩
  · rintro s f a d er ec h hn rfl rfl rfl rfl
    refine ⟨fun ha hd hf hp hl => ?_, fun ha hd => ttr_fills ha hd h hn⟩
    obtain ⟨u, hexec, hu⟩ := tmov_fills ha hd hf hp h hn
    exact ⟨u, hexec, hu.1, fun r c => get_of_filled_copy hu ha.layout (elemBits_eq hf hp hl)⟩
  · rintro s f a x d er ec k h hn rfl rfl rfl ha hd rfl rfl rfl
    refine ⟨tperm_fills ha hd h hn, tslide_fills ha hd h hn, ?_⟩
    rintro - n rfl
    exact tbcast_fills ha hd h hn

end Sys2Proof.TileTransfers
end

section
/-!
PROOFS. Clears, fills and drains of accumulators, and the way of an accumulator through a raw tile (R224 to R227).
-/

namespace Sys2Proof.Accumulators

open Sys2Proof.Machine Sys2Proof.Safety Sys2Proof.Laws Sys2Proof.TileTransfers

theorem rowsOf_one (s : State) (r : BitVec 5) : rowsOf s [r] = min s.ctx.xr.toNat (s.ctx.tile r).sr.rows := rfl
theorem colsOf_one (s : State) (r : BitVec 5) : colsOf s [r] = min s.ctx.xc.toNat (s.ctx.tile r).sr.cols := rfl

theorem accGet_lt (m i j : Nat) : accGet m i j < 2 ^ 32 := Nat.mod_lt _ (Nat.two_pow_pos 32)

/-! ## Entries that write an accumulator (R224, R225) -/

/-- The entry writes an accumulator and nothing else. -/
theorem acc_done {s : State} {i : Instr} {f : TileFields} {e : TiqEntry → State → Eff} {m : Nat} (h : Alone s)
    (hi : Issues s i f) (hex : exec i s = tileExec i f s) (he : effectOf i = some e)
    (hu : e (s.ctx.entryOf i) (State.pushed s i (TileFields.words f))
      = .done ((State.pushed s i (TileFields.words f)).mapCtx fun c => c.setAcc f.td m)) :
    exec i s = .next (State.ran s i (TileFields.words f) (s.ctx.setAcc f.td m)) :=
  ctx_done h hi hex he hu (by rw [pushed_ctx h]; rfl) h.run h.copies rfl h.ilock h.olds

/-- mfill runs and replaces the elements of an extent of M[td], cut to the accumulator's 128 rows and columns (R225). -/
def FillsAcc (s : State) (f : TileFields) (er ec : Nat) (v : Nat → Nat → Nat) : Prop :=
  ∃ m, exec (.mfill f) s = .next (State.ran s (.mfill f) (TileFields.words f) (s.ctx.setAcc f.td m))
    ∧ ∀ r c, r < 128 → c < 128 →
      accGet m r c = if r < er ∧ c < ec then v r c % 2 ^ 32 else accGet (s.ctx.getAcc f.td) r c

section
variable {s : State} {f : TileFields} (h : Alone s) (hn : s.ctx.getP f.p ≠ f.negp)
include h hn

theorem mzero_done :
    exec (.mzero f) s = .next (State.ran s (.mzero f) (TileFields.words f) (s.ctx.setAcc f.td 0)) :=
  acc_done h ⟨hn, rfl⟩ rfl rfl rfl

theorem mfill_scalar (hs : f.sBit = true) :
    FillsAcc s f s.ctx.xr.toNat s.ctx.xc.toNat fun _ _ => (s.ctx.getG f.gs).toNat := by
  obtain ⟨-, hg0, -, -⟩ := entryOf_tile s.ctx (.mfill f) f rfl
  refine ⟨accFill (s.ctx.getAcc f.td) (min s.ctx.xr.toNat 128) (min s.ctx.xc.toNat 128)
    fun _ _ => (s.ctx.getG f.gs).toNat, acc_done h ⟨hn, rfl⟩ rfl rfl ?entry, fun r c hr hc => ?elements⟩
  case entry =>
    simp only [effMfill, hs, if_true, hg0]
    rfl
  case elements =>
    rw [accGet_accFill _ (Nat.min_le_right _ _) _ hc]
    simp only [lt_min_iff, hr, hc, and_true]

/-- The format that mfill binds its source to is the source's own where that is f32, s32 or u32. -/
theorem mfill_tile {c : Nat} (hs : f.sBit = false) (hc : c ∈ [0x01, 0x0A, 0x14]) (ha : TileOk s f.ta c) :
    FillsAcc s f (rowsOf s [f.ta]) (colsOf s [f.ta]) (s.ctx.tile f.ta).get := by
  refine ⟨accFill (s.ctx.getAcc f.td) (min (min s.ctx.xr.toNat 128) (s.ctx.tile f.ta).sr.rows)
    (min (min s.ctx.xc.toNat 128) (s.ctx.tile f.ta).sr.cols) (s.ctx.tile f.ta).get,
    acc_done h ⟨hn, rfl⟩ rfl rfl ?entry, fun r c hr hc => ?elements⟩
  case entry =>
    have hfmt : ((State.pushed s (.mfill f) (TileFields.words f)).ctx.tile f.ta).sr.fmt = c := ha.fmt
    have hbound : (if c = 0x01 || c = 0x0A || c = 0x14 then c else 1) = c := by
      simp only [List.mem_cons, List.not_mem_nil, or_false] at hc
      rcases hc with rfl | rfl | rfl <;> rfl
    simp only [effMfill, hs, Bool.false_eq_true, if_false, hfmt, hbound]
    exact withTiles_pass (issued_check (List.forall_mem_singleton.2 ⟨_, .inl rfl, rfl, ha⟩)) _
  case elements =>
    rw [accGet_accFill _ (by omega) _ hc, rowsOf_one, colsOf_one]
    simp only [lt_min_iff, hr, hc, and_true]

end

/-! ## Entries that drain an accumulator (R226) -/

/-- What a drain gives for an accumulator position: outside the accumulator the zero pattern (Table 10-3). -/
def drained (s : State) (f : TileFields) (r c : Nat) : Res :=
  if 128 ≤ r ∨ 128 ≤ c then (0, 0) else drainElem f (accGet (s.ctx.getAcc f.ta) r c)

/-- A tile row runs and fills an extent of td with results, whose flags are ORed into FCSR. -/
def FillsTdRes (s : State) (i : Instr) (f : TileFields) (er ec : Nat) (v : Nat → Nat → Res) : Prop :=
  ∃ u, exec i s = .next (State.ran s i (TileFields.words f) { s.ctx.setTile f.td u with
        fcsr := s.ctx.fcsr ||| flagsOf er ec fun r c => (v r c).2 })
    ∧ Filled (s.ctx.tile f.td) u er ec fun r c => (v r c).1

section
variable {s : State} {f : TileFields} (hd : TileOk s f.td f.fmt1.toNat)
include hd

/-- The entry passes the checks of R161 and computes the elements that its positions name. -/
theorem effDrain_entry (i : Instr) (n : Nat) (rowCap : Bool) (pos : Nat → Nat → Nat × Nat) :
    effDrain f (State.pushed s i n) rowCap pos
      = .elems (State.pushed s i n) f.td (if rowCap then min (rowsOf s [f.td]) 128 else rowsOf s [f.td])
          (min (colsOf s [f.td]) 128) fun r c => drained s f (pos r c).1 (pos r c).2 := by
  refine (withTiles_pass (td_check hd) _).trans (congrArg (Eff.elems _ _ _ _) (funext₂ fun r c => ?_))
  simp only [drained, Bool.or_eq_true, decide_eq_true_eq]
  rfl

variable (h : Alone s) (hn : s.ctx.getP f.p ≠ f.negp)
include h hn

theorem mdrain_fills :
    FillsTdRes s (.mdrain f) f (min (rowsOf s [f.td]) 128) (min (colsOf s [f.td]) 128) (drained s f) :=
  elems_done h ⟨hn, rfl⟩ rfl rfl ((Nat.min_le_left _ _).trans (rowsOf_le (by simp)))
    ((Nat.min_le_left _ _).trans (colsOf_le (by simp))) hd.layout (effDrain_entry hd _ _ true fun r c => (r, c))

theorem mrow_fills :
    FillsTdRes s (.mrow f) f (rowsOf s [f.td]) (min (colsOf s [f.td]) 128)
      fun r c => drained s f ((s.ctx.getG f.gs).toNat + r) c := by
  obtain ⟨-, hg0, -, -⟩ := entryOf_tile s.ctx (.mrow f) f rfl
  refine elems_done h ⟨hn, rfl⟩ rfl rfl (rowsOf_le (by simp)) ((Nat.min_le_left _ _).trans (colsOf_le (by simp)))
    hd.layout ?_
  rw [← hg0]
  exact effDrain_entry hd _ _ false fun r c => ((s.ctx.entryOf (.mrow f)).g0.toNat + r, c)

theorem mcol_fills :
    FillsTdRes s (.mcol f) f (rowsOf s [f.td]) (min (colsOf s [f.td]) 128)
      fun r c => drained s f c ((s.ctx.getG f.gs).toNat + r) := by
  obtain ⟨-, hg0, -, -⟩ := entryOf_tile s.ctx (.mcol f) f rfl
  refine elems_done h ⟨hn, rfl⟩ rfl rfl (rowsOf_le (by simp)) ((Nat.min_le_left _ _).trans (colsOf_le (by simp)))
    hd.layout ?_
  rw [← hg0]
  exact effDrain_entry hd _ _ false fun r c => (c, (s.ctx.entryOf (.mcol f)).g0.toNat + r)

end

/-! ## A raw drain and the fill that takes it back (R227) -/

/-- Clearing ZF leaves every other bit of a shape record (R44). -/
theorem getLsbD_written (s : Sr) {k : Nat} (hk : k ≠ 40) : s.written.getLsbD k = s.getLsbD k := by
  have hzf : (1#64 <<< 40) = BitVec.twoPow 64 40 := by decide
  by_cases h64 : k < 64
  · rw [Sr.written, hzf, BitVec.getLsbD_and, BitVec.getLsbD_not, BitVec.getLsbD_twoPow]
    simp [h64, Ne.symm hk]
  · simp [BitVec.getLsbD_of_ge _ _ (Nat.le_of_not_lt h64)]

theorem written_al (s : Sr) : s.written.al = s.al := getLsbD_written s (by decide)
theorem written_ill (s : Sr) : s.written.ill = s.ill := getLsbD_written s (by decide)
theorem written_sblk (s : Sr) : s.written.sblk = s.sblk := congrArg BitVec.toNat (extract_written s 25 2 (by decide))

/-- A tile that an instruction has written suits what it suited before. -/
theorem tileOk_written {s t : State} {r : BitVec 5} {c : Nat} (h : TileOk s r c) (htsc : t.ctx.tsc = s.ctx.tsc)
    (hsr : (t.ctx.tile r).sr = (s.ctx.tile r).sr.written) : TileOk t r c where
  named := by rw [Named, htsc]; exact h.named
  al := by rw [hsr, written_al, h.al]
  ill := by rw [hsr, written_ill, h.ill]
  fmt := by rw [hsr, written_fmt, h.fmt]
  layout := by rw [hsr, written_layout]; exact h.layout
  plain := by rw [hsr, written_sblk, h.plain]

/-- After one entry the context has nothing in flight again. -/
theorem ran_alone {s : State} (h : Alone s) (i : Instr) (n : Nat) {c : Ctx} (hrun : c.run = s.ctx.run)
    (hcopies : c.copies = s.ctx.copies) (hilock : c.ilock = s.ctx.ilock) (holds : c.olds = s.ctx.olds) :
    Alone (State.ran s i n c) where
  eager := h.eager
  run := hrun.trans h.run
  tiq := rfl
  copies := hcopies.trans h.copies
  ilock := hilock.trans h.ilock
  olds := holds.trans h.olds

/-- The elements of f32, s32 and u32 have the width of an accumulator's. -/
theorem elemBits_of_acc_fmt {s : State} {r : BitVec 5} {c : Nat} (h : TileOk s r c) (hc : c ∈ [0x01, 0x0A, 0x14]) :
    elemBits (s.ctx.tile r) = 32 := by
  have hflat : ¬ (s.ctx.tile r).sr.layout = 2 := by have := h.layout; omega
  rw [elemBits, if_neg hflat, Sr.w, h.fmt]
  simp only [List.mem_cons, List.not_mem_nil, or_false] at hc
  rcases hc with rfl | rfl | rfl <;> rfl

/-- A raw drain gives the accumulator's own bits. -/
theorem drained_raw (s : State) {f : TileFields} (hraw : f.imm.getLsbD 11 = true) {i j : Nat} (hi : i < 128)
    (hj : j < 128) : (drained s f i j).1 = accGet (s.ctx.getAcc f.ta) i j := by
  rw [drained, if_neg (by omega), drainElem, if_pos hraw]

/-- The tile that a raw drain fills holds the whole accumulator where its extent covers it. -/
theorem get_raw_drain {s : State} {f : TileFields} {u : Tile} {c : Nat} (hd : TileOk s f.td c)
    (hc : c ∈ [0x01, 0x0A, 0x14]) (hraw : f.imm.getLsbD 11 = true) (hr : 128 ≤ rowsOf s [f.td])
    (hk : 128 ≤ colsOf s [f.td])
    (hu : Filled (s.ctx.tile f.td) u (min (rowsOf s [f.td]) 128) (min (colsOf s [f.td]) 128)
      fun r k => (drained s f r k).1)
    {i j : Nat} (hi : i < 128) (hj : j < 128) : u.get i j = accGet (s.ctx.getAcc f.ta) i j := by
  have hrows : i < (s.ctx.tile f.td).sr.rows := hi.trans_le (hr.trans (rowsOf_le (by simp)))
  have hcols : j < (s.ctx.tile f.td).sr.cols := hj.trans_le (hk.trans (colsOf_le (by simp)))
  calc u.get i j = (drained s f i j).1 % 2 ^ 32 := by
        rw [hu.2 i j hrows hcols, if_pos (by omega), elemBits_of_acc_fmt hd hc]
    _ = accGet (s.ctx.getAcc f.ta) i j := by rw [drained_raw s hraw hi hj, Nat.mod_eq_of_lt (accGet_lt _ _ _)]

/-- mfill from the tile that mdrain.raw has filled restores the accumulator, whichever accumulator takes it. -/
theorem mfill_after_raw_mdrain {s t : State} {f g : TileFields} {c : Nat} (h : Alone s)
    (hf : s.ctx.getP f.p ≠ f.negp) (hg : s.ctx.getP g.p ≠ g.negp) (hc : c ∈ [0x01, 0x0A, 0x14])
    (hfmt : f.fmt1.toNat = c) (hd : TileOk s f.td c) (hr : 128 ≤ rowsOf s [f.td]) (hk : 128 ≤ colsOf s [f.td])
    (hraw : f.imm.getLsbD 11 = true) (hs : g.sBit = false) (hta : g.ta = f.td) (ht : exec (.mdrain f) s = .next t) :
    ∃ u, exec (.mfill g) t = .next u
      ∧ ∀ i j, i < 128 → j < 128 → accGet (u.ctx.getAcc g.td) i j = accGet (s.ctx.getAcc f.ta) i j := by
  obtain ⟨u, hexec, hu⟩ := mdrain_fills (hfmt ▸ hd) h hf
  have hran := Host.Outcome.next.inj (ht.symm.trans hexec)
  have halone : Alone t := by rw [hran]; exact ran_alone h _ _ rfl rfl rfl rfl
  have hon : t.ctx.getP g.p ≠ g.negp := by rw [hran]; exact hg
  have htile : t.ctx.tile g.ta = u := by
    rw [hran, hta]
    exact (tile_setTile s.ctx f.td f.td u).trans (if_pos rfl)
  have hsr : (t.ctx.tile g.ta).sr = (s.ctx.tile g.ta).sr.written := by rw [htile, hta, hu.1]
  have hsrc : TileOk t g.ta c := tileOk_written (hta ▸ hd) (by rw [hran]; rfl) hsr
  have hrows : rowsOf t [g.ta] = rowsOf s [f.td] := by
    rw [rowsOf_one, hsr, written_rows, hran, hta]
    rfl
  have hcols : colsOf t [g.ta] = colsOf s [f.td] := by
    rw [colsOf_one, hsr, written_cols, hran, hta]
    rfl
  obtain ⟨m, hfill, hm⟩ := mfill_tile halone hon hs hc hsrc
  refine ⟨_, hfill, fun i j hi hj => ?_⟩
  have hacc : (State.ran t (.mfill g) (TileFields.words g) (t.ctx.setAcc g.td m)).ctx.getAcc g.td = m :=
    (getAcc_setAcc t.ctx g.td g.td m).trans (if_pos rfl)
  rw [hacc, hm i j hi hj, hrows, hcols, if_pos (by omega), htile, get_raw_drain hd hc hraw hr hk hu hi hj,
    Nat.mod_eq_of_lt (accGet_lt _ _ _)]

/-- Settles O21: each move by its own effect, and the round trip because a raw drain copies 32 bits into 32. -/
theorem accumulatorMoves : Obligations.AccumulatorMoves := by
  refine ⟨?moves, ?restore⟩
  case moves =>
    rintro s f old h hn rfl
    refine ⟨mzero_done h hn, mfill_scalar h hn, fun c hs hc ha => mfill_tile h hn hs hc ha, ?_⟩
    rintro hd e g rfl rfl
    exact ⟨mdrain_fills hd h hn, mrow_fills hd h hn, mcol_fills hd h hn⟩
  case restore =>
    intro s t f g c h hf hg hc hfmt hd hrows hcols hxr hxc hraw hs hta ht
    exact mfill_after_raw_mdrain h hf hg hc hfmt hd (by rw [rowsOf_one]; omega) (by rw [colsOf_one]; omega)
      hraw hs hta ht

end Sys2Proof.Accumulators
end

section
/-!
PROOFS. The next unit of the focused context: its breakpoint check, its landing check, and the step that runs it (R150,
R267, R280, R281).
-/

namespace Sys2Proof.NextUnit

open Sys2Proof.Machine Sys2Proof.Safety Sys2Proof.Laws Sys2Proof.ControlInstructions

/-! ## Breakpoints (R280, R281) -/

theorem bpMatches_iff (b : BitVec 64) (pc : Addr) :
    bpMatches b pc = true ↔ b.getLsbD 0 = true ∧ b.extractLsb' 2 62 = pc.extractLsb' 2 62 := by
  simp only [bpMatches, Bool.and_eq_true, beq_iff_eq]

theorem atBreakpoint_iff (c : Ctx) :
    c.atBreakpoint = true ↔ c.skipbp = false ∧ ∃ b ∈ c.bpa.toList, bpMatches b c.pc = true := by
  simp only [Ctx.atBreakpoint, Bool.and_eq_true, Bool.not_eq_true', List.any_eq_true]

theorem atBreakpoint_of_skipbp {c : Ctx} (h : c.skipbp = true) : c.atBreakpoint = false := by
  simp only [Ctx.atBreakpoint, h, Bool.not_true, Bool.false_and]

theorem atBreakpoint_of_no_match {c : Ctx}
    (h : ∀ b ∈ c.bpa.toList, b.getLsbD 0 = true → b.extractLsb' 2 62 ≠ c.pc.extractLsb' 2 62) :
    c.atBreakpoint = false := by
  rw [Bool.eq_false_iff, Ne, atBreakpoint_iff]
  rintro ⟨-, b, hb, hmatch⟩
  obtain ⟨hon, haddr⟩ := (bpMatches_iff b c.pc).1 hmatch
  exact h b hb hon haddr

/-! ## Decoding of land (R150) -/

/-- No row of the tile stream is a land. -/
theorem tileRow_ne_land (op : Nat) (f : TileFields) : tileRow op f ≠ some .land := by
  intro h
  unfold tileRow at h
  split_ifs at h
  all_goals split at h <;> cases h

/-- No row that an fn field selects is a land. -/
theorem fnRow_ne_land {w : Word} {r : Row} {d : Word → Option Row}
    (hd : d ∈ [decodeInt, decodeFloat, decodeAddr, decodeCsr]) (h : d w = some r) : r.i ≠ .land := by
  simp only [List.mem_cons, List.not_mem_nil, or_false] at hd
  rcases hd with rfl | rfl | rfl | rfl
  · unfold decodeInt at h
    split at h <;> cases h <;> nofun
  · simp only [decodeFloat] at h
    split_ifs at h
    all_goals split at h <;> cases h <;> nofun
  · unfold decodeAddr at h
    split at h <;> cases h <;> nofun
  · unfold decodeCsr at h
    split at h <;> cases h <;> nofun

/-- land has one row of Table 06-15, in which every field is reserved. -/
theorem decodeCtl_land {w : Word} {x : Pfx} {r : Row} (h : decodeCtl w x = some r) (hl : r.i = .land) :
    w.opcode = 0x47 ∧ r.resv = 0xffffff00 := by
  unfold decodeCtl at h
  split at h
  case h_1 => exact absurd hl (fnRow_ne_land (by simp) h)
  case h_3 => split_ifs at h; cases h; cases hl
  case h_4 => exact absurd hl (fnRow_ne_land (by simp) h)
  case h_23 => exact absurd hl (fnRow_ne_land (by simp) h)
  case h_32 hop => cases h; exact ⟨hop, rfl⟩
  case h_39 => exact absurd hl (fnRow_ne_land (by simp) h)
  all_goals cases h <;> cases hl

/-- An even word with no bit above its opcode is the opcode's double. -/
theorem toNat_of_opcode_alone {w : Word} (hk : w.toNat % 2 = 0) (hr : w &&& 0xffffff00 = 0) :
    w.toNat = 2 * w.opcode := by
  have hlow : w &&& 0xff = w := by
    calc w &&& 0xff = (w &&& 0xffffff00) ||| (w &&& 0xff) := by rw [hr]; exact BitVec.zero_or.symm
      _ = w &&& BitVec.allOnes 32 := BitVec.and_or_distrib_left.symm
      _ = w := BitVec.and_allOnes
  have hlt : w.toNat ≤ 255 := by
    rw [← hlow, BitVec.toNat_and]
    exact Nat.and_le_right
  have hop : w.opcode = w.toNat / 2 % 128 := by
    simp [Word.opcode, BitVec.extractLsb'_toNat, Nat.shiftRight_eq_div_pow]
  omega

/-- land accepts no pfx and has one encoding (R129, R150). -/
theorem decodeUnit_land_iff (sys : Bool) (x : Pfx) (w0 w1 : Word) :
    decodeUnit sys x w0 w1 = .ok .land ↔ x = none ∧ w0 = 0x8E := by
  constructor
  · intro h
    rcases decodeUnit_ok h with ⟨op, f, htile⟩ | ⟨heven, ⟨r, hrow, hl, hresv⟩, hpfx⟩
    · exact absurd htile (tileRow_ne_land op f)
    · obtain ⟨hop, hmask⟩ := decodeCtl_land hrow hl
      have hw := toNat_of_opcode_alone heven (hmask ▸ hresv)
      rw [hop] at hw hpfx
      refine ⟨?_, BitVec.eq_of_toNat_eq hw⟩
      cases x with
      | none => rfl
      | some q => exact absurd (hpfx rfl) (by decide)
  · rintro ⟨rfl, rfl⟩
    cases sys <;> rfl

/-- The landing check finds exactly the units that decode to land. -/
theorem isLand_iff (x : Pfx) (w : Word) : isLand x w = true ↔ x = none ∧ w = 0x8E := by
  rw [← decodeUnit_land_iff false x w 0, isLand]
  split
  · next h => simp only [h]
  · next h => simpa using h

/-! ## The fetch leaves the context alone -/

theorem fetchPa_ctx (s : State) (va : Addr) : (s.fetchPa va).2.ctx = s.ctx := by
  have h := (translate_cores s s.ctx.asid va).ctx
  unfold State.fetchPa
  split
  · next hx => rwa [hx] at h
  · next hx =>
    rw [hx] at h
    split_ifs <;> exact h

theorem fetchWord_ctx (s : State) (va : Addr) : (s.fetchWord va).2.ctx = s.ctx := by
  have h := fetchPa_ctx s va
  unfold State.fetchWord
  split
  · next hx => rwa [hx] at h
  · next hx =>
    rw [hx] at h
    dsimp only
    split
    · exact h
    · split <;> exact h

theorem fetchWord_ctx_of_eq {s t : State} {va : Addr} {o : Cause ⊕ Word} (h : s.fetchWord va = (o, t)) :
    t.ctx = s.ctx := by
  rw [← fetchWord_ctx s va, h]

/-- A unit is fetched in at most three words, each by a fetch that keeps the context. -/
theorem fetchUnit_ctx (s : State) : s.fetchUnit.2.ctx = s.ctx := by
  unfold State.fetchUnit
  dsimp only
  split_ifs
  · rfl
  · split
    · next h => exact fetchWord_ctx_of_eq h
    · next h =>
      have h0 := fetchWord_ctx_of_eq h
      split
      · split
        · next k => exact (fetchWord_ctx_of_eq k).trans h0
        · next k =>
          have h1 := (fetchWord_ctx_of_eq k).trans h0
          split_ifs
          · split <;> next l => exact (fetchWord_ctx_of_eq l).trans h1
          · exact h1
      · split <;> next k => exact (fetchWord_ctx_of_eq k).trans h0
      · exact h0

theorem fetchUnit_ctx_of_eq {s t : State} {o : Info ⊕ (Pfx × Word × Word)} (h : s.fetchUnit = (o, t)) :
    t.ctx = s.ctx := by
  rw [← fetchUnit_ctx s, h]

/-! ## The next unit -/

theorem nextUnit_breakpoint {s : State} (h : s.ctx.atBreakpoint = true) :
    s.nextUnit = (.inl (stepTrap .breakpoint 0), s) := if_pos h

section
variable {s u : State} {x : Pfx} {w0 w1 : Word} (hbp : s.ctx.atBreakpoint = false)
  (hf : s.fetchUnit = (.inr (x, w0, w1), u))
include hbp hf

/-- A pending landing that the fetched unit is not. -/
theorem nextUnit_landing (hp : u.ctx.landp = true) (hw : x ≠ none ∨ w0 ≠ 0x8E) :
    s.nextUnit = (.inl (stepTrap .illegalOp 0), u) := by
  have hland : isLand x w0 = false := by
    rw [Bool.eq_false_iff, Ne, isLand_iff]
    tauto
  simp [State.nextUnit, hbp, hf, hp, hland]

/-- A fetched unit that passes the landing check and the decode checks. -/
theorem nextUnit_decoded {i : Instr} (hd : decodeUnit u.ctx.system x w0 w1 = .ok i)
    (hp : u.ctx.landp = false ∨ i = .land) : s.nextUnit = (.inr i, u) := by
  have hland : (u.ctx.landp && !isLand x w0) = false := by
    rcases hp with hp | rfl
    · rw [hp, Bool.false_and]
    · rw [(isLand_iff x w0).2 ((decodeUnit_land_iff _ _ _ _).1 hd), Bool.not_true, Bool.and_false]
  simp [State.nextUnit, hbp, hf, hland, hd]

end

/-! ## The step of the focused context -/

/-- With no turn of another agent pending and bring-up over, a step runs the next unit of the focused context. -/
theorem step_eq_unitStep {s r : State} (hturns : s.turns = []) (hpow : s.powered = true) (hboot : s.boot.st ∉ [0, 3])
    (hr : r = (State.tick s).settle) (hrun : s.ctx.run = .running) (hreq : s.core.prereq = none)
    (hrun' : r.ctx.run = .running) : step s = finish (unitStep r) := by
  obtain ⟨hb0, hb3⟩ : s.boot.st ≠ 0 ∧ s.boot.st ≠ 3 := by simpa using hboot
  have hidle : idleTurn s = coreTurn s.tick := by
    rw [idleTurn, hpow, if_neg (by decide), if_neg hb0, if_neg hb3]
  have htick : s.tick.ctx.run = .running ∧ s.tick.core.prereq = none := ⟨hrun, hreq⟩
  have hcore : coreTurn s.tick = unitStep r := by
    subst hr
    simp [coreTurn, htick, hrun']
  rw [step, hturns, ← hcore, ← hidle]

/-- A trap of the next unit, with nothing older in the TIQ, leaves the unit's own address as the PC (R267). -/
theorem unitStep_traps {s u : State} {c : Cause} {n : Nat} (h : s.nextUnit = (.inl (stepTrap c n), u))
    (htiq : u.ctx.tiq = []) : ∃ f, Traps (unitStep s) u c u.ctx.pc f := by
  obtain ⟨_, _, _, htrap⟩ := trapCtl_traps u (stepTrap c n) u.ctx.pc htiq rfl
  rw [unitStep, h]
  exact ⟨_, htrap⟩

theorem unitStep_runs {s u : State} {i : Instr} (h : s.nextUnit = (.inr i, u)) :
    unitStep s = clearSkip u.ctx (exec i u) := by
  rw [unitStep, h]

/-- Without SKIPBP nothing follows the unit. -/
theorem clearSkip_off {c : Ctx} (h : c.skipbp = false) (o : Out) : clearSkip c o = o := by
  cases o <;> simp [clearSkip, h]

theorem passed_iff (b c : Ctx) : b.passed c = true ↔ c.retd ≠ b.retd ∨ c.nextseq ≠ b.nextseq
    ∨ (c.run = .running ∨ c.run = .stopped) ∧ c.pc ≠ b.pc := by
  simp only [Ctx.passed, Bool.or_eq_true, Bool.and_eq_true, bne_iff_ne, beq_iff_eq, or_assoc]

/-- Once SKIPBP has passed a unit it is clear (R281). -/
theorem clearSkip_passed {c : Ctx} {t : State} (h : c.skipbp = true) (hp : c.passed t.ctx = true) :
    clearSkip c (.next t) = .next (t.mapCtx fun c => { c with skipbp := false }) := by
  simp [clearSkip, h, hp]

/-- brk traps at its own address (R155). -/
theorem exec_brk_traps {s : State} (h : s.ctx.tiq = []) (n : BitVec 19) (p : Pfx) :
    ∃ f, Traps (exec (.brk n p) s) s .breakpoint s.ctx.pc f := by
  obtain ⟨_, _, _, htrap⟩ := trapCtl_traps s { cause := .breakpoint, va := some (trapCode n p) } s.ctx.pc h rfl
  exact ⟨_, htrap⟩

/-- Settles O54: a step is the next unit's, whose address is met by a comparator, passed by SKIPBP, or unmatched; the
fetch keeps the context, and land is the one word that passes a pending landing. -/
theorem breakpointsAndLandings : Obligations.BreakpointsAndLandings := by
  refine ⟨?breakpoints, ?landing⟩
  case breakpoints =>
    intro s r hturns hpow hboot hr hrun hreq hrun' htiq
    have hstep := step_eq_unitStep hturns hpow hboot hr hrun hreq hrun'
    refine ⟨fun b hb hon haddr hskip => ?met, fun u x w0 w1 i hf hd hp => ?passed⟩
    case met =>
      have hbp := (atBreakpoint_iff r.ctx).2 ⟨hskip, b, hb, (bpMatches_iff b r.ctx.pc).2 ⟨hon, haddr⟩⟩
      obtain ⟨f, htrap⟩ := unitStep_traps (nextUnit_breakpoint hbp) htiq
      exact ⟨_, f, hstep, htrap⟩
    case passed =>
      have hctx := fetchUnit_ctx_of_eq hf
      have hunit (hbp : r.ctx.atBreakpoint = false) := unitStep_runs (nextUnit_decoded hbp hf hd hp)
      refine ⟨fun hfree hskip => ?_, fun hskip => ⟨fun t ht hpassed => ?_, ?_⟩⟩
      · rw [hstep, hunit (atBreakpoint_of_no_match hfree), clearSkip_off (hctx ▸ hskip)]
      · refine ⟨_, ?_, rfl⟩
        rw [hstep, hunit (atBreakpoint_of_skipbp hskip), ht,
          clearSkip_passed (hctx ▸ hskip) ((passed_iff _ _).2 hpassed)]
        rfl
      · rintro n p rfl
        exact exec_brk_traps (hctx ▸ htiq) n p
  case landing =>
    intro s r u x w0 w1 hturns hpow hboot hr hrun hreq hrun' htiq hbp hf hp hw
    obtain ⟨f, htrap⟩ := unitStep_traps (nextUnit_landing hbp hf hp hw) (fetchUnit_ctx_of_eq hf ▸ htiq)
    exact ⟨_, f, step_eq_unitStep hturns hpow hboot hr hrun hreq hrun', htrap⟩

end Sys2Proof.NextUnit
end
